-- ==== Sys2Proof/Word.lean ====
section
/-! DEFINITION. Word.lean: the fixed-width words of HUFFCORE that the spec treats as bits
(spec/00_scope.md R9, R12; spec/30_encoding.md R90, R98). -/

namespace Sys2Proof

/-- One symbol, or one byte of the BIT space: 8 bits (R9 SYM_BITS, R34, R39). -/
abbrev Byte := BitVec 8

/-- A node handle, 9 bits: 0..510 name NODE records, 511 is NULL (R98). -/
abbrev Handle := BitVec 9

/-- A command word, 32 bits (R90). -/
abbrev CmdWord := BitVec 32

/-- NULL, the one 9-bit value that names no node (R9, R98). -/
def null : Handle := 511#9

end Sys2Proof
end

