-- ==== Sys2Proof/Syntax.lean ====
section
/-! DEFINITION. Syntax.lean: the sixteen commands of HUFFCORE (spec/30_encoding.md R91), one constructor per
row of spec/opcode_table.json, and the raw fields of a command word (R90). -/

namespace Sys2Proof

/-- The commands, in opcode order (R91). HINS alone carries an operand, a 9-bit node handle (R92); every value of
that field is a legal encoding (R94). -/
inductive Instr where
  /-- 0x00, no operation (R200). -/
  | nop
  /-- 0x01, count frequencies (R140). -/
  | fcnt
  /-- 0x02, create the leaves (R141). -/
  | leaves
  /-- 0x03, build heap from unordered (R125). -/
  | hbld
  /-- 0x04, insert (R126); `arg` is ARG = w[8:0]. -/
  | hins (arg : Handle)
  /-- 0x05, extract minimum (R127). -/
  | hext
  /-- 0x06, one merge (R143). -/
  | mrg
  /-- 0x07, build tree (R145). -/
  | tbld
  /-- 0x08, check tree (R149). -/
  | tchk
  /-- 0x09, generate codes (R161). -/
  | cgen
  /-- 0x0A, pack (R170). -/
  | pack
  /-- 0x0B, unpack (R173). -/
  | unpk
  /-- 0x0C, encode (R190). -/
  | enc
  /-- 0x0D, decode (R192). -/
  | dec
  /-- 0x0E, clear error (R201). -/
  | clre
  /-- 0x0F, reset (R202). -/
  | rst
  deriving DecidableEq, Repr

/-- The three fields of a command word as they stand in it, legal or not (R90). -/
structure CmdFields where
  /-- OP = w[31:24]. -/
  op   : BitVec 8
  /-- ZERO = w[23:9]. -/
  zero : BitVec 15
  /-- ARG = w[8:0]. -/
  arg  : Handle
  deriving DecidableEq, Repr

end Sys2Proof
end

