-- ==== Sys2Proof/WellFormed.lean ====
section
/-! DEFINITION. WellFormed.lean: the `wellformed` test of command acceptance (spec/30_encoding.md R93, R94).
An `Instr` needs no test of its own: its one operand is a `Handle`, and every 9-bit value of ARG is a legal
encoding (R94), so what can be ill-formed is a command word's fields. -/

namespace Sys2Proof

/-- First clause of R93's test: OP is in the opcode map (0x10 to 0xFF are reserved, R94). -/
def CmdFields.opOk (f : CmdFields) : Bool := f.op.toNat ≤ 0x0F

/-- Second clause: the reserved field ZERO is 0. -/
def CmdFields.zeroOk (f : CmdFields) : Bool := f.zero == 0#15

/-- Third clause: ARG is 0 in every command but HINS. -/
def CmdFields.argOk (f : CmdFields) : Bool := f.arg == 0#9 || f.op == 0x04#8

/-- `wellformed` of R93. -/
def CmdFields.wellFormed (f : CmdFields) : Bool := f.opOk && f.zeroOk && f.argOk

end Sys2Proof
end

