-- ==== Sys2Proof/Decode.lean ====
section
/-! DEFINITION. Decode.lean: from command words to commands and back (spec/30_encoding.md R90 to R94), and the
host's view of the opcode table. A command word is one 32-bit value moved whole (R61, R68): there is no
instruction byte order. -/

namespace Sys2Proof

/-- Why a word is no command. The hardware records one cause for all three, IllegalCommandError (R94, R219). -/
inductive DecodeError where
  /-- OP above 0x0F (R94). -/
  | reservedOpcode (op : BitVec 8)
  /-- A non-zero ZERO field (R94). -/
  | reservedField (zero : BitVec 15)
  /-- A non-zero ARG in a command other than HINS (R94). -/
  | strayArgument (arg : Handle)
  deriving DecidableEq, Repr

/-- The three fields of a word, by the bit positions of R90. -/
def fieldsOf (w : CmdWord) : CmdFields :=
  { op := w.extractLsb' 24 8, zero := w.extractLsb' 9 15, arg := w.extractLsb' 0 9 }

/-- The opcode map of R91: the command that OP selects, ARG being its operand where it has one. -/
def instrOf (op : BitVec 8) (arg : Handle) : Option Instr :=
  match op.toNat with
  | 0x00 => some .nop
  | 0x01 => some .fcnt
  | 0x02 => some .leaves
  | 0x03 => some .hbld
  | 0x04 => some (.hins arg)
  | 0x05 => some .hext
  | 0x06 => some .mrg
  | 0x07 => some .tbld
  | 0x08 => some .tchk
  | 0x09 => some .cgen
  | 0x0A => some .pack
  | 0x0B => some .unpk
  | 0x0C => some .enc
  | 0x0D => some .dec
  | 0x0E => some .clre
  | 0x0F => some .rst
  | _    => none

/-- The command a word stands for, or the reason it is none (R93, R94). -/
def decode (w : CmdWord) : Except DecodeError Instr :=
  let f := fieldsOf w
  match instrOf f.op f.arg with
  | none   => .error (.reservedOpcode f.op)
  | some i =>
    if f.zeroOk then
      if f.argOk then .ok i else .error (.strayArgument f.arg)
    else .error (.reservedField f.zero)

/-- The command of a word whose bits are numbered as spec/opcode_table.json numbers them: bit 0 is the least
significant bit of the one 32-bit word. Every row is 32 bits long, so a shorter `nbits` stands for zeros above it. -/
def decodeTableWord (nbits w : Nat) : Option Instr :=
  match decode (BitVec.ofNat 32 (w % 2 ^ nbits)) with
  | .ok i    => some i
  | .error _ => none

/-- OP of a command (R91). -/
def opcode : Instr → BitVec 8
  | .nop    => 0x00#8
  | .fcnt   => 0x01#8
  | .leaves => 0x02#8
  | .hbld   => 0x03#8
  | .hins _ => 0x04#8
  | .hext   => 0x05#8
  | .mrg    => 0x06#8
  | .tbld   => 0x07#8
  | .tchk   => 0x08#8
  | .cgen   => 0x09#8
  | .pack   => 0x0A#8
  | .unpk   => 0x0B#8
  | .enc    => 0x0C#8
  | .dec    => 0x0D#8
  | .clre   => 0x0E#8
  | .rst    => 0x0F#8

/-- ARG of a command (R92): the handle of HINS, 0 in every other command. -/
def argument : Instr → Handle
  | .hins arg => arg
  | .nop | .fcnt | .leaves | .hbld | .hext | .mrg | .tbld | .tchk | .cgen | .pack | .unpk | .enc | .dec
  | .clre | .rst => 0#9

/-- The command word of a command: OP, a zero field, ARG (R90, R91). -/
def encode (i : Instr) : CmdWord := opcode i ++ 0#15 ++ argument i

end Sys2Proof
end

