-- ==== Sys2Proof/Config.lean ====
section
/-! DEFINITION. Config.lean: the parameters of an instance (spec/00_scope.md R9, R10): what is fixed, and the
three OPEN parameters with their defaults and constraints. -/

namespace Sys2Proof

/-- The OPEN parameters of one instance (R9; 93_implementation_defined.md U2). -/
structure Config where
  /-- FREQ_BITS: width of an FT entry, of REG.SYMCNT and of REG.OUTCNT. -/
  freqBits : Nat
  /-- SYM_CAP: elements of the SYM space and of the OUT space. -/
  symCap   : Nat
  /-- BYTE_CAP: elements of the BIT space. -/
  byteCap  : Nat
  deriving DecidableEq, Repr

/-- The defaults of R9. -/
def Config.default : Config := { freqBits := 32, symCap := 65536, byteCap := 65536 }

/-- SYM_BITS (R9, fixed). -/
def symBits : Nat := 8

/-- NSYM, the size of the alphabet (R9, fixed); also the elements of the FT and CT spaces. -/
def nSym : Nat := 256

/-- NODE_CAP, the number of node records; also the size of the heap array (R9, fixed). -/
def nodeCap : Nat := 511

/-- MAXLEN, the longest code in bits (R9, R11, fixed). -/
def maxLen : Nat := 255

/-- NFREQ_BITS = FREQ_BITS + SYM_BITS, the width of a node frequency and of REG.BITCNT (R9, derived). -/
def Config.nfreqBits (c : Config) : Nat := c.freqBits + symBits

/-- The four constraints of R10. An instance that breaks one is not an instance of this hardware (U2): claims
take this as a hypothesis, and no step looks at it. -/
abbrev Config.Valid (c : Config) : Prop :=
  1 ≤ c.freqBits ∧ (1 ≤ c.symCap ∧ c.symCap ≤ 2 ^ c.freqBits - 1) ∧ c.symCap ≤ c.byteCap ∧
    8 * c.byteCap ≤ 2 ^ c.nfreqBits - 1

end Sys2Proof
end

