-- ==== Sys2Proof/Machine/State.lean ====
section
/-! DEFINITION. Machine/State.lean: the architectural state of one instance of HUFFCORE (spec/10_state.md R20 to
R48) as plain data, the host's transactions that wait at its port (spec/20_memory.md R60, R66), and the state
after a power-on reset (R47). -/

namespace Sys2Proof.Machine

/-- The ten error causes (R210). STATUS.ERR holds the code of the pending one, 0 when there is none. -/
inductive ErrorCode where
  /-- 1, ENC of an empty input (R211). -/
  | emptyInput
  /-- 2, extract-minimum of an empty heap (R212). -/
  | emptyHeap
  /-- 3, the bits run out before a leaf (R213). -/
  | truncatedStream
  /-- 4, the tree check fails (R214). -/
  | malformedTree
  /-- 5, a 1 bit with a single-leaf tree (R215). -/
  | invalidCode
  /-- 6, data bits left after the last symbol (R216). -/
  | countMismatch
  /-- 7, a symbol without a usable code (R217). -/
  | noCode
  /-- 8, a count exceeds a size of the hardware (R218). -/
  | capacity
  /-- 9, an ill-formed command word (R219). -/
  | illegalCommand
  /-- 10, HINS of a handle that names no insertable node (R220). -/
  | operand
  deriving DecidableEq, Repr

/-- The sequencer phase PH (R21). -/
inductive Phase where
  | idle
  | run
  deriving DecidableEq, Repr

/-- K of a node record (R36, R95). -/
inductive Kind where
  | leaf
  | internal
  deriving DecidableEq, Repr

/-- A NODE record (R36); its bit layout is in Machine/Operands.lean (R95). -/
structure NodeRec where
  v     : Bool
  k     : Kind
  sym   : Byte
  left  : Handle
  right : Handle
  /-- FREQ, an unsigned number of NFREQ_BITS bits. -/
  freq  : Nat
  deriving DecidableEq, Repr

/-- A CT record (R38); its bit layout is in Machine/Operands.lean (R97). -/
structure CodeRec where
  v    : Bool
  len  : BitVec 8
  code : BitVec 255
  deriving DecidableEq, Repr

/-- One memory: (index, element) pairs, indices strictly rising, no element equal to what an unlisted index reads
as (that form is `Mem.wf` in Machine/Ops.lean). A memory of bytes is a list of `Host.Cell`. -/
abbrev Mem (α : Type) := List (Nat × α)

/-- What an unlisted NODE record reads as: every bit 0 (notes/assumptions/1.md). -/
def NodeRec.blank : NodeRec := { v := false, k := .leaf, sym := 0#8, left := 0#9, right := 0#9, freq := 0 }

/-- What an unlisted CT record reads as: every bit 0 (notes/assumptions/1.md). -/
def CodeRec.blank : CodeRec := { v := false, len := 0#8, code := 0#255 }

/-- The eight spaces of the address map (R62). -/
inductive Space where
  | reg
  | sym
  | ft
  | node
  | heap
  | ct
  | bit
  | out
  deriving DecidableEq, Repr

/-- What a power-on reset leaves in the memories whose reset contents the spec calls unspecified (R47, U1): some
listed elements, the rest reading 0. The event brings it, so every claim over all draws is a claim over all
contents. -/
structure Draw where
  sym  : Mem Byte
  ft   : Mem Nat
  node : Mem NodeRec
  heap : Mem Handle
  ct   : Mem CodeRec
  bit  : Mem Byte
  out  : Mem Byte
  deriving DecidableEq, Repr

/-- What the outside world does to the block: the two transactions of the host port (R60) and the power-on reset
input (R240). A write's value is as wide as its element (R61). -/
inductive Input where
  | read (space : Space) (index : Nat)
  | write (space : Space) (index : Nat) (value : Nat)
  | powerOn (draw : Draw)
  deriving DecidableEq, Repr

/-- The host port as the model holds it: the transactions not yet taken, the next first, and the values returned
by host reads, the latest last. The model's own, no state of the block (notes/assumptions/2.md). -/
structure Port where
  inputs  : List Input
  replies : List Nat
  deriving DecidableEq, Repr

/-- The state (R20). `cfg` is the instance's configuration, which no step changes (R48). Counters whose width is a
parameter are unsigned numbers kept below 2^width; the 9-bit registers are 9-bit vectors. No field counts time (R257,
R231). -/
structure State where
  /-- The OPEN parameters of this instance (R9). -/
  cfg    : Config
  /-- The transactions at the host port, and the replies given. -/
  port   : Port
  /-- PH (R21). -/
  ph     : Phase
  /-- STATUS.ERR (R23): the pending error, if any. -/
  err    : Option ErrorCode
  /-- STATUS.TV (R23): tree valid. -/
  tv     : Bool
  /-- REG.SYMCNT, FREQ_BITS bits (R25). -/
  symcnt : Nat
  /-- REG.BITCNT, NFREQ_BITS bits (R26). -/
  bitcnt : Nat
  /-- REG.OUTCNT, FREQ_BITS bits (R27). -/
  outcnt : Nat
  /-- REG.ROOT (R28). -/
  root   : Handle
  /-- REG.NCNT (R29). -/
  ncnt   : BitVec 9
  /-- REG.NDIST (R30). -/
  ndist  : BitVec 9
  /-- REG.HSIZE (R31). -/
  hsize  : BitVec 9
  /-- REG.HCAP (R32). -/
  hcap   : BitVec 9
  /-- REG.RES (R33). -/
  res    : Handle
  /-- SYM space, SYM_CAP symbols (R34). -/
  sym    : Mem Byte
  /-- FT space, 256 counts of FREQ_BITS bits (R35). -/
  ft     : Mem Nat
  /-- NODE space, 511 records (R36). -/
  node   : Mem NodeRec
  /-- HEAP space, 511 handles (R37). -/
  heap   : Mem Handle
  /-- CT space, 256 records (R38). -/
  ct     : Mem CodeRec
  /-- BIT space, BYTE_CAP bytes (R39). -/
  bit    : Mem Byte
  /-- OUT space, SYM_CAP symbols (R40). -/
  out    : Mem Byte
  /-- OWN, 511 bits (R41). -/
  own    : Mem Bool
  deriving DecidableEq, Repr

/-- Why the machine stops. It never does: every command is a total function of the state (R8, R258) and every error
of the spec is recorded in STATUS.ERR by a step that goes on (R222), so there is no constructor. -/
inductive Fault
  deriving DecidableEq, Repr

/-- Why the model gives an instruction no meaning. -/
inductive Refusal where
  /-- Raised only by an arm of Dispatch.lean whose instruction has no meaning yet. Safe: nothing is claimed to
  happen. No arm raises it in this model. -/
  | notModelled (mnemonic : String)
  deriving DecidableEq, Repr

/-- Right after a power-on reset of an instance with the default parameters (R47, R241): every register at its
reset value, every valid and ownership bit 0, no transaction waiting. The contents that R47 leaves unspecified are
drawn as 0 here (DESIGN CHOICE, notes/assumptions/1.md); any other draw is reached by the input `powerOn`. -/
def State.reset : State :=
  { cfg := Config.default, port := { inputs := [], replies := [] }, ph := .idle, err := none, tv := false,
    symcnt := 0, bitcnt := 0, outcnt := 0, root := null, ncnt := 0#9, ndist := 0#9, hsize := 0#9, hcap := 0#9,
    res := null,
    sym := [], ft := [], node := [], heap := [], ct := [], bit := [], out := [], own := [] }

end Sys2Proof.Machine
end

