-- ==== Sys2Proof/Machine/Ops.lean ====
section
/-! DEFINITION. Machine/Ops.lean: the named operations over memories and registers, the setters through which every
write of the state goes, and taking an error and returning from one (spec/60_exceptions.md R222, R226). -/

namespace Sys2Proof.Machine

/-- The outcome of a step or of a command. -/
abbrev Result := Host.Outcome State Fault Refusal

/-! ## Memories -/

/-- Element `i`; an unlisted one reads `d`. -/
def Mem.read {α : Type} (d : α) : Mem α → Nat → α
  | [], _ => d
  | (a, v) :: m, i => if a = i then v else Mem.read d m i

/-- Element `i` becomes `v`. The result lists `i` only if `v` is not what an unlisted index reads as. -/
def Mem.put {α : Type} [DecidableEq α] (d : α) (m : Mem α) (i : Nat) (v : α) : Mem α :=
  m.filter (fun c => c.1 < i) ++ ((if v = d then [] else [(i, v)]) ++ m.filter (fun c => i < c.1))

/-- A write to a memory of `n` elements: nothing is stored at or above `n` (R63). -/
def Mem.set {α : Type} [DecidableEq α] (d : α) (n : Nat) (m : Mem α) (i : Nat) (v : α) : Mem α :=
  if i < n then Mem.put d m i v else m

/-- Every listed element replaced by its image under `f` (where `f d = d`: every element). -/
def Mem.mapVals {α : Type} [DecidableEq α] (d : α) (f : α → α) (m : Mem α) : Mem α :=
  m.foldr (fun c acc => Mem.put d acc c.1 (f c.2)) []

/-- The memory of `n` elements that holds the listed values (the first of two for one index), brought to its
width by `f`, and reads `d` elsewhere. -/
def Mem.load {α : Type} [DecidableEq α] (d : α) (n : Nat) (f : α → α) (cells : Mem α) : Mem α :=
  cells.foldr (fun c acc => Mem.set d n acc c.1 (f c.2)) []

/-- Whether the indices rise strictly. -/
def Mem.sorted {α : Type} : Mem α → Bool
  | [] => true
  | [_] => true
  | a :: b :: m => decide (a.1 < b.1) && Mem.sorted (b :: m)

/-- The canonical form of a memory of `n` elements: indices strictly rising and below `n`, no element equal to what
an unlisted index reads as, every element satisfying `ok` (its width). -/
def Mem.wf {α : Type} [DecidableEq α] (d : α) (n : Nat) (ok : α → Bool) (m : Mem α) : Bool :=
  Mem.sorted m && m.all (fun c => decide (c.1 < n) && (decide (c.2 ≠ d) && ok c.2))

/-! ## Widths -/

/-- The low `w` bits of an unsigned number: what a register or element of width `w` keeps of it. -/
def narrow (w n : Nat) : Nat := n % 2 ^ w

/-- A node record with its FREQ field brought to `nf` bits. -/
def NodeRec.atWidth (nf : Nat) (r : NodeRec) : NodeRec := { r with freq := narrow nf r.freq }

/-! ## Setters: one for each piece of state -/

namespace State

def setPort (s : State) (p : Port) : State := { s with port := p }
def setPh (s : State) (p : Phase) : State := { s with ph := p }
def setErr (s : State) (e : Option ErrorCode) : State := { s with err := e }
def setTv (s : State) (b : Bool) : State := { s with tv := b }
/-- REG.SYMCNT keeps FREQ_BITS bits (R25). -/
def setSymcnt (s : State) (n : Nat) : State := { s with symcnt := narrow s.cfg.freqBits n }
/-- REG.BITCNT keeps NFREQ_BITS bits (R26). -/
def setBitcnt (s : State) (n : Nat) : State := { s with bitcnt := narrow s.cfg.nfreqBits n }
/-- REG.OUTCNT keeps FREQ_BITS bits (R27). -/
def setOutcnt (s : State) (n : Nat) : State := { s with outcnt := narrow s.cfg.freqBits n }
def setRoot (s : State) (h : Handle) : State := { s with root := h }
def setNcnt (s : State) (n : BitVec 9) : State := { s with ncnt := n }
def setNdist (s : State) (n : BitVec 9) : State := { s with ndist := n }
def setHsize (s : State) (n : BitVec 9) : State := { s with hsize := n }
def setHcap (s : State) (n : BitVec 9) : State := { s with hcap := n }
def setRes (s : State) (h : Handle) : State := { s with res := h }
def setSym (s : State) (m : Mem Byte) : State := { s with sym := m }
def setFt (s : State) (m : Mem Nat) : State := { s with ft := m }
def setNode (s : State) (m : Mem NodeRec) : State := { s with node := m }
def setHeap (s : State) (m : Mem Handle) : State := { s with heap := m }
def setCt (s : State) (m : Mem CodeRec) : State := { s with ct := m }
def setBit (s : State) (m : Mem Byte) : State := { s with bit := m }
def setOut (s : State) (m : Mem Byte) : State := { s with out := m }
def setOwn (s : State) (m : Mem Bool) : State := { s with own := m }

end State

/-! ## Elements of the memories -/

/-- NODE[h]. NULL, and any index outside the space, names no record and reads blank: the engine makes no such
access in a state that a run reaches (R12, R46; notes/assumptions/6.md). -/
def nodeAt (m : Mem NodeRec) (h : Handle) : NodeRec := Mem.read NodeRec.blank m h.toNat

/-- HEAP[i]. -/
def heapAt (m : Mem Handle) (i : Nat) : Handle := Mem.read 0#9 m i

/-- FT[s]. -/
def ftAt (m : Mem Nat) (s : Byte) : Nat := Mem.read 0 m s.toNat

/-- CT[s]. -/
def ctAt (m : Mem CodeRec) (s : Byte) : CodeRec := Mem.read CodeRec.blank m s.toNat

/-- An element of SYM, BIT or OUT. -/
def byteAt (m : Mem Byte) (i : Nat) : Byte := Mem.read 0#8 m i

/-- OWN[h]. -/
def ownAt (m : Mem Bool) (h : Handle) : Bool := Mem.read false m h.toNat

/-- NODE[i] <- r, the FREQ field at its width (R36, R95). -/
def State.putNode (s : State) (i : Nat) (r : NodeRec) : State :=
  s.setNode (Mem.set NodeRec.blank nodeCap s.node i (r.atWidth s.cfg.nfreqBits))

/-- HEAP[i] <- h (R37). -/
def putHeap (m : Mem Handle) (i : Nat) (h : Handle) : Mem Handle := Mem.set 0#9 nodeCap m i h

/-- OWN[h] <- b (R41). -/
def State.putOwn (s : State) (h : Handle) (b : Bool) : State :=
  s.setOwn (Mem.set false nodeCap s.own h.toNat b)

/-- FT[s] <- n, at FREQ_BITS bits (R35). -/
def putFt (freqBits : Nat) (m : Mem Nat) (s : Byte) (n : Nat) : Mem Nat :=
  Mem.set 0 nSym m s.toNat (narrow freqBits n)

/-- CT[s] <- r (R38). -/
def putCt (m : Mem CodeRec) (s : Byte) (r : CodeRec) : Mem CodeRec := Mem.set CodeRec.blank nSym m s.toNat r

/-- NODE[h].V <- 0 for every h, the other fields unchanged (R141, R202). -/
def clearNodeV (m : Mem NodeRec) : Mem NodeRec := Mem.mapVals NodeRec.blank (fun r => { r with v := false }) m

/-- CT[s].V <- 0 for every s, the other fields unchanged (R161, R202). -/
def clearCtV (m : Mem CodeRec) : Mem CodeRec := Mem.mapVals CodeRec.blank (fun r => { r with v := false }) m

/-! ## A command's course: its value and the state, or the error it raised and the state at the `raise` (R12) -/

/-- The course of a command or of a sub-operation. -/
inductive Run (α : Type) where
  /-- Executed to its last line. -/
  | ok (a : α) (s : State)
  /-- `raise e`: everything written before stays written, nothing after it is executed (R222). -/
  | raised (e : ErrorCode) (s : State)
  deriving Repr

/-- `call`: what follows runs only if the sub-operation did not raise; a raise ends the whole command (R12, R104). -/
def Run.andThen {α β : Type} (r : Run α) (f : α → State → Run β) : Run β :=
  match r with
  | .ok a s     => f a s
  | .raised e s => .raised e s

/-! ## Taking an error, and the return from one -/

/-- Error entry (R222): STATUS.ERR <- code(e), PH <- IDLE, and nothing else: no saved pc, no vector, no mask. -/
def State.raiseError (s : State) (e : ErrorCode) : State := (s.setErr (some e)).setPh .idle

/-- Return by CLRE (R201, R226): every error but EmptyHeapError is cleared, nothing else changes. -/
def State.clearError (s : State) : State :=
  if s.err = some .emptyHeap then s else s.setErr none

/-- The result of a command: the state its course ends in, with the error entered if it raised one. -/
def Run.finish (r : Run Unit) : Result :=
  match r with
  | .ok _ s     => .next s
  | .raised e s => .next (s.raiseError e)

end Sys2Proof.Machine
end

