-- ==== Sys2Proof/Machine/Operands.lean ====
section
/-! DEFINITION. Machine/Operands.lean: how elements are laid out as numbers at the host port (spec/20_memory.md R61,
R62; spec/30_encoding.md R95, R97), the element counts and widths of the spaces, the bits of a code word and of the
stream (R97, R99, spec/20_memory.md R67). -/

namespace Sys2Proof.Machine

/-- Element count of each space (R62). -/
def spaceSize (c : Config) : Space → Nat
  | .reg  => 11
  | .sym  => c.symCap
  | .ft   => nSym
  | .node => nodeCap
  | .heap => nodeCap
  | .ct   => nSym
  | .bit  => c.byteCap
  | .out  => c.symCap

/-- Width of each register (R22), by index. -/
def regWidth (c : Config) : Nat → Nat
  | 0 => 32
  | 1 => 32
  | 2 => c.freqBits
  | 3 => c.nfreqBits
  | 4 => c.freqBits
  | _ => 9

/-- Element width of each space; for REG, of the register at the index (R62). -/
def elementWidth (c : Config) (sp : Space) (i : Nat) : Nat :=
  match sp with
  | .reg  => regWidth c i
  | .sym  => 8
  | .ft   => c.freqBits
  | .node => c.nfreqBits + 28
  | .heap => 9
  | .ct   => 264
  | .bit  => 8
  | .out  => 8

/-- K as a bit: 0 = Leaf, 1 = Internal (R95). -/
def Kind.bit : Kind → Nat
  | .leaf     => 0
  | .internal => 1

/-- K from its bit. -/
def Kind.ofBit (b : Bool) : Kind := if b then .internal else .leaf

/-- A node record as a number of NF + 28 bits (R95): V, K, SYM, LEFT, RIGHT, FREQ from the top. -/
def NodeRec.toWord (nf : Nat) (r : NodeRec) : Nat :=
  r.v.toNat * 2 ^ (nf + 27) + r.k.bit * 2 ^ (nf + 26) + r.sym.toNat * 2 ^ (nf + 18) + r.left.toNat * 2 ^ (nf + 9)
    + r.right.toNat * 2 ^ nf + narrow nf r.freq

/-- The record in the low NF + 28 bits of a number (R95). -/
def NodeRec.ofWord (nf w : Nat) : NodeRec :=
  { v     := w.testBit (nf + 27)
    k     := Kind.ofBit (w.testBit (nf + 26))
    sym   := BitVec.ofNat 8 (w / 2 ^ (nf + 18))
    left  := BitVec.ofNat 9 (w / 2 ^ (nf + 9))
    right := BitVec.ofNat 9 (w / 2 ^ nf)
    freq  := narrow nf w }

/-- A code-table record as a 264-bit number (R97): V, LEN, CODE from the top. -/
def CodeRec.toWord (r : CodeRec) : BitVec 264 := BitVec.ofBool r.v ++ r.len ++ r.code

/-- The record in a 264-bit number (R97). -/
def CodeRec.ofWord (w : BitVec 264) : CodeRec :=
  { v := w.getLsbD 263, len := w.extractLsb' 255 8, code := w.extractLsb' 0 255 }

/-- c[i], the i-th bit of the code counted from its first bit: CODE bit 254 − i (R97). -/
def CodeRec.codeBit (r : CodeRec) (i : Nat) : Bool := r.code.getMsbD i

/-- A bit sequence, first bit first, as a number whose most significant bit is the first. -/
def bitsToNat (p : List Bool) : Nat := p.foldl (fun n b => 2 * n + b.toNat) 0

/-- A code left-aligned in the CODE field, the other bits 0 (R97). -/
def alignCode (p : List Bool) : BitVec 255 := BitVec.ofNat 255 (bitsToNat p * 2 ^ (maxLen - p.length))

/-- The record that the engine writes for the code `p` (R161). -/
def codeRec (p : List Bool) : CodeRec := { v := true, len := BitVec.ofNat 8 p.length, code := alignCode p }

/-- Stream bit `j`: bit 7 − (j mod 8) of BIT[j div 8] (R67, R99). -/
def streamBit (m : Mem Byte) (j : Nat) : Bool := (byteAt m (j / 8)).getMsbD (j % 8)

/-- One stream bit stored at position `pos`; the first bit of a byte makes the byte zero before (R170). -/
def putStreamBit (byteCap : Nat) (m : Mem Byte) (pos : Nat) (b : Bool) : Mem Byte :=
  let old := if pos % 8 = 0 then 0#8 else byteAt m (pos / 8)
  Mem.set 0#8 byteCap m (pos / 8) (old ||| ((BitVec.ofBool b).zeroExtend 8 <<< (7 - pos % 8)))

end Sys2Proof.Machine
end

