-- ==== Sys2Proof/Machine/Heap.lean ====
section
/-! DEFINITION. Machine/Heap.lean: the min-heap and its commands HBLD, HINS, HEXT (spec/40_heap.md). -/

namespace Sys2Proof.Machine

/-- freq(h) = NODE[h].FREQ, the key of a heap element (R122). -/
def freqOf (node : Mem NodeRec) (h : Handle) : Nat := (nodeAt node h).freq

/-- Exchange HEAP[i] and HEAP[j]. -/
def swapHeap (hp : Mem Handle) (i j : Nat) : Mem Handle :=
  putHeap (putHeap hp i (heapAt hp j)) j (heapAt hp i)

/-- SiftDown of R123 over `n` = HSIZE positions. `fuel` bounds the passes: each moves to a greater position below
`n`, so `n` passes are never used up. -/
def siftDown (node : Mem NodeRec) (n : Nat) : (fuel i : Nat) → Mem Handle → Mem Handle
  | 0, _, hp => hp
  | fuel + 1, i, hp =>
    let l := 2 * i + 1
    let r := 2 * i + 2
    if n ≤ l then hp
    else
      let c := if r < n ∧ freqOf node (heapAt hp r) < freqOf node (heapAt hp l) then r else l
      if freqOf node (heapAt hp c) < freqOf node (heapAt hp i) then siftDown node n fuel c (swapHeap hp i c)
      else hp

/-- SiftUp of R124. `fuel` bounds the passes: each moves to a smaller position, so `i` passes are never used up. -/
def siftUp (node : Mem NodeRec) : (fuel i : Nat) → Mem Handle → Mem Handle
  | 0, _, hp => hp
  | fuel + 1, i, hp =>
    if i = 0 then hp
    else
      let p := (i - 1) / 2
      if freqOf node (heapAt hp i) < freqOf node (heapAt hp p) then siftUp node fuel p (swapHeap hp i p)
      else hp

/-- The loop of R125: SiftDown(i) for i from `k` − 1 down to 0. -/
def siftAll (node : Mem NodeRec) (n : Nat) : (k : Nat) → Mem Handle → Mem Handle
  | 0, hp => hp
  | i + 1, hp => siftAll node n i (siftDown node n n i hp)

/-- The body of HBLD (R125). -/
def hbld (s : State) : Run Unit :=
  if 2 ≤ s.hsize.toNat then
    .ok () (s.setHeap (siftAll s.node s.hsize.toNat (s.hsize.toNat / 2) s.heap))
  else .ok () s

/-- Insert(h) of R126: append, then sift up from the new last position. -/
def insert (s : State) (h : Handle) : State :=
  let last := s.hsize.toNat
  (((s.setHeap (siftUp s.node last last (putHeap s.heap last h))).putOwn h true).setHsize (s.hsize + 1#9))

/-- The body of HINS (R126): OperandError before CapacityError, both before any write. -/
def hins (h : Handle) (s : State) : Run Unit :=
  if s.ncnt ≤ h ∨ ownAt s.own h = true then .raised .operand s
  else if s.hsize = s.hcap then .raised .capacity s
  else .ok () (insert s h)

/-- ExtractMin() of R127; the value is the handle it returns. -/
def extractMin (s : State) : Run Handle :=
  if s.hsize = 0#9 then .raised .emptyHeap (s.setRes null)
  else
    let h := heapAt s.heap 0
    let n := s.hsize.toNat - 1
    let moved := putHeap s.heap 0 (heapAt s.heap n)
    let sifted := if 0 < n then siftDown s.node n n 0 moved else moved
    .ok h ((((s.setHeap sifted).setHsize (s.hsize - 1#9)).putOwn h false).setRes h)

/-- The body of HEXT (R127). -/
def hext (s : State) : Run Unit := (extractMin s).andThen fun _ t => .ok () t

/-- HBLD, build heap from unordered (R125). -/
def execHbld (s : State) : Result := (hbld s).finish

/-- HINS, insert (R126). -/
def execHins (arg : Handle) (s : State) : Result := (hins arg s).finish

/-- HEXT, extract minimum (R127). -/
def execHext (s : State) : Result := (hext s).finish

end Sys2Proof.Machine
end

