-- ==== Sys2Proof/Machine/TreeBuilder.lean ====
section
/-! DEFINITION. Machine/TreeBuilder.lean: the tree builder FCNT, LEAVES, MRG, TBLD and the tree check TCHK
(spec/41_tree_builder.md). -/

namespace Sys2Proof.Machine

/-- The counting loop of FCNT (R140): `m` symbols from SYM[k] on. -/
def countSymbols (freqBits : Nat) (sym : Mem Byte) : (m k : Nat) → Mem Nat → Mem Nat
  | 0, _, ft => ft
  | m + 1, k, ft =>
    countSymbols freqBits sym m (k + 1) (putFt freqBits ft (byteAt sym k) (ftAt ft (byteAt sym k) + 1))

/-- The body of FCNT (R140): the size test, every entry 0, then the count. -/
def fcnt (s : State) : Run Unit :=
  if s.cfg.symCap < s.symcnt then .raised .capacity s
  else .ok () (s.setFt (countSymbols s.cfg.freqBits s.sym s.symcnt 0 []))

/-- The leaf record of a symbol and its count (R141). -/
def leafRec (b : Byte) (f : Nat) : NodeRec :=
  { v := true, k := .leaf, sym := b, left := null, right := null, freq := f }

/-- The symbols in ascending order (R142). -/
def alphabet : List Byte := (List.range nSym).map (BitVec.ofNat 8)

/-- One pass of the loop of LEAVES (R141): the leaf of a symbol that occurs is placed at index `n`. -/
def placeLeaf (s : State) (n : Nat) (b : Byte) : State :=
  ((s.putNode n (leafRec b (ftAt s.ft b))).setHeap (putHeap s.heap n (BitVec.ofNat 9 n))).putOwn (BitVec.ofNat 9 n) true

/-- The loop of LEAVES (R141) over the symbols `bs`, the next leaf at index `n`; answers the number of leaves. -/
def placeLeaves : List Byte → Nat → State → Nat × State
  | [], n, s => (n, s)
  | b :: bs, n, s => if ftAt s.ft b = 0 then placeLeaves bs n s else placeLeaves bs (n + 1) (placeLeaf s n b)

/-- HCAP for `n` distinct symbols: 2n − 1, and 0 for none (R32, R141). -/
def heapCapacity (n : Nat) : Nat := if n = 0 then 0 else 2 * n - 1

/-- The body of LEAVES (R141). -/
def leaves (s : State) : Run Unit :=
  let placed := placeLeaves alphabet 0 ((s.setNode (clearNodeV s.node)).setOwn [])
  let n := BitVec.ofNat 9 placed.1
  .ok () (((((((placed.2.setNcnt n).setNdist n).setHsize n).setHcap (BitVec.ofNat 9 (heapCapacity placed.1))).setRoot
    null).setRes null).setTv false)

/-- The record of an internal node over `a` (LEFT) and `b` (RIGHT) (R143, R144). -/
def internalRec (a b : Handle) (f : Nat) : NodeRec :=
  { v := true, k := .internal, sym := 0#8, left := a, right := b, freq := f }

/-- MRG from the point where both children are out of the heap (R143). -/
def mergeNode (a b : Handle) (s : State) : State :=
  let k := s.ncnt
  let made := (s.putNode k.toNat (internalRec a b (freqOf s.node a + freqOf s.node b))).setNcnt (s.ncnt + 1#9)
  insert ((made.putOwn a true).putOwn b true) k

/-- The body of MRG (R143). -/
def mrg (s : State) : Run Unit :=
  (extractMin s).andThen fun a s1 => (extractMin s1).andThen fun b s2 => .ok () (mergeNode a b s2)

/-- `while HSIZE > 1: call MRG` (R145). Each merge lowers HSIZE by one (R147), so HSIZE passes are never used up. -/
def mergeAll : (fuel : Nat) → State → Run Unit
  | 0, s => .ok () s
  | fuel + 1, s => if 1 < s.hsize.toNat then (mrg s).andThen fun _ t => mergeAll fuel t else .ok () s

/-- The body of TBLD (R145). -/
def tbld (s : State) : Run Unit :=
  (leaves s).andThen fun _ s1 => (hbld s1).andThen fun _ s2 => (mergeAll s2.hsize.toNat s2).andThen fun _ s3 =>
    (extractMin s3).andThen fun h s4 => .ok () ((s4.setRoot h).setTv true)

/-- The loop of TCHK (R149) over the stack, the visited handles VIS and the seen symbols SEEN; false where it raises.
Each pop that passes visits a new handle below 511, so 512 pops are never used up (R149). -/
def checkFrom (node : Mem NodeRec) : (fuel : Nat) → (stack vis : List Handle) → (seen : List Byte) → Bool
  | _, [], _, _ => true
  | 0, _ :: _, _, _ => false
  | fuel + 1, h :: stack, vis, seen =>
    if h ∈ vis then false
    else
      match (nodeAt node h).k with
      | .leaf =>
        if (nodeAt node h).sym ∈ seen then false
        else checkFrom node fuel stack (h :: vis) ((nodeAt node h).sym :: seen)
      | .internal =>
        let l := (nodeAt node h).left
        let r := (nodeAt node h).right
        if l = null ∨ r = null then false
        else if (nodeAt node l).v = false ∨ (nodeAt node r).v = false then false
        else checkFrom node fuel (l :: r :: stack) (h :: vis) seen

/-- Whether the records reachable from `root` pass the structural check (R149). -/
def treeCheck (node : Mem NodeRec) (root : Handle) : Bool :=
  if root = null ∨ (nodeAt node root).v = false then false else checkFrom node 512 [root] [] []

/-- The body of TCHK (R149). -/
def tchk (s : State) : Run Unit :=
  if treeCheck s.node s.root then .ok () (s.setTv true) else .raised .malformedTree (s.setTv false)

/-- `if STATUS.TV = 0: call TCHK`, the implicit check of CGEN, UNPK and DEC (R149). -/
def ensureTree (s : State) : Run Unit := if s.tv then .ok () s else tchk s

/-- FCNT, count frequencies (R140). -/
def execFcnt (s : State) : Result := (fcnt s).finish

/-- LEAVES, create the leaves (R141). -/
def execLeaves (s : State) : Result := (leaves s).finish

/-- MRG, one merge (R143). -/
def execMrg (s : State) : Result := (mrg s).finish

/-- TBLD, build tree (R145). -/
def execTbld (s : State) : Result := (tbld s).finish

/-- TCHK, check tree (R149). -/
def execTchk (s : State) : Result := (tchk s).finish

end Sys2Proof.Machine
end

