-- ==== Sys2Proof/Machine/BitPacker.lean ====
section
/-! DEFINITION. Machine/BitPacker.lean: the bit packer PACK and the bit unpacker UNPK (spec/43_bit_packer.md). -/

namespace Sys2Proof.Machine

/-- The inner loop of PACK (R170): `n` bits of the code from its bit `i` on, stored from position `pos` on. -/
def packCode (byteCap : Nat) (e : CodeRec) : (n i pos : Nat) → Mem Byte → Mem Byte
  | 0, _, _, bit => bit
  | n + 1, i, pos, bit => packCode byteCap e n (i + 1) (pos + 1) (putStreamBit byteCap bit pos (e.codeBit i))

/-- The outer loop of PACK (R170): `m` symbols from SYM[k] on, from stream position `pos` on. Answers the BIT space
as written so far, with the end position or the error raised. -/
def packSymbols (c : Config) (sym : Mem Byte) (ct : Mem CodeRec) :
    (m k pos : Nat) → Mem Byte → Mem Byte × Except ErrorCode Nat
  | 0, _, pos, bit => (bit, .ok pos)
  | m + 1, k, pos, bit =>
    let e := ctAt ct (byteAt sym k)
    if e.v = false ∨ e.len = 0#8 then (bit, .error .noCode)
    else if 8 * c.byteCap < pos + e.len.toNat then (bit, .error .capacity)
    else packSymbols c sym ct m (k + 1) (pos + e.len.toNat) (packCode c.byteCap e e.len.toNat 0 pos bit)

/-- The body of PACK (R170). -/
def pack (s : State) : Run Unit :=
  let s0 := s.setBitcnt 0
  if s.cfg.symCap < s.symcnt then .raised .capacity s0
  else
    match packSymbols s.cfg s.sym s.ct s.symcnt 0 0 s.bit with
    | (bit, .ok pos)  => .ok () ((s0.setBit bit).setBitcnt pos)
    | (bit, .error e) => .raised e (s0.setBit bit)

/-- One step of the unpacker's walk (R173, R174): the node that stream bit `b` leads to from `cur`; with a
single-leaf tree a 0 bit stays at the leaf and a 1 bit is no code word. -/
def walkBit (node : Mem NodeRec) (single : Bool) (cur : Handle) (b : Bool) : Except ErrorCode Handle :=
  if single then (if b then .error .invalidCode else .ok cur)
  else .ok (if b then (nodeAt node cur).right else (nodeAt node cur).left)

/-- The loop of UNPK (R173): `n` bits from position `pos` on, the walk standing at `cur`, `cnt` symbols written.
Answers the OUT space as written so far, with the count and the last `cur` or the error raised. -/
def unpackBits (c : Config) (node : Mem NodeRec) (bit : Mem Byte) (root : Handle) (single : Bool) :
    (n pos : Nat) → (cur : Handle) → (cnt : Nat) → Mem Byte → Mem Byte × Except ErrorCode (Nat × Handle)
  | 0, _, cur, cnt, out => (out, .ok (cnt, cur))
  | n + 1, pos, cur, cnt, out =>
    match walkBit node single cur (streamBit bit pos) with
    | .error e => (out, .error e)
    | .ok nxt =>
      match (nodeAt node nxt).k with
      | .internal => unpackBits c node bit root single n (pos + 1) nxt cnt out
      | .leaf =>
        if cnt = c.symCap then (out, .error .capacity)
        else
          unpackBits c node bit root single n (pos + 1) root (cnt + 1)
            (Mem.set 0#8 c.symCap out cnt (nodeAt node nxt).sym)

/-- Whether the tree is a single leaf: `single` of R173 and R192. -/
def State.singleLeaf (s : State) : Bool := (nodeAt s.node s.root).k == .leaf

/-- The body of UNPK (R173). -/
def unpk (s : State) : Run Unit :=
  (ensureTree (s.setOutcnt 0)).andThen fun _ t =>
    if 8 * t.cfg.byteCap < t.bitcnt then .raised .capacity t
    else
      match unpackBits t.cfg t.node t.bit t.root t.singleLeaf t.bitcnt 0 t.root 0 t.out with
      | (out, .error e) => .raised e (t.setOut out)
      | (out, .ok (cnt, cur)) =>
        if cur = t.root then .ok () ((t.setOut out).setOutcnt cnt) else .raised .truncatedStream (t.setOut out)

/-- PACK, pack (R170). -/
def execPack (s : State) : Result := (pack s).finish

/-- UNPK, unpack (R173). -/
def execUnpk (s : State) : Result := (unpk s).finish

end Sys2Proof.Machine
end

