-- ==== Sys2Proof/Machine/CodeTable.lean ====
section
/-! DEFINITION. Machine/CodeTable.lean: the code-table generator CGEN (spec/42_code_table.md). -/

namespace Sys2Proof.Machine

/-- Walk(h, p) of R161 over the code table: `path` holds the turns taken so far, the last one first. `fuel` is the
depth left: 256 levels hold every path of at most 255 turns, and a tree that has passed TCHK has none longer (R161,
R11; notes/assumptions/6.md). -/
def walk (node : Mem NodeRec) : (fuel : Nat) → (h : Handle) → (path : List Bool) → Mem CodeRec → Mem CodeRec
  | 0, _, _, ct => ct
  | fuel + 1, h, path, ct =>
    match (nodeAt node h).k with
    | .leaf => putCt ct (nodeAt node h).sym (codeRec path.reverse)
    | .internal =>
      walk node fuel (nodeAt node h).right (true :: path)
        (walk node fuel (nodeAt node h).left (false :: path) ct)

/-- The table of a checked tree over the cleared table `ct` (R161, R162). -/
def generateCodes (node : Mem NodeRec) (root : Handle) (ct : Mem CodeRec) : Mem CodeRec :=
  match (nodeAt node root).k with
  | .leaf     => putCt ct (nodeAt node root).sym (codeRec [false])
  | .internal => walk node (maxLen + 1) root [] ct

/-- The body of CGEN (R161): the old table is dropped first, then the tree is checked if TV = 0. -/
def cgen (s : State) : Run Unit :=
  (ensureTree (s.setCt (clearCtV s.ct))).andThen fun _ t =>
    .ok () (t.setCt (generateCodes t.node t.root t.ct))

/-- CGEN, generate codes (R161). -/
def execCgen (s : State) : Result := (cgen s).finish

end Sys2Proof.Machine
end

