-- ==== Sys2Proof/Machine/Facade.lean ====
section
/-! DEFINITION. Machine/Facade.lean: the facade commands ENC and DEC (spec/44_facade.md). -/

namespace Sys2Proof.Machine

/-- The body of ENC (R190). -/
def enc (s : State) : Run Unit :=
  if s.symcnt = 0 then .raised .emptyInput s
  else
    (fcnt s).andThen fun _ s1 => (tbld s1).andThen fun _ s2 => (cgen s2).andThen fun _ s3 => pack s3

/-- The inner loop of DEC (R192): one symbol, from position `pos` with `left` = BITCNT − pos bits to go, the walk
standing at `cur`. Answers the leaf reached, with the bits left and the position after it. -/
def decodeSymbol (node : Mem NodeRec) (bit : Mem Byte) (single : Bool) :
    (left pos : Nat) → (cur : Handle) → Except ErrorCode (Handle × Nat × Nat)
  | 0, _, _ => .error .truncatedStream
  | left + 1, pos, cur =>
    match walkBit node single cur (streamBit bit pos) with
    | .error e => .error e
    | .ok nxt =>
      match (nodeAt node nxt).k with
      | .leaf     => .ok (nxt, left, pos + 1)
      | .internal => decodeSymbol node bit single left (pos + 1) nxt

/-- The outer loop of DEC (R192): `m` symbols owed, `cnt` written. Answers the OUT space as written so far, with the
bits left and the count or the error raised. -/
def decodeSymbols (symCap : Nat) (node : Mem NodeRec) (bit : Mem Byte) (root : Handle) (single : Bool) :
    (m left pos cnt : Nat) → Mem Byte → Mem Byte × Except ErrorCode (Nat × Nat)
  | 0, left, _, cnt, out => (out, .ok (left, cnt))
  | m + 1, left, pos, cnt, out =>
    match decodeSymbol node bit single left pos root with
    | .error e => (out, .error e)
    | .ok (h, left', pos') =>
      decodeSymbols symCap node bit root single m left' pos' (cnt + 1)
        (Mem.set 0#8 symCap out cnt (nodeAt node h).sym)

/-- The body of DEC (R192). -/
def dec (s : State) : Run Unit :=
  (ensureTree (s.setOutcnt 0)).andThen fun _ t =>
    if t.cfg.symCap < t.symcnt ∨ 8 * t.cfg.byteCap < t.bitcnt then .raised .capacity t
    else
      match decodeSymbols t.cfg.symCap t.node t.bit t.root t.singleLeaf t.symcnt t.bitcnt 0 0 t.out with
      | (out, .error e) => .raised e (t.setOut out)
      | (out, .ok (left, cnt)) =>
        if left = 0 then .ok () ((t.setOut out).setOutcnt cnt) else .raised .countMismatch (t.setOut out)

/-- ENC, encode (R190). -/
def execEnc (s : State) : Result := (enc s).finish

/-- DEC, decode (R192). -/
def execDec (s : State) : Result := (dec s).finish

end Sys2Proof.Machine
end

