-- ==== Sys2Proof/Machine/System.lean ====
section
/-! DEFINITION. Machine/System.lean: the system commands NOP, CLRE, RST (spec/45_system.md) and the power-on reset
(spec/10_state.md R47, spec/70_reset_and_hazards.md R240). -/

namespace Sys2Proof.Machine

/-- The registers and the ownership bits at their reset values (R47); the memories and PH as they are. -/
def State.resetRegs (s : State) : State :=
  { s with err := none, tv := false, symcnt := 0, bitcnt := 0, outcnt := 0, root := null, ncnt := 0#9,
           ndist := 0#9, hsize := 0#9, hcap := 0#9, res := null, own := [] }

/-- The body of RST (R202): every register, every OWN bit and every valid bit at its reset value. PH is left to
command acceptance (R93). -/
def rst (s : State) : State :=
  (s.resetRegs.setNode (clearNodeV s.node)).setCt (clearCtV s.ct)

/-- The power-on reset with the contents `d` (R47, R240, U1, U13): registers as for RST, every V bit 0, every other
content as drawn, each element at its width. The instance's parameters, the waiting transactions and the replies given
are not the block's state and stay
(notes/assumptions/8.md). -/
def powerOn (d : Draw) (s : State) : State :=
  { s.resetRegs with
    ph   := .idle
    sym  := Mem.load 0#8 s.cfg.symCap id d.sym
    ft   := Mem.load 0 nSym (narrow s.cfg.freqBits) d.ft
    node := Mem.load NodeRec.blank nodeCap (fun r => { r.atWidth s.cfg.nfreqBits with v := false }) d.node
    heap := Mem.load 0#9 nodeCap id d.heap
    ct   := Mem.load CodeRec.blank nSym (fun r => { r with v := false }) d.ct
    bit  := Mem.load 0#8 s.cfg.byteCap id d.bit
    out  := Mem.load 0#8 s.cfg.symCap id d.out }

/-- NOP, no operation (R200). -/
def execNop (s : State) : Result := .next s

/-- CLRE, clear error (R201). -/
def execClre (s : State) : Result := .next s.clearError

/-- RST, reset (R202). -/
def execRst (s : State) : Result := .next (rst s)

end Sys2Proof.Machine
end

