-- ==== Sys2Proof/Machine/Dispatch.lean ====
section
/-! DEFINITION. Machine/Dispatch.lean: the rule of the command, one arm per command (spec/30_encoding.md R91, R93). -/

namespace Sys2Proof.Machine

def exec (i : Instr) (s : State) : Host.Outcome State Fault Refusal :=
  match i with
  | .nop => Sys2Proof.Machine.execNop s
  | .fcnt => Sys2Proof.Machine.execFcnt s
  | .leaves => Sys2Proof.Machine.execLeaves s
  | .hbld => Sys2Proof.Machine.execHbld s
  | .hins arg => Sys2Proof.Machine.execHins arg s
  | .hext => Sys2Proof.Machine.execHext s
  | .mrg => Sys2Proof.Machine.execMrg s
  | .tbld => Sys2Proof.Machine.execTbld s
  | .tchk => Sys2Proof.Machine.execTchk s
  | .cgen => Sys2Proof.Machine.execCgen s
  | .pack => Sys2Proof.Machine.execPack s
  | .unpk => Sys2Proof.Machine.execUnpk s
  | .enc => Sys2Proof.Machine.execEnc s
  | .dec => Sys2Proof.Machine.execDec s
  | .clre => Sys2Proof.Machine.execClre s
  | .rst => Sys2Proof.Machine.execRst s

end Sys2Proof.Machine
end

