-- ==== Sys2Proof/Machine/Flags.lean ====
section
/-! DEFINITION. Machine/Flags.lean: the two status flags ERR and TV and REG.STATUS as the host reads it
(spec/10_state.md R23, R44; spec/60_exceptions.md R210). There are no arithmetic flags. -/

namespace Sys2Proof.Machine

/-- The code of an error in STATUS.ERR (R210). -/
def ErrorCode.code : ErrorCode → BitVec 4
  | .emptyInput      => 1#4
  | .emptyHeap       => 2#4
  | .truncatedStream => 3#4
  | .malformedTree   => 4#4
  | .invalidCode     => 5#4
  | .countMismatch   => 6#4
  | .noCode          => 7#4
  | .capacity        => 8#4
  | .illegalCommand  => 9#4
  | .operand         => 10#4

/-- STATUS.ERR: the code of the pending error, 0 when none. -/
def State.errField (s : State) : BitVec 4 :=
  match s.err with
  | none   => 0#4
  | some e => e.code

/-- STATUS.TV as a bit. -/
def State.tvField (s : State) : BitVec 1 := BitVec.ofBool s.tv

/-- REG.STATUS: bits 31:5 read 0, bit 4 is TV, bits 3:0 are ERR (R23). -/
def State.status (s : State) : BitVec 32 := 0#27 ++ s.tvField ++ s.errField

/-- Whether an error is pending: then every command but a well-formed CLRE or RST is ignored (R93, R226). -/
def State.errorPending (s : State) : Bool := s.err.isSome

end Sys2Proof.Machine
end

