-- ==== Sys2Proof/Machine/Port.lean ====
section
/-! DEFINITION. Machine/Port.lean: the host port (spec/20_memory.md R60 to R66), the side effects of host writes
(spec/10_state.md R45), command acceptance (spec/30_encoding.md R93), and what happens in one step of the machine:
one transaction. -/

namespace Sys2Proof.Machine

/-! ## Command acceptance -/

/-- The commands that are accepted whatever STATUS.ERR is (R93). -/
def alwaysAccepted : Instr → Bool
  | .rst | .clre => true
  | .nop | .fcnt | .leaves | .hbld | .hins _ | .hext | .mrg | .tbld | .tchk | .cgen | .pack | .unpk | .enc
  | .dec => false

/-- An accepted command: PH <- RUN, the command's rule, PH <- IDLE (R21, R93). -/
def runCommand (i : Instr) (s : State) : Result :=
  match exec i (s.setPh .run) with
  | .next t    => .next (t.setPh .idle)
  | .fault f   => .fault f
  | .refused r => .refused r

/-- A host write of REG.CMD, in the order of R93: a well-formed RST or CLRE is always taken; otherwise a pending
error makes the word ignored; otherwise an ill-formed word raises IllegalCommandError; otherwise the command runs. -/
def submit (w : CmdWord) (s : State) : Result :=
  match decode w with
  | .ok i =>
    if alwaysAccepted i then runCommand i s
    else if s.errorPending then .next s
    else runCommand i s
  | .error _ => if s.errorPending then .next s else .next (s.raiseError .illegalCommand)

/-! ## Host reads -/

/-- A read of a register, by index (R22): CMD, and every index above 10, read 0 (R24, R63, R64). -/
def regRead (s : State) : Nat → Nat
  | 0  => s.status.toNat
  | 2  => s.symcnt
  | 3  => s.bitcnt
  | 4  => s.outcnt
  | 5  => s.root.toNat
  | 6  => s.ncnt.toNat
  | 7  => s.ndist.toNat
  | 8  => s.hsize.toNat
  | 9  => s.hcap.toNat
  | 10 => s.res.toNat
  | _  => 0

/-- MemRead((space, index), 1) (R60): the whole element as a number, 0 where the index is not below the element
count (R63). -/
def hostRead (s : State) (sp : Space) (i : Nat) : Nat :=
  if i < spaceSize s.cfg sp then
    match sp with
    | .reg  => regRead s i
    | .sym  => (byteAt s.sym i).toNat
    | .ft   => Mem.read 0 s.ft i
    | .node => (Mem.read NodeRec.blank s.node i).toWord s.cfg.nfreqBits
    | .heap => (heapAt s.heap i).toNat
    | .ct   => (Mem.read CodeRec.blank s.ct i).toWord.toNat
    | .bit  => (byteAt s.bit i).toNat
    | .out  => (byteAt s.out i).toNat
  else 0

/-! ## Host writes -/

/-- The side effects of a host write to the NODE space (R45 a): the tree is unchecked, the heap empty, every
allocation and every ownership forgotten. -/
def State.forgetNodes (s : State) : State :=
  ((((s.setTv false).setHsize 0#9).setNcnt 0#9).setNdist 0#9).setOwn []

/-- A write of a register, by index (R22): CMD starts a command (R24), ROOT clears TV (R45 b), SYMCNT and BITCNT are
stored, every other write is ignored (R64). -/
def regWrite (s : State) (i v : Nat) : Result :=
  match i with
  | 1 => submit (BitVec.ofNat 32 v) s
  | 2 => .next (s.setSymcnt v)
  | 3 => .next (s.setBitcnt v)
  | 5 => .next ((s.setRoot (BitVec.ofNat 9 v)).setTv false)
  | _ => .next s

/-- MemWrite((space, index), 1, v) (R60): the element takes the value at its width (R61, R65); a write outside the
space (R63) or to a read-only space (R64) is ignored. -/
def hostWrite (s : State) (sp : Space) (i v : Nat) : Result :=
  if i < spaceSize s.cfg sp then
    match sp with
    | .reg  => regWrite s i v
    | .sym  => .next (s.setSym (Mem.set 0#8 s.cfg.symCap s.sym i (BitVec.ofNat 8 v)))
    | .ft   => .next (s.setFt (Mem.set 0 nSym s.ft i (narrow s.cfg.freqBits v)))
    | .node => .next (s.putNode i (NodeRec.ofWord s.cfg.nfreqBits v)).forgetNodes
    | .heap => .next s
    | .ct   => .next (s.setCt (Mem.set CodeRec.blank nSym s.ct i (CodeRec.ofWord (BitVec.ofNat 264 v))))
    | .bit  => .next (s.setBit (Mem.set 0#8 s.cfg.byteCap s.bit i (BitVec.ofNat 8 v)))
    | .out  => .next s
  else .next s

/-! ## One step -/

/-- The value of a host read goes to the host (R60). -/
def State.reply (s : State) (v : Nat) : State := s.setPort { s.port with replies := s.port.replies ++ [v] }

/-- The transactions that still wait. -/
def State.setInputs (s : State) (inputs : List Input) : State := s.setPort { s.port with inputs := inputs }

/-- Whether the port takes this input now: a transaction only while the sequencer is IDLE (R66), the power-on reset
at any time (R240). -/
def accepts (s : State) : Input → Bool
  | .powerOn _ => true
  | .read _ _ | .write _ _ _ => s.ph == .idle

/-- An input that has been taken. -/
def perform (inp : Input) (s : State) : Result :=
  match inp with
  | .read sp i    => .next (s.reply (hostRead s sp i))
  | .write sp i v => hostWrite s sp i v
  | .powerOn d    => .next (powerOn d s)

/-- One step: the next input is taken and performed, held off while the port does not accept it (R66), and with no
input the engine waits (R241). -/
def portStep (s : State) : Result :=
  match s.port.inputs with
  | [] => .next s
  | inp :: rest => if accepts s inp then perform inp (s.setInputs rest) else .next s

/-- The host writes a command word to REG.CMD next, before anything that waits, with the port ready to take it. -/
def State.withCommand (s : State) (w : Nat) : State :=
  (s.setInputs (.write .reg 1 w :: s.port.inputs)).setPh .idle

end Sys2Proof.Machine
end

