-- ==== Sys2Proof/Machine/Step.lean ====
section
/-! DEFINITION. Machine/Step.lean: the step, and where it takes its next command (spec/20_memory.md R73: a command
is the data of one host write to REG.CMD). -/

namespace Sys2Proof.Machine

/-- One step of the machine: one host transaction, and with it the whole command it may start, however long
that would take (R8, R66, R257). -/
def step (s : State) : Host.Outcome State Fault Refusal := portStep s

/-- `s` with the host about to write the 32-bit command word `w` (of which `nbits` bits are given) to REG.CMD, so that
the very next step takes it. -/
def State.withFetchWord (s : State) (nbits w : Nat) : State := s.withCommand (w % 2 ^ nbits)

end Sys2Proof.Machine
end

