-- ==== Sys2Proof/Safety.lean ====
section
/-! DEFINITION. Safety.lean: what a good state is, and the terms in which claims speak of heaps, trees, codes and
streams (spec/10_state.md R46; spec/40_heap.md R121; spec/41_tree_builder.md R149; spec/42_code_table.md R163;
spec/30_encoding.md R99, R100). -/

namespace Sys2Proof.Machine

/-! ## Canonical memories, values within their widths -/

/-- Every memory is in canonical form, inside its space, and every element within its width (R34 to R41, R61). -/
def State.memWf (s : State) : Bool :=
  Mem.wf 0#8 s.cfg.symCap (fun _ => true) s.sym && (Mem.wf 0 nSym (fun n => decide (n < 2 ^ s.cfg.freqBits)) s.ft &&
  (Mem.wf NodeRec.blank nodeCap (fun r => decide (r.freq < 2 ^ s.cfg.nfreqBits)) s.node &&
  (Mem.wf 0#9 nodeCap (fun _ => true) s.heap && (Mem.wf CodeRec.blank nSym (fun _ => true) s.ct &&
  (Mem.wf 0#8 s.cfg.byteCap (fun _ => true) s.bit && (Mem.wf 0#8 s.cfg.symCap (fun _ => true) s.out &&
  Mem.wf false nodeCap (fun _ => true) s.own))))))

/-- The registers whose width is a parameter are within it (R22). -/
def State.regWf (s : State) : Bool :=
  decide (s.symcnt < 2 ^ s.cfg.freqBits) && (decide (s.bitcnt < 2 ^ s.cfg.nfreqBits) &&
  decide (s.outcnt < 2 ^ s.cfg.freqBits))

/-- The state is in the form that every state of the hardware has. -/
def State.wf (s : State) : Bool := s.memWf && s.regWf

/-! ## The heap -/

/-- HEAP[0..HSIZE−1] (R120). -/
def State.heapList (s : State) : List Handle := (List.range s.hsize.toNat).map (heapAt s.heap)

/-- The heap-order invariant (R121). -/
def HeapOrdered (s : State) : Prop :=
  ∀ i, 1 ≤ i → i < s.hsize.toNat →
    freqOf s.node (heapAt s.heap ((i - 1) / 2)) ≤ freqOf s.node (heapAt s.heap i)

/-! ## The two sifts as relations between heap arrays (R122 to R124) -/

/-- The array `h` with the elements at `i` and `j` exchanged. -/
def swapped (h : Nat → Handle) (i j : Nat) : Nat → Handle :=
  fun k => if k = i then h j else if k = j then h i else h k

/-- `c` is the child position that SiftDown compares with position `i` (R123): the right one only if its frequency is
strictly smaller, so that a tie prefers the left one. -/
def ChosenChild (freq : Handle → Nat) (n : Nat) (h : Nat → Handle) (i c : Nat) : Prop :=
  (c = 2 * i + 2 ∧ c < n ∧ freq (h (2 * i + 2)) < freq (h (2 * i + 1))) ∨
  (c = 2 * i + 1 ∧ c < n ∧ (2 * i + 2 < n → freq (h (2 * i + 1)) ≤ freq (h (2 * i + 2))))

/-- SiftDown(i) over `n` = HSIZE positions turns the array `h` into `h'` (R123): it stops without a child and at a chosen
child of equal or greater frequency. -/
inductive SiftsDown (freq : Handle → Nat) (n : Nat) : Nat → (Nat → Handle) → (Nat → Handle) → Prop where
  | noChild {i : Nat} {h : Nat → Handle} (hn : n ≤ 2 * i + 1) : SiftsDown freq n i h h
  | stop {i c : Nat} {h : Nat → Handle} (hc : ChosenChild freq n h i c) (hf : freq (h i) ≤ freq (h c)) :
      SiftsDown freq n i h h
  | swap {i c : Nat} {h h' : Nat → Handle} (hc : ChosenChild freq n h i c) (hf : freq (h c) < freq (h i))
      (hs : SiftsDown freq n c (swapped h i c) h') : SiftsDown freq n i h h'

/-- SiftUp(i) turns the array `h` into `h'` (R124): it stops at the root and under a parent of equal or smaller
frequency. -/
inductive SiftsUp (freq : Handle → Nat) : Nat → (Nat → Handle) → (Nat → Handle) → Prop where
  | root {h : Nat → Handle} : SiftsUp freq 0 h h
  | stop {i : Nat} {h : Nat → Handle} (hi : 0 < i) (hf : freq (h ((i - 1) / 2)) ≤ freq (h i)) : SiftsUp freq i h h
  | swap {i : Nat} {h h' : Nat → Handle} (hi : 0 < i) (hf : freq (h i) < freq (h ((i - 1) / 2)))
      (hs : SiftsUp freq ((i - 1) / 2) (swapped h i ((i - 1) / 2)) h') : SiftsUp freq i h h'

/-! ## The engine's invariants (R46) -/

/-- The handles allocated since the last LEAVES: 0..NCNT−1 (R29). -/
def State.handles (s : State) : List Handle := (List.range s.ncnt.toNat).map (BitVec.ofNat 9)

/-- `p` is an internal record with `h` as a child. -/
def isParent (node : Mem NodeRec) (p h : Handle) : Bool :=
  (nodeAt node p).k == .internal && ((nodeAt node p).left == h || (nodeAt node p).right == h)

/-- An allocated node has `h` as a child. -/
def State.hasParent (s : State) (h : Handle) : Bool := s.handles.any (fun p => isParent s.node p h)

/-- The allocated nodes without a parent. -/
def State.roots (s : State) : List Handle := s.handles.filter (fun h => !s.hasParent h)

/-- The allocated internal nodes. -/
def State.internals (s : State) : List Handle := s.handles.filter (fun h => (nodeAt s.node h).k == .internal)

/-- R46, (I1) to (I6). Of (I1)'s "as the engine wrote it" this says the shape of the record (the children and FREQ of an
internal one are in (I3)); that a leaf's SYM and FREQ are the symbol and the count that LEAVES read is left out, since no
state remembers FT as it was then. (I5) is stated as what it is there for: the frequencies of the parentless nodes together are
at most NDIST counts of FREQ_BITS bits, so no sum overflows. -/
structure EngineInv (s : State) : Prop where
  /-- (I1) -/
  valid : ∀ h ∈ s.handles, (nodeAt s.node h).v = true
  /-- (I1) -/
  leafShape : ∀ h ∈ s.handles, (nodeAt s.node h).k = .leaf →
    (nodeAt s.node h).left = null ∧ (nodeAt s.node h).right = null
  /-- (I1) -/
  internalShape : ∀ h ∈ s.internals, (nodeAt s.node h).sym = 0#8
  /-- (I2) -/
  heapFits : s.hsize ≤ s.hcap
  /-- (I2) -/
  heapAllocated : ∀ h ∈ s.heapList, h ∈ s.handles ∧ ownAt s.own h = true
  /-- (I2) -/
  heapDistinct : s.heapList.Nodup
  /-- (I3) -/
  children : ∀ h ∈ s.internals,
    (nodeAt s.node h).left < h ∧ (nodeAt s.node h).right < h ∧ (nodeAt s.node h).left ≠ (nodeAt s.node h).right ∧
    ownAt s.own (nodeAt s.node h).left = true ∧ ownAt s.own (nodeAt s.node h).right = true ∧
    (nodeAt s.node h).left ∉ s.heapList ∧ (nodeAt s.node h).right ∉ s.heapList ∧
    (nodeAt s.node h).freq = freqOf s.node (nodeAt s.node h).left + freqOf s.node (nodeAt s.node h).right
  /-- (I3) -/
  oneParent : ∀ p ∈ s.handles, ∀ q ∈ s.handles, ∀ h, isParent s.node p h = true → isParent s.node q h = true → p = q
  /-- (I4) -/
  parentless : ∀ h ∈ s.handles, s.hasParent h = false ↔ (h ∈ s.heapList ∨ ownAt s.own h = false)
  /-- (I4) -/
  rootCount : s.roots.length + s.internals.length = s.ndist.toNat
  /-- (I4) -/
  capacity : 1 ≤ s.ndist.toNat → s.ncnt.toNat ≤ 2 * s.ndist.toNat - 1 ∧ s.hcap.toNat = 2 * s.ndist.toNat - 1
  /-- (I4) -/
  noneAllocated : s.ndist = 0#9 → s.ncnt = 0#9
  /-- (I5) -/
  frequencies : (s.roots.map (freqOf s.node)).sum ≤ s.ndist.toNat * (2 ^ s.cfg.freqBits - 1)
  /-- (I6) -/
  distinct : s.ndist.toNat ≤ nSym
  /-- (I6) -/
  heapSize : s.hsize ≤ s.ncnt

/-- What STATUS.TV promises (R23), with what keeps it true while MRG allocates records (R143). -/
structure TreeInv (s : State) : Prop where
  /-- While the engine builds, the records it has not allocated are invalid. -/
  fresh : s.ncnt ≠ 0#9 → ∀ h, s.ncnt ≤ h → (nodeAt s.node h).v = false
  /-- TV = 1: the records reachable from ROOT pass the structural check. -/
  sound : s.tv = true → treeCheck s.node s.root = true

/-! ## Trees -/

/-- `Reaches node r p h`: the path `p` (0 = left, 1 = right) from `r` through internal records ends at `h` (R100). -/
inductive Reaches (node : Mem NodeRec) : Handle → List Bool → Handle → Prop where
  | here (h : Handle) : Reaches node h [] h
  | left {h t : Handle} {p : List Bool} (hk : (nodeAt node h).k = .internal)
      (hp : Reaches node (nodeAt node h).left p t) : Reaches node h (false :: p) t
  | right {h t : Handle} {p : List Bool} (hk : (nodeAt node h).k = .internal)
      (hp : Reaches node (nodeAt node h).right p t) : Reaches node h (true :: p) t

/-- The structural invariants T1 to T4 of R149, on the records reachable from `root`. -/
structure IsTree (node : Mem NodeRec) (root : Handle) : Prop where
  /-- T1: the root handle names a valid record. -/
  rootValid : root ≠ null ∧ (nodeAt node root).v = true
  /-- T2: every internal node reached has two children, both valid records. -/
  twoChildren : ∀ p h, Reaches node root p h → (nodeAt node h).k = .internal →
    ((nodeAt node h).left ≠ null ∧ (nodeAt node (nodeAt node h).left).v = true) ∧
    ((nodeAt node h).right ≠ null ∧ (nodeAt node (nodeAt node h).right).v = true)
  /-- T3: no record is reached by two paths. -/
  onePath : ∀ p q h, Reaches node root p h → Reaches node root q h → p = q
  /-- T4: no two leaves reached have the same symbol. -/
  oneLeaf : ∀ p q g h, Reaches node root p g → Reaches node root q h → (nodeAt node g).k = .leaf →
    (nodeAt node h).k = .leaf → (nodeAt node g).sym = (nodeAt node h).sym → p = q

/-- `c` is the code that the tree at `root` gives symbol `b`: the path to its leaf, and `0` in the single-leaf tree
(R160, R162). -/
def CodeOf (node : Mem NodeRec) (root : Handle) (b : Byte) (c : List Bool) : Prop :=
  ∃ p h, Reaches node root p h ∧ (nodeAt node h).k = .leaf ∧ (nodeAt node h).sym = b ∧
    c = if p = [] then [false] else p

/-- `r` is a walk that has not reached a leaf: empty, or ending at an internal node (R175). -/
def PartialCode (node : Mem NodeRec) (root : Handle) (r : List Bool) : Prop :=
  r = [] ∨ ∃ h, Reaches node root r h ∧ (nodeAt node h).k = .internal

/-! ## Codes and streams -/

/-- The code of a record: its LEN bits, first bit first (R97). -/
def CodeRec.bits (r : CodeRec) : List Bool := (List.range r.len.toNat).map r.codeBit

/-- A record that PACK can use (R170, R217). -/
def CodeRec.usable (r : CodeRec) : Bool := r.v && decide (r.len ≠ 0#8)

/-- The code record of input symbol `k`. -/
def State.codeAt (s : State) (k : Nat) : CodeRec := ctAt s.ct (byteAt s.sym k)

/-- The concatenated codes of the first `m` input symbols (R99). -/
def State.codeStream (s : State) (m : Nat) : List Bool := ((List.range m).map (fun k => (s.codeAt k).bits)).flatten

/-- The stream in BIT: bits 0..BITCNT−1 (R99). -/
def State.stream (s : State) : List Bool := (List.range s.bitcnt).map (streamBit s.bit)

/-- The first `m` input symbols. -/
def State.input (s : State) (m : Nat) : List Byte := (List.range m).map (byteAt s.sym)

/-- The symbols of the alphabet: those with a non-zero FT entry, in ascending order (R142). -/
def State.present (s : State) : List Byte := alphabet.filter (fun b => decide (ftAt s.ft b ≠ 0))

/-- Σ_s FT[s]. -/
def State.totalCount (s : State) : Nat := (alphabet.map (ftAt s.ft)).sum

/-- The decoded output OUT[0..OUTCNT−1] (R40). -/
def State.output (s : State) : List Byte := (List.range s.outcnt).map (byteAt s.out)

/-- How often `b` occurs among the first SYMCNT input symbols (R140). -/
def State.occurrences (s : State) (b : Byte) : Nat := (s.input s.symcnt).count b

/-- BIT after the codes `bits` were stored into `old` from position 0 on (R170): their bits, zeros up to the end of the last
byte begun, and every byte beyond as before. -/
def HoldsStream (old new : Mem Byte) (bits : List Bool) : Prop :=
  (∀ j, j < bits.length → bits[j]? = some (streamBit new j)) ∧
  (∀ j, bits.length ≤ j → j < 8 * ((bits.length + 7) / 8) → streamBit new j = false) ∧
  ∀ i, (bits.length + 7) / 8 ≤ i → byteAt new i = byteAt old i

/-- OUT after the symbols `bs` were stored into `old` from index 0 on (R173, R192): those symbols, and every element
beyond as before. -/
def HoldsSymbols (old new : Mem Byte) (bs : List Byte) : Prop :=
  (∀ j, j < bs.length → bs[j]? = some (byteAt new j)) ∧ ∀ j, bs.length ≤ j → byteAt new j = byteAt old j

/-! ## Host scripts -/

/-- The host presents `inp` next, with `rest` waiting behind it, and the sequencer is idle (R60, R66). -/
def State.Offers (s : State) (inp : Input) (rest : List Input) : Prop :=
  s.ph = .idle ∧ s.port.inputs = inp :: rest

/-- Elements that a host write stores to: the RW memories and the RW registers SYMCNT, BITCNT, ROOT (R22, R62). -/
def hostWritable : Space → Nat → Bool
  | .sym, _ | .ft, _ | .node, _ | .ct, _ | .bit, _ => true
  | .reg, i => i == 2 || (i == 3 || i == 5)
  | .heap, _ | .out, _ => false

/-- Elements that a host write does not change: the RO memories and registers (R64); CMD is neither. -/
def hostReadOnly : Space → Nat → Bool
  | .heap, _ | .out, _ => true
  | .reg, i => i == 0 || (i == 4 || (i == 6 || (i == 7 || (i == 8 || (i == 9 || i == 10)))))
  | .sym, _ | .ft, _ | .node, _ | .ct, _ | .bit, _ => false

/-- The commands that can raise each error (R210). -/
def raisedBy : ErrorCode → Instr → Bool
  | .emptyInput, .enc => true
  | .emptyHeap, .hext | .emptyHeap, .mrg | .emptyHeap, .tbld => true
  | .truncatedStream, .unpk | .truncatedStream, .dec => true
  | .malformedTree, .tchk | .malformedTree, .cgen | .malformedTree, .unpk | .malformedTree, .dec => true
  | .invalidCode, .unpk | .invalidCode, .dec => true
  | .countMismatch, .dec => true
  | .noCode, .pack => true
  | .capacity, .fcnt | .capacity, .hins _ | .capacity, .pack | .capacity, .unpk | .capacity, .dec
  | .capacity, .enc => true
  | .operand, .hins _ => true
  | _, _ => false

/-- The host sends the commands one after the other, each accepted or ignored as R93 says. -/
def sendAll : List Instr → State → Result
  | [], s => .next s
  | i :: is, s =>
    match submit (encode i) s with
    | .next t    => sendAll is t
    | .fault f   => .fault f
    | .refused r => .refused r

end Sys2Proof.Machine
end

