-- ==== Sys2Proof/Certificates/Slice0/Obligations.lean ====
section
/-! DEFINITION. Certificates/Slice0/Obligations.lean: the statements for the provers, each a formalisation of rules of
spec/ (OBLIGATIONS.json names them). Statements of a result are written as `exec i s = .next …`, so that they say too
that the command completes and what it leaves unchanged. -/

open Sys2Proof Sys2Proof.Machine

/-! ## Encodings -/

/-- The sixteen words of the opcode map (R91) decode to their commands, ARG being the handle of HINS alone (R92); the
ill-formed words of vectors E3 to E5 decode to none, and so does every word with a reserved OP (R94). -/
def Obligations.OpcodeMapWordsDecode : Prop :=
  (decode 0x00000000#32 = .ok .nop ∧ decode 0x01000000#32 = .ok .fcnt ∧ decode 0x02000000#32 = .ok .leaves ∧
    decode 0x03000000#32 = .ok .hbld ∧ decode 0x04000003#32 = .ok (.hins 3#9) ∧
    decode 0x040001FF#32 = .ok (.hins null) ∧ decode 0x05000000#32 = .ok .hext ∧ decode 0x06000000#32 = .ok .mrg ∧
    decode 0x07000000#32 = .ok .tbld ∧ decode 0x08000000#32 = .ok .tchk ∧ decode 0x09000000#32 = .ok .cgen ∧
    decode 0x0A000000#32 = .ok .pack ∧ decode 0x0B000000#32 = .ok .unpk ∧ decode 0x0C000000#32 = .ok .enc ∧
    decode 0x0D000000#32 = .ok .dec ∧ decode 0x0E000000#32 = .ok .clre ∧ decode 0x0F000000#32 = .ok .rst) ∧
  (decode 0x04000200#32 = .error (.reservedField 1#15) ∧ decode 0x0C000001#32 = .error (.strayArgument 1#9) ∧
    decode 0x10000000#32 = .error (.reservedOpcode 0x10#8) ∧ decode 0xFF000000#32 = .error (.reservedOpcode 0xFF#8) ∧
    decode 0x0F800000#32 = .error (.reservedField 0x4000#15)) ∧
  ∀ w : CmdWord, 0x0F < w.toNat / 2 ^ 24 → ∃ e, decode w = .error e

/-- Decode and encode agree: a word decodes to a command exactly when it is that command's word, with ARG at every
value, so every command has one word and every word at most one command (R90 to R92, R94). -/
def Obligations.DecodeExactlyInvertsEncode : Prop :=
  ∀ (w : CmdWord) (i : Instr), decode w = .ok i ↔ w = encode i

/-- R95: the bits of a NODE element, and the two examples of the rule. Nothing of a record or of a word is lost. -/
def Obligations.NodeRecordLayout : Prop :=
  (∀ (nf : Nat) (r : NodeRec), r.freq < 2 ^ nf →
    r.toWord nf < 2 ^ (nf + 28) ∧
    (r.toWord nf).testBit (nf + 27) = r.v ∧
    ((r.toWord nf).testBit (nf + 26) = true ↔ r.k = .internal) ∧
    r.toWord nf / 2 ^ (nf + 18) % 2 ^ 8 = r.sym.toNat ∧
    r.toWord nf / 2 ^ (nf + 9) % 2 ^ 9 = r.left.toNat ∧
    r.toWord nf / 2 ^ nf % 2 ^ 9 = r.right.toNat ∧
    r.toWord nf % 2 ^ nf = r.freq ∧
    NodeRec.ofWord nf (r.toWord nf) = r) ∧
  (∀ nf w : Nat, w < 2 ^ (nf + 28) → (NodeRec.ofWord nf w).toWord nf = w) ∧
  (leafRec 0x61#8 5).toWord 40 = 0x987FFFF0000000005 ∧ (internalRec 0#9 1#9 14).toWord 40 = 0xC000001000000000E

/-- R97: V is bit 263, LEN bits 262:255, code bit c[i] is bit 254 − i; a record that the engine writes for a code of
1 to 255 bits has that length and those bits, and zeros after them; the example of the rule. -/
def Obligations.CodeRecordLayout : Prop :=
  (∀ r : CodeRec,
    r.toWord.getLsbD 263 = r.v ∧ r.toWord.extractLsb' 255 8 = r.len ∧
    (∀ i, i < 255 → r.toWord.getLsbD (254 - i) = r.codeBit i) ∧ CodeRec.ofWord r.toWord = r) ∧
  (∀ w : BitVec 264, (CodeRec.ofWord w).toWord = w) ∧
  (∀ p : List Bool, 1 ≤ p.length → p.length ≤ maxLen →
    (codeRec p).v = true ∧ (codeRec p).len.toNat = p.length ∧ (codeRec p).bits = p ∧
    ∀ i, p.length ≤ i → (codeRec p).codeBit i = false) ∧
  (codeRec [true, true, false, false]).toWord.toNat = 0x8260 * 2 ^ 248

/-! ## One step, the host port and command acceptance -/

/-- The machine never stops: every step answers a next state (R8, R258), and between steps the sequencer is idle (R21,
R66). -/
def Obligations.EveryStepAnswersANextState : Prop :=
  ∀ s : State, ∃ t, step s = .next t ∧ (s.ph = .idle → t.ph = .idle)

/-- A step runs the decoded command: the command word that the host presents is taken off the port, PH is RUN while
the command's rule is executed and IDLE after it; unless a pending error makes the word ignored (R21, R93). So the whole
command is one step, whatever its length (R8, R257). -/
def Obligations.StepRunsTheDecodedCommand : Prop :=
  ∀ (s : State) (v : Nat) (rest : List Input) (i : Instr),
    s.Offers (.write .reg 1 v) rest → decode (BitVec.ofNat 32 v) = .ok i → (s.err = none ∨ i = .clre ∨ i = .rst) →
    ∃ t, exec i ((s.setInputs rest).setPh .run) = .next t ∧ step s = .next (t.setPh .idle)

/-- R93: the five cases of command acceptance in their order, on the fields OP = w[31:24], ZERO = w[23:9] and ARG =
w[8:0]: RST and CLRE when well-formed, whatever STATUS.ERR is; any other word ignored while an error is pending; an
ill-formed word is illegal; otherwise the rule of the command that OP selects is executed, PH being RUN meanwhile. -/
def Obligations.CommandAcceptance : Prop :=
  ∀ (s u : State) (w : CmdWord) (rest : List Input) (op res arg : Nat) (wellformed : Prop),
    s.Offers (.write .reg 1 w.toNat) rest → u = s.setInputs rest →
    op = w.toNat / 2 ^ 24 → res = w.toNat / 2 ^ 9 % 2 ^ 15 → arg = w.toNat % 2 ^ 9 →
    (wellformed ↔ op ≤ 0x0F ∧ res = 0 ∧ (arg = 0 ∨ op = 0x04)) →
    (wellformed → op = 0x0F → step s = exec .rst u) ∧
    (wellformed → op = 0x0E → step s = exec .clre u) ∧
    (¬ (wellformed ∧ (op = 0x0F ∨ op = 0x0E)) → s.err ≠ none → step s = .next u) ∧
    (¬ wellformed → s.err = none → step s = .next (u.raiseError .illegalCommand)) ∧
    (wellformed → op ≠ 0x0F → op ≠ 0x0E → s.err = none → ∃ i t,
      (opcode i).toNat = op ∧ (argument i).toNat = arg ∧ exec i (u.setPh .run) = .next t ∧
      step s = .next (t.setPh .idle))

/-- R219: with no error pending, a word with OP above 0x0F, a non-zero ZERO field, or a non-zero ARG outside HINS
raises IllegalCommandError, and nothing but STATUS.ERR changes. -/
def Obligations.IllegalCommandErrorChangesErrAlone : Prop :=
  ∀ (s : State) (w : CmdWord) (rest : List Input),
    s.Offers (.write .reg 1 w.toNat) rest → s.err = none →
    (0x0F < w.toNat / 2 ^ 24 ∨ w.toNat / 2 ^ 9 % 2 ^ 15 ≠ 0 ∨ (w.toNat % 2 ^ 9 ≠ 0 ∧ w.toNat / 2 ^ 24 ≠ 0x04)) →
    step s = .next ((s.setInputs rest).setErr (some .illegalCommand)) ∧ ErrorCode.illegalCommand.code = 9#4

/-- R63: a transaction whose index is not below the element count reaches nothing: the write changes no state, the
read returns 0. -/
def Obligations.OutOfRangeTransactionsReachNothing : Prop :=
  ∀ (s : State) (sp : Space) (i v : Nat) (rest : List Input), spaceSize s.cfg sp ≤ i →
    (s.Offers (.write sp i v) rest → step s = .next (s.setInputs rest)) ∧
    (s.Offers (.read sp i) rest → step s = .next ((s.setInputs rest).reply 0))

/-- R64: a write to a read-only element changes no state; CMD reads 0; the reserved bits of STATUS read 0; a read
changes nothing but the replies given, and what it returns depends on no transaction waiting or answered. A read of any
element below the element count, read-only or not, returns that element as it is in the state (the registers of R22 by
index, the spaces of R62, the records laid out as in R95 and R97; REG.STATUS is StatusRegisterLayout's). -/
def Obligations.ReadOnlyElementsAndReads : Prop :=
  (∀ (s : State) (sp : Space) (i v : Nat) (rest : List Input), s.Offers (.write sp i v) rest →
    hostReadOnly sp i = true → step s = .next (s.setInputs rest)) ∧
  (∀ s : State, hostRead s .reg 1 = 0 ∧ hostRead s .reg 0 < 2 ^ 5) ∧
  (∀ (s : State) (sp : Space) (i : Nat) (rest : List Input), s.Offers (.read sp i) rest →
    step s = .next ((s.setInputs rest).reply (hostRead s sp i)) ∧ ∀ p, hostRead (s.setPort p) sp i = hostRead s sp i) ∧
  (∀ s : State, hostRead s .reg 2 = s.symcnt ∧ hostRead s .reg 3 = s.bitcnt ∧ hostRead s .reg 4 = s.outcnt ∧
    hostRead s .reg 5 = s.root.toNat ∧ hostRead s .reg 6 = s.ncnt.toNat ∧ hostRead s .reg 7 = s.ndist.toNat ∧
    hostRead s .reg 8 = s.hsize.toNat ∧ hostRead s .reg 9 = s.hcap.toNat ∧ hostRead s .reg 10 = s.res.toNat) ∧
  (∀ (s : State) (i : Nat),
    (i < nodeCap → hostRead s .heap i = (heapAt s.heap i).toNat) ∧
    (i < s.cfg.symCap → hostRead s .out i = (byteAt s.out i).toNat ∧ hostRead s .sym i = (byteAt s.sym i).toNat) ∧
    (i < s.cfg.byteCap → hostRead s .bit i = (byteAt s.bit i).toNat)) ∧
  (∀ (s : State) (b : Byte),
    hostRead s .ft b.toNat = ftAt s.ft b ∧ hostRead s .ct b.toNat = (ctAt s.ct b).toWord.toNat) ∧
  (∀ (s : State) (h : Handle), h ≠ null → hostRead s .node h.toNat = (nodeAt s.node h).toWord s.cfg.nfreqBits)

/-- A host write to a read-write element stores the value, and a host read of that element returns it (R60, R65, R71). -/
def Obligations.HostReadsBackWhatItWrote : Prop :=
  ∀ (s : State) (sp : Space) (i v : Nat) (rest : List Input), s.Offers (.write sp i v) rest →
    hostWritable sp i = true → i < spaceSize s.cfg sp → v < 2 ^ elementWidth s.cfg sp i →
    ∃ t, step s = .next t ∧ hostRead t sp i = v

/-- R45: (a) a host write to a NODE element stores the record, clears TV, HSIZE, NCNT, NDIST and every OWN bit, and
changes nothing else; (b) a host write to REG.ROOT stores the handle and clears TV; no other host write (a write of
REG.CMD starts a command) and no host read changes anything beyond the element. -/
def Obligations.HostWriteSideEffects : Prop :=
  ∀ (s u : State) (i v : Nat) (rest : List Input), u = s.setInputs rest →
    (s.Offers (.write .node i v) rest → i < nodeCap → v < 2 ^ elementWidth s.cfg .node i → ∃ m,
      step s = .next ((((((u.setNode m).setTv false).setHsize 0#9).setNcnt 0#9).setNdist 0#9).setOwn []) ∧
      (∀ h, ownAt [] h = false) ∧
      ∀ h, nodeAt m h = if h.toNat = i then NodeRec.ofWord s.cfg.nfreqBits v else nodeAt s.node h) ∧
    (s.Offers (.write .reg 5 v) rest → v < 2 ^ elementWidth s.cfg .reg 5 →
      step s = .next ((u.setRoot (BitVec.ofNat 9 v)).setTv false)) ∧
    (s.Offers (.write .reg 2 v) rest → v < 2 ^ elementWidth s.cfg .reg 2 →
      step s = .next (u.setSymcnt v)) ∧
    (s.Offers (.write .reg 3 v) rest → v < 2 ^ elementWidth s.cfg .reg 3 →
      step s = .next (u.setBitcnt v)) ∧
    (s.Offers (.write .sym i v) rest → i < s.cfg.symCap → v < 2 ^ elementWidth s.cfg .sym i → ∃ m,
      step s = .next (u.setSym m) ∧
      ∀ j, byteAt m j = if j = i then BitVec.ofNat 8 v else byteAt s.sym j) ∧
    (s.Offers (.write .ft i v) rest → i < nSym → v < 2 ^ elementWidth s.cfg .ft i → ∃ m,
      step s = .next (u.setFt m) ∧
      ∀ b, ftAt m b = if b.toNat = i then v else ftAt s.ft b) ∧
    (s.Offers (.write .ct i v) rest → i < nSym → v < 2 ^ elementWidth s.cfg .ct i → ∃ m,
      step s = .next (u.setCt m) ∧
      ∀ b, ctAt m b = if b.toNat = i then CodeRec.ofWord (BitVec.ofNat 264 v) else ctAt s.ct b) ∧
    (s.Offers (.write .bit i v) rest → i < s.cfg.byteCap → v < 2 ^ elementWidth s.cfg .bit i → ∃ m,
      step s = .next (u.setBit m) ∧
      ∀ j, byteAt m j = if j = i then BitVec.ofNat 8 v else byteAt s.bit j) ∧
    (∀ sp, s.Offers (.read sp i) rest → ∃ x, step s = .next (u.reply x))

/-- A transaction presented while PH = RUN is held off, not dropped; with none presented the engine waits; the
power-on reset is taken at any time (R66, R240, R241; a step without a transaction changes no state, so none counts
time, R257, R231; that a held-off transaction takes a step that changes nothing is
the model's choice, notes/assumptions/4.md). -/
def Obligations.TransactionsWaitWhileACommandRuns : Prop :=
  ∀ (s : State) (rest : List Input) (sp : Space) (i v : Nat) (d : Draw),
    (s.port.inputs = [] → step s = .next s) ∧
    (s.ph = .run → s.port.inputs = .read sp i :: rest ∨ s.port.inputs = .write sp i v :: rest → step s = .next s) ∧
    (s.port.inputs = .powerOn d :: rest → step s = .next (powerOn d (s.setInputs rest)))

/-! ## Errors -/

/-- The ten codes of R210; which commands other than ENC raise each error (IllegalCommandError comes from command
acceptance alone); CLRE clears every error but EmptyHeapError, RST clears every one. -/
def Obligations.ErrorCodesRaisersAndClearers : Prop :=
  (ErrorCode.emptyInput.code = 1#4 ∧ ErrorCode.emptyHeap.code = 2#4 ∧ ErrorCode.truncatedStream.code = 3#4 ∧
    ErrorCode.malformedTree.code = 4#4 ∧ ErrorCode.invalidCode.code = 5#4 ∧ ErrorCode.countMismatch.code = 6#4 ∧
    ErrorCode.noCode.code = 7#4 ∧ ErrorCode.capacity.code = 8#4 ∧ ErrorCode.illegalCommand.code = 9#4 ∧
    ErrorCode.operand.code = 10#4) ∧
  (∀ (i : Instr) (s t : State) (e : ErrorCode), i ≠ .enc → exec i s = .next t → t.err = some e →
    s.err ≠ some e → raisedBy e i = true) ∧
  (∀ (s : State) (e : ErrorCode), s.err = some e →
    (∃ t, exec .clre s = .next t ∧ t.err = if e = .emptyHeap then some .emptyHeap else none) ∧
    ∃ t, exec .rst s = .next t ∧ t.err = none)

/-- ENC refuses more symbols than SYM holds with CapacityError and no other change (R190, R223); and it raises no error
but EmptyInputError and CapacityError: it meets no empty heap, no malformed tree and no symbol
without a code (R190, R191, R210, R212, R217; CapacityError from its packing is kept possible, since the minimality of
the code is not proved, 93_implementation_defined.md U15). -/
def Obligations.EncRaisesOnlyTwoErrors : Prop :=
  (∀ s : State, s.symcnt ≠ 0 → s.cfg.symCap < s.symcnt → exec .enc s = .next (s.raiseError .capacity)) ∧
  (∀ (s t : State) (e : ErrorCode), s.cfg.Valid → exec .enc s = .next t → t.err = some e → s.err ≠ some e →
    (e = .emptyInput ∧ s.symcnt = 0) ∨ (e = .capacity ∧ s.symcnt ≠ 0))

/-- REG.STATUS as the host reads it: ERR in bits 3:0, TV in bit 4, the rest 0 (R23). -/
def Obligations.StatusRegisterLayout : Prop :=
  ∀ s : State,
    hostRead s .reg 0 % 2 ^ 4 = (match s.err with | none => 0 | some e => e.code.toNat) ∧
    hostRead s .reg 0 / 2 ^ 4 = s.tv.toNat

/-- R211: ENC of an empty input raises EmptyInputError before it writes anything; no other command raises it. -/
def Obligations.EmptyInputErrorIsEncsAlone : Prop :=
  (∀ s : State, s.symcnt = 0 → exec .enc s = .next (s.raiseError .emptyInput)) ∧
  (∀ (i : Instr) (s t : State), exec i s = .next t → t.err = some .emptyInput → s.err ≠ some .emptyInput →
    i = .enc ∧ s.symcnt = 0)

/-- STATUS.ERR never goes from one error to another: a step keeps a pending error or clears it (R226). -/
def Obligations.NoErrorReplacesAnother : Prop :=
  ∀ (s t : State) (e : ErrorCode), s.err = some e → step s = .next t → t.err = some e ∨ t.err = none

/-- While an error is pending, a command word other than a well-formed CLRE or RST, legal or not, changes nothing: it is
taken off the port and no more (R226, R227, R247). -/
def Obligations.PendingErrorRefusesCommands : Prop :=
  ∀ (s : State) (v : Nat) (rest : List Input),
    s.Offers (.write .reg 1 v) rest → s.err ≠ none → v % 2 ^ 32 ≠ 0x0E000000 → v % 2 ^ 32 ≠ 0x0F000000 →
    step s = .next (s.setInputs rest)

/-- EmptyHeapError is left only by RST or by a power-on reset (R212, R226). -/
def Obligations.OnlyResetLeavesEmptyHeapError : Prop :=
  ∀ s t : State, s.err = some .emptyHeap → step s = .next t → t.err ≠ some .emptyHeap →
    (∃ d rest, s.port.inputs = .powerOn d :: rest) ∨
    (∃ v rest, s.Offers (.write .reg 1 v) rest ∧ v % 2 ^ 32 = 0x0F000000)

/-! ## System commands and reset -/

/-- R200: NOP changes no state, and the all-zero word is harmless with or without a pending error. -/
def Obligations.NopChangesNothing : Prop :=
  decode 0x00000000#32 = .ok .nop ∧
  (∀ s : State, exec .nop s = .next s) ∧
  (∀ (s : State) (rest : List Input), s.Offers (.write .reg 1 0) rest →
    step s = .next (s.setInputs rest))

/-- R201: CLRE sets STATUS.ERR to 0 unless it is EmptyHeapError and changes nothing else; it is accepted whatever
STATUS.ERR is; an ill-formed CLRE word is ignored or illegal; the example of the rule. -/
def Obligations.ClreClearsAllButEmptyHeapError : Prop :=
  decode 0x0E000000#32 = .ok .clre ∧
  (∀ s : State, exec .clre s = .next (if s.err = some .emptyHeap then s else s.setErr none)) ∧
  (∀ (s : State) (w : CmdWord) (rest : List Input), s.Offers (.write .reg 1 w.toNat) rest →
    (w = 0x0E000000#32 → step s = exec .clre (s.setInputs rest)) ∧
    (w.toNat / 2 ^ 24 = 0x0E → w.toNat % 2 ^ 24 ≠ 0 →
      step s = .next (if s.err = none then (s.setInputs rest).setErr (some .illegalCommand) else s.setInputs rest))) ∧
  (∀ s : State, s.status = 0x13#32 → ∃ t, exec .clre s = .next t ∧ t.status = 0x10#32)

/-- R202: RST writes the reset value of every register, clears every valid and ownership bit, and leaves the other
contents of the memories; it is accepted whatever STATUS.ERR is, and no other command word leaves EmptyHeapError; an
ill-formed RST word is ignored or illegal. -/
def Obligations.RstResetsRegistersAndValidBits : Prop :=
  decode 0x0F000000#32 = .ok .rst ∧
  (∀ s : State, ∃ t, exec .rst s = .next t ∧
    t.err = none ∧ t.tv = false ∧ t.symcnt = 0 ∧ t.bitcnt = 0 ∧ t.outcnt = 0 ∧ t.root = null ∧ t.res = null ∧
    t.ncnt = 0#9 ∧ t.ndist = 0#9 ∧ t.hsize = 0#9 ∧ t.hcap = 0#9 ∧
    (∀ h, nodeAt t.node h = { nodeAt s.node h with v := false }) ∧ (∀ h, ownAt t.own h = false) ∧
    (∀ b, ctAt t.ct b = { ctAt s.ct b with v := false }) ∧
    t.sym = s.sym ∧ t.ft = s.ft ∧ t.heap = s.heap ∧ t.bit = s.bit ∧ t.out = s.out ∧
    t.cfg = s.cfg ∧ t.port = s.port ∧ t.ph = s.ph) ∧
  (∀ (s : State) (w : CmdWord) (rest : List Input), s.Offers (.write .reg 1 w.toNat) rest →
    (w = 0x0F000000#32 → step s = exec .rst (s.setInputs rest)) ∧
    (w.toNat / 2 ^ 24 = 0x0F → w.toNat % 2 ^ 24 ≠ 0 →
      step s = .next (if s.err = none then (s.setInputs rest).setErr (some .illegalCommand) else s.setInputs rest)) ∧
    (w ≠ 0x0F000000#32 → s.err = some .emptyHeap → ∃ t, step s = .next t ∧ t.err = some .emptyHeap))

/-- R47: after a power-on reset every register has its reset value, every valid and ownership bit is 0, and the
contents that the rule leaves unspecified are those the event drew, whatever they are. -/
def Obligations.PowerOnResetValues : Prop :=
  ∀ (s t : State) (d : Draw), t = powerOn d s →
    t.ph = .idle ∧ t.err = none ∧ t.tv = false ∧ t.symcnt = 0 ∧ t.bitcnt = 0 ∧ t.outcnt = 0 ∧ t.root = null ∧
    t.ncnt = 0#9 ∧ t.ndist = 0#9 ∧ t.hsize = 0#9 ∧ t.hcap = 0#9 ∧ t.res = null ∧
    (∀ h, ownAt t.own h = false) ∧ (∀ h, (nodeAt t.node h).v = false) ∧ (∀ b, (ctAt t.ct b).v = false) ∧
    (∀ h, h ≠ null → (nodeAt t.node h).k = (nodeAt d.node h).k ∧ (nodeAt t.node h).sym = (nodeAt d.node h).sym ∧
      (nodeAt t.node h).left = (nodeAt d.node h).left ∧ (nodeAt t.node h).right = (nodeAt d.node h).right ∧
      (nodeAt t.node h).freq = narrow s.cfg.nfreqBits (nodeAt d.node h).freq) ∧
    (∀ b, (ctAt t.ct b).len = (ctAt d.ct b).len ∧ (ctAt t.ct b).code = (ctAt d.ct b).code) ∧
    (∀ b, ftAt t.ft b = narrow s.cfg.freqBits (ftAt d.ft b)) ∧
    (∀ i, i < s.cfg.symCap → byteAt t.sym i = byteAt d.sym i ∧ byteAt t.out i = byteAt d.out i) ∧
    (∀ i, i < s.cfg.byteCap → byteAt t.bit i = byteAt d.bit i) ∧
    (∀ i, i < nodeCap → heapAt t.heap i = heapAt d.heap i) ∧ t.cfg = s.cfg

/-- What each command does right after a power-on reset, whatever was drawn, or after RST (R242). -/
def Obligations.CommandsRightAfterReset : Prop :=
  ∀ (s0 s : State), (∃ d, s = powerOn d s0) ∨ (s0.wf = true ∧ exec .rst s0 = .next s) →
    exec .nop s = .next s ∧ exec .clre s = .next s ∧ exec .rst s = .next s ∧ exec .hbld s = .next s ∧
    exec .hext s = .next (s.raiseError .emptyHeap) ∧ exec .mrg s = .next (s.raiseError .emptyHeap) ∧
    (∀ h, exec (.hins h) s = .next (s.raiseError .operand)) ∧
    exec .tchk s = .next (s.raiseError .malformedTree) ∧ exec .cgen s = .next (s.raiseError .malformedTree) ∧
    exec .unpk s = .next (s.raiseError .malformedTree) ∧ exec .dec s = .next (s.raiseError .malformedTree) ∧
    exec .pack s = .next s ∧ exec .enc s = .next (s.raiseError .emptyInput) ∧
    (∃ t, exec .fcnt s = .next t ∧ (∀ b, ftAt t.ft b = 0) ∧ t = s.setFt t.ft ∧
      (∃ u, exec .leaves t = .next u ∧ u.hsize = 0#9 ∧ u.ncnt = 0#9 ∧ u.err = none) ∧
      (∃ u, exec .tbld t = .next u ∧ u.err = some .emptyHeap))

/-! ## Heap commands -/

/-- HBLD (R125): the heap is permuted into heap order, whatever it held; a heap already in order does not move; nothing
but HEAP[0..HSIZE−1] changes; and the array is exactly the one that SiftDown(i) for i from HSIZE div 2 − 1 down to 0
gives, a tie between two children taken to the left and an element staying above a child of equal frequency (R122,
R123): `g i` is the array after SiftDown(i). -/
def Obligations.HbldOrdersTheHeap : Prop :=
  ∀ s : State, ∃ hp, exec .hbld s = .next (s.setHeap hp) ∧ HeapOrdered (s.setHeap hp) ∧
    ((s.setHeap hp).heapList).Perm s.heapList ∧ (∀ j, s.hsize.toNat ≤ j → heapAt hp j = heapAt s.heap j) ∧
    (s.hsize.toNat ≤ 1 ∨ HeapOrdered s → hp = s.heap) ∧
    ∃ g : Nat → Nat → Handle, g (s.hsize.toNat / 2) = heapAt s.heap ∧ g 0 = heapAt hp ∧
      ∀ i, i < s.hsize.toNat / 2 → SiftsDown (freqOf s.node) s.hsize.toNat i (g (i + 1)) (g i)

/-- HINS (R126): OperandError before CapacityError, both before any write; otherwise the node is owned and in the
heap, HSIZE grows by one, and nothing changes but HEAP[0..HSIZE], HSIZE and that OWN bit; the array is exactly the one
that SiftUp gives from the node appended, which stops under a parent of equal frequency (R122, R124). -/
def Obligations.HinsInsertsOrRefuses : Prop :=
  ∀ (s : State) (h : Handle),
    (s.ncnt ≤ h ∨ ownAt s.own h = true → exec (.hins h) s = .next (s.raiseError .operand)) ∧
    (h < s.ncnt → ownAt s.own h = false → s.hsize = s.hcap → exec (.hins h) s = .next (s.raiseError .capacity)) ∧
    (h < s.ncnt → ownAt s.own h = false → s.hsize ≠ s.hcap → s.hsize.toNat < nodeCap → ∃ hp ow,
      exec (.hins h) s = .next (((s.setHeap hp).setOwn ow).setHsize (s.hsize + 1#9)) ∧
      (((s.setHeap hp).setHsize (s.hsize + 1#9)).heapList).Perm (h :: s.heapList) ∧
      (∀ j, s.hsize.toNat < j → heapAt hp j = heapAt s.heap j) ∧
      (∀ g, ownAt ow g = if g = h then true else ownAt s.own g) ∧
      SiftsUp (freqOf s.node) s.hsize.toNat (fun k => if k = s.hsize.toNat then h else heapAt s.heap k) (heapAt hp))

/-- HEXT (R127): on an empty heap RES is NULL and EmptyHeapError is raised; otherwise RES is HEAP[0], its OWN bit is
cleared, HSIZE drops by one, the vacated element keeps its handle, and nothing changes but HEAP[0..HSIZE−2], HSIZE,
RES and that OWN bit; the array is exactly the one that SiftDown(0) gives from the last element moved to the root, with
the tie rules of R122 and R123. -/
def Obligations.HextTakesTheRootOut : Prop :=
  ∀ s : State,
    (s.hsize = 0#9 → exec .hext s = .next ((s.setRes null).raiseError .emptyHeap)) ∧
    (s.hsize ≠ 0#9 → ∃ hp ow,
      exec .hext s =
        .next ((((s.setHeap hp).setHsize (s.hsize - 1#9)).setOwn ow).setRes (heapAt s.heap 0)) ∧
      (heapAt s.heap 0 :: ((s.setHeap hp).setHsize (s.hsize - 1#9)).heapList).Perm s.heapList ∧
      (∀ j, s.hsize.toNat - 1 ≤ j → heapAt hp j = heapAt s.heap j) ∧
      (∀ g, ownAt ow g = if g = heapAt s.heap 0 ∧ g ≠ null then false else ownAt s.own g) ∧
      SiftsDown (freqOf s.node) (s.hsize.toNat - 1) 0
        (fun k => if k = 0 then heapAt s.heap (s.hsize.toNat - 1) else heapAt s.heap k) (heapAt hp))

/-- R128: HINS and HEXT keep heap order, also when they raise; HBLD makes it; the empty heap has it; LEAVES does not
make it in general. -/
def Obligations.HeapOrderIsKept : Prop :=
  (∀ (s t : State) (h : Handle), HeapOrdered s → exec (.hins h) s = .next t → HeapOrdered t) ∧
  (∀ s t : State, HeapOrdered s → exec .hext s = .next t → HeapOrdered t) ∧
  (∀ s t : State, exec .hbld s = .next t → HeapOrdered t) ∧
  (∀ s : State, s.hsize = 0#9 → HeapOrdered s) ∧
  (∃ s t : State, exec .leaves s = .next t ∧ ¬ HeapOrdered t)

/-- R129: from a heap in order HEXT returns the node at position 0, which has the least frequency; HINS and HEXT
change only the heap array, HSIZE, RES and OWN, STATUS.ERR and PH where they raise, and never a node record. -/
def Obligations.HextReturnsTheLeast : Prop :=
  (∀ s : State, HeapOrdered s → 0 < s.hsize.toNat → ∃ t, exec .hext s = .next t ∧ t.res = heapAt s.heap 0 ∧
    ∀ h ∈ s.heapList, freqOf s.node t.res ≤ freqOf s.node h) ∧
  (∀ (s t : State) (i : Instr), i = .hext ∨ (∃ h, i = .hins h) → exec i s = .next t →
    t = ((((((s.setHeap t.heap).setHsize t.hsize).setRes t.res).setOwn t.own).setErr t.err).setPh t.ph) ∧
    (t.err ≠ s.err → t.err = some .emptyHeap ∨ t.err = some .operand ∨ t.err = some .capacity))

/-! ## Tree builder -/

/-- R140: FCNT raises CapacityError with FT unchanged when SYMCNT > SYM_CAP; otherwise FT[s] is the number of
occurrences of s, for every s, whatever FT held before, the entries sum to SYMCNT, and nothing else changes. -/
def Obligations.FcntCountsTheInput : Prop :=
  decode 0x01000000#32 = .ok .fcnt ∧
  ∀ s : State,
    (s.cfg.symCap < s.symcnt → exec .fcnt s = .next (s.raiseError .capacity)) ∧
    (s.cfg.Valid → s.symcnt ≤ s.cfg.symCap → ∃ ft, exec .fcnt s = .next (s.setFt ft) ∧
      (∀ b, ftAt ft b = s.occurrences b) ∧ (s.setFt ft).totalCount = s.symcnt)

/-- R141: LEAVES makes one leaf per symbol with a non-zero count, in ascending symbol value, at NODE[i] and HEAP[i],
owned; every other record is invalid and otherwise unchanged; the registers are as listed; nothing else changes. -/
def Obligations.LeavesPlacesTheAlphabet : Prop :=
  decode 0x02000000#32 = .ok .leaves ∧
  ∀ (s : State) (n : Nat), s.wf = true → n = s.present.length → ∃ node heap own,
    exec .leaves s = .next
      ((((((((((s.setNode node).setHeap heap).setOwn own).setNcnt (BitVec.ofNat 9 n)).setNdist
        (BitVec.ofNat 9 n)).setHsize (BitVec.ofNat 9 n)).setHcap
        (BitVec.ofNat 9 (if n = 0 then 0 else 2 * n - 1))).setRoot null).setRes null).setTv false) ∧
    n ≤ nSym ∧
    (∀ h b, s.present[h.toNat]? = some b → nodeAt node h = leafRec b (ftAt s.ft b)) ∧
    (∀ h, n ≤ h.toNat → nodeAt node h = { nodeAt s.node h with v := false }) ∧
    (∀ i, heapAt heap i = if i < n then BitVec.ofNat 9 i else heapAt s.heap i) ∧
    (∀ h, ownAt own h = true ↔ h.toNat < n)

/-- MRG (R143, R144): with two nodes in the heap, the first extracted becomes LEFT and the second RIGHT of the new
internal node NODE[NCNT], whose frequency is their sum; it is in the heap in their place; all three are owned; no other
record changes, nor anything else but HEAP, HSIZE, RES, NCNT; from a heap in heap order freq(LEFT) ≤ freq(RIGHT).
HEAP from the old HSIZE − 1 on is as before, and below it the array is exactly the one that SiftUp gives from the new node
appended to the heap that the two extractions left (R124, R127). -/
def Obligations.MrgMergesTheFirstTwo : Prop :=
  ∀ s : State, 2 ≤ s.hsize.toNat → ∃ s1 s2 node heap own,
    exec .hext s = .next s1 ∧ exec .hext s1 = .next s2 ∧
    exec .mrg s = .next
      ((((((s.setNode node).setHeap heap).setOwn own).setHsize (s.hsize - 1#9)).setRes s2.res).setNcnt
        (s.ncnt + 1#9)) ∧
    (∀ h, h ≠ null → nodeAt node h =
      if h = s.ncnt then
        (internalRec s1.res s2.res (freqOf s.node s1.res + freqOf s.node s2.res)).atWidth s.cfg.nfreqBits
      else nodeAt s.node h) ∧
    ((((s.setHeap heap).setHsize (s.hsize - 1#9)).heapList).Perm (s.ncnt :: s2.heapList)) ∧
    (∀ h, h ≠ null →
      ownAt own h = if h = s1.res ∨ h = s2.res ∨ h = s.ncnt then true else ownAt s.own h) ∧
    (HeapOrdered s → freqOf s.node s1.res ≤ freqOf s.node s2.res) ∧
    (∀ j, s.hsize.toNat - 1 ≤ j → heapAt heap j = heapAt s.heap j) ∧
    SiftsUp (freqOf node) (s.hsize.toNat - 2) (fun k => if k = s.hsize.toNat - 2 then s.ncnt else heapAt s2.heap k)
      (heapAt heap)

/-- MRG on a heap of no node or of one node raises EmptyHeapError (R143, R223): then RES is NULL, the one node is out of
the heap and not owned, and no node is allocated. -/
def Obligations.MrgOnTooSmallAHeap : Prop :=
  ∀ s : State,
    (s.hsize = 0#9 → exec .mrg s = .next ((s.setRes null).raiseError .emptyHeap)) ∧
    (s.hsize = 1#9 → ∃ heap own,
      exec .mrg s = .next (((((s.setHeap heap).setOwn own).setHsize 0#9).setRes null).raiseError .emptyHeap) ∧
      (∀ g, ownAt own g = if g = heapAt s.heap 0 ∧ g ≠ null then false else ownAt s.own g) ∧
      (∀ j, heapAt heap j = heapAt s.heap j))

/-- TBLD with at least one non-zero count (R145, R146, R147): the registers at the end, OWN 1 for every node but the
root, every symbol's leaf in place, the root's frequency the sum of all counts, every record that is not of the tree invalid and
otherwise as before, HEAP from n on as before (R141); FT, SYM, CT, BIT, OUT and the counters are
not changed. -/
def Obligations.TbldBuildsTheTree : Prop :=
  ∀ (s : State) (n : Nat), s.wf = true → s.cfg.Valid → n = s.present.length → 1 ≤ n → ∃ node heap own,
    exec .tbld s = .next
      ((((((((((s.setNode node).setHeap heap).setOwn own).setNcnt (BitVec.ofNat 9 (2 * n - 1))).setNdist
        (BitVec.ofNat 9 n)).setHsize 0#9).setHcap (BitVec.ofNat 9 (2 * n - 1))).setRoot
        (BitVec.ofNat 9 (2 * n - 2))).setRes (BitVec.ofNat 9 (2 * n - 2))).setTv true) ∧
    (∀ h b, s.present[h.toNat]? = some b → nodeAt node h = leafRec b (ftAt s.ft b)) ∧
    (∀ h, 2 * n - 1 ≤ h.toNat → nodeAt node h = { nodeAt s.node h with v := false }) ∧
    (∀ j, n ≤ j → heapAt heap j = heapAt s.heap j) ∧
    (∀ h, ownAt own h = true ↔ h.toNat < 2 * n - 2) ∧
    freqOf node (BitVec.ofNat 9 (2 * n - 2)) = s.totalCount

/-- TBLD on an all-zero table (R148): EmptyHeapError, with the state LEAVES makes for no symbol. -/
def Obligations.TbldOnAnEmptyAlphabet : Prop :=
  ∀ s : State, (∀ b, ftAt s.ft b = 0) → ∃ node,
    exec .tbld s = .next
      (((((((((((s.setNode node).setOwn []).setNcnt 0#9).setNdist 0#9).setHsize 0#9).setHcap 0#9).setRoot
        null).setRes null).setTv false).setErr (some .emptyHeap)).setPh .idle) ∧
    ∀ h, nodeAt node h = { nodeAt s.node h with v := false }

/-- R150: every tree built by TBLD satisfies T1 to T4 and more: each internal node's frequency is the sum of its
children's and each child handle is smaller than its parent's; its leaves are one for each symbol with a non-zero count,
with that count; each node but the root is owned by exactly one parent. -/
def Obligations.TbldTreesAreWellFormed : Prop :=
  ∀ s t : State, s.wf = true → s.cfg.Valid → (∃ b, ftAt s.ft b ≠ 0) → exec .tbld s = .next t →
    IsTree t.node t.root ∧
    (∀ h ∈ t.handles, (nodeAt t.node h).k = .internal →
      (nodeAt t.node h).left < h ∧ (nodeAt t.node h).right < h ∧
      (nodeAt t.node h).freq = freqOf t.node (nodeAt t.node h).left + freqOf t.node (nodeAt t.node h).right) ∧
    (∀ b, (∃ p h, Reaches t.node t.root p h ∧ (nodeAt t.node h).k = .leaf ∧ (nodeAt t.node h).sym = b) ↔
      ftAt s.ft b ≠ 0) ∧
    (∀ p h, Reaches t.node t.root p h → (nodeAt t.node h).k = .leaf →
      (nodeAt t.node h).freq = ftAt s.ft (nodeAt t.node h).sym) ∧
    (∀ h ∈ t.handles, h ≠ t.root → (t.handles.filter (fun p => isParent t.node p h)).length = 1) ∧
    (∀ h ∈ t.handles, ∃ p, Reaches t.node t.root p h)

/-- R151: the tree, its layout and REG.ROOT after TBLD are a function of FT and of nothing else. -/
def Obligations.TbldDependsOnFtAlone : Prop :=
  ∀ s1 s2 t1 t2 : State, s1.cfg = s2.cfg → (∀ b, ftAt s1.ft b = ftAt s2.ft b) →
    exec .tbld s1 = .next t1 → exec .tbld s2 = .next t2 →
    t1.root = t2.root ∧ t1.ncnt = t2.ncnt ∧ t1.ndist = t2.ndist ∧
    ∀ h, h ≠ null → (nodeAt t1.node h).v = (nodeAt t2.node h).v ∧
      ((nodeAt t1.node h).v = true → nodeAt t1.node h = nodeAt t2.node h)

/-- TCHK (R149) passes exactly on the records that satisfy T1 to T4: then TV = 1 and nothing else changes; otherwise TV
= 0 and MalformedTreeError is raised. -/
def Obligations.TchkDecidesTheInvariants : Prop :=
  ∀ s : State,
    (IsTree s.node s.root → exec .tchk s = .next (s.setTv true)) ∧
    (¬ IsTree s.node s.root → exec .tchk s = .next ((s.setTv false).raiseError .malformedTree))

/-! ## Code table -/

/-- CGEN on a tree (R160 to R162): every symbol with a leaf gets the path to it as its code, or `0` in the single-leaf
tree; every other entry is invalid and otherwise unchanged; TV = 1; nothing else changes. -/
def Obligations.CgenWritesThePaths : Prop :=
  ∀ s : State, IsTree s.node s.root → ∃ ct, exec .cgen s = .next ((s.setCt ct).setTv true) ∧
    ∀ b, (∀ c, CodeOf s.node s.root b c → ctAt ct b = codeRec c ∧ 1 ≤ c.length ∧ c.length ≤ maxLen) ∧
      ((∀ c, ¬ CodeOf s.node s.root b c) → ctAt ct b = { ctAt s.ct b with v := false })

/-- CGEN on records that are no tree, with TV = 0 (R161, R223): MalformedTreeError, every code invalid. -/
def Obligations.CgenRefusesMalformedTrees : Prop :=
  ∀ s : State, s.tv = false → ¬ IsTree s.node s.root → ∃ ct,
    exec .cgen s = .next ((s.setCt ct).raiseError .malformedTree) ∧
    ∀ b, ctAt ct b = { ctAt s.ct b with v := false }

/-- R163, G1 to G4: after a successful CGEN exactly the symbols of leaves have a code, of 1 to 255 bits; no code is a
prefix of another; the Kraft sum over the valid entries is 1 when the root is an internal node and 1/2 when it is a
leaf (here scaled by 2^255). -/
def Obligations.CodesArePrefixFreeAndComplete : Prop :=
  ∀ s t : State, IsTree s.node s.root → exec .cgen s = .next t →
    (∀ b, (ctAt t.ct b).v = true ↔ ∃ c, CodeOf s.node s.root b c) ∧
    (∀ b, (ctAt t.ct b).v = true → 1 ≤ (ctAt t.ct b).len.toNat ∧ CodeOf s.node s.root b (ctAt t.ct b).bits) ∧
    (∀ a b, a ≠ b → (ctAt t.ct a).v = true → (ctAt t.ct b).v = true → ¬ (ctAt t.ct a).bits <+: (ctAt t.ct b).bits) ∧
    ((alphabet.filter (fun b => (ctAt t.ct b).v)).map (fun b => 2 ^ (255 - (ctAt t.ct b).len.toNat))).sum =
      (if (nodeAt s.node s.root).k = .internal then 2 ^ 255 else 2 ^ 254)

/-! ## Packer and unpacker -/

/-- R171, R172: when every input symbol has a usable code and the stream fits, PACK stores the concatenated codes, most
significant bit first, BITCNT is their total length, the padding of the last byte is 0, the bytes beyond are not
written, and nothing else changes. -/
def Obligations.PackWritesTheCodeStream : Prop :=
  ∀ (s : State) (l : Nat), s.cfg.Valid → s.symcnt ≤ s.cfg.symCap → (∀ k, k < s.symcnt → (s.codeAt k).usable = true) →
    l = (s.codeStream s.symcnt).length → l ≤ 8 * s.cfg.byteCap → ∃ bit,
      exec .pack s = .next ((s.setBit bit).setBitcnt l) ∧ narrow s.cfg.nfreqBits l = l ∧
      l = ((List.range s.symcnt).map (fun k => (s.codeAt k).len.toNat)).sum ∧
      (∀ j, j < l → (s.codeStream s.symcnt)[j]? = some (streamBit bit j)) ∧
      (∀ j, l ≤ j → j < 8 * ((l + 7) / 8) → streamBit bit j = false) ∧
      (∀ i, (l + 7) / 8 ≤ i → byteAt bit i = byteAt s.bit i) ∧
      s.symcnt ≤ l ∧ l ≤ 255 * s.symcnt

/-- The errors of PACK in their order (R170, R217, R218, R224): too many symbols; at the first symbol `k` that fails, no
usable code before no room for the code; BITCNT is 0, and nothing else has changed but BIT, which holds the codes of the
symbols before `k`, in zeros up to the end of its last byte, and is as before beyond (R223, R225). -/
def Obligations.PackErrors : Prop :=
  ∀ s : State,
    (s.cfg.symCap < s.symcnt → exec .pack s = .next ((s.setBitcnt 0).raiseError .capacity)) ∧
    (∀ k, s.symcnt ≤ s.cfg.symCap → k < s.symcnt → (∀ j, j < k → (s.codeAt j).usable = true) →
      (s.codeStream k).length ≤ 8 * s.cfg.byteCap →
      ((s.codeAt k).usable = false → ∃ bit, HoldsStream s.bit bit (s.codeStream k) ∧
        exec .pack s = .next (((s.setBitcnt 0).setBit bit).raiseError .noCode)) ∧
      ((s.codeAt k).usable = true → 8 * s.cfg.byteCap < (s.codeStream (k + 1)).length →
        ∃ bit, HoldsStream s.bit bit (s.codeStream k) ∧
          exec .pack s = .next (((s.setBitcnt 0).setBit bit).raiseError .capacity)))

/-- UNPK on a tree (R173): when the stream is a sequence of at most SYM_CAP code words, OUT holds their symbols in order,
OUTCNT their number, TV = 1, and nothing else changes; and a stream that UNPK unpacks without an error is the
concatenation of the codes of the symbols it gives. -/
def Obligations.UnpkParsesTheStream : Prop :=
  (∀ (s : State) (bs : List Byte) (cs : List (List Bool)), IsTree s.node s.root → s.cfg.Valid →
    s.bitcnt ≤ 8 * s.cfg.byteCap → List.Forall₂ (CodeOf s.node s.root) bs cs → cs.flatten = s.stream →
    bs.length ≤ s.cfg.symCap → ∃ out t, exec .unpk s = .next t ∧
      t = (((s.setTv true).setOut out).setOutcnt bs.length) ∧ t.output = bs ∧
      ∀ j, bs.length ≤ j → byteAt out j = byteAt s.out j) ∧
  (∀ s t : State, IsTree s.node s.root → s.cfg.Valid → s.err = none → exec .unpk s = .next t → t.err = none →
    ∃ cs, List.Forall₂ (CodeOf s.node s.root) t.output cs ∧ cs.flatten = s.stream)

/-- The errors of UNPK in their order (R173 to R175, R224): no tree; too many bits; a 1 bit with a single-leaf tree; a
symbol beyond OUT; bits that run out inside a code word. OUTCNT is 0, TV = 1 from the check on, and nothing else has
changed but OUT, which holds the symbols of the whole code words parsed (SYM_CAP of them where OUT is full) and is as
before beyond (R223, R225). -/
def Obligations.UnpkErrors : Prop :=
  ∀ s u : State, u = s.setOutcnt 0 →
    (s.tv = false → ¬ IsTree s.node s.root → exec .unpk s = .next (u.raiseError .malformedTree)) ∧
    (IsTree s.node s.root → 8 * s.cfg.byteCap < s.bitcnt →
      exec .unpk s = .next ((u.setTv true).raiseError .capacity)) ∧
    (∀ bs cs r, IsTree s.node s.root → s.bitcnt ≤ 8 * s.cfg.byteCap → List.Forall₂ (CodeOf s.node s.root) bs cs →
      cs.flatten ++ r = s.stream →
      (bs.length ≤ s.cfg.symCap → (nodeAt s.node s.root).k = .leaf → r.head? = some true →
        ∃ out, HoldsSymbols s.out out bs ∧
          exec .unpk s = .next (((u.setTv true).setOut out).raiseError .invalidCode)) ∧
      (bs.length = s.cfg.symCap + 1 → ∃ out, HoldsSymbols s.out out (bs.take s.cfg.symCap) ∧
        exec .unpk s = .next (((u.setTv true).setOut out).raiseError .capacity)) ∧
      (bs.length ≤ s.cfg.symCap → r ≠ [] → PartialCode s.node s.root r →
        ∃ out, HoldsSymbols s.out out bs ∧
          exec .unpk s = .next (((u.setTv true).setOut out).raiseError .truncatedStream)))

/-! ## Facade -/

/-- DEC on a tree (R192): when the stream is exactly SYMCNT code words, OUT holds their symbols in order, OUTCNT is
SYMCNT, TV = 1, and nothing else changes. -/
def Obligations.DecDecodesTheArtifact : Prop :=
  ∀ (s : State) (bs : List Byte) (cs : List (List Bool)), IsTree s.node s.root → s.cfg.Valid →
    s.bitcnt ≤ 8 * s.cfg.byteCap → s.symcnt ≤ s.cfg.symCap → List.Forall₂ (CodeOf s.node s.root) bs cs →
    cs.flatten = s.stream → bs.length = s.symcnt → ∃ out t, exec .dec s = .next t ∧
      t = (((s.setTv true).setOut out).setOutcnt s.symcnt) ∧ t.output = bs ∧
      ∀ j, s.symcnt ≤ j → byteAt out j = byteAt s.out j

/-- The errors of DEC in their order (R192, R224): no tree; a count too large; bits that run out while symbols are owed,
inside or between code words; a 1 bit with a single-leaf tree; bits left over. OUTCNT is 0, TV = 1 from the check on, and
nothing else has changed but OUT, which holds the symbols of the whole code words decoded and is as before beyond (R223,
R225). -/
def Obligations.DecErrors : Prop :=
  ∀ s u : State, u = s.setOutcnt 0 →
    (s.tv = false → ¬ IsTree s.node s.root → exec .dec s = .next (u.raiseError .malformedTree)) ∧
    (IsTree s.node s.root → s.cfg.symCap < s.symcnt ∨ 8 * s.cfg.byteCap < s.bitcnt →
      exec .dec s = .next ((u.setTv true).raiseError .capacity)) ∧
    (∀ bs cs r, IsTree s.node s.root → s.symcnt ≤ s.cfg.symCap → s.bitcnt ≤ 8 * s.cfg.byteCap →
      List.Forall₂ (CodeOf s.node s.root) bs cs → cs.flatten ++ r = s.stream →
      (bs.length < s.symcnt → PartialCode s.node s.root r →
        ∃ out, HoldsSymbols s.out out bs ∧
          exec .dec s = .next (((u.setTv true).setOut out).raiseError .truncatedStream)) ∧
      (bs.length < s.symcnt → (nodeAt s.node s.root).k = .leaf → r.head? = some true →
        ∃ out, HoldsSymbols s.out out bs ∧
          exec .dec s = .next (((u.setTv true).setOut out).raiseError .invalidCode)) ∧
      (bs.length = s.symcnt → r ≠ [] →
        ∃ out, HoldsSymbols s.out out bs ∧
          exec .dec s = .next (((u.setTv true).setOut out).raiseError .countMismatch)))

/-- UNPK inverts PACK (R176): with the table that CGEN made from the tree, what PACK packed without an error is unpacked
to the input; and so does DEC, whose walk is UNPK's, driven by SYMCNT (R192 with R176). -/
def Obligations.UnpackingInvertsPacking : Prop :=
  ∀ s s1 s2 : State, IsTree s.node s.root → s.cfg.Valid → s.err = none → exec .cgen s = .next s1 →
    exec .pack s1 = .next s2 → s2.err = none →
    (∃ t, exec .unpk s2 = .next t ∧ t.err = none ∧ t.outcnt = s.symcnt ∧ t.output = s.input s.symcnt) ∧
    (∃ t, exec .dec s2 = .next t ∧ t.err = none ∧ t.outcnt = s.symcnt ∧ t.output = s.input s.symcnt)

/-- ENC completes (R190, R191) on every non-empty input that fits SYM and whose longest possible codes fit BIT: FT holds the
counts, a tree and a covering table are in place, BITCNT is the sum of the code lengths of the input, no error is raised,
and SYM, SYMCNT, OUT, OUTCNT, the pending inputs and the parameters are not changed. -/
def Obligations.EncEncodesTheInput : Prop :=
  ∀ s : State, s.cfg.Valid → 1 ≤ s.symcnt → s.symcnt ≤ s.cfg.symCap → 255 * s.symcnt ≤ 8 * s.cfg.byteCap →
    ∃ t, exec .enc s = .next t ∧ t.err = s.err ∧ t.tv = true ∧ IsTree t.node t.root ∧
      (∀ b, ftAt t.ft b = s.occurrences b) ∧ t.hsize = 0#9 ∧
      (∀ b, (ctAt t.ct b).v = true ↔ b ∈ s.input s.symcnt) ∧
      (∀ b, (ctAt t.ct b).v = true → CodeOf t.node t.root b (ctAt t.ct b).bits) ∧
      t.stream = t.codeStream s.symcnt ∧ t.bitcnt = (t.codeStream s.symcnt).length ∧
      t.bitcnt = (alphabet.map (fun b => ftAt t.ft b * (ctAt t.ct b).len.toNat)).sum ∧
      t.sym = s.sym ∧ t.symcnt = s.symcnt ∧ t.out = s.out ∧ t.outcnt = s.outcnt ∧ t.port = s.port ∧ t.cfg = s.cfg ∧
      t.ph = s.ph

/-- The round trip decode(encode(s)) = s (R193), for every non-empty input whose packing ENC does not report as too
long (which R191 rests on the unproved minimality of the code, 93_implementation_defined.md U15). -/
def Obligations.DecodeInvertsEncode : Prop :=
  ∀ s t : State, s.cfg.Valid → s.err = none → 1 ≤ s.symcnt → s.symcnt ≤ s.cfg.symCap → exec .enc s = .next t →
    t.err = none → ∃ u, exec .dec t = .next u ∧ u.err = none ∧ u.outcnt = s.symcnt ∧
      u.output = s.input s.symcnt

/-- ENC is a pure function of its input (R194): from two states with the same parameters and the same input, whatever
else they hold, the results of two successful encodings agree. -/
def Obligations.EncDependsOnTheInputAlone : Prop :=
  ∀ s1 s2 t1 t2 : State, s1.cfg = s2.cfg → s1.cfg.Valid → s1.symcnt = s2.symcnt →
    s1.input s1.symcnt = s2.input s1.symcnt → s1.err = none → s2.err = none →
    exec .enc s1 = .next t1 → exec .enc s2 = .next t2 → t1.err = none → t2.err = none →
    (∀ b, ftAt t1.ft b = ftAt t2.ft b) ∧
    (∀ h, h ≠ null → (nodeAt t1.node h).v = (nodeAt t2.node h).v ∧
      ((nodeAt t1.node h).v = true → nodeAt t1.node h = nodeAt t2.node h)) ∧
    t1.root = t2.root ∧ t1.ncnt = t2.ncnt ∧ t1.ndist = t2.ndist ∧ t1.hsize = 0#9 ∧ t2.hsize = 0#9 ∧
    t1.hcap = t2.hcap ∧ t1.res = t2.res ∧ (∀ h, ownAt t1.own h = ownAt t2.own h) ∧ t1.tv = t2.tv ∧
    (∀ b, (ctAt t1.ct b).v = (ctAt t2.ct b).v ∧ ((ctAt t1.ct b).v = true → ctAt t1.ct b = ctAt t2.ct b)) ∧
    t1.bitcnt = t2.bitcnt ∧ ∀ i, i < (t1.bitcnt + 7) / 8 → byteAt t1.bit i = byteAt t2.bit i

/-- R196: the composite commands equal their parts, sent one by one. -/
def Obligations.CompositeCommandsEqualTheirParts : Prop :=
  (∀ s : State, s.ph = .idle → s.err = none → 1 ≤ s.symcnt → s.symcnt ≤ s.cfg.symCap →
    sendAll [.enc] s = sendAll [.fcnt, .tbld, .cgen, .pack] s) ∧
  (∀ (s : State) (n : Nat), s.ph = .idle → s.err = none → n = s.present.length → 1 ≤ n →
    ∃ u v, sendAll ([.leaves, .hbld] ++ List.replicate (n - 1) .mrg ++ [.hext]) s = .next u ∧
      hostWrite u .reg 5 u.res.toNat = .next v ∧ sendAll [.tchk] v = sendAll [.tbld] s)

/-- The weighted length of the code that TBLD and CGEN make for at least two symbols is the sum of the internal nodes'
frequencies (R164). -/
def Obligations.WeightedLengthIsTheSumOfMerges : Prop :=
  ∀ s t u : State, s.wf = true → s.cfg.Valid → 2 ≤ s.present.length → exec .tbld s = .next t →
    exec .cgen t = .next u →
    (s.present.map (fun b => ftAt s.ft b * (ctAt u.ct b).len.toNat)).sum = (t.internals.map (freqOf t.node)).sum

/-! ## The whole machine -/

/-- Every step keeps the form of the state: canonical memories inside their spaces, every element and every counter
within its width (R22, R34 to R41, R61). -/
def Obligations.StepKeepsWellFormedStates : Prop :=
  ∀ s t : State, s.wf = true → step s = .next t → t.wf = true

/-- Every step keeps the engine's invariants (I1) to (I6) of R46, in the form of `EngineInv`: of (I1) V = 1 and the shape
of an allocated record (a Leaf's LEFT and RIGHT are NULL, an Internal's SYM is 0), without the remembrance of the symbol
and count that LEAVES read; (I5) as the bound on the frequencies of the parentless nodes that it is there for. -/
def Obligations.StepKeepsTheEngineInvariants : Prop :=
  ∀ s t : State, s.wf = true → EngineInv s → step s = .next t → EngineInv t

/-- Every step keeps what STATUS.TV promises: while TV = 1 the records reachable from ROOT pass the structural check
(R23, R149, R150). -/
def Obligations.StepKeepsTheTreeValid : Prop :=
  ∀ s t : State, s.wf = true → EngineInv s → TreeInv s → step s = .next t → TreeInv t

/-- The reset state, and the state after any power-on reset, meet the invariants; State.reset is what a power-on reset
of an instance with the default parameters leaves when 0 is drawn everywhere (the draw and the parameters are the model's
choice, notes/assumptions/1.md and 3.md). -/
def Obligations.ResetMeetsTheInvariants : Prop :=
  (∀ s : State, s.cfg = Config.default → s.port = { inputs := [], replies := [] } →
    State.reset = powerOn { sym := [], ft := [], node := [], heap := [], ct := [], bit := [], out := [] } s) ∧
  (State.reset.wf = true ∧ EngineInv State.reset ∧ TreeInv State.reset) ∧
  ∀ (d : Draw) (s : State), (powerOn d s).wf = true ∧ EngineInv (powerOn d s) ∧ TreeInv (powerOn d s)

/-- Which commands can change each piece of state (R22, "written by"; R62, "engine writes it in"; R25; R48): every other
command leaves it exactly as it was. STATUS.ERR is changed by CLRE and RST, which can only clear it, and by a command that
raises, to an error that R210 gives that command (for ENC under R10, 93_implementation_defined.md U15); PH is left by the
rule of a command as it is, or set to IDLE by the error entry (R222). -/
def Obligations.OnlyTheListedCommandsWrite : Prop :=
  ∀ (i : Instr) (s t : State), exec i s = .next t →
    t.cfg = s.cfg ∧ t.port = s.port ∧ t.sym = s.sym ∧
    (i ∉ [.rst] → t.symcnt = s.symcnt) ∧
    (i ∉ [.pack, .enc, .rst] → t.bitcnt = s.bitcnt) ∧
    (i ∉ [.unpk, .dec, .rst] → t.outcnt = s.outcnt) ∧
    (i ∉ [.tbld, .enc, .leaves, .rst] → t.root = s.root) ∧
    (i ∉ [.leaves, .mrg, .tbld, .enc, .rst] → t.ncnt = s.ncnt) ∧
    (i ∉ [.leaves, .tbld, .enc, .rst] → t.ndist = s.ndist ∧ t.hcap = s.hcap) ∧
    (i ∉ [.leaves, .hext, .mrg, .tbld, .enc, .rst] → (∀ h, i ≠ .hins h) → t.hsize = s.hsize ∧ t.own = s.own) ∧
    (i ∉ [.hext, .mrg, .tbld, .enc, .leaves, .rst] → t.res = s.res) ∧
    (i ∉ [.fcnt, .enc] → t.ft = s.ft) ∧
    (i ∉ [.leaves, .mrg, .tbld, .enc, .rst] → t.node = s.node) ∧
    (i ∉ [.leaves, .hbld, .hext, .mrg, .tbld, .enc] → (∀ h, i ≠ .hins h) → t.heap = s.heap) ∧
    (i ∉ [.cgen, .enc, .rst] → t.ct = s.ct) ∧
    (i ∉ [.pack, .enc] → t.bit = s.bit) ∧
    (i ∉ [.unpk, .dec] → t.out = s.out) ∧
    (i ∉ [.leaves, .tbld, .tchk, .cgen, .unpk, .dec, .enc, .rst] → t.tv = s.tv) ∧
    (i ∈ [.nop, .leaves, .hbld] → t.err = s.err) ∧
    (i ∈ [.clre, .rst] → t.err = s.err ∨ t.err = none) ∧
    (i ∉ [.clre, .rst] → (i = .enc → s.cfg.Valid) →
      t.err = s.err ∨ ∃ e, t.err = some e ∧ raisedBy e i = true) ∧
    (i ∈ [.nop, .leaves, .hbld, .clre, .rst] → t.ph = s.ph) ∧
    (t.ph = s.ph ∨ (t.ph = .idle ∧ t.err ≠ none))
end

