-- ==== Sys2Proof/Laws/Mem.lean ====
section
/-! SUPPORT. Laws/Mem.lean: what reading gives after each memory operation, that every memory operation keeps the
canonical form, and that canonical memories that read alike are equal. -/

namespace Sys2Proof.Machine.Mem

variable {α : Type} [DecidableEq α]

/-! ## Reading -/

omit [DecidableEq α] in
@[simp] theorem read_nil (d : α) (i : Nat) : Mem.read d [] i = d := rfl

omit [DecidableEq α] in
theorem read_append_right (d : α) (m m' : Mem α) (i : Nat) (h : ∀ c ∈ m, c.1 ≠ i) :
    Mem.read d (m ++ m') i = Mem.read d m' i := by
  induction m with
  | nil => rfl
  | cons c m ih =>
    obtain ⟨a, v⟩ := c
    have ha : a ≠ i := h (a, v) (by simp)
    simp [Mem.read, ha, ih (fun c hc => h c (by simp [hc]))]

omit [DecidableEq α] in
theorem read_append_left (d : α) (m m' : Mem α) (i : Nat) (h : ∀ c ∈ m', c.1 ≠ i) :
    Mem.read d (m ++ m') i = Mem.read d m i := by
  induction m with
  | nil => simpa [Mem.read] using read_append_right d m' [] i h
  | cons c m ih =>
    obtain ⟨a, v⟩ := c
    by_cases ha : a = i
    · simp [Mem.read, ha]
    · simp [Mem.read, ha, ih]

omit [DecidableEq α] in
theorem read_of_not_listed (d : α) (m : Mem α) (i : Nat) (h : ∀ c ∈ m, c.1 ≠ i) : Mem.read d m i = d := by
  simpa [Mem.read] using read_append_right d m [] i h

omit [DecidableEq α] in
theorem read_filter (d : α) (m : Mem α) (p : Nat → Bool) (i : Nat) (h : p i = true) :
    Mem.read d (m.filter (fun c => p c.1)) i = Mem.read d m i := by
  induction m with
  | nil => rfl
  | cons c m ih =>
    obtain ⟨a, v⟩ := c
    by_cases ha : a = i
    · subst ha; simp [h, Mem.read]
    · by_cases hp : p a = true
      · simp [hp, Mem.read, ha, ih]
      · simp [hp, Mem.read, ha, ih]

omit [DecidableEq α] in
theorem below_ne (m : Mem α) (i j : Nat) (h : i ≤ j) : ∀ c ∈ m.filter (fun c => decide (c.1 < i)), c.1 ≠ j := by
  intro c hc
  have : c.1 < i := by simpa using (List.mem_filter.1 hc).2
  omega

omit [DecidableEq α] in
theorem above_ne (m : Mem α) (i j : Nat) (h : j ≤ i) : ∀ c ∈ m.filter (fun c => decide (i < c.1)), c.1 ≠ j := by
  intro c hc
  have : i < c.1 := by simpa using (List.mem_filter.1 hc).2
  omega

@[simp] theorem read_put_same (d : α) (m : Mem α) (i : Nat) (v : α) : Mem.read d (Mem.put d m i v) i = v := by
  unfold Mem.put
  rw [read_append_right d _ _ i (below_ne m i i (Nat.le_refl i)),
    read_append_left d _ _ i (above_ne m i i (Nat.le_refl i))]
  by_cases hv : v = d <;> simp [hv, Mem.read]

theorem read_put_other (d : α) (m : Mem α) (i j : Nat) (v : α) (h : j ≠ i) :
    Mem.read d (Mem.put d m i v) j = Mem.read d m j := by
  have hmid : ∀ c ∈ ((if v = d then [] else [(i, v)]) : Mem α), c.1 ≠ j := by
    intro c hc
    by_cases hv : v = d
    · simp [hv] at hc
    · simp [hv] at hc; simp [hc, Ne.symm h]
  unfold Mem.put
  rcases Nat.lt_or_gt_of_ne h with hj | hj
  · rw [← List.append_assoc, read_append_left d _ _ j (above_ne m i j (Nat.le_of_lt hj)),
      read_append_left d _ _ j hmid]
    exact read_filter d m (fun a => decide (a < i)) j (by simpa using hj)
  · rw [read_append_right d _ _ j (below_ne m i j (Nat.le_of_lt hj)), read_append_right d _ _ j hmid]
    exact read_filter d m (fun a => decide (i < a)) j (by simpa using hj)

theorem read_put (d : α) (m : Mem α) (i j : Nat) (v : α) :
    Mem.read d (Mem.put d m i v) j = if j = i then v else Mem.read d m j := by
  split
  · next h => subst h; exact read_put_same d m j v
  · next h => exact read_put_other d m i j v h

/-- A write to a memory of `n` elements: the element written, if it exists; every other one as before. -/
theorem read_set (d : α) (n : Nat) (m : Mem α) (i j : Nat) (v : α) :
    Mem.read d (Mem.set d n m i v) j = if j = i ∧ i < n then v else Mem.read d m j := by
  unfold Mem.set
  by_cases h : i < n
  · simp [h, read_put]
  · simp [h]

@[simp] theorem read_set_same (d : α) (n : Nat) (m : Mem α) (i : Nat) (v : α) (h : i < n) :
    Mem.read d (Mem.set d n m i v) i = v := by simp [read_set, h]

theorem read_set_other (d : α) (n : Nat) (m : Mem α) (i j : Nat) (v : α) (h : j ≠ i) :
    Mem.read d (Mem.set d n m i v) j = Mem.read d m j := by simp [read_set, h]

/-- Every element is the image of what it was. -/
theorem read_mapVals (d : α) (f : α → α) (hf : f d = d) (m : Mem α) (i : Nat) :
    Mem.read d (Mem.mapVals d f m) i = f (Mem.read d m i) := by
  induction m with
  | nil => simp [Mem.mapVals, hf]
  | cons c m ih =>
    obtain ⟨a, v⟩ := c
    simp only [Mem.mapVals, List.foldr_cons] at ih ⊢
    rw [read_put]
    by_cases h : i = a
    · simp [h, Mem.read]
    · simp [h, Mem.read, Ne.symm h, ih]

/-- What a drawn memory reads: the value listed for the index, at its width; blank where none is listed. -/
theorem read_load (d : α) (n : Nat) (f : α → α) (hf : f d = d) (cells : Mem α) (i : Nat) (h : i < n) :
    Mem.read d (Mem.load d n f cells) i = f (Mem.read d cells i) := by
  induction cells with
  | nil => simp [Mem.load, hf]
  | cons c m ih =>
    obtain ⟨a, v⟩ := c
    simp only [Mem.load, List.foldr_cons] at ih ⊢
    rw [read_set]
    by_cases ha : i = a
    · subst ha; simp [h, Mem.read]
    · simp [ha, Mem.read, Ne.symm ha, ih]

/-! ## Canonical form -/

omit [DecidableEq α] in
theorem sorted_iff (m : Mem α) : Mem.sorted m = true ↔ m.Pairwise (fun a b => a.1 < b.1) := by
  induction m with
  | nil => simp [Mem.sorted]
  | cons a m ih =>
    cases m with
    | nil => simp [Mem.sorted]
    | cons b m =>
      simp only [Mem.sorted, Bool.and_eq_true, decide_eq_true_eq, ih, List.pairwise_cons, List.mem_cons,
        forall_eq_or_imp]
      constructor
      · rintro ⟨hab, hb, hm⟩
        exact ⟨⟨hab, fun c hc => Nat.lt_trans hab (hb c hc)⟩, hb, hm⟩
      · rintro ⟨⟨hab, -⟩, hb, hm⟩
        exact ⟨hab, hb, hm⟩

/-- The canonical form in words: strictly rising, and each element in range, not blank, within its width. -/
theorem wf_iff (d : α) (n : Nat) (ok : α → Bool) (m : Mem α) :
    Mem.wf d n ok m = true ↔
      m.Pairwise (fun a b => a.1 < b.1) ∧ ∀ c ∈ m, c.1 < n ∧ c.2 ≠ d ∧ ok c.2 = true := by
  simp [Mem.wf, sorted_iff]

@[simp] theorem wf_nil (d : α) (n : Nat) (ok : α → Bool) : Mem.wf d n ok [] = true := by simp [wf_iff]

theorem wf_put (d : α) (n : Nat) (ok : α → Bool) (m : Mem α) (i : Nat) (v : α) (hm : Mem.wf d n ok m = true)
    (hi : i < n) (hv : v = d ∨ ok v = true) : Mem.wf d n ok (Mem.put d m i v) = true := by
  rw [wf_iff] at hm ⊢
  obtain ⟨hp, hall⟩ := hm
  have hlt := hp.filter (fun c => decide (c.1 < i))
  have hgt := hp.filter (fun c => decide (i < c.1))
  unfold Mem.put
  by_cases h : v = d
  · simp only [h, if_true, List.nil_append]
    refine ⟨List.pairwise_append.2 ⟨hlt, hgt, ?_⟩, ?_⟩
    · intro a ha b hb
      simp only [List.mem_filter, decide_eq_true_eq] at ha hb
      omega
    · intro c hc
      simp only [List.mem_append, List.mem_filter] at hc
      exact hc.elim (fun h => hall c h.1) (fun h => hall c h.1)
  · simp only [h, if_false, List.singleton_append]
    refine ⟨List.pairwise_append.2 ⟨hlt, List.pairwise_cons.2 ⟨?_, hgt⟩, ?_⟩, ?_⟩
    · intro b hb
      simpa using (List.mem_filter.1 hb).2
    · intro a ha b hb
      have ha' : a.1 < i := by simpa using (List.mem_filter.1 ha).2
      rcases List.mem_cons.1 hb with rfl | hb
      · exact ha'
      · have : i < b.1 := by simpa using (List.mem_filter.1 hb).2
        omega
    · intro c hc
      rcases List.mem_append.1 hc with hc | hc
      · exact hall c (List.mem_filter.1 hc).1
      · rcases List.mem_cons.1 hc with rfl | hc
        · exact ⟨hi, h, hv.resolve_left h⟩
        · exact hall c (List.mem_filter.1 hc).1

/-- A write keeps the canonical form. -/
theorem wf_set (d : α) (n : Nat) (ok : α → Bool) (m : Mem α) (i : Nat) (v : α) (hm : Mem.wf d n ok m = true)
    (hv : v = d ∨ ok v = true) : Mem.wf d n ok (Mem.set d n m i v) = true := by
  unfold Mem.set
  split
  · next hi => exact wf_put d n ok m i v hm hi hv
  · exact hm

/-- Replacing every element keeps the canonical form. -/
theorem wf_mapVals (d : α) (n : Nat) (ok : α → Bool) (f : α → α) (m : Mem α) (hm : Mem.wf d n ok m = true)
    (hf : ∀ v, ok v = true → ok (f v) = true) : Mem.wf d n ok (Mem.mapVals d f m) = true := by
  rw [wf_iff] at hm
  have hall := hm.2
  clear hm
  induction m with
  | nil => simp [Mem.mapVals]
  | cons c m ih =>
    simp only [Mem.mapVals, List.foldr_cons] at ih ⊢
    have hc := hall c (by simp)
    exact wf_put d n ok _ _ _ (ih (fun c h => hall c (by simp [h]))) hc.1 (.inr (hf _ hc.2.2))

/-- A drawn memory is in canonical form, whatever is drawn. -/
theorem wf_load (d : α) (n : Nat) (ok : α → Bool) (f : α → α) (cells : Mem α)
    (hf : ∀ v, ok (f v) = true) : Mem.wf d n ok (Mem.load d n f cells) = true := by
  induction cells with
  | nil => simp [Mem.load]
  | cons c m ih =>
    simp only [Mem.load, List.foldr_cons] at ih ⊢
    exact wf_set d n ok _ _ _ ih (.inr (hf _))

/-- An element of a canonical memory is blank or within its width. -/
theorem ok_read (d : α) (n : Nat) (ok : α → Bool) (m : Mem α) (hm : Mem.wf d n ok m = true) (i : Nat) :
    Mem.read d m i = d ∨ ok (Mem.read d m i) = true := by
  rw [wf_iff] at hm
  have hall := hm.2
  clear hm
  induction m with
  | nil => exact .inl rfl
  | cons c m ih =>
    obtain ⟨a, v⟩ := c
    by_cases h : a = i
    · simpa [Mem.read, h] using Or.inr (hall (a, v) (by simp)).2.2
    · simpa [Mem.read, h] using ih (fun c h => hall c (by simp [h]))

/-- An index outside the space reads blank. -/
theorem read_out_of_range (d : α) (n : Nat) (ok : α → Bool) (m : Mem α) (hm : Mem.wf d n ok m = true) (i : Nat)
    (hi : n ≤ i) : Mem.read d m i = d := by
  apply read_of_not_listed
  intro c hc
  have := (((wf_iff d n ok m).1 hm).2 c hc).1
  omega

/-- Canonical memories that read alike are the same list. -/
theorem ext (d : α) (n : Nat) (ok : α → Bool) (m m' : Mem α) (hm : Mem.wf d n ok m = true)
    (hm' : Mem.wf d n ok m' = true) (h : ∀ i, Mem.read d m i = Mem.read d m' i) : m = m' := by
  rw [wf_iff] at hm hm'
  obtain ⟨hp, ha⟩ := hm
  obtain ⟨hp', ha'⟩ := hm'
  have fresh : ∀ (c : Nat × α) (l : Mem α), (∀ b ∈ l, c.1 < b.1) → ∀ j, j ≤ c.1 → Mem.read d l j = d := by
    intro c l hl j hj
    apply read_of_not_listed
    intro b hb
    have := hl b hb
    omega
  induction m generalizing m' with
  | nil =>
    cases m' with
    | nil => rfl
    | cons c' t' =>
      have := h c'.1
      simp [Mem.read] at this
      exact absurd this.symm (ha' c' (by simp)).2.1
  | cons c t ih =>
    cases m' with
    | nil =>
      have := h c.1
      simp [Mem.read] at this
      exact absurd this (ha c (by simp)).2.1
    | cons c' t' =>
      rw [List.pairwise_cons] at hp hp'
      obtain ⟨a, v⟩ := c
      obtain ⟨a', v'⟩ := c'
      have hne := (ha (a, v) (by simp)).2.1
      have hne' := (ha' (a', v') (by simp)).2.1
      have haa : a = a' := by
        rcases Nat.lt_trichotomy a a' with hlt | heq | hlt
        · have h1 := h a
          have h2 := fresh (a', v') t' hp'.1 a (by simpa using Nat.le_of_lt hlt)
          simp [Mem.read, Nat.ne_of_gt hlt, h2] at h1
          exact absurd h1 hne
        · exact heq
        · have h1 := h a'
          have h2 := fresh (a, v) t hp.1 a' (by simpa using Nat.le_of_lt hlt)
          simp [Mem.read, Nat.ne_of_gt hlt, h2] at h1
          exact absurd h1.symm hne'
      subst haa
      have hvv : v = v' := by simpa [Mem.read] using h a
      subst hvv
      congr 1
      refine ih t' ?_ hp.2 (fun c hc => ha c (by simp [hc])) hp'.2 (fun c hc => ha' c (by simp [hc]))
      intro i
      by_cases hi : a = i
      · subst hi
        rw [fresh (a, v) t hp.1 a (by simp), fresh (a, v) t' hp'.1 a (by simp)]
      · simpa [Mem.read, hi] using h i

end Sys2Proof.Machine.Mem
end

