-- ==== Sys2Proof/Laws/State.lean ====
section
/-! SUPPORT. Laws/State.lean: one lemma per field per setter of State, true by rfl, so that no proof unfolds a record
update. -/

namespace Sys2Proof.Machine.State

section Port
variable (s : State) (p : Port)
@[simp] theorem setPort_cfg : (s.setPort p).cfg = s.cfg := rfl
@[simp] theorem setPort_port : (s.setPort p).port = p := rfl
@[simp] theorem setPort_ph : (s.setPort p).ph = s.ph := rfl
@[simp] theorem setPort_err : (s.setPort p).err = s.err := rfl
@[simp] theorem setPort_tv : (s.setPort p).tv = s.tv := rfl
@[simp] theorem setPort_symcnt : (s.setPort p).symcnt = s.symcnt := rfl
@[simp] theorem setPort_bitcnt : (s.setPort p).bitcnt = s.bitcnt := rfl
@[simp] theorem setPort_outcnt : (s.setPort p).outcnt = s.outcnt := rfl
@[simp] theorem setPort_root : (s.setPort p).root = s.root := rfl
@[simp] theorem setPort_ncnt : (s.setPort p).ncnt = s.ncnt := rfl
@[simp] theorem setPort_ndist : (s.setPort p).ndist = s.ndist := rfl
@[simp] theorem setPort_hsize : (s.setPort p).hsize = s.hsize := rfl
@[simp] theorem setPort_hcap : (s.setPort p).hcap = s.hcap := rfl
@[simp] theorem setPort_res : (s.setPort p).res = s.res := rfl
@[simp] theorem setPort_sym : (s.setPort p).sym = s.sym := rfl
@[simp] theorem setPort_ft : (s.setPort p).ft = s.ft := rfl
@[simp] theorem setPort_node : (s.setPort p).node = s.node := rfl
@[simp] theorem setPort_heap : (s.setPort p).heap = s.heap := rfl
@[simp] theorem setPort_ct : (s.setPort p).ct = s.ct := rfl
@[simp] theorem setPort_bit : (s.setPort p).bit = s.bit := rfl
@[simp] theorem setPort_out : (s.setPort p).out = s.out := rfl
@[simp] theorem setPort_own : (s.setPort p).own = s.own := rfl
end Port

section Ph
variable (s : State) (p : Phase)
@[simp] theorem setPh_cfg : (s.setPh p).cfg = s.cfg := rfl
@[simp] theorem setPh_port : (s.setPh p).port = s.port := rfl
@[simp] theorem setPh_ph : (s.setPh p).ph = p := rfl
@[simp] theorem setPh_err : (s.setPh p).err = s.err := rfl
@[simp] theorem setPh_tv : (s.setPh p).tv = s.tv := rfl
@[simp] theorem setPh_symcnt : (s.setPh p).symcnt = s.symcnt := rfl
@[simp] theorem setPh_bitcnt : (s.setPh p).bitcnt = s.bitcnt := rfl
@[simp] theorem setPh_outcnt : (s.setPh p).outcnt = s.outcnt := rfl
@[simp] theorem setPh_root : (s.setPh p).root = s.root := rfl
@[simp] theorem setPh_ncnt : (s.setPh p).ncnt = s.ncnt := rfl
@[simp] theorem setPh_ndist : (s.setPh p).ndist = s.ndist := rfl
@[simp] theorem setPh_hsize : (s.setPh p).hsize = s.hsize := rfl
@[simp] theorem setPh_hcap : (s.setPh p).hcap = s.hcap := rfl
@[simp] theorem setPh_res : (s.setPh p).res = s.res := rfl
@[simp] theorem setPh_sym : (s.setPh p).sym = s.sym := rfl
@[simp] theorem setPh_ft : (s.setPh p).ft = s.ft := rfl
@[simp] theorem setPh_node : (s.setPh p).node = s.node := rfl
@[simp] theorem setPh_heap : (s.setPh p).heap = s.heap := rfl
@[simp] theorem setPh_ct : (s.setPh p).ct = s.ct := rfl
@[simp] theorem setPh_bit : (s.setPh p).bit = s.bit := rfl
@[simp] theorem setPh_out : (s.setPh p).out = s.out := rfl
@[simp] theorem setPh_own : (s.setPh p).own = s.own := rfl
end Ph

section Err
variable (s : State) (e : Option ErrorCode)
@[simp] theorem setErr_cfg : (s.setErr e).cfg = s.cfg := rfl
@[simp] theorem setErr_port : (s.setErr e).port = s.port := rfl
@[simp] theorem setErr_ph : (s.setErr e).ph = s.ph := rfl
@[simp] theorem setErr_err : (s.setErr e).err = e := rfl
@[simp] theorem setErr_tv : (s.setErr e).tv = s.tv := rfl
@[simp] theorem setErr_symcnt : (s.setErr e).symcnt = s.symcnt := rfl
@[simp] theorem setErr_bitcnt : (s.setErr e).bitcnt = s.bitcnt := rfl
@[simp] theorem setErr_outcnt : (s.setErr e).outcnt = s.outcnt := rfl
@[simp] theorem setErr_root : (s.setErr e).root = s.root := rfl
@[simp] theorem setErr_ncnt : (s.setErr e).ncnt = s.ncnt := rfl
@[simp] theorem setErr_ndist : (s.setErr e).ndist = s.ndist := rfl
@[simp] theorem setErr_hsize : (s.setErr e).hsize = s.hsize := rfl
@[simp] theorem setErr_hcap : (s.setErr e).hcap = s.hcap := rfl
@[simp] theorem setErr_res : (s.setErr e).res = s.res := rfl
@[simp] theorem setErr_sym : (s.setErr e).sym = s.sym := rfl
@[simp] theorem setErr_ft : (s.setErr e).ft = s.ft := rfl
@[simp] theorem setErr_node : (s.setErr e).node = s.node := rfl
@[simp] theorem setErr_heap : (s.setErr e).heap = s.heap := rfl
@[simp] theorem setErr_ct : (s.setErr e).ct = s.ct := rfl
@[simp] theorem setErr_bit : (s.setErr e).bit = s.bit := rfl
@[simp] theorem setErr_out : (s.setErr e).out = s.out := rfl
@[simp] theorem setErr_own : (s.setErr e).own = s.own := rfl
end Err

section Tv
variable (s : State) (b : Bool)
@[simp] theorem setTv_cfg : (s.setTv b).cfg = s.cfg := rfl
@[simp] theorem setTv_port : (s.setTv b).port = s.port := rfl
@[simp] theorem setTv_ph : (s.setTv b).ph = s.ph := rfl
@[simp] theorem setTv_err : (s.setTv b).err = s.err := rfl
@[simp] theorem setTv_tv : (s.setTv b).tv = b := rfl
@[simp] theorem setTv_symcnt : (s.setTv b).symcnt = s.symcnt := rfl
@[simp] theorem setTv_bitcnt : (s.setTv b).bitcnt = s.bitcnt := rfl
@[simp] theorem setTv_outcnt : (s.setTv b).outcnt = s.outcnt := rfl
@[simp] theorem setTv_root : (s.setTv b).root = s.root := rfl
@[simp] theorem setTv_ncnt : (s.setTv b).ncnt = s.ncnt := rfl
@[simp] theorem setTv_ndist : (s.setTv b).ndist = s.ndist := rfl
@[simp] theorem setTv_hsize : (s.setTv b).hsize = s.hsize := rfl
@[simp] theorem setTv_hcap : (s.setTv b).hcap = s.hcap := rfl
@[simp] theorem setTv_res : (s.setTv b).res = s.res := rfl
@[simp] theorem setTv_sym : (s.setTv b).sym = s.sym := rfl
@[simp] theorem setTv_ft : (s.setTv b).ft = s.ft := rfl
@[simp] theorem setTv_node : (s.setTv b).node = s.node := rfl
@[simp] theorem setTv_heap : (s.setTv b).heap = s.heap := rfl
@[simp] theorem setTv_ct : (s.setTv b).ct = s.ct := rfl
@[simp] theorem setTv_bit : (s.setTv b).bit = s.bit := rfl
@[simp] theorem setTv_out : (s.setTv b).out = s.out := rfl
@[simp] theorem setTv_own : (s.setTv b).own = s.own := rfl
end Tv

section Symcnt
variable (s : State) (n : Nat)
@[simp] theorem setSymcnt_cfg : (s.setSymcnt n).cfg = s.cfg := rfl
@[simp] theorem setSymcnt_port : (s.setSymcnt n).port = s.port := rfl
@[simp] theorem setSymcnt_ph : (s.setSymcnt n).ph = s.ph := rfl
@[simp] theorem setSymcnt_err : (s.setSymcnt n).err = s.err := rfl
@[simp] theorem setSymcnt_tv : (s.setSymcnt n).tv = s.tv := rfl
@[simp] theorem setSymcnt_symcnt : (s.setSymcnt n).symcnt = narrow s.cfg.freqBits n := rfl
@[simp] theorem setSymcnt_bitcnt : (s.setSymcnt n).bitcnt = s.bitcnt := rfl
@[simp] theorem setSymcnt_outcnt : (s.setSymcnt n).outcnt = s.outcnt := rfl
@[simp] theorem setSymcnt_root : (s.setSymcnt n).root = s.root := rfl
@[simp] theorem setSymcnt_ncnt : (s.setSymcnt n).ncnt = s.ncnt := rfl
@[simp] theorem setSymcnt_ndist : (s.setSymcnt n).ndist = s.ndist := rfl
@[simp] theorem setSymcnt_hsize : (s.setSymcnt n).hsize = s.hsize := rfl
@[simp] theorem setSymcnt_hcap : (s.setSymcnt n).hcap = s.hcap := rfl
@[simp] theorem setSymcnt_res : (s.setSymcnt n).res = s.res := rfl
@[simp] theorem setSymcnt_sym : (s.setSymcnt n).sym = s.sym := rfl
@[simp] theorem setSymcnt_ft : (s.setSymcnt n).ft = s.ft := rfl
@[simp] theorem setSymcnt_node : (s.setSymcnt n).node = s.node := rfl
@[simp] theorem setSymcnt_heap : (s.setSymcnt n).heap = s.heap := rfl
@[simp] theorem setSymcnt_ct : (s.setSymcnt n).ct = s.ct := rfl
@[simp] theorem setSymcnt_bit : (s.setSymcnt n).bit = s.bit := rfl
@[simp] theorem setSymcnt_out : (s.setSymcnt n).out = s.out := rfl
@[simp] theorem setSymcnt_own : (s.setSymcnt n).own = s.own := rfl
end Symcnt

section Bitcnt
variable (s : State) (n : Nat)
@[simp] theorem setBitcnt_cfg : (s.setBitcnt n).cfg = s.cfg := rfl
@[simp] theorem setBitcnt_port : (s.setBitcnt n).port = s.port := rfl
@[simp] theorem setBitcnt_ph : (s.setBitcnt n).ph = s.ph := rfl
@[simp] theorem setBitcnt_err : (s.setBitcnt n).err = s.err := rfl
@[simp] theorem setBitcnt_tv : (s.setBitcnt n).tv = s.tv := rfl
@[simp] theorem setBitcnt_symcnt : (s.setBitcnt n).symcnt = s.symcnt := rfl
@[simp] theorem setBitcnt_bitcnt : (s.setBitcnt n).bitcnt = narrow s.cfg.nfreqBits n := rfl
@[simp] theorem setBitcnt_outcnt : (s.setBitcnt n).outcnt = s.outcnt := rfl
@[simp] theorem setBitcnt_root : (s.setBitcnt n).root = s.root := rfl
@[simp] theorem setBitcnt_ncnt : (s.setBitcnt n).ncnt = s.ncnt := rfl
@[simp] theorem setBitcnt_ndist : (s.setBitcnt n).ndist = s.ndist := rfl
@[simp] theorem setBitcnt_hsize : (s.setBitcnt n).hsize = s.hsize := rfl
@[simp] theorem setBitcnt_hcap : (s.setBitcnt n).hcap = s.hcap := rfl
@[simp] theorem setBitcnt_res : (s.setBitcnt n).res = s.res := rfl
@[simp] theorem setBitcnt_sym : (s.setBitcnt n).sym = s.sym := rfl
@[simp] theorem setBitcnt_ft : (s.setBitcnt n).ft = s.ft := rfl
@[simp] theorem setBitcnt_node : (s.setBitcnt n).node = s.node := rfl
@[simp] theorem setBitcnt_heap : (s.setBitcnt n).heap = s.heap := rfl
@[simp] theorem setBitcnt_ct : (s.setBitcnt n).ct = s.ct := rfl
@[simp] theorem setBitcnt_bit : (s.setBitcnt n).bit = s.bit := rfl
@[simp] theorem setBitcnt_out : (s.setBitcnt n).out = s.out := rfl
@[simp] theorem setBitcnt_own : (s.setBitcnt n).own = s.own := rfl
end Bitcnt

section Outcnt
variable (s : State) (n : Nat)
@[simp] theorem setOutcnt_cfg : (s.setOutcnt n).cfg = s.cfg := rfl
@[simp] theorem setOutcnt_port : (s.setOutcnt n).port = s.port := rfl
@[simp] theorem setOutcnt_ph : (s.setOutcnt n).ph = s.ph := rfl
@[simp] theorem setOutcnt_err : (s.setOutcnt n).err = s.err := rfl
@[simp] theorem setOutcnt_tv : (s.setOutcnt n).tv = s.tv := rfl
@[simp] theorem setOutcnt_symcnt : (s.setOutcnt n).symcnt = s.symcnt := rfl
@[simp] theorem setOutcnt_bitcnt : (s.setOutcnt n).bitcnt = s.bitcnt := rfl
@[simp] theorem setOutcnt_outcnt : (s.setOutcnt n).outcnt = narrow s.cfg.freqBits n := rfl
@[simp] theorem setOutcnt_root : (s.setOutcnt n).root = s.root := rfl
@[simp] theorem setOutcnt_ncnt : (s.setOutcnt n).ncnt = s.ncnt := rfl
@[simp] theorem setOutcnt_ndist : (s.setOutcnt n).ndist = s.ndist := rfl
@[simp] theorem setOutcnt_hsize : (s.setOutcnt n).hsize = s.hsize := rfl
@[simp] theorem setOutcnt_hcap : (s.setOutcnt n).hcap = s.hcap := rfl
@[simp] theorem setOutcnt_res : (s.setOutcnt n).res = s.res := rfl
@[simp] theorem setOutcnt_sym : (s.setOutcnt n).sym = s.sym := rfl
@[simp] theorem setOutcnt_ft : (s.setOutcnt n).ft = s.ft := rfl
@[simp] theorem setOutcnt_node : (s.setOutcnt n).node = s.node := rfl
@[simp] theorem setOutcnt_heap : (s.setOutcnt n).heap = s.heap := rfl
@[simp] theorem setOutcnt_ct : (s.setOutcnt n).ct = s.ct := rfl
@[simp] theorem setOutcnt_bit : (s.setOutcnt n).bit = s.bit := rfl
@[simp] theorem setOutcnt_out : (s.setOutcnt n).out = s.out := rfl
@[simp] theorem setOutcnt_own : (s.setOutcnt n).own = s.own := rfl
end Outcnt

section Root
variable (s : State) (h : Handle)
@[simp] theorem setRoot_cfg : (s.setRoot h).cfg = s.cfg := rfl
@[simp] theorem setRoot_port : (s.setRoot h).port = s.port := rfl
@[simp] theorem setRoot_ph : (s.setRoot h).ph = s.ph := rfl
@[simp] theorem setRoot_err : (s.setRoot h).err = s.err := rfl
@[simp] theorem setRoot_tv : (s.setRoot h).tv = s.tv := rfl
@[simp] theorem setRoot_symcnt : (s.setRoot h).symcnt = s.symcnt := rfl
@[simp] theorem setRoot_bitcnt : (s.setRoot h).bitcnt = s.bitcnt := rfl
@[simp] theorem setRoot_outcnt : (s.setRoot h).outcnt = s.outcnt := rfl
@[simp] theorem setRoot_root : (s.setRoot h).root = h := rfl
@[simp] theorem setRoot_ncnt : (s.setRoot h).ncnt = s.ncnt := rfl
@[simp] theorem setRoot_ndist : (s.setRoot h).ndist = s.ndist := rfl
@[simp] theorem setRoot_hsize : (s.setRoot h).hsize = s.hsize := rfl
@[simp] theorem setRoot_hcap : (s.setRoot h).hcap = s.hcap := rfl
@[simp] theorem setRoot_res : (s.setRoot h).res = s.res := rfl
@[simp] theorem setRoot_sym : (s.setRoot h).sym = s.sym := rfl
@[simp] theorem setRoot_ft : (s.setRoot h).ft = s.ft := rfl
@[simp] theorem setRoot_node : (s.setRoot h).node = s.node := rfl
@[simp] theorem setRoot_heap : (s.setRoot h).heap = s.heap := rfl
@[simp] theorem setRoot_ct : (s.setRoot h).ct = s.ct := rfl
@[simp] theorem setRoot_bit : (s.setRoot h).bit = s.bit := rfl
@[simp] theorem setRoot_out : (s.setRoot h).out = s.out := rfl
@[simp] theorem setRoot_own : (s.setRoot h).own = s.own := rfl
end Root

section Ncnt
variable (s : State) (n : BitVec 9)
@[simp] theorem setNcnt_cfg : (s.setNcnt n).cfg = s.cfg := rfl
@[simp] theorem setNcnt_port : (s.setNcnt n).port = s.port := rfl
@[simp] theorem setNcnt_ph : (s.setNcnt n).ph = s.ph := rfl
@[simp] theorem setNcnt_err : (s.setNcnt n).err = s.err := rfl
@[simp] theorem setNcnt_tv : (s.setNcnt n).tv = s.tv := rfl
@[simp] theorem setNcnt_symcnt : (s.setNcnt n).symcnt = s.symcnt := rfl
@[simp] theorem setNcnt_bitcnt : (s.setNcnt n).bitcnt = s.bitcnt := rfl
@[simp] theorem setNcnt_outcnt : (s.setNcnt n).outcnt = s.outcnt := rfl
@[simp] theorem setNcnt_root : (s.setNcnt n).root = s.root := rfl
@[simp] theorem setNcnt_ncnt : (s.setNcnt n).ncnt = n := rfl
@[simp] theorem setNcnt_ndist : (s.setNcnt n).ndist = s.ndist := rfl
@[simp] theorem setNcnt_hsize : (s.setNcnt n).hsize = s.hsize := rfl
@[simp] theorem setNcnt_hcap : (s.setNcnt n).hcap = s.hcap := rfl
@[simp] theorem setNcnt_res : (s.setNcnt n).res = s.res := rfl
@[simp] theorem setNcnt_sym : (s.setNcnt n).sym = s.sym := rfl
@[simp] theorem setNcnt_ft : (s.setNcnt n).ft = s.ft := rfl
@[simp] theorem setNcnt_node : (s.setNcnt n).node = s.node := rfl
@[simp] theorem setNcnt_heap : (s.setNcnt n).heap = s.heap := rfl
@[simp] theorem setNcnt_ct : (s.setNcnt n).ct = s.ct := rfl
@[simp] theorem setNcnt_bit : (s.setNcnt n).bit = s.bit := rfl
@[simp] theorem setNcnt_out : (s.setNcnt n).out = s.out := rfl
@[simp] theorem setNcnt_own : (s.setNcnt n).own = s.own := rfl
end Ncnt

section Ndist
variable (s : State) (n : BitVec 9)
@[simp] theorem setNdist_cfg : (s.setNdist n).cfg = s.cfg := rfl
@[simp] theorem setNdist_port : (s.setNdist n).port = s.port := rfl
@[simp] theorem setNdist_ph : (s.setNdist n).ph = s.ph := rfl
@[simp] theorem setNdist_err : (s.setNdist n).err = s.err := rfl
@[simp] theorem setNdist_tv : (s.setNdist n).tv = s.tv := rfl
@[simp] theorem setNdist_symcnt : (s.setNdist n).symcnt = s.symcnt := rfl
@[simp] theorem setNdist_bitcnt : (s.setNdist n).bitcnt = s.bitcnt := rfl
@[simp] theorem setNdist_outcnt : (s.setNdist n).outcnt = s.outcnt := rfl
@[simp] theorem setNdist_root : (s.setNdist n).root = s.root := rfl
@[simp] theorem setNdist_ncnt : (s.setNdist n).ncnt = s.ncnt := rfl
@[simp] theorem setNdist_ndist : (s.setNdist n).ndist = n := rfl
@[simp] theorem setNdist_hsize : (s.setNdist n).hsize = s.hsize := rfl
@[simp] theorem setNdist_hcap : (s.setNdist n).hcap = s.hcap := rfl
@[simp] theorem setNdist_res : (s.setNdist n).res = s.res := rfl
@[simp] theorem setNdist_sym : (s.setNdist n).sym = s.sym := rfl
@[simp] theorem setNdist_ft : (s.setNdist n).ft = s.ft := rfl
@[simp] theorem setNdist_node : (s.setNdist n).node = s.node := rfl
@[simp] theorem setNdist_heap : (s.setNdist n).heap = s.heap := rfl
@[simp] theorem setNdist_ct : (s.setNdist n).ct = s.ct := rfl
@[simp] theorem setNdist_bit : (s.setNdist n).bit = s.bit := rfl
@[simp] theorem setNdist_out : (s.setNdist n).out = s.out := rfl
@[simp] theorem setNdist_own : (s.setNdist n).own = s.own := rfl
end Ndist

section Hsize
variable (s : State) (n : BitVec 9)
@[simp] theorem setHsize_cfg : (s.setHsize n).cfg = s.cfg := rfl
@[simp] theorem setHsize_port : (s.setHsize n).port = s.port := rfl
@[simp] theorem setHsize_ph : (s.setHsize n).ph = s.ph := rfl
@[simp] theorem setHsize_err : (s.setHsize n).err = s.err := rfl
@[simp] theorem setHsize_tv : (s.setHsize n).tv = s.tv := rfl
@[simp] theorem setHsize_symcnt : (s.setHsize n).symcnt = s.symcnt := rfl
@[simp] theorem setHsize_bitcnt : (s.setHsize n).bitcnt = s.bitcnt := rfl
@[simp] theorem setHsize_outcnt : (s.setHsize n).outcnt = s.outcnt := rfl
@[simp] theorem setHsize_root : (s.setHsize n).root = s.root := rfl
@[simp] theorem setHsize_ncnt : (s.setHsize n).ncnt = s.ncnt := rfl
@[simp] theorem setHsize_ndist : (s.setHsize n).ndist = s.ndist := rfl
@[simp] theorem setHsize_hsize : (s.setHsize n).hsize = n := rfl
@[simp] theorem setHsize_hcap : (s.setHsize n).hcap = s.hcap := rfl
@[simp] theorem setHsize_res : (s.setHsize n).res = s.res := rfl
@[simp] theorem setHsize_sym : (s.setHsize n).sym = s.sym := rfl
@[simp] theorem setHsize_ft : (s.setHsize n).ft = s.ft := rfl
@[simp] theorem setHsize_node : (s.setHsize n).node = s.node := rfl
@[simp] theorem setHsize_heap : (s.setHsize n).heap = s.heap := rfl
@[simp] theorem setHsize_ct : (s.setHsize n).ct = s.ct := rfl
@[simp] theorem setHsize_bit : (s.setHsize n).bit = s.bit := rfl
@[simp] theorem setHsize_out : (s.setHsize n).out = s.out := rfl
@[simp] theorem setHsize_own : (s.setHsize n).own = s.own := rfl
end Hsize

section Hcap
variable (s : State) (n : BitVec 9)
@[simp] theorem setHcap_cfg : (s.setHcap n).cfg = s.cfg := rfl
@[simp] theorem setHcap_port : (s.setHcap n).port = s.port := rfl
@[simp] theorem setHcap_ph : (s.setHcap n).ph = s.ph := rfl
@[simp] theorem setHcap_err : (s.setHcap n).err = s.err := rfl
@[simp] theorem setHcap_tv : (s.setHcap n).tv = s.tv := rfl
@[simp] theorem setHcap_symcnt : (s.setHcap n).symcnt = s.symcnt := rfl
@[simp] theorem setHcap_bitcnt : (s.setHcap n).bitcnt = s.bitcnt := rfl
@[simp] theorem setHcap_outcnt : (s.setHcap n).outcnt = s.outcnt := rfl
@[simp] theorem setHcap_root : (s.setHcap n).root = s.root := rfl
@[simp] theorem setHcap_ncnt : (s.setHcap n).ncnt = s.ncnt := rfl
@[simp] theorem setHcap_ndist : (s.setHcap n).ndist = s.ndist := rfl
@[simp] theorem setHcap_hsize : (s.setHcap n).hsize = s.hsize := rfl
@[simp] theorem setHcap_hcap : (s.setHcap n).hcap = n := rfl
@[simp] theorem setHcap_res : (s.setHcap n).res = s.res := rfl
@[simp] theorem setHcap_sym : (s.setHcap n).sym = s.sym := rfl
@[simp] theorem setHcap_ft : (s.setHcap n).ft = s.ft := rfl
@[simp] theorem setHcap_node : (s.setHcap n).node = s.node := rfl
@[simp] theorem setHcap_heap : (s.setHcap n).heap = s.heap := rfl
@[simp] theorem setHcap_ct : (s.setHcap n).ct = s.ct := rfl
@[simp] theorem setHcap_bit : (s.setHcap n).bit = s.bit := rfl
@[simp] theorem setHcap_out : (s.setHcap n).out = s.out := rfl
@[simp] theorem setHcap_own : (s.setHcap n).own = s.own := rfl
end Hcap

section Res
variable (s : State) (h : Handle)
@[simp] theorem setRes_cfg : (s.setRes h).cfg = s.cfg := rfl
@[simp] theorem setRes_port : (s.setRes h).port = s.port := rfl
@[simp] theorem setRes_ph : (s.setRes h).ph = s.ph := rfl
@[simp] theorem setRes_err : (s.setRes h).err = s.err := rfl
@[simp] theorem setRes_tv : (s.setRes h).tv = s.tv := rfl
@[simp] theorem setRes_symcnt : (s.setRes h).symcnt = s.symcnt := rfl
@[simp] theorem setRes_bitcnt : (s.setRes h).bitcnt = s.bitcnt := rfl
@[simp] theorem setRes_outcnt : (s.setRes h).outcnt = s.outcnt := rfl
@[simp] theorem setRes_root : (s.setRes h).root = s.root := rfl
@[simp] theorem setRes_ncnt : (s.setRes h).ncnt = s.ncnt := rfl
@[simp] theorem setRes_ndist : (s.setRes h).ndist = s.ndist := rfl
@[simp] theorem setRes_hsize : (s.setRes h).hsize = s.hsize := rfl
@[simp] theorem setRes_hcap : (s.setRes h).hcap = s.hcap := rfl
@[simp] theorem setRes_res : (s.setRes h).res = h := rfl
@[simp] theorem setRes_sym : (s.setRes h).sym = s.sym := rfl
@[simp] theorem setRes_ft : (s.setRes h).ft = s.ft := rfl
@[simp] theorem setRes_node : (s.setRes h).node = s.node := rfl
@[simp] theorem setRes_heap : (s.setRes h).heap = s.heap := rfl
@[simp] theorem setRes_ct : (s.setRes h).ct = s.ct := rfl
@[simp] theorem setRes_bit : (s.setRes h).bit = s.bit := rfl
@[simp] theorem setRes_out : (s.setRes h).out = s.out := rfl
@[simp] theorem setRes_own : (s.setRes h).own = s.own := rfl
end Res

section Sym
variable (s : State) (m : Mem Byte)
@[simp] theorem setSym_cfg : (s.setSym m).cfg = s.cfg := rfl
@[simp] theorem setSym_port : (s.setSym m).port = s.port := rfl
@[simp] theorem setSym_ph : (s.setSym m).ph = s.ph := rfl
@[simp] theorem setSym_err : (s.setSym m).err = s.err := rfl
@[simp] theorem setSym_tv : (s.setSym m).tv = s.tv := rfl
@[simp] theorem setSym_symcnt : (s.setSym m).symcnt = s.symcnt := rfl
@[simp] theorem setSym_bitcnt : (s.setSym m).bitcnt = s.bitcnt := rfl
@[simp] theorem setSym_outcnt : (s.setSym m).outcnt = s.outcnt := rfl
@[simp] theorem setSym_root : (s.setSym m).root = s.root := rfl
@[simp] theorem setSym_ncnt : (s.setSym m).ncnt = s.ncnt := rfl
@[simp] theorem setSym_ndist : (s.setSym m).ndist = s.ndist := rfl
@[simp] theorem setSym_hsize : (s.setSym m).hsize = s.hsize := rfl
@[simp] theorem setSym_hcap : (s.setSym m).hcap = s.hcap := rfl
@[simp] theorem setSym_res : (s.setSym m).res = s.res := rfl
@[simp] theorem setSym_sym : (s.setSym m).sym = m := rfl
@[simp] theorem setSym_ft : (s.setSym m).ft = s.ft := rfl
@[simp] theorem setSym_node : (s.setSym m).node = s.node := rfl
@[simp] theorem setSym_heap : (s.setSym m).heap = s.heap := rfl
@[simp] theorem setSym_ct : (s.setSym m).ct = s.ct := rfl
@[simp] theorem setSym_bit : (s.setSym m).bit = s.bit := rfl
@[simp] theorem setSym_out : (s.setSym m).out = s.out := rfl
@[simp] theorem setSym_own : (s.setSym m).own = s.own := rfl
end Sym

section Ft
variable (s : State) (m : Mem Nat)
@[simp] theorem setFt_cfg : (s.setFt m).cfg = s.cfg := rfl
@[simp] theorem setFt_port : (s.setFt m).port = s.port := rfl
@[simp] theorem setFt_ph : (s.setFt m).ph = s.ph := rfl
@[simp] theorem setFt_err : (s.setFt m).err = s.err := rfl
@[simp] theorem setFt_tv : (s.setFt m).tv = s.tv := rfl
@[simp] theorem setFt_symcnt : (s.setFt m).symcnt = s.symcnt := rfl
@[simp] theorem setFt_bitcnt : (s.setFt m).bitcnt = s.bitcnt := rfl
@[simp] theorem setFt_outcnt : (s.setFt m).outcnt = s.outcnt := rfl
@[simp] theorem setFt_root : (s.setFt m).root = s.root := rfl
@[simp] theorem setFt_ncnt : (s.setFt m).ncnt = s.ncnt := rfl
@[simp] theorem setFt_ndist : (s.setFt m).ndist = s.ndist := rfl
@[simp] theorem setFt_hsize : (s.setFt m).hsize = s.hsize := rfl
@[simp] theorem setFt_hcap : (s.setFt m).hcap = s.hcap := rfl
@[simp] theorem setFt_res : (s.setFt m).res = s.res := rfl
@[simp] theorem setFt_sym : (s.setFt m).sym = s.sym := rfl
@[simp] theorem setFt_ft : (s.setFt m).ft = m := rfl
@[simp] theorem setFt_node : (s.setFt m).node = s.node := rfl
@[simp] theorem setFt_heap : (s.setFt m).heap = s.heap := rfl
@[simp] theorem setFt_ct : (s.setFt m).ct = s.ct := rfl
@[simp] theorem setFt_bit : (s.setFt m).bit = s.bit := rfl
@[simp] theorem setFt_out : (s.setFt m).out = s.out := rfl
@[simp] theorem setFt_own : (s.setFt m).own = s.own := rfl
end Ft

section Node
variable (s : State) (m : Mem NodeRec)
@[simp] theorem setNode_cfg : (s.setNode m).cfg = s.cfg := rfl
@[simp] theorem setNode_port : (s.setNode m).port = s.port := rfl
@[simp] theorem setNode_ph : (s.setNode m).ph = s.ph := rfl
@[simp] theorem setNode_err : (s.setNode m).err = s.err := rfl
@[simp] theorem setNode_tv : (s.setNode m).tv = s.tv := rfl
@[simp] theorem setNode_symcnt : (s.setNode m).symcnt = s.symcnt := rfl
@[simp] theorem setNode_bitcnt : (s.setNode m).bitcnt = s.bitcnt := rfl
@[simp] theorem setNode_outcnt : (s.setNode m).outcnt = s.outcnt := rfl
@[simp] theorem setNode_root : (s.setNode m).root = s.root := rfl
@[simp] theorem setNode_ncnt : (s.setNode m).ncnt = s.ncnt := rfl
@[simp] theorem setNode_ndist : (s.setNode m).ndist = s.ndist := rfl
@[simp] theorem setNode_hsize : (s.setNode m).hsize = s.hsize := rfl
@[simp] theorem setNode_hcap : (s.setNode m).hcap = s.hcap := rfl
@[simp] theorem setNode_res : (s.setNode m).res = s.res := rfl
@[simp] theorem setNode_sym : (s.setNode m).sym = s.sym := rfl
@[simp] theorem setNode_ft : (s.setNode m).ft = s.ft := rfl
@[simp] theorem setNode_node : (s.setNode m).node = m := rfl
@[simp] theorem setNode_heap : (s.setNode m).heap = s.heap := rfl
@[simp] theorem setNode_ct : (s.setNode m).ct = s.ct := rfl
@[simp] theorem setNode_bit : (s.setNode m).bit = s.bit := rfl
@[simp] theorem setNode_out : (s.setNode m).out = s.out := rfl
@[simp] theorem setNode_own : (s.setNode m).own = s.own := rfl
end Node

section Heap
variable (s : State) (m : Mem Handle)
@[simp] theorem setHeap_cfg : (s.setHeap m).cfg = s.cfg := rfl
@[simp] theorem setHeap_port : (s.setHeap m).port = s.port := rfl
@[simp] theorem setHeap_ph : (s.setHeap m).ph = s.ph := rfl
@[simp] theorem setHeap_err : (s.setHeap m).err = s.err := rfl
@[simp] theorem setHeap_tv : (s.setHeap m).tv = s.tv := rfl
@[simp] theorem setHeap_symcnt : (s.setHeap m).symcnt = s.symcnt := rfl
@[simp] theorem setHeap_bitcnt : (s.setHeap m).bitcnt = s.bitcnt := rfl
@[simp] theorem setHeap_outcnt : (s.setHeap m).outcnt = s.outcnt := rfl
@[simp] theorem setHeap_root : (s.setHeap m).root = s.root := rfl
@[simp] theorem setHeap_ncnt : (s.setHeap m).ncnt = s.ncnt := rfl
@[simp] theorem setHeap_ndist : (s.setHeap m).ndist = s.ndist := rfl
@[simp] theorem setHeap_hsize : (s.setHeap m).hsize = s.hsize := rfl
@[simp] theorem setHeap_hcap : (s.setHeap m).hcap = s.hcap := rfl
@[simp] theorem setHeap_res : (s.setHeap m).res = s.res := rfl
@[simp] theorem setHeap_sym : (s.setHeap m).sym = s.sym := rfl
@[simp] theorem setHeap_ft : (s.setHeap m).ft = s.ft := rfl
@[simp] theorem setHeap_node : (s.setHeap m).node = s.node := rfl
@[simp] theorem setHeap_heap : (s.setHeap m).heap = m := rfl
@[simp] theorem setHeap_ct : (s.setHeap m).ct = s.ct := rfl
@[simp] theorem setHeap_bit : (s.setHeap m).bit = s.bit := rfl
@[simp] theorem setHeap_out : (s.setHeap m).out = s.out := rfl
@[simp] theorem setHeap_own : (s.setHeap m).own = s.own := rfl
end Heap

section Ct
variable (s : State) (m : Mem CodeRec)
@[simp] theorem setCt_cfg : (s.setCt m).cfg = s.cfg := rfl
@[simp] theorem setCt_port : (s.setCt m).port = s.port := rfl
@[simp] theorem setCt_ph : (s.setCt m).ph = s.ph := rfl
@[simp] theorem setCt_err : (s.setCt m).err = s.err := rfl
@[simp] theorem setCt_tv : (s.setCt m).tv = s.tv := rfl
@[simp] theorem setCt_symcnt : (s.setCt m).symcnt = s.symcnt := rfl
@[simp] theorem setCt_bitcnt : (s.setCt m).bitcnt = s.bitcnt := rfl
@[simp] theorem setCt_outcnt : (s.setCt m).outcnt = s.outcnt := rfl
@[simp] theorem setCt_root : (s.setCt m).root = s.root := rfl
@[simp] theorem setCt_ncnt : (s.setCt m).ncnt = s.ncnt := rfl
@[simp] theorem setCt_ndist : (s.setCt m).ndist = s.ndist := rfl
@[simp] theorem setCt_hsize : (s.setCt m).hsize = s.hsize := rfl
@[simp] theorem setCt_hcap : (s.setCt m).hcap = s.hcap := rfl
@[simp] theorem setCt_res : (s.setCt m).res = s.res := rfl
@[simp] theorem setCt_sym : (s.setCt m).sym = s.sym := rfl
@[simp] theorem setCt_ft : (s.setCt m).ft = s.ft := rfl
@[simp] theorem setCt_node : (s.setCt m).node = s.node := rfl
@[simp] theorem setCt_heap : (s.setCt m).heap = s.heap := rfl
@[simp] theorem setCt_ct : (s.setCt m).ct = m := rfl
@[simp] theorem setCt_bit : (s.setCt m).bit = s.bit := rfl
@[simp] theorem setCt_out : (s.setCt m).out = s.out := rfl
@[simp] theorem setCt_own : (s.setCt m).own = s.own := rfl
end Ct

section Bit
variable (s : State) (m : Mem Byte)
@[simp] theorem setBit_cfg : (s.setBit m).cfg = s.cfg := rfl
@[simp] theorem setBit_port : (s.setBit m).port = s.port := rfl
@[simp] theorem setBit_ph : (s.setBit m).ph = s.ph := rfl
@[simp] theorem setBit_err : (s.setBit m).err = s.err := rfl
@[simp] theorem setBit_tv : (s.setBit m).tv = s.tv := rfl
@[simp] theorem setBit_symcnt : (s.setBit m).symcnt = s.symcnt := rfl
@[simp] theorem setBit_bitcnt : (s.setBit m).bitcnt = s.bitcnt := rfl
@[simp] theorem setBit_outcnt : (s.setBit m).outcnt = s.outcnt := rfl
@[simp] theorem setBit_root : (s.setBit m).root = s.root := rfl
@[simp] theorem setBit_ncnt : (s.setBit m).ncnt = s.ncnt := rfl
@[simp] theorem setBit_ndist : (s.setBit m).ndist = s.ndist := rfl
@[simp] theorem setBit_hsize : (s.setBit m).hsize = s.hsize := rfl
@[simp] theorem setBit_hcap : (s.setBit m).hcap = s.hcap := rfl
@[simp] theorem setBit_res : (s.setBit m).res = s.res := rfl
@[simp] theorem setBit_sym : (s.setBit m).sym = s.sym := rfl
@[simp] theorem setBit_ft : (s.setBit m).ft = s.ft := rfl
@[simp] theorem setBit_node : (s.setBit m).node = s.node := rfl
@[simp] theorem setBit_heap : (s.setBit m).heap = s.heap := rfl
@[simp] theorem setBit_ct : (s.setBit m).ct = s.ct := rfl
@[simp] theorem setBit_bit : (s.setBit m).bit = m := rfl
@[simp] theorem setBit_out : (s.setBit m).out = s.out := rfl
@[simp] theorem setBit_own : (s.setBit m).own = s.own := rfl
end Bit

section Out
variable (s : State) (m : Mem Byte)
@[simp] theorem setOut_cfg : (s.setOut m).cfg = s.cfg := rfl
@[simp] theorem setOut_port : (s.setOut m).port = s.port := rfl
@[simp] theorem setOut_ph : (s.setOut m).ph = s.ph := rfl
@[simp] theorem setOut_err : (s.setOut m).err = s.err := rfl
@[simp] theorem setOut_tv : (s.setOut m).tv = s.tv := rfl
@[simp] theorem setOut_symcnt : (s.setOut m).symcnt = s.symcnt := rfl
@[simp] theorem setOut_bitcnt : (s.setOut m).bitcnt = s.bitcnt := rfl
@[simp] theorem setOut_outcnt : (s.setOut m).outcnt = s.outcnt := rfl
@[simp] theorem setOut_root : (s.setOut m).root = s.root := rfl
@[simp] theorem setOut_ncnt : (s.setOut m).ncnt = s.ncnt := rfl
@[simp] theorem setOut_ndist : (s.setOut m).ndist = s.ndist := rfl
@[simp] theorem setOut_hsize : (s.setOut m).hsize = s.hsize := rfl
@[simp] theorem setOut_hcap : (s.setOut m).hcap = s.hcap := rfl
@[simp] theorem setOut_res : (s.setOut m).res = s.res := rfl
@[simp] theorem setOut_sym : (s.setOut m).sym = s.sym := rfl
@[simp] theorem setOut_ft : (s.setOut m).ft = s.ft := rfl
@[simp] theorem setOut_node : (s.setOut m).node = s.node := rfl
@[simp] theorem setOut_heap : (s.setOut m).heap = s.heap := rfl
@[simp] theorem setOut_ct : (s.setOut m).ct = s.ct := rfl
@[simp] theorem setOut_bit : (s.setOut m).bit = s.bit := rfl
@[simp] theorem setOut_out : (s.setOut m).out = m := rfl
@[simp] theorem setOut_own : (s.setOut m).own = s.own := rfl
end Out

section Own
variable (s : State) (m : Mem Bool)
@[simp] theorem setOwn_cfg : (s.setOwn m).cfg = s.cfg := rfl
@[simp] theorem setOwn_port : (s.setOwn m).port = s.port := rfl
@[simp] theorem setOwn_ph : (s.setOwn m).ph = s.ph := rfl
@[simp] theorem setOwn_err : (s.setOwn m).err = s.err := rfl
@[simp] theorem setOwn_tv : (s.setOwn m).tv = s.tv := rfl
@[simp] theorem setOwn_symcnt : (s.setOwn m).symcnt = s.symcnt := rfl
@[simp] theorem setOwn_bitcnt : (s.setOwn m).bitcnt = s.bitcnt := rfl
@[simp] theorem setOwn_outcnt : (s.setOwn m).outcnt = s.outcnt := rfl
@[simp] theorem setOwn_root : (s.setOwn m).root = s.root := rfl
@[simp] theorem setOwn_ncnt : (s.setOwn m).ncnt = s.ncnt := rfl
@[simp] theorem setOwn_ndist : (s.setOwn m).ndist = s.ndist := rfl
@[simp] theorem setOwn_hsize : (s.setOwn m).hsize = s.hsize := rfl
@[simp] theorem setOwn_hcap : (s.setOwn m).hcap = s.hcap := rfl
@[simp] theorem setOwn_res : (s.setOwn m).res = s.res := rfl
@[simp] theorem setOwn_sym : (s.setOwn m).sym = s.sym := rfl
@[simp] theorem setOwn_ft : (s.setOwn m).ft = s.ft := rfl
@[simp] theorem setOwn_node : (s.setOwn m).node = s.node := rfl
@[simp] theorem setOwn_heap : (s.setOwn m).heap = s.heap := rfl
@[simp] theorem setOwn_ct : (s.setOwn m).ct = s.ct := rfl
@[simp] theorem setOwn_bit : (s.setOwn m).bit = s.bit := rfl
@[simp] theorem setOwn_out : (s.setOwn m).out = s.out := rfl
@[simp] theorem setOwn_own : (s.setOwn m).own = m := rfl
end Own

end Sys2Proof.Machine.State
end

