-- ==== Sys2Proof/Laws/Ops.lean ====
section
/-! SUPPORT. Laws/Ops.lean: the lemmas of the shared operations of Machine/Ops.lean: the fields after each element
write and after the error entry, what a command's course can end in, and the canonical form of each memory. -/

namespace Sys2Proof.Machine

namespace State

section putNode
variable (s : State) (i : Nat) (r : NodeRec)
@[simp] theorem putNode_cfg : (s.putNode i r).cfg = s.cfg := rfl
@[simp] theorem putNode_port : (s.putNode i r).port = s.port := rfl
@[simp] theorem putNode_ph : (s.putNode i r).ph = s.ph := rfl
@[simp] theorem putNode_err : (s.putNode i r).err = s.err := rfl
@[simp] theorem putNode_tv : (s.putNode i r).tv = s.tv := rfl
@[simp] theorem putNode_symcnt : (s.putNode i r).symcnt = s.symcnt := rfl
@[simp] theorem putNode_bitcnt : (s.putNode i r).bitcnt = s.bitcnt := rfl
@[simp] theorem putNode_outcnt : (s.putNode i r).outcnt = s.outcnt := rfl
@[simp] theorem putNode_root : (s.putNode i r).root = s.root := rfl
@[simp] theorem putNode_ncnt : (s.putNode i r).ncnt = s.ncnt := rfl
@[simp] theorem putNode_ndist : (s.putNode i r).ndist = s.ndist := rfl
@[simp] theorem putNode_hsize : (s.putNode i r).hsize = s.hsize := rfl
@[simp] theorem putNode_hcap : (s.putNode i r).hcap = s.hcap := rfl
@[simp] theorem putNode_res : (s.putNode i r).res = s.res := rfl
@[simp] theorem putNode_sym : (s.putNode i r).sym = s.sym := rfl
@[simp] theorem putNode_ft : (s.putNode i r).ft = s.ft := rfl
@[simp] theorem putNode_node : (s.putNode i r).node = Mem.set NodeRec.blank nodeCap s.node i (r.atWidth s.cfg.nfreqBits) := rfl
@[simp] theorem putNode_heap : (s.putNode i r).heap = s.heap := rfl
@[simp] theorem putNode_ct : (s.putNode i r).ct = s.ct := rfl
@[simp] theorem putNode_bit : (s.putNode i r).bit = s.bit := rfl
@[simp] theorem putNode_out : (s.putNode i r).out = s.out := rfl
@[simp] theorem putNode_own : (s.putNode i r).own = s.own := rfl
end putNode

section putOwn
variable (s : State) (h : Handle) (b : Bool)
@[simp] theorem putOwn_cfg : (s.putOwn h b).cfg = s.cfg := rfl
@[simp] theorem putOwn_port : (s.putOwn h b).port = s.port := rfl
@[simp] theorem putOwn_ph : (s.putOwn h b).ph = s.ph := rfl
@[simp] theorem putOwn_err : (s.putOwn h b).err = s.err := rfl
@[simp] theorem putOwn_tv : (s.putOwn h b).tv = s.tv := rfl
@[simp] theorem putOwn_symcnt : (s.putOwn h b).symcnt = s.symcnt := rfl
@[simp] theorem putOwn_bitcnt : (s.putOwn h b).bitcnt = s.bitcnt := rfl
@[simp] theorem putOwn_outcnt : (s.putOwn h b).outcnt = s.outcnt := rfl
@[simp] theorem putOwn_root : (s.putOwn h b).root = s.root := rfl
@[simp] theorem putOwn_ncnt : (s.putOwn h b).ncnt = s.ncnt := rfl
@[simp] theorem putOwn_ndist : (s.putOwn h b).ndist = s.ndist := rfl
@[simp] theorem putOwn_hsize : (s.putOwn h b).hsize = s.hsize := rfl
@[simp] theorem putOwn_hcap : (s.putOwn h b).hcap = s.hcap := rfl
@[simp] theorem putOwn_res : (s.putOwn h b).res = s.res := rfl
@[simp] theorem putOwn_sym : (s.putOwn h b).sym = s.sym := rfl
@[simp] theorem putOwn_ft : (s.putOwn h b).ft = s.ft := rfl
@[simp] theorem putOwn_node : (s.putOwn h b).node = s.node := rfl
@[simp] theorem putOwn_heap : (s.putOwn h b).heap = s.heap := rfl
@[simp] theorem putOwn_ct : (s.putOwn h b).ct = s.ct := rfl
@[simp] theorem putOwn_bit : (s.putOwn h b).bit = s.bit := rfl
@[simp] theorem putOwn_out : (s.putOwn h b).out = s.out := rfl
@[simp] theorem putOwn_own : (s.putOwn h b).own = Mem.set false nodeCap s.own h.toNat b := rfl
end putOwn

section raiseError
variable (s : State) (e : ErrorCode)
@[simp] theorem raiseError_cfg : (s.raiseError e).cfg = s.cfg := rfl
@[simp] theorem raiseError_port : (s.raiseError e).port = s.port := rfl
@[simp] theorem raiseError_ph : (s.raiseError e).ph = .idle := rfl
@[simp] theorem raiseError_err : (s.raiseError e).err = some e := rfl
@[simp] theorem raiseError_tv : (s.raiseError e).tv = s.tv := rfl
@[simp] theorem raiseError_symcnt : (s.raiseError e).symcnt = s.symcnt := rfl
@[simp] theorem raiseError_bitcnt : (s.raiseError e).bitcnt = s.bitcnt := rfl
@[simp] theorem raiseError_outcnt : (s.raiseError e).outcnt = s.outcnt := rfl
@[simp] theorem raiseError_root : (s.raiseError e).root = s.root := rfl
@[simp] theorem raiseError_ncnt : (s.raiseError e).ncnt = s.ncnt := rfl
@[simp] theorem raiseError_ndist : (s.raiseError e).ndist = s.ndist := rfl
@[simp] theorem raiseError_hsize : (s.raiseError e).hsize = s.hsize := rfl
@[simp] theorem raiseError_hcap : (s.raiseError e).hcap = s.hcap := rfl
@[simp] theorem raiseError_res : (s.raiseError e).res = s.res := rfl
@[simp] theorem raiseError_sym : (s.raiseError e).sym = s.sym := rfl
@[simp] theorem raiseError_ft : (s.raiseError e).ft = s.ft := rfl
@[simp] theorem raiseError_node : (s.raiseError e).node = s.node := rfl
@[simp] theorem raiseError_heap : (s.raiseError e).heap = s.heap := rfl
@[simp] theorem raiseError_ct : (s.raiseError e).ct = s.ct := rfl
@[simp] theorem raiseError_bit : (s.raiseError e).bit = s.bit := rfl
@[simp] theorem raiseError_out : (s.raiseError e).out = s.out := rfl
@[simp] theorem raiseError_own : (s.raiseError e).own = s.own := rfl
end raiseError

end State

/-! ## The course of a command -/

@[simp] theorem Run.andThen_ok {α β : Type} (a : α) (s : State) (f : α → State → Run β) :
    (Run.ok a s).andThen f = f a s := rfl

@[simp] theorem Run.andThen_raised {α β : Type} (e : ErrorCode) (s : State) (f : α → State → Run β) :
    (Run.raised e s : Run α).andThen f = .raised e s := rfl

@[simp] theorem Run.finish_ok (s : State) : (Run.ok () s).finish = .next s := rfl

@[simp] theorem Run.finish_raised (e : ErrorCode) (s : State) :
    (Run.raised e s : Run Unit).finish = .next (s.raiseError e) := rfl

/-- A command's result is a next state, whether it raised or not (R222). -/
theorem Run.finish_cases (r : Run Unit) :
    (∃ s, r = .ok () s ∧ r.finish = .next s) ∨ ∃ e s, r = .raised e s ∧ r.finish = .next (s.raiseError e) := by
  cases r with
  | ok a s => exact .inl ⟨s, rfl, rfl⟩
  | raised e s => exact .inr ⟨e, s, rfl, rfl⟩

/-- A sequence ends well exactly when both parts do. -/
theorem Run.andThen_eq_ok {α β : Type} {r : Run α} {f : α → State → Run β} {b : β} {t : State} :
    r.andThen f = .ok b t ↔ ∃ a s, r = .ok a s ∧ f a s = .ok b t := by
  cases r <;> simp [Run.andThen]

/-- A sequence raises when its first part raises, or its first part ends well and the second raises. -/
theorem Run.andThen_eq_raised {α β : Type} {r : Run α} {f : α → State → Run β} {e : ErrorCode} {t : State} :
    r.andThen f = .raised e t ↔ r = .raised e t ∨ ∃ a s, r = .ok a s ∧ f a s = .raised e t := by
  cases r <;> simp [Run.andThen]

/-! ## Elements -/

theorem heapAt_putHeap (m : Mem Handle) (i j : Nat) (h : Handle) :
    heapAt (putHeap m i h) j = if j = i ∧ i < nodeCap then h else heapAt m j :=
  Mem.read_set 0#9 nodeCap m i j h

theorem ftAt_putFt (w : Nat) (m : Mem Nat) (a b : Byte) (n : Nat) :
    ftAt (putFt w m a n) b = if b = a then narrow w n else ftAt m b := by
  have : a.toNat < nSym := a.isLt
  simp only [ftAt, putFt, Mem.read_set, this, and_true]
  simp [← BitVec.toNat_inj]

theorem ctAt_putCt (m : Mem CodeRec) (a b : Byte) (r : CodeRec) :
    ctAt (putCt m a r) b = if b = a then r else ctAt m b := by
  have : a.toNat < nSym := a.isLt
  simp only [ctAt, putCt, Mem.read_set, this, and_true]
  simp [← BitVec.toNat_inj]

theorem nodeAt_putNode (s : State) (i : Nat) (r : NodeRec) (h : Handle) :
    nodeAt (s.putNode i r).node h =
      if h.toNat = i ∧ i < nodeCap then r.atWidth s.cfg.nfreqBits else nodeAt s.node h :=
  Mem.read_set _ _ _ _ _ _

theorem ownAt_putOwn (s : State) (g h : Handle) (b : Bool) :
    ownAt (s.putOwn g b).own h = if h = g ∧ g ≠ null then b else ownAt s.own h := by
  have : (g.toNat < nodeCap) ↔ g ≠ null := by
    have := g.isLt
    simp only [null, nodeCap, ne_eq, ← BitVec.toNat_inj]
    simp; omega
  simp only [ownAt, State.putOwn_own, Mem.read_set, this]
  simp [← BitVec.toNat_inj]

theorem nodeAt_clearNodeV (m : Mem NodeRec) (h : Handle) :
    nodeAt (clearNodeV m) h = { nodeAt m h with v := false } :=
  Mem.read_mapVals _ _ rfl _ _

theorem ctAt_clearCtV (m : Mem CodeRec) (b : Byte) : ctAt (clearCtV m) b = { ctAt m b with v := false } :=
  Mem.read_mapVals _ _ rfl _ _

theorem narrow_lt (w n : Nat) : narrow w n < 2 ^ w := Nat.mod_lt _ (Nat.two_pow_pos w)

theorem narrow_of_lt {w n : Nat} (h : n < 2 ^ w) : narrow w n = n := Nat.mod_eq_of_lt h

/-! ## Every element write keeps the canonical form -/

theorem wf_putHeap (m : Mem Handle) (i : Nat) (h : Handle) (hm : Mem.wf 0#9 nodeCap (fun _ => true) m = true) :
    Mem.wf 0#9 nodeCap (fun _ => true) (putHeap m i h) = true :=
  Mem.wf_set _ _ _ _ _ _ hm (.inr rfl)

theorem wf_putFt (w : Nat) (m : Mem Nat) (b : Byte) (n : Nat)
    (hm : Mem.wf 0 nSym (fun n => decide (n < 2 ^ w)) m = true) :
    Mem.wf 0 nSym (fun n => decide (n < 2 ^ w)) (putFt w m b n) = true :=
  Mem.wf_set _ _ _ _ _ _ hm (.inr (by simpa using narrow_lt w n))

theorem wf_putCt (m : Mem CodeRec) (b : Byte) (r : CodeRec)
    (hm : Mem.wf CodeRec.blank nSym (fun _ => true) m = true) :
    Mem.wf CodeRec.blank nSym (fun _ => true) (putCt m b r) = true :=
  Mem.wf_set _ _ _ _ _ _ hm (.inr rfl)

theorem wf_putNode (s : State) (i : Nat) (r : NodeRec)
    (hm : Mem.wf NodeRec.blank nodeCap (fun r => decide (r.freq < 2 ^ s.cfg.nfreqBits)) s.node = true) :
    Mem.wf NodeRec.blank nodeCap (fun r => decide (r.freq < 2 ^ s.cfg.nfreqBits)) (s.putNode i r).node = true :=
  Mem.wf_set _ _ _ _ _ _ hm (.inr (decide_eq_true (narrow_lt s.cfg.nfreqBits r.freq)))

theorem wf_putOwn (s : State) (h : Handle) (b : Bool) (hm : Mem.wf false nodeCap (fun _ => true) s.own = true) :
    Mem.wf false nodeCap (fun _ => true) (s.putOwn h b).own = true :=
  Mem.wf_set _ _ _ _ _ _ hm (.inr rfl)

theorem wf_clearNodeV (m : Mem NodeRec) (w : Nat)
    (hm : Mem.wf NodeRec.blank nodeCap (fun r => decide (r.freq < 2 ^ w)) m = true) :
    Mem.wf NodeRec.blank nodeCap (fun r => decide (r.freq < 2 ^ w)) (clearNodeV m) = true :=
  Mem.wf_mapVals _ _ _ _ _ hm (fun _ h => h)

theorem wf_clearCtV (m : Mem CodeRec) (hm : Mem.wf CodeRec.blank nSym (fun _ => true) m = true) :
    Mem.wf CodeRec.blank nSym (fun _ => true) (clearCtV m) = true :=
  Mem.wf_mapVals _ _ _ _ _ hm (fun _ h => h)

/-! ## The return from an error -/

/-- CLRE changes STATUS.ERR alone, and EmptyHeapError stays (R201). -/
theorem State.clearError_cases (s : State) :
    (s.err = some .emptyHeap ∧ s.clearError = s) ∨ (s.err ≠ some .emptyHeap ∧ s.clearError = s.setErr none) := by
  by_cases h : s.err = some .emptyHeap <;> simp [State.clearError, h]

end Sys2Proof.Machine
end

