-- ==== Sys2Proof/Laws/Heap.lean ====
section
/-! SUPPORT. Laws/Heap.lean: everything the heap operations can do: swaps and sifts permute the heap's positions and
leave the others alone; Insert, ExtractMin and MRG by cases. -/

namespace Sys2Proof.Machine

/-! ## Swaps -/

theorem heapAt_swapHeap (hp : Mem Handle) (i j k : Nat) (hi : i < nodeCap) (hj : j < nodeCap) :
    heapAt (swapHeap hp i j) k = heapAt hp (Equiv.swap i j k) := by
  unfold swapHeap
  simp only [heapAt_putHeap, hi, hj, and_true]
  by_cases h1 : k = j
  · simp [h1]
  · by_cases h2 : k = i
    · subst h2; simp [h1]
    · simp [h1, h2, Equiv.swap_apply_of_ne_of_ne h2 h1]

theorem wf_swapHeap (hp : Mem Handle) (i j : Nat) (hm : Mem.wf 0#9 nodeCap (fun _ => true) hp = true) :
    Mem.wf 0#9 nodeCap (fun _ => true) (swapHeap hp i j) = true :=
  wf_putHeap _ _ _ (wf_putHeap _ _ _ hm)

/-- Positions of `[0, n)` permuted by a map that permutes `[0, n)`. -/
theorem map_swap_perm (f : Nat → Handle) (n i j : Nat) (hi : i < n) (hj : j < n) :
    ((List.range n).map (fun k => f (Equiv.swap i j k))).Perm ((List.range n).map f) := by
  have hcomp : (List.range n).map (fun k => f (Equiv.swap i j k)) = ((List.range n).map (Equiv.swap i j)).map f := by
    simp [List.map_map, Function.comp_def]
  rw [hcomp]
  refine List.Perm.map f ((List.perm_ext_iff_of_nodup ?_ List.nodup_range).2 ?_)
  · exact List.nodup_range.map (Equiv.injective _)
  · intro a
    simp only [List.mem_map, List.mem_range]
    constructor
    · rintro ⟨k, hk, rfl⟩
      simp only [Equiv.swap_apply_def]
      split_ifs <;> omega
    · intro ha
      refine ⟨Equiv.swap i j a, ?_, by simp⟩
      simp only [Equiv.swap_apply_def]
      split_ifs <;> omega

theorem swapHeap_perm (hp : Mem Handle) (n i j : Nat) (hn : n ≤ nodeCap) (hi : i < n) (hj : j < n) :
    ((List.range n).map (heapAt (swapHeap hp i j))).Perm ((List.range n).map (heapAt hp)) := by
  have h : heapAt (swapHeap hp i j) = fun k => heapAt hp (Equiv.swap i j k) :=
    funext fun k => heapAt_swapHeap hp i j k (by omega) (by omega)
  rw [h]
  exact map_swap_perm (heapAt hp) n i j hi hj

theorem swapHeap_above (hp : Mem Handle) (n i j k : Nat) (hn : n ≤ nodeCap) (hi : i < n) (hj : j < n) (hk : n ≤ k) :
    heapAt (swapHeap hp i j) k = heapAt hp k := by
  rw [heapAt_swapHeap _ _ _ _ (by omega) (by omega), Equiv.swap_apply_of_ne_of_ne] <;> omega

/-! ## SiftDown and SiftUp -/

/-- One pass of SiftDown: it stops, or it swaps with a child position below HSIZE and goes on there (R123). -/
theorem siftDown_step (node : Mem NodeRec) (n fuel i : Nat) (hp : Mem Handle) :
    siftDown node n (fuel + 1) i hp = hp ∨
      ∃ c, (c = 2 * i + 1 ∨ c = 2 * i + 2) ∧ c < n ∧ freqOf node (heapAt hp c) < freqOf node (heapAt hp i) ∧
        siftDown node n (fuel + 1) i hp = siftDown node n fuel c (swapHeap hp i c) := by
  rw [siftDown]
  by_cases h1 : n ≤ 2 * i + 1
  · exact .inl (if_pos h1)
  · simp only [h1, if_false]
    split
    · next h2 =>
      by_cases h3 : freqOf node (heapAt hp (2 * i + 2)) < freqOf node (heapAt hp i)
      · exact .inr ⟨2 * i + 2, .inr rfl, h2.1, h3, by simp [h3]⟩
      · exact .inl (by simp [h3])
    · by_cases h3 : freqOf node (heapAt hp (2 * i + 1)) < freqOf node (heapAt hp i)
      · exact .inr ⟨2 * i + 1, .inl rfl, by omega, h3, by simp [h3]⟩
      · exact .inl (by simp [h3])

/-- SiftDown permutes the heap, leaves every position at or above HSIZE alone, and keeps the canonical form. -/
theorem siftDown_spec (node : Mem NodeRec) (n : Nat) (hn : n ≤ nodeCap) (fuel i : Nat) (hp : Mem Handle) :
    ((List.range n).map (heapAt (siftDown node n fuel i hp))).Perm ((List.range n).map (heapAt hp)) ∧
    (∀ k, n ≤ k → heapAt (siftDown node n fuel i hp) k = heapAt hp k) ∧
    (Mem.wf 0#9 nodeCap (fun _ => true) hp = true →
      Mem.wf 0#9 nodeCap (fun _ => true) (siftDown node n fuel i hp) = true) := by
  induction fuel generalizing i hp with
  | zero => exact ⟨.refl _, fun _ _ => rfl, id⟩
  | succ fuel ih =>
    rcases siftDown_step node n fuel i hp with h | ⟨c, hc, hcn, -, h⟩
    · rw [h]; exact ⟨.refl _, fun _ _ => rfl, id⟩
    · have hin : i < n := by omega
      obtain ⟨h1, h2, h3⟩ := ih c (swapHeap hp i c)
      rw [h]
      exact ⟨h1.trans (swapHeap_perm hp n i c hn hin hcn),
        fun k hk => (h2 k hk).trans (swapHeap_above hp n i c k hn hin hcn hk),
        fun hw => h3 (wf_swapHeap hp i c hw)⟩

/-- One pass of SiftUp: it stops, or it swaps with the parent position and goes on there (R124). -/
theorem siftUp_step (node : Mem NodeRec) (fuel i : Nat) (hp : Mem Handle) :
    siftUp node (fuel + 1) i hp = hp ∨
      (0 < i ∧ freqOf node (heapAt hp i) < freqOf node (heapAt hp ((i - 1) / 2)) ∧
        siftUp node (fuel + 1) i hp = siftUp node fuel ((i - 1) / 2) (swapHeap hp i ((i - 1) / 2))) := by
  rw [siftUp]
  by_cases h1 : i = 0
  · exact .inl (if_pos h1)
  · by_cases h2 : freqOf node (heapAt hp i) < freqOf node (heapAt hp ((i - 1) / 2))
    · exact .inr ⟨by omega, h2, by simp [h1, h2]⟩
    · exact .inl (by simp [h1, h2])

/-- SiftUp permutes the positions below any bound above its start, leaves the others alone, and keeps the canonical
form. -/
theorem siftUp_spec (node : Mem NodeRec) (n : Nat) (hn : n ≤ nodeCap) (fuel i : Nat) (hi : i < n) (hp : Mem Handle) :
    ((List.range n).map (heapAt (siftUp node fuel i hp))).Perm ((List.range n).map (heapAt hp)) ∧
    (∀ k, n ≤ k → heapAt (siftUp node fuel i hp) k = heapAt hp k) ∧
    (Mem.wf 0#9 nodeCap (fun _ => true) hp = true →
      Mem.wf 0#9 nodeCap (fun _ => true) (siftUp node fuel i hp) = true) := by
  induction fuel generalizing i hp with
  | zero => exact ⟨.refl _, fun _ _ => rfl, id⟩
  | succ fuel ih =>
    rcases siftUp_step node fuel i hp with h | ⟨-, -, h⟩
    · rw [h]; exact ⟨.refl _, fun _ _ => rfl, id⟩
    · have hpn : (i - 1) / 2 < n := by omega
      obtain ⟨h1, h2, h3⟩ := ih ((i - 1) / 2) hpn (swapHeap hp i ((i - 1) / 2))
      rw [h]
      exact ⟨h1.trans (swapHeap_perm hp n i _ hn hi hpn),
        fun k hk => (h2 k hk).trans (swapHeap_above hp n i _ k hn hi hpn hk),
        fun hw => h3 (wf_swapHeap hp i _ hw)⟩

/-- The sifts of HBLD permute the heap, leave the positions above alone, and keep the canonical form (R125). -/
theorem siftAll_spec (node : Mem NodeRec) (n : Nat) (hn : n ≤ nodeCap) (k : Nat) (hp : Mem Handle) :
    ((List.range n).map (heapAt (siftAll node n k hp))).Perm ((List.range n).map (heapAt hp)) ∧
    (∀ j, n ≤ j → heapAt (siftAll node n k hp) j = heapAt hp j) ∧
    (Mem.wf 0#9 nodeCap (fun _ => true) hp = true →
      Mem.wf 0#9 nodeCap (fun _ => true) (siftAll node n k hp) = true) := by
  induction k generalizing hp with
  | zero => exact ⟨.refl _, fun _ _ => rfl, id⟩
  | succ k ih =>
    obtain ⟨h1, h2, h3⟩ := ih (siftDown node n n k hp)
    obtain ⟨g1, g2, g3⟩ := siftDown_spec node n hn n k hp
    exact ⟨h1.trans g1, fun j hj => (h2 j hj).trans (g2 j hj), fun hw => h3 (g3 hw)⟩

/-! ## Insert and ExtractMin -/

namespace State

section insert
variable (s : State) (h : Handle)
@[simp] theorem insert_cfg : (insert s h).cfg = s.cfg := rfl
@[simp] theorem insert_port : (insert s h).port = s.port := rfl
@[simp] theorem insert_ph : (insert s h).ph = s.ph := rfl
@[simp] theorem insert_err : (insert s h).err = s.err := rfl
@[simp] theorem insert_tv : (insert s h).tv = s.tv := rfl
@[simp] theorem insert_symcnt : (insert s h).symcnt = s.symcnt := rfl
@[simp] theorem insert_bitcnt : (insert s h).bitcnt = s.bitcnt := rfl
@[simp] theorem insert_outcnt : (insert s h).outcnt = s.outcnt := rfl
@[simp] theorem insert_root : (insert s h).root = s.root := rfl
@[simp] theorem insert_ncnt : (insert s h).ncnt = s.ncnt := rfl
@[simp] theorem insert_ndist : (insert s h).ndist = s.ndist := rfl
@[simp] theorem insert_hsize : (insert s h).hsize = s.hsize + 1#9 := rfl
@[simp] theorem insert_hcap : (insert s h).hcap = s.hcap := rfl
@[simp] theorem insert_res : (insert s h).res = s.res := rfl
@[simp] theorem insert_sym : (insert s h).sym = s.sym := rfl
@[simp] theorem insert_ft : (insert s h).ft = s.ft := rfl
@[simp] theorem insert_node : (insert s h).node = s.node := rfl
@[simp] theorem insert_heap : (insert s h).heap = siftUp s.node s.hsize.toNat s.hsize.toNat (putHeap s.heap s.hsize.toNat h) := rfl
@[simp] theorem insert_ct : (insert s h).ct = s.ct := rfl
@[simp] theorem insert_bit : (insert s h).bit = s.bit := rfl
@[simp] theorem insert_out : (insert s h).out = s.out := rfl
@[simp] theorem insert_own : (insert s h).own = Mem.set false nodeCap s.own h.toNat true := rfl
end insert

end State

/-- ExtractMin by cases (R127): an empty heap raises and leaves RES = NULL; otherwise HEAP[0] is returned, the last
element is moved to the root and sifted down, HSIZE drops by one, OWN of the returned node is cleared. -/
theorem extractMin_cases (s : State) :
    (s.hsize = 0#9 ∧ extractMin s = .raised .emptyHeap (s.setRes null)) ∨
    (s.hsize ≠ 0#9 ∧ ∃ hp,
      hp = siftDown s.node (s.hsize.toNat - 1) (s.hsize.toNat - 1) 0
        (putHeap s.heap 0 (heapAt s.heap (s.hsize.toNat - 1))) ∧
      extractMin s = .ok (heapAt s.heap 0)
        ((((s.setHeap hp).setHsize (s.hsize - 1#9)).putOwn (heapAt s.heap 0) false).setRes (heapAt s.heap 0))) := by
  by_cases h : s.hsize = 0#9
  · exact .inl ⟨h, by simp [extractMin, h]⟩
  · refine .inr ⟨h, _, rfl, ?_⟩
    by_cases hn : 0 < s.hsize.toNat - 1
    · simp [extractMin, h, hn]
    · have h0 : s.hsize.toNat - 1 = 0 := by omega
      simp [extractMin, h, h0, siftDown]

/-- What ExtractMin leaves when it returns a handle. -/
theorem extractMin_ok {s t : State} {h : Handle} (he : extractMin s = .ok h t) :
    s.hsize ≠ 0#9 ∧ h = heapAt s.heap 0 ∧ t.res = h ∧ t.hsize = s.hsize - 1#9 ∧ t.node = s.node ∧ t.ncnt = s.ncnt ∧
    t.own = Mem.set false nodeCap s.own h.toNat false ∧ t.cfg = s.cfg ∧ t.err = s.err := by
  rcases extractMin_cases s with ⟨-, h1⟩ | ⟨h0, hp, -, h1⟩
  · rw [h1] at he; cases he
  · rw [h1] at he
    cases he
    exact ⟨h0, rfl, rfl, rfl, rfl, rfl, rfl, rfl, rfl⟩

/-- MRG by cases (R143, R223): no node, one node, or two nodes in the heap. -/
theorem mrg_cases (s : State) :
    (∃ t, extractMin s = .raised .emptyHeap t ∧ mrg s = .raised .emptyHeap t) ∨
    (∃ a s1 t, extractMin s = .ok a s1 ∧ extractMin s1 = .raised .emptyHeap t ∧ mrg s = .raised .emptyHeap t) ∨
    (∃ a s1 b s2, extractMin s = .ok a s1 ∧ extractMin s1 = .ok b s2 ∧ mrg s = .ok () (mergeNode a b s2)) := by
  rcases extractMin_cases s with ⟨-, h1⟩ | ⟨-, hp, -, h1⟩
  · exact .inl ⟨_, h1, by simp [mrg, h1]⟩
  · generalize ((((s.setHeap hp).setHsize (s.hsize - 1#9)).putOwn (heapAt s.heap 0) false).setRes
      (heapAt s.heap 0)) = s1 at h1
    rcases extractMin_cases s1 with ⟨-, h2⟩ | ⟨-, hp2, -, h2⟩
    · exact .inr (.inl ⟨_, _, _, h1, h2, by simp [mrg, h1, h2]⟩)
    · exact .inr (.inr ⟨_, _, _, _, h1, h2, by simp [mrg, h1, h2]⟩)

end Sys2Proof.Machine
end

