-- ==== Sys2Proof/Laws/PerInstr.lean ====
section
/-! SUPPORT. Laws/PerInstr.lean: facts made once per command. `EncodedWellFormed`: the word of the command passes the
`wellformed` test of R93, and its OP field is the command's opcode. -/

namespace Sys2Proof.Laws.EncodedWellFormed

/-- The word of `i` has OP = its opcode and passes the test of R93. -/
def Statement (i : Instr) : Prop :=
  (fieldsOf (encode i)).op = opcode i ∧ (fieldsOf (encode i)).wellFormed = true

theorem nop : Statement .nop := ⟨by decide, by decide⟩
theorem fcnt : Statement .fcnt := ⟨by decide, by decide⟩
theorem leaves : Statement .leaves := ⟨by decide, by decide⟩
theorem hbld : Statement .hbld := ⟨by decide, by decide⟩

/-- The fields of a HINS word (R90, R92). -/
theorem fieldsOf_hins (arg : Handle) :
    fieldsOf (encode (.hins arg)) = { op := 0x04, zero := 0, arg := arg } := by
  simp only [fieldsOf, encode, opcode, argument, CmdFields.mk.injEq]
  refine ⟨?_, ?_, ?_⟩ <;> ext i hi <;> simp only [BitVec.getElem_extractLsb', BitVec.getLsbD_append]
  · interval_cases i <;> simp
  · interval_cases i <;> simp
  · simp [hi]

theorem hins (arg : Handle) : Statement (.hins arg) := by
  unfold Statement
  rw [fieldsOf_hins]
  exact ⟨rfl, by simp [CmdFields.wellFormed, CmdFields.opOk, CmdFields.zeroOk, CmdFields.argOk]⟩

theorem hext : Statement .hext := ⟨by decide, by decide⟩
theorem mrg : Statement .mrg := ⟨by decide, by decide⟩
theorem tbld : Statement .tbld := ⟨by decide, by decide⟩
theorem tchk : Statement .tchk := ⟨by decide, by decide⟩
theorem cgen : Statement .cgen := ⟨by decide, by decide⟩
theorem pack : Statement .pack := ⟨by decide, by decide⟩
theorem unpk : Statement .unpk := ⟨by decide, by decide⟩
theorem enc : Statement .enc := ⟨by decide, by decide⟩
theorem dec : Statement .dec := ⟨by decide, by decide⟩
theorem clre : Statement .clre := ⟨by decide, by decide⟩
theorem rst : Statement .rst := ⟨by decide, by decide⟩

end Sys2Proof.Laws.EncodedWellFormed
end

