-- ==== Sys2Proof/Laws/Sift.lean ====
section
/-! SUPPORT. Laws/Sift.lean: the functions siftDown, siftUp and siftAll do what the relations SiftsDown and SiftsUp of
Safety.lean say, tie rules included (spec/40_heap.md R122 to R125): no pass is lost to the fuel. -/

namespace Sys2Proof.Machine

theorem heapAt_swapHeap_eq_swapped (hp : Mem Handle) (i j : Nat) (hi : i < nodeCap) (hj : j < nodeCap) :
    heapAt (swapHeap hp i j) = swapped (heapAt hp) i j := by
  funext k
  rw [heapAt_swapHeap hp i j k hi hj, swapped, Equiv.swap_apply_def]
  split_ifs <;> rfl

/-- SiftDown with fuel for every position from `i` on. -/
theorem siftDown_sifts (node : Mem NodeRec) (n : Nat) (hn : n ≤ nodeCap) (fuel i : Nat) (hf : n ≤ i + fuel)
    (hp : Mem Handle) :
    SiftsDown (freqOf node) n i (heapAt hp) (heapAt (siftDown node n fuel i hp)) := by
  induction fuel generalizing i hp with
  | zero => exact .noChild (by omega)
  | succ fuel ih =>
    rw [siftDown]
    by_cases hl : n ≤ 2 * i + 1
    · simp only [hl, if_true]; exact .noChild hl
    · simp only [hl, if_false]
      generalize hc : (if 2 * i + 2 < n ∧ freqOf node (heapAt hp (2 * i + 2)) < freqOf node (heapAt hp (2 * i + 1))
        then 2 * i + 2 else 2 * i + 1) = c
      have hch : ChosenChild (freqOf node) n (heapAt hp) i c := by
        split at hc
        · next h => exact .inl ⟨hc.symm, by omega, h.2⟩
        · next h => exact .inr ⟨hc.symm, by omega, fun hr => by
            have := not_and.1 h hr; omega⟩
      have hci : i < c ∧ c < n := by rcases hch with h | h <;> omega
      by_cases hlt : freqOf node (heapAt hp c) < freqOf node (heapAt hp i)
      · simp only [hlt, if_true]
        refine .swap hch hlt ?_
        rw [← heapAt_swapHeap_eq_swapped hp i c (by omega) (by omega)]
        exact ih c (by omega) _
      · simp only [hlt, if_false]; exact .stop hch (by omega)

/-- SiftUp with fuel for every position up to `i`. -/
theorem siftUp_sifts (node : Mem NodeRec) (fuel i : Nat) (hf : i ≤ fuel) (hi : i < nodeCap) (hp : Mem Handle) :
    SiftsUp (freqOf node) i (heapAt hp) (heapAt (siftUp node fuel i hp)) := by
  induction fuel generalizing i hp with
  | zero => obtain rfl : i = 0 := by omega
            exact .root
  | succ fuel ih =>
    by_cases h0 : i = 0
    · subst h0; exact .root
    · rw [siftUp]
      by_cases hlt : freqOf node (heapAt hp i) < freqOf node (heapAt hp ((i - 1) / 2))
      · simp only [h0, hlt, if_true, if_false]
        refine .swap (by omega) hlt ?_
        rw [← heapAt_swapHeap_eq_swapped hp i _ hi (by omega)]
        exact ih _ (by omega) (by omega) _
      · simp only [h0, hlt, if_false]; exact .stop (by omega) (by omega)

/-- The arrays that the sifts of HBLD pass through: `g i` is the one after SiftDown(i). -/
theorem siftAll_sifts (node : Mem NodeRec) (n : Nat) (hn : n ≤ nodeCap) (k : Nat) (hp : Mem Handle) :
    ∃ g : Nat → Nat → Handle, g k = heapAt hp ∧ g 0 = heapAt (siftAll node n k hp) ∧
      ∀ i, i < k → SiftsDown (freqOf node) n i (g (i + 1)) (g i) := by
  induction k generalizing hp with
  | zero => exact ⟨fun _ => heapAt hp, rfl, rfl, fun i hi => absurd hi (Nat.not_lt_zero i)⟩
  | succ k ih =>
    obtain ⟨g, hk, h0, hs⟩ := ih (siftDown node n n k hp)
    refine ⟨fun i => if i = k + 1 then heapAt hp else g i, by simp, by simpa [siftAll] using h0, fun i hi => ?_⟩
    have hne : i ≠ k + 1 := by omega
    by_cases hik : i = k
    · subst hik
      simpa [hk] using siftDown_sifts node n hn n i (by omega) hp
    · have hne' : i + 1 ≠ k + 1 := by omega
      simpa [hne, hne', hik] using hs i (by omega)

end Sys2Proof.Machine
end

