-- ==== Sys2Proof/Laws/Step.lean ====
section
/-! SUPPORT. Laws/Step.lean: every command answers a next state; a step by cases; command acceptance by cases. -/

namespace Sys2Proof.Machine

namespace State

section setInputs
variable (s : State) (inputs : List Input)
@[simp] theorem setInputs_cfg : (s.setInputs inputs).cfg = s.cfg := rfl
@[simp] theorem setInputs_port : (s.setInputs inputs).port = { s.port with inputs := inputs } := rfl
@[simp] theorem setInputs_ph : (s.setInputs inputs).ph = s.ph := rfl
@[simp] theorem setInputs_err : (s.setInputs inputs).err = s.err := rfl
@[simp] theorem setInputs_tv : (s.setInputs inputs).tv = s.tv := rfl
@[simp] theorem setInputs_symcnt : (s.setInputs inputs).symcnt = s.symcnt := rfl
@[simp] theorem setInputs_bitcnt : (s.setInputs inputs).bitcnt = s.bitcnt := rfl
@[simp] theorem setInputs_outcnt : (s.setInputs inputs).outcnt = s.outcnt := rfl
@[simp] theorem setInputs_root : (s.setInputs inputs).root = s.root := rfl
@[simp] theorem setInputs_ncnt : (s.setInputs inputs).ncnt = s.ncnt := rfl
@[simp] theorem setInputs_ndist : (s.setInputs inputs).ndist = s.ndist := rfl
@[simp] theorem setInputs_hsize : (s.setInputs inputs).hsize = s.hsize := rfl
@[simp] theorem setInputs_hcap : (s.setInputs inputs).hcap = s.hcap := rfl
@[simp] theorem setInputs_res : (s.setInputs inputs).res = s.res := rfl
@[simp] theorem setInputs_sym : (s.setInputs inputs).sym = s.sym := rfl
@[simp] theorem setInputs_ft : (s.setInputs inputs).ft = s.ft := rfl
@[simp] theorem setInputs_node : (s.setInputs inputs).node = s.node := rfl
@[simp] theorem setInputs_heap : (s.setInputs inputs).heap = s.heap := rfl
@[simp] theorem setInputs_ct : (s.setInputs inputs).ct = s.ct := rfl
@[simp] theorem setInputs_bit : (s.setInputs inputs).bit = s.bit := rfl
@[simp] theorem setInputs_out : (s.setInputs inputs).out = s.out := rfl
@[simp] theorem setInputs_own : (s.setInputs inputs).own = s.own := rfl
end setInputs

section reply
variable (s : State) (v : Nat)
@[simp] theorem reply_cfg : (s.reply v).cfg = s.cfg := rfl
@[simp] theorem reply_port : (s.reply v).port = { s.port with replies := s.port.replies ++ [v] } := rfl
@[simp] theorem reply_ph : (s.reply v).ph = s.ph := rfl
@[simp] theorem reply_err : (s.reply v).err = s.err := rfl
@[simp] theorem reply_tv : (s.reply v).tv = s.tv := rfl
@[simp] theorem reply_symcnt : (s.reply v).symcnt = s.symcnt := rfl
@[simp] theorem reply_bitcnt : (s.reply v).bitcnt = s.bitcnt := rfl
@[simp] theorem reply_outcnt : (s.reply v).outcnt = s.outcnt := rfl
@[simp] theorem reply_root : (s.reply v).root = s.root := rfl
@[simp] theorem reply_ncnt : (s.reply v).ncnt = s.ncnt := rfl
@[simp] theorem reply_ndist : (s.reply v).ndist = s.ndist := rfl
@[simp] theorem reply_hsize : (s.reply v).hsize = s.hsize := rfl
@[simp] theorem reply_hcap : (s.reply v).hcap = s.hcap := rfl
@[simp] theorem reply_res : (s.reply v).res = s.res := rfl
@[simp] theorem reply_sym : (s.reply v).sym = s.sym := rfl
@[simp] theorem reply_ft : (s.reply v).ft = s.ft := rfl
@[simp] theorem reply_node : (s.reply v).node = s.node := rfl
@[simp] theorem reply_heap : (s.reply v).heap = s.heap := rfl
@[simp] theorem reply_ct : (s.reply v).ct = s.ct := rfl
@[simp] theorem reply_bit : (s.reply v).bit = s.bit := rfl
@[simp] theorem reply_out : (s.reply v).out = s.out := rfl
@[simp] theorem reply_own : (s.reply v).own = s.own := rfl
end reply

section forgetNodes
variable (s : State)
@[simp] theorem forgetNodes_cfg : (s.forgetNodes).cfg = s.cfg := rfl
@[simp] theorem forgetNodes_port : (s.forgetNodes).port = s.port := rfl
@[simp] theorem forgetNodes_ph : (s.forgetNodes).ph = s.ph := rfl
@[simp] theorem forgetNodes_err : (s.forgetNodes).err = s.err := rfl
@[simp] theorem forgetNodes_tv : (s.forgetNodes).tv = false := rfl
@[simp] theorem forgetNodes_symcnt : (s.forgetNodes).symcnt = s.symcnt := rfl
@[simp] theorem forgetNodes_bitcnt : (s.forgetNodes).bitcnt = s.bitcnt := rfl
@[simp] theorem forgetNodes_outcnt : (s.forgetNodes).outcnt = s.outcnt := rfl
@[simp] theorem forgetNodes_root : (s.forgetNodes).root = s.root := rfl
@[simp] theorem forgetNodes_ncnt : (s.forgetNodes).ncnt = 0#9 := rfl
@[simp] theorem forgetNodes_ndist : (s.forgetNodes).ndist = 0#9 := rfl
@[simp] theorem forgetNodes_hsize : (s.forgetNodes).hsize = 0#9 := rfl
@[simp] theorem forgetNodes_hcap : (s.forgetNodes).hcap = s.hcap := rfl
@[simp] theorem forgetNodes_res : (s.forgetNodes).res = s.res := rfl
@[simp] theorem forgetNodes_sym : (s.forgetNodes).sym = s.sym := rfl
@[simp] theorem forgetNodes_ft : (s.forgetNodes).ft = s.ft := rfl
@[simp] theorem forgetNodes_node : (s.forgetNodes).node = s.node := rfl
@[simp] theorem forgetNodes_heap : (s.forgetNodes).heap = s.heap := rfl
@[simp] theorem forgetNodes_ct : (s.forgetNodes).ct = s.ct := rfl
@[simp] theorem forgetNodes_bit : (s.forgetNodes).bit = s.bit := rfl
@[simp] theorem forgetNodes_out : (s.forgetNodes).out = s.out := rfl
@[simp] theorem forgetNodes_own : (s.forgetNodes).own = [] := rfl
end forgetNodes

section resetRegs
variable (s : State)
@[simp] theorem resetRegs_cfg : (s.resetRegs).cfg = s.cfg := rfl
@[simp] theorem resetRegs_port : (s.resetRegs).port = s.port := rfl
@[simp] theorem resetRegs_ph : (s.resetRegs).ph = s.ph := rfl
@[simp] theorem resetRegs_err : (s.resetRegs).err = none := rfl
@[simp] theorem resetRegs_tv : (s.resetRegs).tv = false := rfl
@[simp] theorem resetRegs_symcnt : (s.resetRegs).symcnt = 0 := rfl
@[simp] theorem resetRegs_bitcnt : (s.resetRegs).bitcnt = 0 := rfl
@[simp] theorem resetRegs_outcnt : (s.resetRegs).outcnt = 0 := rfl
@[simp] theorem resetRegs_root : (s.resetRegs).root = null := rfl
@[simp] theorem resetRegs_ncnt : (s.resetRegs).ncnt = 0#9 := rfl
@[simp] theorem resetRegs_ndist : (s.resetRegs).ndist = 0#9 := rfl
@[simp] theorem resetRegs_hsize : (s.resetRegs).hsize = 0#9 := rfl
@[simp] theorem resetRegs_hcap : (s.resetRegs).hcap = 0#9 := rfl
@[simp] theorem resetRegs_res : (s.resetRegs).res = null := rfl
@[simp] theorem resetRegs_sym : (s.resetRegs).sym = s.sym := rfl
@[simp] theorem resetRegs_ft : (s.resetRegs).ft = s.ft := rfl
@[simp] theorem resetRegs_node : (s.resetRegs).node = s.node := rfl
@[simp] theorem resetRegs_heap : (s.resetRegs).heap = s.heap := rfl
@[simp] theorem resetRegs_ct : (s.resetRegs).ct = s.ct := rfl
@[simp] theorem resetRegs_bit : (s.resetRegs).bit = s.bit := rfl
@[simp] theorem resetRegs_out : (s.resetRegs).out = s.out := rfl
@[simp] theorem resetRegs_own : (s.resetRegs).own = [] := rfl
end resetRegs

section rst
variable (s : State)
@[simp] theorem rst_cfg : (rst s).cfg = s.cfg := rfl
@[simp] theorem rst_port : (rst s).port = s.port := rfl
@[simp] theorem rst_ph : (rst s).ph = s.ph := rfl
@[simp] theorem rst_err : (rst s).err = none := rfl
@[simp] theorem rst_tv : (rst s).tv = false := rfl
@[simp] theorem rst_symcnt : (rst s).symcnt = 0 := rfl
@[simp] theorem rst_bitcnt : (rst s).bitcnt = 0 := rfl
@[simp] theorem rst_outcnt : (rst s).outcnt = 0 := rfl
@[simp] theorem rst_root : (rst s).root = null := rfl
@[simp] theorem rst_ncnt : (rst s).ncnt = 0#9 := rfl
@[simp] theorem rst_ndist : (rst s).ndist = 0#9 := rfl
@[simp] theorem rst_hsize : (rst s).hsize = 0#9 := rfl
@[simp] theorem rst_hcap : (rst s).hcap = 0#9 := rfl
@[simp] theorem rst_res : (rst s).res = null := rfl
@[simp] theorem rst_sym : (rst s).sym = s.sym := rfl
@[simp] theorem rst_ft : (rst s).ft = s.ft := rfl
@[simp] theorem rst_node : (rst s).node = clearNodeV s.node := rfl
@[simp] theorem rst_heap : (rst s).heap = s.heap := rfl
@[simp] theorem rst_ct : (rst s).ct = clearCtV s.ct := rfl
@[simp] theorem rst_bit : (rst s).bit = s.bit := rfl
@[simp] theorem rst_out : (rst s).out = s.out := rfl
@[simp] theorem rst_own : (rst s).own = [] := rfl
end rst

end State

/-- Every command's rule is total: it answers a next state in every state (R8, R258). -/
theorem exec_next (i : Instr) (s : State) : ∃ t, exec i s = .next t := by
  have fin : ∀ r : Run Unit, ∃ t, r.finish = .next t := fun r => by
    rcases r.finish_cases with ⟨t, -, h⟩ | ⟨e, t, -, h⟩
    · exact ⟨t, h⟩
    · exact ⟨_, h⟩
  cases i with
  | nop => exact ⟨s, rfl⟩
  | clre => exact ⟨s.clearError, rfl⟩
  | rst => exact ⟨rst s, rfl⟩
  | fcnt => exact fin (fcnt s)
  | leaves => exact fin (leaves s)
  | hbld => exact fin (hbld s)
  | hins arg => exact fin (hins arg s)
  | hext => exact fin (hext s)
  | mrg => exact fin (mrg s)
  | tbld => exact fin (tbld s)
  | tchk => exact fin (tchk s)
  | cgen => exact fin (cgen s)
  | pack => exact fin (pack s)
  | unpk => exact fin (unpk s)
  | enc => exact fin (enc s)
  | dec => exact fin (dec s)

/-- An accepted command ends with PH = IDLE. -/
theorem runCommand_eq {i : Instr} {s t : State} (h : exec i (s.setPh .run) = .next t) :
    runCommand i s = .next (t.setPh .idle) := by simp [runCommand, h]

/-- Command acceptance by cases, in the order of R93. -/
theorem submit_cases (w : CmdWord) (s : State) :
    (∃ i, decode w = .ok i ∧ (alwaysAccepted i = true ∨ s.err = none) ∧ submit w s = runCommand i s) ∨
    ((∀ i, decode w = .ok i → alwaysAccepted i = false) ∧ s.err ≠ none ∧ submit w s = .next s) ∨
    ((∀ i, decode w ≠ .ok i) ∧ s.err = none ∧ submit w s = .next (s.raiseError .illegalCommand)) := by
  unfold submit State.errorPending
  cases hd : decode w with
  | ok i =>
    cases ha : alwaysAccepted i <;> cases he : s.err <;> simp [ha]
  | error e =>
    cases he : s.err <;> simp

/-- One step by cases: nothing waits; the first input is held off; or it is taken and performed. -/
theorem step_cases (s : State) :
    (s.port.inputs = [] ∧ step s = .next s) ∨
    (∃ inp rest, s.port.inputs = inp :: rest ∧ accepts s inp = false ∧ step s = .next s) ∨
    (∃ inp rest, s.port.inputs = inp :: rest ∧ accepts s inp = true ∧ step s = perform inp (s.setInputs rest)) := by
  unfold step portStep
  cases h : s.port.inputs with
  | nil => exact .inl ⟨rfl, rfl⟩
  | cons inp rest =>
    cases ha : accepts s inp
    · exact .inr (.inl ⟨inp, rest, rfl, ha, by simp [ha]⟩)
    · exact .inr (.inr ⟨inp, rest, rfl, ha, by simp [ha]⟩)

/-- The reset memories are in canonical form. -/
theorem reset_memories_nil :
    State.reset.sym = [] ∧ State.reset.ft = [] ∧ State.reset.node = [] ∧ State.reset.heap = [] ∧
    State.reset.ct = [] ∧ State.reset.bit = [] ∧ State.reset.out = [] ∧ State.reset.own = [] :=
  ⟨rfl, rfl, rfl, rfl, rfl, rfl, rfl, rfl⟩

/-- A drawn power-on memory is in canonical form, whatever is drawn. -/
theorem wf_powerOn_node (d : Draw) (s : State) :
    Mem.wf NodeRec.blank nodeCap (fun r => decide (r.freq < 2 ^ s.cfg.nfreqBits)) (powerOn d s).node = true :=
  Mem.wf_load NodeRec.blank nodeCap (fun r => decide (r.freq < 2 ^ s.cfg.nfreqBits))
    (fun r => { r.atWidth s.cfg.nfreqBits with v := false }) d.node
    (fun r => decide_eq_true (narrow_lt s.cfg.nfreqBits r.freq))

theorem wf_powerOn_ft (d : Draw) (s : State) :
    Mem.wf 0 nSym (fun n => decide (n < 2 ^ s.cfg.freqBits)) (powerOn d s).ft = true :=
  Mem.wf_load _ _ _ _ _ (fun n => by simpa using narrow_lt s.cfg.freqBits n)

end Sys2Proof.Machine
end

