-- ==== Sys2Proof/Tests/Slice0.lean ====
section
/-! SUPPORT. Tests/Slice0.lean: the WellFormed smoke, decoding of words written out from spec/30_encoding.md, one-step
tests whose expected results are those of spec/95_test_vectors.md (the vector is named in each comment), and for every
obligation with hypotheses a concrete state and operands that meet them (`witness_…`). -/

namespace Sys2Proof.Tests

open Sys2Proof Sys2Proof.Machine

-- One test after the other: each waits for the kernel, and a hundred that wait at once are a hundred threads.
set_option Elab.async false

/-! ## Helpers -/

/-- The outcome is a next state that satisfies `p`. -/
def runsTo (r : Result) (p : State → Bool) : Bool :=
  match r with
  | .next t => p t
  | _ => false

theorem runsTo_next {r : Result} {p : State → Bool} (h : runsTo r p = true) : ∃ t, r = .next t ∧ p t = true := by
  cases r with
  | next t => exact ⟨t, rfl, h⟩
  | fault f => cases h
  | refused f => cases h

/-- An instance with room for four symbols and four bytes (the Q vectors). -/
def small : Config := { freqBits := 32, symCap := 4, byteCap := 4 }

def base : State := { State.reset with cfg := small }

/-- The host presents one transaction. -/
def offering (inp : Input) (s : State) : State := s.setInputs [inp]

/-- SYM and SYMCNT as the host loads them. -/
def withInput (bs : List Byte) (s : State) : State :=
  { s with sym := (List.range bs.length).zip bs |>.filter (fun c => c.2 ≠ 0#8), symcnt := bs.length }

/-- Start of H1: LEAVES has placed a 5, b 2, c 1, d 1, r 2. -/
def h1 : State :=
  { State.reset with
    ft := [(0x61, 5), (0x62, 2), (0x63, 1), (0x64, 1), (0x72, 2)]
    node := [(0, leafRec 0x61#8 5), (1, leafRec 0x62#8 2), (2, leafRec 0x63#8 1), (3, leafRec 0x64#8 1),
      (4, leafRec 0x72#8 2)]
    heap := [(1, 1#9), (2, 2#9), (3, 3#9), (4, 4#9)]
    own := [(0, true), (1, true), (2, true), (3, true), (4, true)]
    ncnt := 5#9, ndist := 5#9, hsize := 5#9, hcap := 9#9 }

/-- After H1.1, HBLD: HEAP = [3, 1, 2, 0, 4]. -/
def h11 : State := { h1 with heap := [(0, 3#9), (1, 1#9), (2, 2#9), (4, 4#9)] }

/-- After H1.3: HEAP = [1, 0, 4], the rest stale, HSIZE = 3, RES = 2. -/
def h13 : State :=
  { h1 with heap := [(0, 1#9), (2, 4#9), (4, 4#9)], own := [(0, true), (1, true), (4, true)], hsize := 3#9, res := 2#9 }

/-- Vector V1: a tree of two leaves, loaded by the host. -/
def v1 : State :=
  { base with node := [(0, leafRec 0x41#8 0), (1, leafRec 0x42#8 0), (2, internalRec 0#9 1#9 0)], root := 2#9 }

/-- Vector V10: the single-leaf tree. -/
def v10 : State := { base with node := [(7, leafRec 0x5A#8 0)], root := 7#9 }

/-- Vector V11: X `0`, Y `10`, Z `11`. -/
def v11 : State :=
  { base with
    node := [(7, leafRec 0x59#8 0), (8, leafRec 0x5A#8 0), (100, internalRec 200#9 300#9 0), (200, leafRec 0x58#8 0),
      (300, internalRec 7#9 8#9 0)]
    root := 100#9 }

/-- V1's tree with its code table and the stream of "AB". -/
def ab : State :=
  { v1 with
    sym := [(0, 0x41#8), (1, 0x42#8)], symcnt := 2, ct := [(0x41, codeRec [false]), (0x42, codeRec [true])]
    bit := [(0, 0x40#8)], bitcnt := 2, tv := true }

/-! ## WellFormed: a word's fields, each check with a term it refuses -/

/-- Vector E5: OP 0x10 is above the map. -/
theorem test_wellFormed_refuses_op : CmdFields.wellFormed { op := 0x10#8, zero := 0#15, arg := 0#9 } = false := by decide
/-- Vector E3: bit 9 set. -/
theorem test_wellFormed_refuses_zero : CmdFields.wellFormed { op := 0x04#8, zero := 1#15, arg := 0#9 } = false := by decide
/-- Vector E4: ENC with ARG = 1. -/
theorem test_wellFormed_refuses_arg : CmdFields.wellFormed { op := 0x0C#8, zero := 0#15, arg := 1#9 } = false := by decide
/-- Vector E2: HINS with ARG = NULL is a legal encoding. -/
theorem test_wellFormed_accepts_hins : CmdFields.wellFormed { op := 0x04#8, zero := 0#15, arg := 511#9 } = true := by decide
/-- R10: each constraint refuses a set of parameters; the defaults meet all. -/
theorem test_config_constraints :
    Config.Valid Config.default ∧ Config.Valid small ∧ ¬ Config.Valid { freqBits := 0, symCap := 1, byteCap := 1 } ∧
    ¬ Config.Valid { freqBits := 8, symCap := 0, byteCap := 4 } ∧
    ¬ Config.Valid { freqBits := 2, symCap := 4, byteCap := 4 } ∧
    ¬ Config.Valid { freqBits := 8, symCap := 4, byteCap := 3 } ∧
    ¬ Config.Valid { freqBits := 1, symCap := 1, byteCap := 64 } := by decide +kernel

/-! ## Decode: words written out field by field as OP ++ ZERO ++ ARG (R90, R91) -/

theorem test_decode_system :
    decode (0x00#8 ++ 0#15 ++ 0#9) = .ok .nop ∧ decode 0x0E000000#32 = .ok .clre ∧ decode 0x0F000000#32 = .ok .rst := by
  decide
theorem test_decode_heap :
    decode 0x03000000#32 = .ok .hbld ∧ decode (0x04#8 ++ 0#15 ++ 0b000000011#9) = .ok (.hins 3#9) ∧
    decode 0x05000000#32 = .ok .hext := by decide
theorem test_decode_tree :
    decode 0x01000000#32 = .ok .fcnt ∧ decode 0x02000000#32 = .ok .leaves ∧ decode 0x06000000#32 = .ok .mrg ∧
    decode 0x07000000#32 = .ok .tbld ∧ decode 0x08000000#32 = .ok .tchk := by decide
theorem test_decode_codes :
    decode 0x09000000#32 = .ok .cgen ∧ decode 0x0A000000#32 = .ok .pack ∧ decode 0x0B000000#32 = .ok .unpk ∧
    decode 0x0C000000#32 = .ok .enc ∧ decode 0x0D000000#32 = .ok .dec := by decide
/-- The table's numbering, with a short count of bits. -/
theorem test_decodeTableWord :
    decodeTableWord 32 0x04000003 = some (.hins 3#9) ∧ decodeTableWord 32 0x04000200 = none ∧
    decodeTableWord 24 0x0C000000 = some .nop := by decide

/-! ## Records (vectors E9 to E15) -/

theorem test_node_records :
    (leafRec 0x61#8 5).toWord 40 = 0x987FFFF0000000005 ∧ (internalRec 0#9 1#9 14).toWord 40 = 0xC000001000000000E ∧
    (leafRec 0xFF#8 1).toWord 40 = 0xBFFFFFF0000000001 ∧
    (internalRec 0#9 1#9 8589934590).toWord 40 = 0xC00000101FFFFFFFE ∧
    NodeRec.ofWord 40 0xC0001FF0000000000 = internalRec 0#9 null 0 := by decide +kernel
theorem test_code_records :
    (codeRec [false]).toWord = 0x8080#264 <<< 248 ∧ (codeRec [true, true, false, false]).toWord = 0x8260#264 <<< 248 ∧
    (codeRec [true, true, true, true]).toWord = 0x8278#264 <<< 248 := by decide +kernel

/-! ## The host port -/

/-- M1, M4: reads out of range and of CMD give 0. -/
theorem test_reads_zero :
    hostRead h1 .reg 11 = 0 ∧ hostRead h1 .ft 256 = 0 ∧ hostRead h1 .node 511 = 0 ∧ hostRead h1 .sym 65536 = 0 ∧
    hostRead h1 .reg 1 = 0 := by decide +kernel
/-- R22 by index, after R143's example (NCNT 6, NDIST 5, HSIZE 4, HCAP 9, RES 2, HEAP[1] = 5; ROOT = NULL, no count). -/
theorem test_reads_by_index :
    runsTo (exec .mrg h11) (fun t =>
      [2, 3, 4, 5, 6, 7, 8, 9, 10].map (hostRead t .reg) = [0, 0, 0, 511, 6, 5, 4, 9, 2] &&
      hostRead t .heap 1 = 5) = true := by decide +kernel
/-- M3: a write to HSIZE is ignored. -/
theorem test_write_hsize_ignored : runsTo (step (offering (.write .reg 8 0) h1)) (fun t => t.hsize = 5#9) = true := by
  decide +kernel
/-- M5: a host write to the NODE space. -/
theorem test_node_write :
    runsTo (step (offering (.write .node 300 0xC000001000000000E) { h1 with tv := true, root := 3#9 })) (fun t =>
      nodeAt t.node 300#9 = internalRec 0#9 1#9 14 && (!t.tv && (t.ncnt = 0#9 && (t.hsize = 0#9 && (t.own = [] &&
      (t.root = 3#9 && t.hcap = 9#9)))))) = true := by decide +kernel
/-- M6: a host write to ROOT clears TV. -/
theorem test_root_write :
    runsTo (step (offering (.write .reg 5 10) { h1 with tv := true })) (fun t => !t.tv && t.root = 10#9) = true := by
  decide +kernel
/-- E6, E7: words ignored while an error is pending. -/
theorem test_ignored_while_error :
    runsTo (step (offering (.write .reg 1 0x10000000) { h1 with err := some .truncatedStream }))
      (fun t => t.err = some .truncatedStream) = true ∧
    runsTo (step (offering (.write .reg 1 0x0E000001) { h1 with err := some .truncatedStream }))
      (fun t => t.err = some .truncatedStream) = true := by decide +kernel
/-- E4, E8: ill-formed words with no error pending. -/
theorem test_illegal_words :
    runsTo (step (offering (.write .reg 1 0x0C000001) h1)) (fun t => t.err = some .illegalCommand) = true ∧
    runsTo (step (offering (.write .reg 1 0x0E000001) h1)) (fun t => t.err = some .illegalCommand) = true := by
  decide +kernel

/-! ## One step of each command -/

/-- R200. -/
theorem test_nop : runsTo (step (h1.withFetchWord 32 0x00000000)) (fun t => t = h1) = true := by decide +kernel
/-- T1 in little: SYM = "abaa", SYMCNT = 4. -/
theorem test_fcnt :
    runsTo (exec .fcnt (withInput [0x61#8, 0x62#8, 0x61#8, 0x61#8] { base with ft := [(3, 9)] }))
      (fun t => t.ft = [(0x61, 3), (0x62, 1)]) = true := by decide +kernel
/-- Q3: SYMCNT above SYM_CAP. -/
theorem test_fcnt_capacity :
    runsTo (exec .fcnt { base with symcnt := 5, ft := [(3, 9)] }) (fun t => t.err = some .capacity && t.ft = [(3, 9)]) = true := by
  decide +kernel
/-- R141's example: LEAVES of a 5, b 2, c 1, d 1, r 2. -/
theorem test_leaves : runsTo (exec .leaves { State.reset with ft := h1.ft, res := 3#9 }) (fun t => t = h1) = true := by
  decide +kernel
/-- T3: no symbol. -/
theorem test_leaves_empty :
    runsTo (exec .leaves { h1 with ft := [] }) (fun t => t.hcap = 0#9 && (t.hsize = 0#9 && !(nodeAt t.node 0#9).v)) = true := by
  decide +kernel
/-- H1.1. -/
theorem test_hbld : runsTo (exec .hbld h1) (fun t => t.heapList = [3#9, 1#9, 2#9, 0#9, 4#9]) = true := by decide +kernel
/-- H1.4. -/
theorem test_hins : runsTo (exec (.hins 3#9) h13)
    (fun t => t.heapList = [3#9, 1#9, 4#9, 0#9] && (ownAt t.own 3#9 && t.res = 2#9)) = true := by decide +kernel
/-- H1.6: HINS of NULL. -/
theorem test_hins_null : runsTo (exec (.hins null) h13) (fun t => t = h13.setErr (some .operand)) = true := by decide +kernel
/-- H1.2. -/
theorem test_hext : runsTo (exec .hext h11) (fun t => t.heapList = [2#9, 1#9, 4#9, 0#9] &&
    (heapAt t.heap 4 = 4#9 && (t.res = 3#9 && !ownAt t.own 3#9))) = true := by decide +kernel
/-- H1.9. -/
theorem test_hext_empty :
    runsTo (exec .hext { h1 with hsize := 0#9 }) (fun t => t.err = some .emptyHeap && t.res = null) = true := by
  decide +kernel
/-- R143's example. -/
theorem test_mrg : runsTo (exec .mrg h11) (fun t => t.heapList = [1#9, 5#9, 4#9, 0#9] &&
    (nodeAt t.node 5#9 = internalRec 3#9 2#9 2 && (t.ncnt = 6#9 && t.res = 2#9))) = true := by decide +kernel
/-- R223: MRG of a heap of one node. -/
theorem test_mrg_one : runsTo (exec .mrg { h11 with hsize := 1#9 }) (fun t => t.err = some .emptyHeap &&
    (t.hsize = 0#9 && (!ownAt t.own 3#9 && (t.res = null && t.ncnt = 5#9)))) = true := by decide +kernel
/-- T7: three symbols of count 1. -/
theorem test_tbld : runsTo (exec .tbld { State.reset with ft := [(0x41, 1), (0x42, 1), (0x43, 1)] }) (fun t =>
    nodeAt t.node 3#9 = internalRec 0#9 2#9 2 && (nodeAt t.node 4#9 = internalRec 1#9 3#9 3 &&
    (t.root = 4#9 && (t.hcap = 5#9 && t.status = 0x10#32)))) = true := by decide +kernel
/-- T5: one symbol. -/
theorem test_tbld_single : runsTo (exec .tbld { State.reset with ft := [(0x7A, 9)] }) (fun t =>
    nodeAt t.node 0#9 = leafRec 0x7A#8 9 && (t.root = 0#9 && (t.hcap = 1#9 && (t.tv && !ownAt t.own 0#9)))) = true := by
  decide +kernel
/-- V1, V11 pass. -/
theorem test_tchk : runsTo (exec .tchk v1) (fun t => t.tv) = true ∧ runsTo (exec .tchk v11) (fun t => t.tv) = true := by
  decide +kernel
/-- V5: a cycle. -/
theorem test_tchk_cycle : runsTo (exec .tchk { v1 with node := [(0, leafRec 0x41#8 0), (2, internalRec 0#9 2#9 0)], tv := true })
    (fun t => t.status = 0x04#32) = true := by decide +kernel
/-- V11: the codes. -/
theorem test_cgen : runsTo (exec .cgen { v11 with ct := [(1, codeRec [true])] }) (fun t =>
    ctAt t.ct 0x58#8 = codeRec [false] && (ctAt t.ct 0x59#8 = codeRec [true, false] &&
    (ctAt t.ct 0x5A#8 = codeRec [true, true] && !(ctAt t.ct 1#8).v))) = true := by decide +kernel
/-- V10: the single-leaf tree has the code 0. -/
theorem test_cgen_single : runsTo (exec .cgen v10) (fun t => ctAt t.ct 0x5A#8 = codeRec [false]) = true := by decide +kernel
/-- K7: "face" with S1's table, over BIT = AA BB CC. -/
theorem test_pack : runsTo (exec .pack (withInput [0x66#8, 0x61#8, 0x63#8, 0x65#8] { base with
      ct := [(0x61, codeRec [true, true, false, false]), (0x63, codeRec [true, false, false]),
        (0x65, codeRec [true, true, true]), (0x66, codeRec [false])],
      bit := [(0, 0xAA#8), (1, 0xBB#8), (2, 0xCC#8)] }))
    (fun t => t.bitcnt = 11 && t.bit = [(0, 0x64#8), (1, 0xE0#8), (2, 0xCC#8)]) = true := by decide +kernel
/-- K8: "fag" where g has no code. -/
theorem test_pack_no_code : runsTo (exec .pack (withInput [0x66#8, 0x61#8, 0x67#8] { base with
      ct := [(0x61, codeRec [true, true, false, false]), (0x66, codeRec [false])],
      bit := [(0, 0xAA#8), (1, 0xBB#8), (2, 0xCC#8)], bitcnt := 9 }))
    (fun t => t.err = some .noCode && (t.bitcnt = 0 && t.bit = [(0, 0x60#8), (1, 0xBB#8), (2, 0xCC#8)])) = true := by
  decide +kernel
/-- K12. -/
theorem test_unpk : runsTo (exec .unpk { v11 with bit := [(0, 0x58#8)], bitcnt := 5 })
    (fun t => t.output = [0x58#8, 0x59#8, 0x5A#8] && t.status = 0x10#32) = true := by decide +kernel
/-- K12 one bit short: the last walk stops inside a code word. -/
theorem test_unpk_truncated : runsTo (exec .unpk { v11 with bit := [(0, 0x58#8)], bitcnt := 4, outcnt := 2 })
    (fun t => t.status = 0x13#32 && t.outcnt = 0) = true := by decide +kernel
/-- P1: ENC of "aaaa". -/
theorem test_enc : runsTo (exec .enc (withInput [0x61#8, 0x61#8, 0x61#8, 0x61#8] base)) (fun t =>
    t.bitcnt = 4 && (byteAt t.bit 0 = 0x00#8 && (t.root = 0#9 && (t.symcnt = 4 && t.status = 0x10#32)))) = true := by
  decide +kernel
/-- Q1: ENC of "abcd". -/
theorem test_enc_four : runsTo (exec .enc (withInput [0x61#8, 0x62#8, 0x63#8, 0x64#8] base)) (fun t =>
    t.bitcnt = 8 && (byteAt t.bit 0 = 0x39#8 && ctAt t.ct 0x62#8 = codeRec [true, true])) = true := by decide +kernel
/-- K13: DEC with the right count. -/
theorem test_dec : runsTo (exec .dec { v11 with bit := [(0, 0x58#8)], bitcnt := 5, symcnt := 3 })
    (fun t => t.output = [0x58#8, 0x59#8, 0x5A#8] && hostRead t .out 2 = 0x5A && hostRead t .reg 4 = 3 && t.status = 0x10#32) = true := by decide +kernel
/-- K13: DEC with a count too small. -/
theorem test_dec_mismatch : runsTo (exec .dec { v11 with bit := [(0, 0x58#8)], bitcnt := 5, symcnt := 2 })
    (fun t => t.status = 0x16#32 && t.outcnt = 0) = true := by decide +kernel
/-- R201's example, and H1.10: CLRE leaves EmptyHeapError. -/
theorem test_clre : runsTo (exec .clre { v1 with err := some .truncatedStream, tv := true }) (fun t => t.status = 0x10#32) = true ∧
    runsTo (exec .clre { v1 with err := some .emptyHeap }) (fun t => t.status = 0x02#32) = true := by decide +kernel
/-- H1.11: RST; the record of NODE[0] keeps its other fields (P5: 0x1_87FF_FF00_0000_0005). -/
theorem test_rst : runsTo (step ({ h1 with err := some .emptyHeap }.withFetchWord 32 0x0F000000)) (fun t =>
    t.status = 0#32 && (t.ncnt = 0#9 && (t.root = null && ((nodeAt t.node 0#9).toWord 40 = 0x187FFFF0000000005 &&
    (t.heap = h1.heap && t.own = []))))) = true := by decide +kernel

/-! ## Trees: the witnesses of the tree claims -/

theorem reaches_leaf {node : Mem NodeRec} {r h : Handle} {p : List Bool} (hk : (nodeAt node r).k = .leaf)
    (hp : Reaches node r p h) : p = [] ∧ h = r := by
  cases hp with
  | here => exact ⟨rfl, rfl⟩
  | left hi _ => rw [hk] at hi; cases hi
  | right hi _ => rw [hk] at hi; cases hi

theorem v1_reaches {p : List Bool} {h : Handle} (hp : Reaches v1.node v1.root p h) :
    (p = [] ∧ h = 2#9) ∨ (p = [false] ∧ h = 0#9) ∨ (p = [true] ∧ h = 1#9) := by
  cases hp with
  | here => exact .inl ⟨rfl, rfl⟩
  | left _ hq => obtain ⟨rfl, rfl⟩ := reaches_leaf (by decide) hq; exact .inr (.inl ⟨rfl, rfl⟩)
  | right _ hq => obtain ⟨rfl, rfl⟩ := reaches_leaf (by decide) hq; exact .inr (.inr ⟨rfl, rfl⟩)

/-- Vector V1 meets T1 to T4. -/
theorem v1_isTree : IsTree v1.node v1.root where
  rootValid := by decide
  twoChildren p h hp hk := by
    obtain ⟨_, rfl⟩ | ⟨_, rfl⟩ | ⟨_, rfl⟩ := v1_reaches hp
    · decide
    · exact absurd hk (by decide)
    · exact absurd hk (by decide)
  onePath p q h hp hq := by
    obtain ⟨rfl, rfl⟩ | ⟨rfl, rfl⟩ | ⟨rfl, rfl⟩ := v1_reaches hp <;>
    obtain ⟨rfl, e⟩ | ⟨rfl, e⟩ | ⟨rfl, e⟩ := v1_reaches hq <;> first | rfl | exact absurd e (by decide)
  oneLeaf p q g h hp hq hg hh hs := by
    obtain ⟨rfl, rfl⟩ | ⟨rfl, rfl⟩ | ⟨rfl, rfl⟩ := v1_reaches hp <;>
    obtain ⟨rfl, rfl⟩ | ⟨rfl, rfl⟩ | ⟨rfl, rfl⟩ := v1_reaches hq <;>
    first | rfl | exact absurd hg (by decide) | exact absurd hh (by decide) | exact absurd hs (by decide)

/-- Vector V10 meets T1 to T4. -/
theorem v10_isTree : IsTree v10.node v10.root where
  rootValid := by decide
  twoChildren p h hp hk := by
    obtain ⟨_, rfl⟩ := reaches_leaf (by decide) hp; exact absurd hk (by decide)
  onePath p q h hp hq := by rw [(reaches_leaf (by decide) hp).1, (reaches_leaf (by decide) hq).1]
  oneLeaf p q g h hp hq _ _ _ := by rw [(reaches_leaf (by decide) hp).1, (reaches_leaf (by decide) hq).1]

theorem v11_reaches {p : List Bool} {h : Handle} (hp : Reaches v11.node v11.root p h) :
    (p = [] ∧ h = 100#9) ∨ (p = [false] ∧ h = 200#9) ∨ (p = [true] ∧ h = 300#9) ∨ (p = [true, false] ∧ h = 7#9) ∨
    (p = [true, true] ∧ h = 8#9) := by
  cases hp with
  | here => exact .inl ⟨rfl, rfl⟩
  | left _ hq => obtain ⟨rfl, rfl⟩ := reaches_leaf (by decide +kernel) hq; exact .inr (.inl ⟨rfl, by decide +kernel⟩)
  | right _ hq =>
    cases hq with
    | here => exact .inr (.inr (.inl ⟨rfl, by decide +kernel⟩))
    | left _ hq =>
      obtain ⟨rfl, rfl⟩ := reaches_leaf (by decide +kernel) hq
      exact .inr (.inr (.inr (.inl ⟨rfl, by decide +kernel⟩)))
    | right _ hq =>
      obtain ⟨rfl, rfl⟩ := reaches_leaf (by decide +kernel) hq
      exact .inr (.inr (.inr (.inr ⟨rfl, by decide +kernel⟩)))

/-- Vector V11 meets T1 to T4. -/
theorem v11_isTree : IsTree v11.node v11.root where
  rootValid := by decide +kernel
  twoChildren p h hp hk := by
    obtain ⟨_, rfl⟩ | ⟨_, rfl⟩ | ⟨_, rfl⟩ | ⟨_, rfl⟩ | ⟨_, rfl⟩ := v11_reaches hp <;>
    first | exact absurd hk (by decide +kernel) | decide +kernel
  onePath p q h hp hq := by
    obtain ⟨rfl, rfl⟩ | ⟨rfl, rfl⟩ | ⟨rfl, rfl⟩ | ⟨rfl, rfl⟩ | ⟨rfl, rfl⟩ := v11_reaches hp <;>
    obtain ⟨rfl, e⟩ | ⟨rfl, e⟩ | ⟨rfl, e⟩ | ⟨rfl, e⟩ | ⟨rfl, e⟩ := v11_reaches hq <;>
    first | rfl | exact absurd e (by decide)
  oneLeaf p q g h hp hq hg hh hs := by
    obtain ⟨rfl, rfl⟩ | ⟨rfl, rfl⟩ | ⟨rfl, rfl⟩ | ⟨rfl, rfl⟩ | ⟨rfl, rfl⟩ := v11_reaches hp <;>
    obtain ⟨rfl, rfl⟩ | ⟨rfl, rfl⟩ | ⟨rfl, rfl⟩ | ⟨rfl, rfl⟩ | ⟨rfl, rfl⟩ := v11_reaches hq <;>
    first | rfl | exact absurd hg (by decide +kernel) | exact absurd hh (by decide +kernel) |
      exact absurd hs (by decide +kernel)

theorem v1_codeA : CodeOf v1.node v1.root 0x41#8 [false] :=
  ⟨[false], 0#9, .left (by decide) (.here _), by decide, by decide, rfl⟩
theorem v1_codeB : CodeOf v1.node v1.root 0x42#8 [true] :=
  ⟨[true], 1#9, .right (by decide) (.here _), by decide, by decide, rfl⟩
theorem v10_codeZ : CodeOf v10.node v10.root 0x5A#8 [false] := ⟨[], 7#9, .here _, by decide, by decide, rfl⟩

/-- Vector V6: no root. -/
theorem v6_noTree : ¬ IsTree v1.node null := fun h => h.rootValid.1 rfl

/-! ## Witnesses of the hypotheses of the obligations -/

theorem witness_DecodeExactlyInvertsEncode : decode 0x04000003#32 = .ok (.hins 3#9) ∧ 0x04000003#32 = encode (.hins 3#9) := by
  decide
theorem witness_NodeRecordLayout : (leafRec 0x61#8 5).freq < 2 ^ 40 ∧ 0x987FFFF0000000005 < 2 ^ (40 + 28) := by
  decide +kernel
theorem witness_CodeRecordLayout :
    (1 ≤ [true].length ∧ [true].length ≤ maxLen) ∧ 1 ≤ (List.replicate 255 true).length ∧
    (List.replicate 255 true).length ≤ maxLen := by decide +kernel
theorem witness_StepRunsTheDecodedCommand :
    (offering (.write .reg 1 0x03000000) h1).Offers (.write .reg 1 0x03000000) [] ∧
    decode (BitVec.ofNat 32 0x03000000) = .ok .hbld ∧ (offering (.write .reg 1 0x03000000) h1).err = none :=
  ⟨⟨rfl, rfl⟩, by decide, rfl⟩
/-- The five cases of R93, the words at the edges of their ranges. -/
theorem witness_CommandAcceptance (w : CmdWord) :
    (offering (.write .reg 1 w.toNat) h1).Offers (.write .reg 1 w.toNat) [] ∧
    (fieldsOf 0x0F000000#32).wellFormed = true ∧ (fieldsOf 0x0E000000#32).wellFormed = true ∧
    (fieldsOf 0x0E000001#32).wellFormed = false ∧ (fieldsOf 0x10000000#32).wellFormed = false ∧
    (fieldsOf 0x0D000000#32).wellFormed = true ∧
    (offering (.write .reg 1 w.toNat) { h1 with err := some .operand }).err ≠ none := by
  refine ⟨⟨rfl, rfl⟩, by decide, by decide, by decide, by decide, by decide, ?_⟩
  exact fun h => by cases h
theorem witness_IllegalCommandErrorChangesErrAlone :
    (offering (.write .reg 1 (0x10000000#32).toNat) h1).Offers (.write .reg 1 (0x10000000#32).toNat) [] ∧ h1.err = none ∧
    0x0F < (0x10000000#32).toNat / 2 ^ 24 ∧ (0x04000200#32).toNat / 2 ^ 9 % 2 ^ 15 ≠ 0 ∧
    ((0x0C000001#32).toNat % 2 ^ 9 ≠ 0 ∧ (0x0C000001#32).toNat / 2 ^ 24 ≠ 0x04) := by
  refine ⟨⟨rfl, rfl⟩, rfl, ?_⟩; decide
/-- M1, M2: the first index outside REG and outside NODE. -/
theorem witness_OutOfRangeTransactionsReachNothing :
    spaceSize h1.cfg .reg ≤ 11 ∧ spaceSize h1.cfg .node ≤ 511 ∧
    (offering (.write .node 511 5) h1).Offers (.write .node 511 5) [] ∧
    (offering (.read .reg 11) h1).Offers (.read .reg 11) [] := ⟨by decide, by decide, ⟨rfl, rfl⟩, ⟨rfl, rfl⟩⟩
/-- M3. -/
theorem witness_ReadOnlyElementsAndReads :
    (offering (.write .heap 0 7) h1).Offers (.write .heap 0 7) [] ∧ hostReadOnly .heap 0 = true ∧
    hostReadOnly .reg 8 = true ∧ (offering (.read .ft 255) h1).Offers (.read .ft 255) [] ∧
    510 < nodeCap ∧ 65535 < h1.cfg.symCap ∧ 65535 < h1.cfg.byteCap ∧ 510#9 ≠ null :=
  ⟨⟨rfl, rfl⟩, rfl, rfl, ⟨rfl, rfl⟩, by decide, by decide, by decide, by decide⟩
/-- M8, and the last element of NODE. -/
theorem witness_HostReadsBackWhatItWrote :
    (offering (.write .reg 2 7) h1).Offers (.write .reg 2 7) [] ∧ hostWritable .reg 2 = true ∧
    2 < spaceSize h1.cfg .reg ∧ 7 < 2 ^ elementWidth h1.cfg .reg 2 ∧ hostWritable .node 510 = true ∧
    510 < spaceSize h1.cfg .node ∧ 0xC000001000000000E < 2 ^ elementWidth h1.cfg .node 510 := by
  refine ⟨⟨rfl, rfl⟩, ?_⟩; decide +kernel
theorem witness_HostWriteSideEffects :
    (offering (.write .node 510 5) h1).Offers (.write .node 510 5) [] ∧ 510 < nodeCap ∧
    5 < 2 ^ elementWidth h1.cfg .node 510 ∧ 511 < 2 ^ elementWidth h1.cfg .reg 5 ∧
    7 < 2 ^ elementWidth h1.cfg .reg 2 ∧ 7 < 2 ^ elementWidth h1.cfg .reg 3 ∧
    (65535 < h1.cfg.symCap ∧ 255 < 2 ^ elementWidth h1.cfg .sym 65535) ∧
    (255 < nSym ∧ 4294967295 < 2 ^ elementWidth h1.cfg .ft 255 ∧ 1 < 2 ^ elementWidth h1.cfg .ct 255) ∧
    (65535 < h1.cfg.byteCap ∧ 255 < 2 ^ elementWidth h1.cfg .bit 65535) := by
  refine ⟨⟨rfl, rfl⟩, ?_⟩; decide +kernel
theorem witness_TransactionsWaitWhileACommandRuns :
    h1.port.inputs = [] ∧ ({ h1 with ph := .run }).ph = .run ∧
    (offering (.read .reg 0) { h1 with ph := .run }).port.inputs = [.read .reg 0] := ⟨rfl, rfl, rfl⟩
theorem witness_ErrorCodesRaisersAndClearers :
    ∃ t, exec .hext base = .next t ∧ t.err = some .emptyHeap ∧ base.err ≠ some .emptyHeap := by
  obtain ⟨t, h, ht⟩ := runsTo_next (p := fun t => decide (t.err = some .emptyHeap)) (r := exec .hext base)
    (by decide +kernel)
  exact ⟨t, h, by simpa using ht, by decide⟩
theorem witness_EncRaisesOnlyTwoErrors :
    (({ base with symcnt := 5 }).symcnt ≠ 0 ∧ base.cfg.symCap < 5) ∧ base.cfg.Valid ∧
    ∃ t, exec .enc base = .next t ∧ t.err = some .emptyInput ∧ base.err ≠ some .emptyInput := by
  obtain ⟨t, h, ht⟩ := runsTo_next (p := fun t => decide (t.err = some .emptyInput)) (r := exec .enc base)
    (by decide +kernel)
  exact ⟨by decide, by decide +kernel, t, h, by simpa using ht, by decide⟩
theorem witness_EmptyInputErrorIsEncsAlone :
    base.symcnt = 0 ∧ ∃ t, exec .enc base = .next t ∧ t.err = some .emptyInput := by
  obtain ⟨t, h, ht⟩ := runsTo_next (p := fun t => decide (t.err = some .emptyInput)) (r := exec .enc base)
    (by decide +kernel)
  exact ⟨rfl, t, h, by simpa using ht⟩
theorem witness_NoErrorReplacesAnother :
    ({ h1 with err := some .operand }).err = some .operand ∧ ∃ t, step { h1 with err := some .operand } = .next t :=
  ⟨rfl, _, rfl⟩
theorem witness_PendingErrorRefusesCommands :
    (offering (.write .reg 1 0x0E000001) { h1 with err := some .operand }).Offers (.write .reg 1 0x0E000001) [] ∧
    ({ h1 with err := some .operand }).err ≠ none ∧ 0x0E000001 % 2 ^ 32 ≠ 0x0E000000 ∧
    0x0E000001 % 2 ^ 32 ≠ 0x0F000000 := ⟨⟨rfl, rfl⟩, by decide, by decide, by decide⟩
theorem witness_OnlyResetLeavesEmptyHeapError :
    ∃ t, step (offering (.write .reg 1 0x0F000000) { h1 with err := some .emptyHeap }) = .next t ∧
      t.err ≠ some .emptyHeap := by
  obtain ⟨t, h, ht⟩ := runsTo_next (p := fun t => decide (t.err ≠ some .emptyHeap))
    (r := step (offering (.write .reg 1 0x0F000000) { h1 with err := some .emptyHeap })) (by decide +kernel)
  exact ⟨t, h, by simpa using ht⟩
theorem witness_NopChangesNothing : (offering (.write .reg 1 0) h1).Offers (.write .reg 1 0) [] := ⟨rfl, rfl⟩
/-- F5's status; E8's word. -/
theorem witness_ClreClearsAllButEmptyHeapError :
    ({ h1 with err := some .truncatedStream, tv := true }).status = 0x13#32 ∧
    (offering (.write .reg 1 (0x0E000001#32).toNat) h1).Offers (.write .reg 1 (0x0E000001#32).toNat) [] ∧
    (0x0E000001#32).toNat / 2 ^ 24 = 0x0E ∧ (0x0E000001#32).toNat % 2 ^ 24 ≠ 0 := ⟨by decide, ⟨rfl, rfl⟩, by decide, by decide⟩
theorem witness_RstResetsRegistersAndValidBits :
    (offering (.write .reg 1 (0x0F000001#32).toNat) { h1 with err := some .emptyHeap }).Offers
      (.write .reg 1 (0x0F000001#32).toNat) [] ∧ (0x0F000001#32).toNat / 2 ^ 24 = 0x0F ∧
    (0x0F000001#32).toNat % 2 ^ 24 ≠ 0 ∧ 0x0F000001#32 ≠ 0x0F000000#32 := ⟨⟨rfl, rfl⟩, by decide, by decide, by decide⟩
/-- A draw with contents everywhere, for the power-on reset. -/
def someDraw : Draw :=
  { sym := [(0, 1#8)], ft := [(0, 7)], node := [(3, leafRec 1#8 9)], heap := [(0, 4#9)], ct := [(0, codeRec [true])],
    bit := [(0, 1#8)], out := [(0, 1#8)] }
theorem witness_PowerOnResetValues :
    (powerOn someDraw h1).node = [(3, { leafRec 1#8 9 with v := false })] ∧ (powerOn someDraw h1).hsize = 0#9 := by
  decide +kernel
theorem witness_CommandsRightAfterReset :
    (∃ d, powerOn someDraw h1 = powerOn d h1) ∧ h1.wf = true ∧ ∃ s, exec .rst h1 = .next s :=
  ⟨⟨_, rfl⟩, by decide +kernel, _, rfl⟩
theorem h11_ordered : HeapOrdered h11 := by
  intro i h1i hi
  have : i < 5 := hi
  interval_cases i <;> decide +kernel
theorem witness_HbldOrdersTheHeap : HeapOrdered h11 ∧ base.hsize.toNat ≤ 1 := ⟨h11_ordered, by decide⟩
/-- H1.5, H1.6 (h = NCNT and NULL); a full heap; H1.4. -/
theorem witness_HinsInsertsOrRefuses :
    (h13.ncnt ≤ 5#9 ∧ h13.ncnt ≤ null ∧ ownAt h13.own 1#9 = true) ∧
    (3#9 < h13.ncnt ∧ ownAt h13.own 3#9 = false ∧ ({ h13 with hcap := 3#9 }).hsize = ({ h13 with hcap := 3#9 }).hcap) ∧
    (3#9 < h13.ncnt ∧ ownAt h13.own 3#9 = false ∧ h13.hsize ≠ h13.hcap ∧ h13.hsize.toNat < nodeCap) := by decide +kernel
theorem witness_HextTakesTheRootOut : base.hsize = 0#9 ∧ h11.hsize ≠ 0#9 := by decide
theorem witness_HeapOrderIsKept :
    HeapOrdered h11 ∧ (∃ t, exec (.hins 7#9) h11 = .next t) ∧ (∃ t, exec .hext h11 = .next t) ∧ base.hsize = 0#9 :=
  ⟨h11_ordered, exec_next _ _, exec_next _ _, rfl⟩
theorem witness_HextReturnsTheLeast :
    HeapOrdered h11 ∧ 0 < h11.hsize.toNat ∧ ∃ t, exec (.hins null) h11 = .next t ∧ t.err ≠ h11.err := by
  obtain ⟨t, h, ht⟩ := runsTo_next (p := fun t => decide (t.err ≠ h11.err)) (r := exec (.hins null) h11) (by decide +kernel)
  exact ⟨h11_ordered, by decide, t, h, by simpa using ht⟩
/-- Q3 (SYMCNT = SYM_CAP + 1) and SYMCNT = SYM_CAP. -/
theorem witness_FcntCountsTheInput :
    base.cfg.symCap < 5 ∧ base.cfg.Valid ∧ (withInput [1#8, 2#8, 1#8, 0#8] base).symcnt ≤ base.cfg.symCap := by
  decide +kernel
theorem witness_LeavesPlacesTheAlphabet : h1.wf = true ∧ h1.present.length = 5 := by decide +kernel
theorem witness_MrgMergesTheFirstTwo : 2 ≤ h11.hsize.toNat ∧ HeapOrdered h11 := ⟨by decide, h11_ordered⟩
theorem witness_MrgOnTooSmallAHeap : base.hsize = 0#9 ∧ ({ h11 with hsize := 1#9 }).hsize = 1#9 := ⟨rfl, rfl⟩
/-- T5 (one symbol, n = 1) and H1 (n = 5). -/
theorem witness_TbldBuildsTheTree :
    (h1.wf = true ∧ h1.cfg.Valid ∧ 1 ≤ h1.present.length) ∧ ({ base with ft := [(0x7A, 9)] }).wf = true ∧
    ({ base with ft := [(0x7A, 9)] }).present.length = 1 := by decide +kernel
/-- T4. -/
theorem witness_TbldOnAnEmptyAlphabet : ∀ b, ftAt base.ft b = 0 := fun _ => rfl
theorem witness_TbldTreesAreWellFormed :
    h1.wf = true ∧ h1.cfg.Valid ∧ (∃ b, ftAt h1.ft b ≠ 0) ∧ ∃ t, exec .tbld h1 = .next t :=
  ⟨by decide +kernel, by decide +kernel, ⟨0x61#8, by decide⟩, exec_next _ _⟩
/-- Two states with one FT and different memories. -/
theorem witness_TbldDependsOnFtAlone :
    h1.cfg = h13.cfg ∧ (∀ b, ftAt h1.ft b = ftAt h13.ft b) ∧ h1.heap ≠ h13.heap ∧
    (∃ t, exec .tbld h1 = .next t) ∧ ∃ t, exec .tbld h13 = .next t :=
  ⟨rfl, fun _ => rfl, by decide, exec_next _ _, exec_next _ _⟩
theorem witness_TchkDecidesTheInvariants : IsTree v1.node v1.root ∧ ¬ IsTree v1.node null := ⟨v1_isTree, v6_noTree⟩
theorem witness_CgenWritesThePaths :
    IsTree v1.node v1.root ∧ CodeOf v1.node v1.root 0x41#8 [false] ∧ IsTree v10.node v10.root ∧
    CodeOf v10.node v10.root 0x5A#8 [false] := ⟨v1_isTree, v1_codeA, v10_isTree, v10_codeZ⟩
theorem witness_CgenRefusesMalformedTrees :
    ({ v1 with root := null }).tv = false ∧ ¬ IsTree ({ v1 with root := null }).node ({ v1 with root := null }).root :=
  ⟨rfl, v6_noTree⟩
theorem witness_CodesArePrefixFreeAndComplete :
    IsTree v1.node v1.root ∧ ∃ t, exec .cgen v1 = .next t ∧ (ctAt t.ct 0x41#8).v = true ∧ (ctAt t.ct 0x42#8).v = true := by
  obtain ⟨t, h, ht⟩ := runsTo_next (p := fun t => (ctAt t.ct 0x41#8).v && (ctAt t.ct 0x42#8).v) (r := exec .cgen v1)
    (by decide +kernel)
  exact ⟨v1_isTree, t, h, by simpa using ht⟩
theorem witness_PackWritesTheCodeStream :
    ab.cfg.Valid ∧ ab.symcnt ≤ ab.cfg.symCap ∧ (∀ k, k < ab.symcnt → (ab.codeAt k).usable = true) ∧
    (ab.codeStream ab.symcnt).length ≤ 8 * ab.cfg.byteCap := by
  refine ⟨by decide +kernel, by decide, fun k hk => ?_, by decide +kernel⟩
  have : k < 2 := hk
  interval_cases k <;> decide +kernel
/-- Vector Q6: four symbols with a code of nine bits. -/
def q6 : State :=
  { base with
    sym := [(0, 0x41#8), (1, 0x41#8), (2, 0x41#8), (3, 0x41#8)], symcnt := 4
    ct := [(0x41, codeRec [true, false, true, false, true, false, true, false, true])] }
/-- Too many symbols; K8, no code at k = 0; Q6, the fourth code word does not fit. -/
theorem witness_PackErrors :
    ({ ab with symcnt := 5 }).cfg.symCap < ({ ab with symcnt := 5 }).symcnt ∧
    (({ ab with ct := [] }).symcnt ≤ ab.cfg.symCap ∧ 0 < ab.symcnt ∧ (({ ab with ct := [] } : State).codeAt 0).usable = false) ∧
    (3 < q6.symcnt ∧ (∀ j ∈ List.range 4, (q6.codeAt j).usable = true) ∧ (q6.codeStream 3).length ≤ 8 * q6.cfg.byteCap ∧
     8 * q6.cfg.byteCap < (q6.codeStream 4).length) := by decide +kernel
theorem witness_UnpkParsesTheStream :
    (IsTree ab.node ab.root ∧ ab.cfg.Valid ∧ ab.bitcnt ≤ 8 * ab.cfg.byteCap ∧
      List.Forall₂ (CodeOf ab.node ab.root) [0x41#8, 0x42#8] [[false], [true]] ∧
      [[false], [true]].flatten = ab.stream ∧ [0x41#8, 0x42#8].length ≤ ab.cfg.symCap) ∧
    ab.err = none ∧ ∃ t, exec .unpk ab = .next t ∧ t.err = none := by
  obtain ⟨t, h, ht⟩ := runsTo_next (p := fun t => decide (t.err = none)) (r := exec .unpk ab) (by decide +kernel)
  exact ⟨⟨v1_isTree, by decide +kernel, by decide, .cons v1_codeA (.cons v1_codeB .nil), by decide +kernel, by decide⟩,
    rfl, t, h, by simpa using ht⟩
/-- No tree; Q4; K14 (bit 1 with a single leaf); Q5 (five symbols, four fit); in V11's tree the
symbol X and then a 1 bit, which ends inside a code word. -/
theorem witness_UnpkErrors :
    (v1.tv = false ∧ ¬ IsTree v1.node null) ∧ (IsTree v1.node v1.root ∧ 8 * v1.cfg.byteCap < 33) ∧
    (let k14 : State := { v10 with bit := [(0, 0x80#8)], bitcnt := 1 }
     IsTree k14.node k14.root ∧ k14.bitcnt ≤ 8 * k14.cfg.byteCap ∧ [] ++ [true] = k14.stream ∧
     (nodeAt k14.node k14.root).k = .leaf) ∧
    (let q5 : State := { v10 with bitcnt := 5 }
     q5.bitcnt ≤ 8 * q5.cfg.byteCap ∧ (List.replicate 5 [false]).flatten ++ [] = q5.stream ∧
     List.Forall₂ (CodeOf q5.node q5.root) (List.replicate 5 0x5A#8) (List.replicate 5 [false]) ∧
     (List.replicate 5 0x5A#8).length = q5.cfg.symCap + 1) ∧
    (let k10 : State := { v11 with bit := [(0, 0x40#8)], bitcnt := 2 }
     IsTree k10.node k10.root ∧ CodeOf k10.node k10.root 0x58#8 [false] ∧ [[false]].flatten ++ [true] = k10.stream ∧
     k10.bitcnt ≤ 8 * k10.cfg.byteCap ∧ PartialCode k10.node k10.root [true]) := by
  exact ⟨⟨rfl, v6_noTree⟩, ⟨v1_isTree, by decide⟩, ⟨v10_isTree, by decide, by decide +kernel, by decide⟩,
    ⟨by decide, by decide +kernel,
      .cons v10_codeZ (.cons v10_codeZ (.cons v10_codeZ (.cons v10_codeZ (.cons v10_codeZ .nil)))), rfl⟩,
    ⟨v11_isTree, ⟨[false], 200#9, .left (by decide +kernel) (.here _), by decide +kernel, by decide +kernel, rfl⟩,
      by decide +kernel, by decide, .inr ⟨300#9, .right (by decide +kernel) (.here _), by decide +kernel⟩⟩⟩
theorem witness_DecDecodesTheArtifact :
    IsTree ab.node ab.root ∧ ab.cfg.Valid ∧ ab.bitcnt ≤ 8 * ab.cfg.byteCap ∧ ab.symcnt ≤ ab.cfg.symCap ∧
    List.Forall₂ (CodeOf ab.node ab.root) [0x41#8, 0x42#8] [[false], [true]] ∧
    [[false], [true]].flatten = ab.stream ∧ [0x41#8, 0x42#8].length = ab.symcnt :=
  ⟨v1_isTree, by decide +kernel, by decide, by decide, .cons v1_codeA (.cons v1_codeB .nil), by decide +kernel, rfl⟩
/-- No tree; too many symbols, too many bits; K13 with 4 and with 1 in V1's tree: the stream of "AB" is one symbol short,
and one symbol too long; K14. -/
theorem witness_DecErrors :
    (v1.tv = false ∧ ¬ IsTree v1.node null) ∧ (v1.cfg.symCap < 5 ∧ 8 * v1.cfg.byteCap < 33) ∧
    (IsTree ab.node ab.root ∧ List.Forall₂ (CodeOf ab.node ab.root) [0x41#8, 0x42#8] [[false], [true]] ∧
      [[false], [true]].flatten ++ [] = ab.stream ∧ [0x41#8, 0x42#8].length < ({ ab with symcnt := 3 }).symcnt ∧
      PartialCode ab.node ab.root []) ∧
    (List.Forall₂ (CodeOf ab.node ab.root) [0x41#8] [[false]] ∧ [[false]].flatten ++ [true] = ab.stream ∧
      [0x41#8].length = ({ ab with symcnt := 1 }).symcnt ∧ [true] ≠ []) ∧
    (let k14 : State := { v10 with bit := [(0, 0x80#8)], bitcnt := 1, symcnt := 1 }
     IsTree k14.node k14.root ∧ [] ++ [true] = k14.stream ∧ 0 < k14.symcnt ∧ (nodeAt k14.node k14.root).k = .leaf) :=
  ⟨⟨rfl, v6_noTree⟩, by decide, ⟨v1_isTree, .cons v1_codeA (.cons v1_codeB .nil), by decide +kernel, by decide, .inl rfl⟩,
    ⟨.cons v1_codeA .nil, by decide +kernel, rfl, by decide⟩, ⟨v10_isTree, by decide +kernel, by decide, by decide⟩⟩
theorem witness_UnpackingInvertsPacking :
    IsTree ab.node ab.root ∧ ab.cfg.Valid ∧ ab.err = none ∧
    ∃ s1 s2, exec .cgen ab = .next s1 ∧ exec .pack s1 = .next s2 ∧ s2.err = none := by
  obtain ⟨s1, e1, h1⟩ := runsTo_next (p := fun t => runsTo (exec .pack t) (fun u => decide (u.err = none)))
    (r := exec .cgen ab) (by decide +kernel)
  obtain ⟨s2, e2, h2⟩ := runsTo_next h1
  exact ⟨v1_isTree, by decide +kernel, rfl, s1, s2, e1, e2, by simpa using h2⟩
/-- One symbol fills the least input; four symbols need BYTE_CAP of at least 128 here. -/
theorem witness_EncEncodesTheInput :
    let s : State := withInput [0x61#8] { State.reset with cfg := { freqBits := 32, symCap := 4, byteCap := 32 } }
    s.cfg.Valid ∧ 1 ≤ s.symcnt ∧ s.symcnt ≤ s.cfg.symCap ∧ 255 * s.symcnt ≤ 8 * s.cfg.byteCap := by decide +kernel
theorem witness_DecodeInvertsEncode :
    let s := withInput [0x61#8, 0x62#8, 0x61#8] base
    s.cfg.Valid ∧ s.err = none ∧ 1 ≤ s.symcnt ∧ s.symcnt ≤ s.cfg.symCap ∧ ∃ t, exec .enc s = .next t ∧ t.err = none := by
  obtain ⟨t, h, ht⟩ := runsTo_next (p := fun t => decide (t.err = none))
    (r := exec .enc (withInput [0x61#8, 0x62#8, 0x61#8] base)) (by decide +kernel)
  exact ⟨by decide +kernel, rfl, by decide, by decide, t, h, by simpa using ht⟩
/-- Two states with the same input and different memories. -/
theorem witness_EncDependsOnTheInputAlone :
    let s1 := withInput [0x61#8, 0x62#8] base
    let s2 := withInput [0x61#8, 0x62#8] { v11 with bit := [(0, 0xFF#8)], ft := [(3, 3)] }
    s1.cfg = s2.cfg ∧ s1.cfg.Valid ∧ s1.symcnt = s2.symcnt ∧ s1.input s1.symcnt = s2.input s1.symcnt ∧ s1.err = none ∧
    s2.err = none ∧ (∃ t, exec .enc s1 = .next t ∧ t.err = none) ∧ ∃ t, exec .enc s2 = .next t ∧ t.err = none := by
  obtain ⟨t, h, ht⟩ := runsTo_next (p := fun t => decide (t.err = none))
    (r := exec .enc (withInput [0x61#8, 0x62#8] base)) (by decide +kernel)
  obtain ⟨u, g, hu⟩ := runsTo_next (p := fun t => decide (t.err = none))
    (r := exec .enc (withInput [0x61#8, 0x62#8] { v11 with bit := [(0, 0xFF#8)], ft := [(3, 3)] })) (by decide +kernel)
  exact ⟨rfl, by decide +kernel, rfl, by decide +kernel, rfl, rfl, ⟨t, h, by simpa using ht⟩, u, g, by simpa using hu⟩
theorem witness_CompositeCommandsEqualTheirParts :
    (withInput [0x61#8] base).ph = .idle ∧ (withInput [0x61#8] base).err = none ∧ 1 ≤ (withInput [0x61#8] base).symcnt ∧
    (withInput [0x61#8] base).symcnt ≤ small.symCap ∧ 1 ≤ h1.present.length := by decide +kernel
theorem witness_WeightedLengthIsTheSumOfMerges :
    h1.wf = true ∧ h1.cfg.Valid ∧ 2 ≤ h1.present.length ∧ ∃ t u, exec .tbld h1 = .next t ∧ exec .cgen t = .next u := by
  obtain ⟨t, ht⟩ := exec_next .tbld h1
  obtain ⟨u, hu⟩ := exec_next .cgen t
  exact ⟨by decide +kernel, by decide +kernel, by decide +kernel, t, u, ht, hu⟩
theorem witness_StepKeepsWellFormedStates : h1.wf = true ∧ ∃ t, step (h1.withFetchWord 32 0x07000000) = .next t := by
  obtain ⟨t, h, -⟩ := runsTo_next (p := fun _ => true) (r := step (h1.withFetchWord 32 0x07000000)) (by decide +kernel)
  exact ⟨by decide +kernel, t, h⟩
/-- The state after LEAVES of two symbols (T6), in which the heap and the ownership bits are in use. -/
def t6 : State :=
  { base with
    ft := [(0x00, 1), (0xFF, 1)], node := [(0, leafRec 0x00#8 1), (1, leafRec 0xFF#8 1)], heap := [(1, 1#9)],
    own := [(0, true), (1, true)], ncnt := 2#9, ndist := 2#9, hsize := 2#9, hcap := 3#9 }
theorem t6_engineInv : EngineInv t6 where
  valid := by decide +kernel
  leafShape := by decide +kernel
  internalShape := by decide +kernel
  heapFits := by decide
  heapAllocated := by decide +kernel
  heapDistinct := by decide +kernel
  children := by decide +kernel
  oneParent := by
    intro p hp q _ h hpar
    have : p = 0#9 ∨ p = 1#9 := by simpa [State.handles, t6, List.range, List.range.loop] using hp
    rcases this with rfl | rfl <;> exact absurd hpar (by simp [isParent, show (nodeAt t6.node 0#9).k = .leaf from rfl, show (nodeAt t6.node 1#9).k = .leaf from rfl])
  parentless := by decide +kernel
  rootCount := by decide +kernel
  capacity := by decide
  noneAllocated := by decide
  frequencies := by decide +kernel
  distinct := by decide
  heapSize := by decide
theorem witness_StepKeepsTheEngineInvariants : t6.wf = true ∧ EngineInv t6 ∧ ∃ t, step t6 = .next t :=
  ⟨by decide +kernel, t6_engineInv, _, rfl⟩
/-- With nothing checked (TV = 0, allocations under way), and with a checked tree the host has loaded (V1, TV = 1). -/
theorem witness_StepKeepsTheTreeValid :
    (t6.wf = true ∧ EngineInv t6 ∧ TreeInv t6 ∧ ∃ t, step t6 = .next t) ∧ TreeInv { v1 with tv := true } :=
  ⟨⟨by decide +kernel, t6_engineInv, { fresh := fun _ => by decide +kernel, sound := fun h => by cases h }, _, rfl⟩,
    { fresh := fun h => absurd rfl h, sound := fun _ => by decide +kernel }⟩
theorem witness_ResetMeetsTheInvariants : State.reset.cfg = Config.default ∧ State.reset.port = { inputs := [], replies := [] } :=
  ⟨rfl, rfl⟩
theorem witness_OnlyTheListedCommandsWrite :
    (∃ t, exec .mrg h11 = .next t) ∧ (∃ t, exec .enc base = .next t) ∧ base.cfg.Valid ∧
    ∃ t, exec .hext base = .next t ∧ t.err ≠ base.err := by
  obtain ⟨t, h, ht⟩ := runsTo_next (p := fun t => decide (t.err ≠ base.err)) (r := exec .hext base) (by decide +kernel)
  exact ⟨exec_next _ _, exec_next _ _, by decide +kernel, t, h, by simpa using ht⟩

end Sys2Proof.Tests
end

section
/-! Every transaction answers a next state and leaves an idle sequencer idle (spec/00_scope.md R8, spec/10_state.md
R21, spec/70_reset_and_hazards.md R258). -/

namespace Sys2Proof.Machine

@[simp] theorem powerOn_ph (d : Draw) (s : State) : (powerOn d s).ph = .idle := rfl

/-- An accepted command answers a next state, in which PH is IDLE (R21, R93). -/
theorem runCommand_next (i : Instr) (s : State) : ∃ t, runCommand i s = .next t ∧ t.ph = .idle := by
  obtain ⟨t, ht⟩ := exec_next i (s.setPh .run)
  exact ⟨t.setPh .idle, runCommand_eq ht, State.setPh_ph t .idle⟩

/-- Every command word answers a next state; PH is IDLE in it, or the word was ignored (R93, R226). -/
theorem submit_next (w : CmdWord) (s : State) : ∃ t, submit w s = .next t ∧ (t.ph = .idle ∨ t = s) := by
  obtain ⟨i, -, -, h⟩ | ⟨-, -, h⟩ | ⟨-, -, h⟩ := submit_cases w s
  · obtain ⟨t, ht, hph⟩ := runCommand_next i s
    exact ⟨t, h.trans ht, .inl hph⟩
  · exact ⟨s, h, .inr rfl⟩
  · exact ⟨_, h, .inl (State.raiseError_ph s .illegalCommand)⟩

/-- A register write by cases: it is a command word, or it is stored or ignored at once, and then the parameters, the
port, PH and the pending error stay (R22, R24, R45, R64). -/
theorem regWrite_cases (s : State) (i v : Nat) :
    (i = 1 ∧ regWrite s i v = submit (BitVec.ofNat 32 v) s) ∨
    (∃ t, regWrite s i v = .next t ∧ t.cfg = s.cfg ∧ t.port = s.port ∧ t.ph = s.ph ∧ t.err = s.err) := by
  fun_cases regWrite s i v with
  | case1 => exact .inl ⟨rfl, rfl⟩
  | case2 | case3 | case4 | case5 => exact .inr ⟨_, rfl, rfl, rfl, rfl, rfl⟩

/-- A host write by cases: it is a command word, or it is stored or ignored at once, and then the parameters, the port,
PH and the pending error stay (R60 to R64, R45). -/
theorem hostWrite_cases (s : State) (sp : Space) (i v : Nat) :
    (sp = .reg ∧ i = 1 ∧ hostWrite s sp i v = submit (BitVec.ofNat 32 v) s) ∨
    (∃ t, hostWrite s sp i v = .next t ∧ t.cfg = s.cfg ∧ t.port = s.port ∧ t.ph = s.ph ∧ t.err = s.err) := by
  fun_cases hostWrite s sp i v with
  | case1 => exact (regWrite_cases s i v).imp_left fun hcmd => ⟨rfl, hcmd⟩
  | case2 | case3 | case4 | case5 | case6 | case7 | case8 | case9 => exact .inr ⟨_, rfl, by simp⟩

/-- Every host write answers a next state; PH is IDLE in it or as it was. -/
theorem hostWrite_next (s : State) (sp : Space) (i v : Nat) :
    ∃ t, hostWrite s sp i v = .next t ∧ (t.ph = .idle ∨ t.ph = s.ph) := by
  obtain ⟨-, -, h⟩ | ⟨t, h, -, -, hph, -⟩ := hostWrite_cases s sp i v
  · obtain ⟨t, ht, hph⟩ := submit_next (BitVec.ofNat 32 v) s
    exact ⟨t, h.trans ht, hph.imp_right (congrArg State.ph)⟩
  · exact ⟨t, h, .inr hph⟩

/-- Every input that is taken answers a next state; PH is IDLE in it or as it was. -/
theorem perform_next (inp : Input) (s : State) : ∃ t, perform inp s = .next t ∧ (t.ph = .idle ∨ t.ph = s.ph) := by
  cases inp with
  | read sp i => exact ⟨_, rfl, .inr (State.reply_ph s _)⟩
  | write sp i v => exact hostWrite_next s sp i v
  | powerOn d => exact ⟨_, rfl, .inl (powerOn_ph d s)⟩

/-- Every step answers a next state; PH is IDLE in it or as it was. -/
theorem step_next (s : State) : ∃ t, step s = .next t ∧ (t.ph = .idle ∨ t.ph = s.ph) := by
  obtain ⟨-, h⟩ | ⟨_, _, -, -, h⟩ | ⟨inp, rest, -, -, h⟩ := step_cases s
  · exact ⟨s, h, .inr rfl⟩
  · exact ⟨s, h, .inr rfl⟩
  · obtain ⟨t, ht, hph⟩ := perform_next inp (s.setInputs rest)
    exact ⟨t, h.trans ht, hph.imp_right (·.trans (State.setInputs_ph s rest))⟩

/-- Settles O5: a step takes nothing, or performs one input, and a command's rule is total and ends with PH IDLE. -/
theorem everyStepAnswersANextState : Obligations.EveryStepAnswersANextState := by
  intro s
  obtain ⟨t, ht, hph⟩ := step_next s
  exact ⟨t, ht, fun hidle => hph.elim id (·.trans hidle)⟩

end Sys2Proof.Machine
end

section
/-! The host port as the claims about single transactions use it: a step that takes a given input, what a host write
stores, and the states after reset (spec/10_state.md R21 to R24, R45, R47; spec/20_memory.md R60 to R66). -/

namespace Sys2Proof.Machine

/-! ## Taking the input offered -/

/-- A step in which an idle sequencer is offered an input takes it and performs it (R60, R66). -/
theorem step_of_offers {s : State} {inp : Input} {rest : List Input} (h : s.Offers inp rest) :
    step s = perform inp (s.setInputs rest) := by
  obtain ⟨hph, hin⟩ := h
  have hacc : accepts s inp = true := by cases inp <;> simp [accepts, hph]
  simp [step, portStep, hin, hacc]

/-- An offered host write is performed at once. -/
theorem step_of_offers_write {s : State} {sp : Space} {i v : Nat} {rest : List Input}
    (h : s.Offers (.write sp i v) rest) : step s = hostWrite (s.setInputs rest) sp i v :=
  step_of_offers h

/-- A host write below the element count of REG is a register write. -/
theorem hostWrite_reg (s : State) {i : Nat} (hi : i < 11) (v : Nat) : hostWrite s .reg i v = regWrite s i v :=
  if_pos hi

/-- A command that no pending error holds up is run (R93). -/
theorem submit_of_decode {w : CmdWord} {i : Instr} {s : State} (hd : decode w = .ok i)
    (hok : alwaysAccepted i = true ∨ s.err = none) : submit w s = runCommand i s := by
  obtain ⟨j, hj, -, h⟩ | ⟨hno, herr, -⟩ | ⟨hno, -, -⟩ := submit_cases w s
  · obtain rfl : i = j := Except.ok.inj (hd.symm.trans hj)
    exact h
  · exact absurd hok (by simp [hno i hd, herr])
  · exact absurd hd (hno i)

/-- Settles O6: the word offered is taken off the port, decoded and, being accepted, run. -/
theorem stepRunsTheDecodedCommand : Obligations.StepRunsTheDecodedCommand := by
  intro s v rest i hoff hdec hacc
  have hok : alwaysAccepted i = true ∨ (s.setInputs rest).err = none := by
    obtain herr | rfl | rfl := hacc
    · exact .inr herr
    · exact .inl rfl
    · exact .inl rfl
  obtain ⟨t, ht⟩ := exec_next i ((s.setInputs rest).setPh .run)
  refine ⟨t, ht, ?_⟩
  calc step s = hostWrite (s.setInputs rest) .reg 1 v := step_of_offers_write hoff
    _ = submit (BitVec.ofNat 32 v) (s.setInputs rest) := hostWrite_reg _ (by decide) v
    _ = runCommand i (s.setInputs rest) := submit_of_decode hdec hok
    _ = .next (t.setPh .idle) := runCommand_eq ht

/-! ## REG.STATUS -/

/-- STATUS as a number: TV above the four bits of ERR (R23). -/
theorem status_toNat (s : State) : s.status.toNat = 2 ^ 4 * s.tv.toNat + s.errField.toNat := by
  have htv : (0#27 ++ s.tvField).toNat = s.tv.toNat :=
    (BitVec.toNat_append _ _).trans (by simp [State.tvField])
  calc s.status.toNat = (0#27 ++ s.tvField).toNat <<< 4 ||| s.errField.toNat := BitVec.toNat_append _ _
    _ = s.tv.toNat <<< 4 ||| s.errField.toNat := by rw [htv]
    _ = s.tv.toNat <<< 4 + s.errField.toNat := (Nat.shiftLeft_add_eq_or_of_lt s.errField.isLt _).symm
    _ = 2 ^ 4 * s.tv.toNat + s.errField.toNat := by rw [Nat.shiftLeft_eq, Nat.mul_comm]

/-- Settles O16: STATUS is TV above ERR, and ERR fits its four bits. -/
theorem statusRegisterLayout : Obligations.StatusRegisterLayout := by
  intro s
  have hread : hostRead s .reg 0 = 2 ^ 4 * s.tv.toNat + s.errField.toNat := status_toNat s
  have herr : s.errField.toNat < 2 ^ 4 := s.errField.isLt
  have hfield : hostRead s .reg 0 % 2 ^ 4 = s.errField.toNat := by omega
  refine ⟨hfield.trans ?_, by omega⟩
  unfold State.errField
  cases s.err <;> rfl

/-! ## What a host write stores -/

theorem narrow_narrow (w n : Nat) : narrow w (narrow w n) = narrow w n := Nat.mod_mod _ _

/-- A record laid out in NF + 28 bits is at its width already. -/
theorem NodeRec.atWidth_ofWord (nf w : Nat) : (NodeRec.ofWord nf w).atWidth nf = NodeRec.ofWord nf w := by
  simp [NodeRec.atWidth, NodeRec.ofWord, narrow_narrow]

/-- One element of a byte memory written: that element and no other. -/
theorem byteAt_set {n i : Nat} (hi : i < n) (m : Mem Byte) (b : Byte) (j : Nat) :
    byteAt (Mem.set 0#8 n m i b) j = if j = i then b else byteAt m j := by
  simp [byteAt, Mem.read_set, hi]

section Stores
variable (s : State) {i : Nat} (v : Nat)

theorem hostWrite_node (hi : i < nodeCap) :
    hostWrite s .node i v = .next (s.putNode i (NodeRec.ofWord s.cfg.nfreqBits v)).forgetNodes := if_pos hi

theorem hostWrite_sym (hi : i < s.cfg.symCap) :
    hostWrite s .sym i v = .next (s.setSym (Mem.set 0#8 s.cfg.symCap s.sym i (BitVec.ofNat 8 v))) := if_pos hi

theorem hostWrite_ft (hi : i < nSym) :
    hostWrite s .ft i v = .next (s.setFt (Mem.set 0 nSym s.ft i (narrow s.cfg.freqBits v))) := if_pos hi

theorem hostWrite_ct (hi : i < nSym) :
    hostWrite s .ct i v =
      .next (s.setCt (Mem.set CodeRec.blank nSym s.ct i (CodeRec.ofWord (BitVec.ofNat 264 v)))) := if_pos hi

theorem hostWrite_bit (hi : i < s.cfg.byteCap) :
    hostWrite s .bit i v = .next (s.setBit (Mem.set 0#8 s.cfg.byteCap s.bit i (BitVec.ofNat 8 v))) := if_pos hi

end Stores

/-- Settles O12: each host write stores its element by the memory's own write, and what it sets besides is what the
equation of its space shows. -/
theorem hostWriteSideEffects : Obligations.HostWriteSideEffects := by
  rintro s u i v rest rfl
  refine ⟨?node, fun h _ => step_of_offers_write h, fun h _ => step_of_offers_write h,
    fun h _ => step_of_offers_write h, ?sym, ?ft, ?ct, ?bit, fun sp h => ⟨_, step_of_offers h⟩⟩
  case node =>
    intro h hi _
    refine ⟨_, (step_of_offers_write h).trans (hostWrite_node _ v hi), fun _ => rfl, fun g => ?_⟩
    refine (nodeAt_putNode (s.setInputs rest) i _ g).trans ?_
    simp [hi, NodeRec.atWidth_ofWord]
  case sym =>
    exact fun h hi _ => ⟨_, (step_of_offers_write h).trans (hostWrite_sym _ v hi), byteAt_set hi _ _⟩
  case ft =>
    intro h hi hv
    have hv : v < 2 ^ s.cfg.freqBits := hv
    refine ⟨_, (step_of_offers_write h).trans (hostWrite_ft _ v hi), fun b => ?_⟩
    simp [ftAt, Mem.read_set, hi, narrow_of_lt hv]
  case ct =>
    intro h hi _
    refine ⟨_, (step_of_offers_write h).trans (hostWrite_ct _ v hi), fun b => ?_⟩
    simp [ctAt, Mem.read_set, hi]
  case bit =>
    exact fun h hi _ => ⟨_, (step_of_offers_write h).trans (hostWrite_bit _ v hi), byteAt_set hi _ _⟩

/-! ## After a power-on reset -/

/-- A drawn memory lists nothing outside its space. -/
theorem Mem.read_load_of_le {α : Type} [DecidableEq α] (d : α) (n : Nat) (f : α → α) (cells : Mem α) {i : Nat}
    (hi : n ≤ i) : Mem.read d (Mem.load d n f cells) i = d :=
  Mem.read_out_of_range d n (fun _ => true) _ (Mem.wf_load d n (fun _ => true) f cells (fun _ => rfl)) i hi

theorem toNat_lt_nodeCap {h : Handle} (hne : h ≠ null) : h.toNat < nodeCap := by
  have hlt := h.isLt
  have hne' : h.toNat ≠ 511 := fun he => hne (BitVec.eq_of_toNat_eq he)
  simp only [nodeCap]
  omega

/-- What a power-on reset makes of a drawn NODE record: FREQ at its width, V = 0. -/
def NodeRec.drawn (nf : Nat) (r : NodeRec) : NodeRec := { r.atWidth nf with v := false }

/-- What a power-on reset makes of a drawn CT record: V = 0. -/
def CodeRec.drawn (r : CodeRec) : CodeRec := { r with v := false }

theorem NodeRec.drawn_blank (nf : Nat) : NodeRec.blank.drawn nf = NodeRec.blank := by
  simp [NodeRec.drawn, NodeRec.atWidth, NodeRec.blank, narrow]

theorem nodeAt_powerOn (d : Draw) (s : State) {h : Handle} (hne : h ≠ null) :
    nodeAt (powerOn d s).node h = (nodeAt d.node h).drawn s.cfg.nfreqBits :=
  Mem.read_load _ _ _ (NodeRec.drawn_blank _) _ _ (toNat_lt_nodeCap hne)

/-- No record is valid after power-on, and NULL names none. -/
theorem nodeAt_powerOn_v (d : Draw) (s : State) (h : Handle) : (nodeAt (powerOn d s).node h).v = false := by
  by_cases hne : h = null
  · subst hne
    have hnull : nodeCap ≤ null.toNat := by decide
    exact congrArg NodeRec.v (Mem.read_load_of_le NodeRec.blank nodeCap (NodeRec.drawn s.cfg.nfreqBits) d.node hnull)
  · rw [nodeAt_powerOn d s hne]; rfl

theorem ctAt_powerOn (d : Draw) (s : State) (b : Byte) : ctAt (powerOn d s).ct b = (ctAt d.ct b).drawn :=
  Mem.read_load CodeRec.blank nSym CodeRec.drawn rfl _ _ b.isLt

theorem ftAt_powerOn (d : Draw) (s : State) (b : Byte) :
    ftAt (powerOn d s).ft b = narrow s.cfg.freqBits (ftAt d.ft b) :=
  Mem.read_load 0 nSym (narrow s.cfg.freqBits) (Nat.zero_mod _) _ _ b.isLt

/-- Settles O24: registers by the definition, memories by what a drawn memory reads. -/
theorem powerOnResetValues : Obligations.PowerOnResetValues := by
  rintro s t d rfl
  refine ⟨rfl, rfl, rfl, rfl, rfl, rfl, rfl, rfl, rfl, rfl, rfl, rfl, fun _ => rfl, nodeAt_powerOn_v d s, ?ctV, ?node,
    ?ct, ftAt_powerOn d s, ?symOut, ?bit, ?heap, rfl⟩
  case ctV => intro b; rw [ctAt_powerOn]; rfl
  case node => intro h hne; rw [nodeAt_powerOn d s hne]; exact ⟨rfl, rfl, rfl, rfl, rfl⟩
  case ct => intro b; rw [ctAt_powerOn]; exact ⟨rfl, rfl⟩
  case symOut => exact fun i hi => ⟨Mem.read_load 0#8 _ id rfl _ i hi, Mem.read_load 0#8 _ id rfl _ i hi⟩
  case bit => exact fun i hi => Mem.read_load 0#8 _ id rfl _ i hi
  case heap => exact fun i hi => Mem.read_load 0#9 _ id rfl _ i hi

end Sys2Proof.Machine
end

section
/-! The invariants of a step, packaged once: where a command's course ends, what a host write that starts no command can
store, and that a predicate kept by the commands, by those stores and by the power-on reset is kept by every step
(spec/20_memory.md R60 to R66; spec/60_exceptions.md R222). -/

namespace Sys2Proof.Machine

/-! ## Where a course ends -/

/-- The state in which a course ends, whether it raised or not. -/
def Run.state {α : Type} : Run α → State
  | .ok _ s => s
  | .raised _ s => s

@[simp] theorem Run.state_ok {α : Type} (a : α) (s : State) : (Run.ok a s).state = s := rfl
@[simp] theorem Run.state_raised {α : Type} (e : ErrorCode) (s : State) : (Run.raised e s : Run α).state = s := rfl

/-- What holds where the first part ends, and is kept by the second, holds where the sequence ends. -/
theorem Run.andThen_state {α β : Type} {P : State → Prop} {r : Run α} {f : α → State → Run β} (hr : P r.state)
    (hf : ∀ a t, P t → P (f a t).state) : P (r.andThen f).state := by
  cases r with
  | ok a t => exact hf a t hr
  | raised e t => exact hr

/-- A command's result is the state its course ends in, with the error entered if it raised one (R222). -/
theorem Run.finish_next {r : Run Unit} {t : State} (h : r.finish = .next t) :
    (r = .ok () r.state ∧ t = r.state) ∨ ∃ e, r = .raised e r.state ∧ t = r.state.raiseError e := by
  cases r with
  | ok a s => cases h; exact .inl ⟨rfl, rfl⟩
  | raised e s => cases h; exact .inr ⟨e, rfl, rfl⟩

/-- Error entry is a write of STATUS.ERR and of PH, so what neither can break survives the end of a command. -/
theorem Run.finish_keeps {P : State → Prop} (herr : ∀ s e, P s → P (s.setErr e)) (hph : ∀ s p, P s → P (s.setPh p))
    {r : Run Unit} {t : State} (hr : P r.state) (h : r.finish = .next t) : P t := by
  obtain ⟨-, rfl⟩ | ⟨e, -, rfl⟩ := Run.finish_next h
  · exact hr
  · exact hph _ _ (herr _ _ hr)

/-- The course of each command's rule; NOP, CLRE and RST never raise. -/
def body : Instr → State → Run Unit
  | .nop, s => .ok () s
  | .fcnt, s => fcnt s
  | .leaves, s => leaves s
  | .hbld, s => hbld s
  | .hins arg, s => hins arg s
  | .hext, s => hext s
  | .mrg, s => mrg s
  | .tbld, s => tbld s
  | .tchk, s => tchk s
  | .cgen, s => cgen s
  | .pack, s => pack s
  | .unpk, s => unpk s
  | .enc, s => enc s
  | .dec, s => dec s
  | .clre, s => .ok () s.clearError
  | .rst, s => .ok () (rst s)

/-- A command's result is its course, finished. -/
theorem exec_eq_finish (i : Instr) (s : State) : exec i s = (body i s).finish := by
  cases i <;> rfl

/-! ## Host writes that start no command -/

/-- What a host write other than a command word makes of the state: it is ignored, or one element is stored, with the
side effects of R45. -/
inductive HostStore (s : State) : State → Prop where
  | ignored : HostStore s s
  | symcnt (v : Nat) : HostStore s (s.setSymcnt v)
  | bitcnt (v : Nat) : HostStore s (s.setBitcnt v)
  | root (h : Handle) : HostStore s ((s.setRoot h).setTv false)
  | sym (i : Nat) (b : Byte) : HostStore s (s.setSym (Mem.set 0#8 s.cfg.symCap s.sym i b))
  | ft (i n : Nat) : HostStore s (s.setFt (Mem.set 0 nSym s.ft i (narrow s.cfg.freqBits n)))
  | node (i : Nat) (r : NodeRec) : HostStore s (s.putNode i r).forgetNodes
  | ct (i : Nat) (r : CodeRec) : HostStore s (s.setCt (Mem.set CodeRec.blank nSym s.ct i r))
  | bit (i : Nat) (b : Byte) : HostStore s (s.setBit (Mem.set 0#8 s.cfg.byteCap s.bit i b))

theorem regWrite_store (s : State) (i v : Nat) :
    regWrite s i v = submit (BitVec.ofNat 32 v) s ∨ ∃ t, regWrite s i v = .next t ∧ HostStore s t := by
  fun_cases regWrite s i v with
  | case1 => exact .inl rfl
  | case2 => exact .inr ⟨_, rfl, .symcnt v⟩
  | case3 => exact .inr ⟨_, rfl, .bitcnt v⟩
  | case4 => exact .inr ⟨_, rfl, .root _⟩
  | case5 => exact .inr ⟨_, rfl, .ignored⟩

/-- A host write is a command word or a store. -/
theorem hostWrite_store (s : State) (sp : Space) (i v : Nat) :
    hostWrite s sp i v = submit (BitVec.ofNat 32 v) s ∨ ∃ t, hostWrite s sp i v = .next t ∧ HostStore s t := by
  fun_cases hostWrite s sp i v with
  | case1 => exact regWrite_store s i v
  | case2 => exact .inr ⟨_, rfl, .sym i _⟩
  | case3 => exact .inr ⟨_, rfl, .ft i v⟩
  | case4 => exact .inr ⟨_, rfl, .node i _⟩
  | case6 => exact .inr ⟨_, rfl, .ct i _⟩
  | case7 => exact .inr ⟨_, rfl, .bit i _⟩
  | case5 | case8 | case9 => exact .inr ⟨_, rfl, .ignored⟩

/-! ## Invariants of every step -/

/-- `P` says nothing of the port, of PH or of the pending error, and is kept by each command's course, by the host's stores
and by the power-on reset. -/
structure StepInvariant (P : State → Prop) : Prop where
  setPort : ∀ s p, P s → P (s.setPort p)
  setPh : ∀ s p, P s → P (s.setPh p)
  setErr : ∀ s e, P s → P (s.setErr e)
  body : ∀ (i : Instr) s, P s → P (body i s).state
  store : ∀ s t, P s → HostStore s t → P t
  powerOn : ∀ d s, P s → P (powerOn d s)

namespace StepInvariant

variable {P : State → Prop} (hP : StepInvariant P) {s t : State}
include hP

theorem exec {i : Instr} (hs : P s) (h : exec i s = .next t) : P t :=
  Run.finish_keeps hP.setErr hP.setPh (hP.body i s hs) ((exec_eq_finish i s).symm.trans h)

theorem runCommand {i : Instr} (hs : P s) (h : runCommand i s = .next t) : P t := by
  obtain ⟨u, hu⟩ := exec_next i (s.setPh .run)
  obtain rfl : u.setPh .idle = t := Host.Outcome.next.inj ((runCommand_eq hu).symm.trans h)
  exact hP.setPh _ _ (hP.exec (hP.setPh _ _ hs) hu)

theorem submit {w : CmdWord} (hs : P s) (h : submit w s = .next t) : P t := by
  obtain ⟨i, -, -, hrun⟩ | ⟨-, -, hrun⟩ | ⟨-, -, hrun⟩ := submit_cases w s
  · exact hP.runCommand hs (hrun.symm.trans h)
  · obtain rfl := Host.Outcome.next.inj (hrun.symm.trans h)
    exact hs
  · obtain rfl := Host.Outcome.next.inj (hrun.symm.trans h)
    exact hP.setPh _ _ (hP.setErr _ _ hs)

theorem perform {inp : Input} (hs : P s) (h : perform inp s = .next t) : P t := by
  cases inp with
  | read sp i => cases h; exact hP.setPort _ _ hs
  | powerOn d => cases h; exact hP.powerOn _ _ hs
  | write sp i v =>
    obtain hcmd | ⟨u, hu, hstore⟩ := hostWrite_store s sp i v
    · exact hP.submit hs (hcmd.symm.trans h)
    · obtain rfl := Host.Outcome.next.inj (hu.symm.trans h)
      exact hP.store _ _ hs hstore

/-- Every step keeps `P`. -/
theorem step (hs : P s) (h : step s = .next t) : P t := by
  obtain ⟨-, hstep⟩ | ⟨_, _, -, -, hstep⟩ | ⟨inp, rest, -, -, hstep⟩ := step_cases s
  · obtain rfl := Host.Outcome.next.inj (hstep.symm.trans h)
    exact hs
  · obtain rfl := Host.Outcome.next.inj (hstep.symm.trans h)
    exact hs
  · exact hP.perform (hP.setPort _ _ hs) (hstep.symm.trans h)

end StepInvariant

end Sys2Proof.Machine
end

section
/-! Every command, host store and reset keeps memories canonical and values within their widths (spec/10_state.md R22,
R34 to R41; spec/20_memory.md R61). -/

namespace Sys2Proof.Machine

/-! ## `State.wf` by its parts -/

/-- `State.wf` as named parts: each memory in canonical form, each counter within its width. -/
structure State.Canonical (s : State) : Prop where
  sym : Mem.wf 0#8 s.cfg.symCap (fun _ => true) s.sym = true
  ft : Mem.wf 0 nSym (fun n => decide (n < 2 ^ s.cfg.freqBits)) s.ft = true
  node : Mem.wf NodeRec.blank nodeCap (fun r => decide (r.freq < 2 ^ s.cfg.nfreqBits)) s.node = true
  heap : Mem.wf 0#9 nodeCap (fun _ => true) s.heap = true
  ct : Mem.wf CodeRec.blank nSym (fun _ => true) s.ct = true
  bit : Mem.wf 0#8 s.cfg.byteCap (fun _ => true) s.bit = true
  out : Mem.wf 0#8 s.cfg.symCap (fun _ => true) s.out = true
  own : Mem.wf false nodeCap (fun _ => true) s.own = true
  symcnt : s.symcnt < 2 ^ s.cfg.freqBits
  bitcnt : s.bitcnt < 2 ^ s.cfg.nfreqBits
  outcnt : s.outcnt < 2 ^ s.cfg.freqBits

theorem State.wf_iff (s : State) : s.wf = true ↔ s.Canonical := by
  simp only [State.wf, State.memWf, State.regWf, Bool.and_eq_true, decide_eq_true_eq]
  constructor
  · rintro ⟨⟨sym, ft, node, heap, ct, bit, out, own⟩, symcnt, bitcnt, outcnt⟩
    exact ⟨sym, ft, node, heap, ct, bit, out, own, symcnt, bitcnt, outcnt⟩
  · rintro ⟨sym, ft, node, heap, ct, bit, out, own, symcnt, bitcnt, outcnt⟩
    exact ⟨⟨sym, ft, node, heap, ct, bit, out, own⟩, symcnt, bitcnt, outcnt⟩

namespace State

/-! ## Setters -/

section Neutral
variable (s : State)
@[simp] theorem wf_setPort (p : Port) : (s.setPort p).wf = s.wf := rfl
@[simp] theorem wf_setPh (p : Phase) : (s.setPh p).wf = s.wf := rfl
@[simp] theorem wf_setErr (e : Option ErrorCode) : (s.setErr e).wf = s.wf := rfl
@[simp] theorem wf_setTv (b : Bool) : (s.setTv b).wf = s.wf := rfl
@[simp] theorem wf_setRoot (h : Handle) : (s.setRoot h).wf = s.wf := rfl
@[simp] theorem wf_setNcnt (n : BitVec 9) : (s.setNcnt n).wf = s.wf := rfl
@[simp] theorem wf_setNdist (n : BitVec 9) : (s.setNdist n).wf = s.wf := rfl
@[simp] theorem wf_setHsize (n : BitVec 9) : (s.setHsize n).wf = s.wf := rfl
@[simp] theorem wf_setHcap (n : BitVec 9) : (s.setHcap n).wf = s.wf := rfl
@[simp] theorem wf_setRes (h : Handle) : (s.setRes h).wf = s.wf := rfl
end Neutral

section Stores
variable {s : State} (hs : s.wf = true)
include hs

theorem wf_setSymcnt (n : Nat) : (s.setSymcnt n).wf = true := by
  rw [wf_iff] at *; exact { hs with symcnt := narrow_lt _ n }

theorem wf_setBitcnt (n : Nat) : (s.setBitcnt n).wf = true := by
  rw [wf_iff] at *; exact { hs with bitcnt := narrow_lt _ n }

theorem wf_setOutcnt (n : Nat) : (s.setOutcnt n).wf = true := by
  rw [wf_iff] at *; exact { hs with outcnt := narrow_lt _ n }

theorem wf_setSym {m : Mem Byte} (hm : Mem.wf 0#8 s.cfg.symCap (fun _ => true) m = true) : (s.setSym m).wf = true := by
  rw [wf_iff] at *; exact { hs with sym := hm }

theorem wf_setFt {m : Mem Nat} (hm : Mem.wf 0 nSym (fun n => decide (n < 2 ^ s.cfg.freqBits)) m = true) :
    (s.setFt m).wf = true := by
  rw [wf_iff] at *; exact { hs with ft := hm }

theorem wf_setNode {m : Mem NodeRec}
    (hm : Mem.wf NodeRec.blank nodeCap (fun r => decide (r.freq < 2 ^ s.cfg.nfreqBits)) m = true) :
    (s.setNode m).wf = true := by
  rw [wf_iff] at *; exact { hs with node := hm }

theorem wf_setHeap {m : Mem Handle} (hm : Mem.wf 0#9 nodeCap (fun _ => true) m = true) : (s.setHeap m).wf = true := by
  rw [wf_iff] at *; exact { hs with heap := hm }

theorem wf_setCt {m : Mem CodeRec} (hm : Mem.wf CodeRec.blank nSym (fun _ => true) m = true) :
    (s.setCt m).wf = true := by
  rw [wf_iff] at *; exact { hs with ct := hm }

theorem wf_setBit {m : Mem Byte} (hm : Mem.wf 0#8 s.cfg.byteCap (fun _ => true) m = true) : (s.setBit m).wf = true := by
  rw [wf_iff] at *; exact { hs with bit := hm }

theorem wf_setOut {m : Mem Byte} (hm : Mem.wf 0#8 s.cfg.symCap (fun _ => true) m = true) : (s.setOut m).wf = true := by
  rw [wf_iff] at *; exact { hs with out := hm }

theorem wf_setOwn {m : Mem Bool} (hm : Mem.wf false nodeCap (fun _ => true) m = true) : (s.setOwn m).wf = true := by
  rw [wf_iff] at *; exact { hs with own := hm }

theorem wf_putNode (i : Nat) (r : NodeRec) : (s.putNode i r).wf = true :=
  wf_setNode hs (Machine.wf_putNode s i r (s.wf_iff.1 hs).node)

theorem wf_putOwn (h : Handle) (b : Bool) : (s.putOwn h b).wf = true :=
  wf_setOwn hs (Machine.wf_putOwn s h b (s.wf_iff.1 hs).own)

theorem wf_forgetNodes : s.forgetNodes.wf = true := by
  have hown : ((((s.setTv false).setHsize 0#9).setNcnt 0#9).setNdist 0#9).wf = true := hs
  exact wf_setOwn hown (Mem.wf_nil _ _ _)

theorem wf_clearNodes : (s.setNode (clearNodeV s.node)).wf = true :=
  wf_setNode hs (wf_clearNodeV s.node _ (s.wf_iff.1 hs).node)

theorem wf_clearCodes : (s.setCt (clearCtV s.ct)).wf = true :=
  wf_setCt hs (wf_clearCtV s.ct (s.wf_iff.1 hs).ct)

theorem wf_resetRegs : s.resetRegs.wf = true := by
  rw [wf_iff] at *
  exact { hs with
    own := Mem.wf_nil _ _ _, symcnt := Nat.two_pow_pos _, bitcnt := Nat.two_pow_pos _, outcnt := Nat.two_pow_pos _ }

end Stores

end State

/-! ## The memories that the commands make -/

theorem wf_siftUp (node : Mem NodeRec) (fuel i : Nat) {hp : Mem Handle}
    (hm : Mem.wf 0#9 nodeCap (fun _ => true) hp = true) :
    Mem.wf 0#9 nodeCap (fun _ => true) (siftUp node fuel i hp) = true := by
  induction fuel generalizing i hp with
  | zero => exact hm
  | succ fuel ih =>
    obtain h | ⟨-, -, h⟩ := siftUp_step node fuel i hp
    · rw [h]; exact hm
    · rw [h]; exact ih _ (wf_swapHeap _ _ _ hm)

theorem hsize_le_nodeCap (s : State) : s.hsize.toNat ≤ nodeCap := Nat.le_of_lt_succ s.hsize.isLt

theorem wf_countSymbols (w : Nat) (sym : Mem Byte) (m k : Nat) {ft : Mem Nat}
    (hft : Mem.wf 0 nSym (fun n => decide (n < 2 ^ w)) ft = true) :
    Mem.wf 0 nSym (fun n => decide (n < 2 ^ w)) (countSymbols w sym m k ft) = true := by
  induction m generalizing k ft with
  | zero => exact hft
  | succ m ih => exact ih (k + 1) (wf_putFt w ft _ _ hft)

theorem wf_walk (node : Mem NodeRec) (fuel : Nat) (h : Handle) (path : List Bool) {ct : Mem CodeRec}
    (hct : Mem.wf CodeRec.blank nSym (fun _ => true) ct = true) :
    Mem.wf CodeRec.blank nSym (fun _ => true) (walk node fuel h path ct) = true := by
  induction fuel generalizing h path ct with
  | zero => exact hct
  | succ fuel ih =>
    rw [walk]
    split
    · exact wf_putCt _ _ _ hct
    · exact ih _ _ (ih _ _ hct)

theorem wf_generateCodes (node : Mem NodeRec) (root : Handle) {ct : Mem CodeRec}
    (hct : Mem.wf CodeRec.blank nSym (fun _ => true) ct = true) :
    Mem.wf CodeRec.blank nSym (fun _ => true) (generateCodes node root ct) = true := by
  unfold generateCodes
  split
  · exact wf_putCt _ _ _ hct
  · exact wf_walk _ _ _ _ hct

theorem wf_packCode (cap : Nat) (e : CodeRec) (n i pos : Nat) {bit : Mem Byte}
    (hbit : Mem.wf 0#8 cap (fun _ => true) bit = true) :
    Mem.wf 0#8 cap (fun _ => true) (packCode cap e n i pos bit) = true := by
  induction n generalizing i pos bit with
  | zero => exact hbit
  | succ n ih => exact ih _ _ (Mem.wf_set _ _ _ _ _ _ hbit (.inr rfl))

theorem wf_packSymbols (c : Config) (sym : Mem Byte) (ct : Mem CodeRec) (m k pos : Nat) {bit : Mem Byte}
    (hbit : Mem.wf 0#8 c.byteCap (fun _ => true) bit = true) :
    Mem.wf 0#8 c.byteCap (fun _ => true) (packSymbols c sym ct m k pos bit).1 = true := by
  induction m generalizing k pos bit with
  | zero => exact hbit
  | succ m ih =>
    simp only [packSymbols]
    split_ifs
    · exact hbit
    · exact hbit
    · exact ih _ _ (wf_packCode _ _ _ _ _ hbit)

theorem wf_unpackBits (c : Config) (node : Mem NodeRec) (bit : Mem Byte) (root : Handle) (single : Bool)
    (n pos : Nat) (cur : Handle) (cnt : Nat) {out : Mem Byte} (hout : Mem.wf 0#8 c.symCap (fun _ => true) out = true) :
    Mem.wf 0#8 c.symCap (fun _ => true) (unpackBits c node bit root single n pos cur cnt out).1 = true := by
  induction n generalizing pos cur cnt out with
  | zero => exact hout
  | succ n ih =>
    rw [unpackBits]
    split
    · exact hout
    · split
      · exact ih _ _ _ hout
      · split_ifs
        · exact hout
        · exact ih _ _ _ (Mem.wf_set _ _ _ _ _ _ hout (.inr rfl))

theorem wf_decodeSymbols (cap : Nat) (node : Mem NodeRec) (bit : Mem Byte) (root : Handle) (single : Bool)
    (m left pos cnt : Nat) {out : Mem Byte} (hout : Mem.wf 0#8 cap (fun _ => true) out = true) :
    Mem.wf 0#8 cap (fun _ => true) (decodeSymbols cap node bit root single m left pos cnt out).1 = true := by
  induction m generalizing left pos cnt out with
  | zero => exact hout
  | succ m ih =>
    rw [decodeSymbols]
    split
    · exact hout
    · exact ih _ _ _ (Mem.wf_set _ _ _ _ _ _ hout (.inr rfl))

/-! ## The commands -/

theorem wf_andThen {α β : Type} {r : Run α} {f : α → State → Run β} (hr : r.state.wf = true)
    (hf : ∀ a t, t.wf = true → (f a t).state.wf = true) : (r.andThen f).state.wf = true :=
  Run.andThen_state (P := fun t => t.wf = true) hr hf

section Commands
variable {s : State} (hs : s.wf = true)
include hs

theorem wf_fcnt : (fcnt s).state.wf = true := by
  unfold fcnt
  split_ifs
  · exact hs
  · exact State.wf_setFt hs (wf_countSymbols _ _ _ _ (Mem.wf_nil _ _ _))

theorem wf_placeLeaf (n : Nat) (b : Byte) : (placeLeaf s n b).wf = true := by
  have hput := State.wf_putNode hs n (leafRec b (ftAt s.ft b))
  exact State.wf_putOwn (State.wf_setHeap hput (wf_putHeap _ _ _ (s.wf_iff.1 hs).heap)) _ _

omit hs in
theorem wf_placeLeaves (bs : List Byte) (n : Nat) {s : State} (hs : s.wf = true) :
    (placeLeaves bs n s).2.wf = true := by
  induction bs generalizing n s with
  | nil => exact hs
  | cons b bs ih =>
    rw [placeLeaves]
    split_ifs
    · exact ih n hs
    · exact ih (n + 1) (wf_placeLeaf hs n b)

theorem wf_leaves : (leaves s).state.wf = true := by
  have hplaced := wf_placeLeaves alphabet 0 (State.wf_setOwn (State.wf_clearNodes hs) (Mem.wf_nil _ _ _))
  simpa only [leaves, Run.state_ok, State.wf_setTv, State.wf_setRes, State.wf_setRoot, State.wf_setHcap,
    State.wf_setHsize, State.wf_setNdist, State.wf_setNcnt] using hplaced

theorem wf_hbld : (hbld s).state.wf = true := by
  unfold hbld
  split_ifs
  · exact State.wf_setHeap hs ((siftAll_spec _ _ (hsize_le_nodeCap s) _ _).2.2 (s.wf_iff.1 hs).heap)
  · exact hs

theorem wf_insert (h : Handle) : (insert s h).wf = true := by
  have hheap := wf_siftUp s.node s.hsize.toNat s.hsize.toNat (wf_putHeap s.heap s.hsize.toNat h (s.wf_iff.1 hs).heap)
  exact State.wf_putOwn (State.wf_setHeap hs hheap) h true

theorem wf_hins (h : Handle) : (hins h s).state.wf = true := by
  unfold hins
  split_ifs
  · exact hs
  · exact hs
  · exact wf_insert hs h

theorem wf_extractMin : (extractMin s).state.wf = true := by
  obtain ⟨-, h⟩ | ⟨-, hp, hhp, h⟩ := extractMin_cases s
  · rw [h]; exact hs
  · have hlen : s.hsize.toNat - 1 ≤ nodeCap := (Nat.sub_le _ _).trans (hsize_le_nodeCap s)
    have hheap : Mem.wf 0#9 nodeCap (fun _ => true) hp = true :=
      hhp ▸ (siftDown_spec _ _ hlen _ _ _).2.2 (wf_putHeap _ _ _ (s.wf_iff.1 hs).heap)
    have hset : ((s.setHeap hp).setHsize (s.hsize - 1#9)).wf = true := State.wf_setHeap hs hheap
    rw [h]
    exact State.wf_putOwn hset _ false

theorem wf_hext : (hext s).state.wf = true :=
  wf_andThen (wf_extractMin hs) fun _ _ ht => ht

theorem wf_mergeNode (a b : Handle) : (mergeNode a b s).wf = true := by
  have hmade := State.wf_putNode hs s.ncnt.toNat (internalRec a b (freqOf s.node a + freqOf s.node b))
  exact wf_insert (State.wf_putOwn (State.wf_putOwn (s := (s.putNode _ _).setNcnt _) hmade a true) b true) s.ncnt

theorem wf_mrg : (mrg s).state.wf = true :=
  wf_andThen (wf_extractMin hs) fun a _ h1 =>
    wf_andThen (wf_extractMin h1) fun b _ h2 => wf_mergeNode h2 a b

omit hs in
theorem wf_mergeAll (fuel : Nat) {s : State} (hs : s.wf = true) : (mergeAll fuel s).state.wf = true := by
  induction fuel generalizing s with
  | zero => exact hs
  | succ fuel ih =>
    rw [mergeAll]
    split_ifs
    · exact wf_andThen (wf_mrg hs) fun _ _ ht => ih ht
    · exact hs

theorem wf_tbld : (tbld s).state.wf = true :=
  wf_andThen (wf_leaves hs) fun _ _ h1 =>
    wf_andThen (wf_hbld h1) fun _ _ h2 =>
      wf_andThen (wf_mergeAll _ h2) fun _ _ h3 =>
        wf_andThen (wf_extractMin h3) fun _ _ h4 => h4

theorem wf_tchk : (tchk s).state.wf = true := by
  unfold tchk
  split_ifs
  · exact hs
  · exact hs

theorem wf_ensureTree : (ensureTree s).state.wf = true := by
  unfold ensureTree
  split_ifs
  · exact hs
  · exact wf_tchk hs

theorem wf_cgen : (cgen s).state.wf = true :=
  wf_andThen (wf_ensureTree (State.wf_clearCodes hs)) fun _ t ht =>
    State.wf_setCt ht (wf_generateCodes _ _ (t.wf_iff.1 ht).ct)

theorem wf_pack : (pack s).state.wf = true := by
  have h0 : (s.setBitcnt 0).wf = true := State.wf_setBitcnt hs 0
  have hbit := wf_packSymbols s.cfg s.sym s.ct s.symcnt 0 0 (s.wf_iff.1 hs).bit
  unfold pack
  split_ifs
  · exact h0
  · split
    · next bit pos heq =>
      rw [heq] at hbit
      exact State.wf_setBitcnt (State.wf_setBit h0 hbit) pos
    · next bit e heq =>
      rw [heq] at hbit
      exact State.wf_setBit h0 hbit

theorem wf_unpk : (unpk s).state.wf = true := by
  refine wf_andThen (wf_ensureTree (State.wf_setOutcnt hs 0)) fun _ t ht => ?_
  have hout := wf_unpackBits t.cfg t.node t.bit t.root t.singleLeaf t.bitcnt 0 t.root 0 (t.wf_iff.1 ht).out
  split_ifs
  · exact ht
  · split
    · next out e heq =>
      rw [heq] at hout
      exact State.wf_setOut ht hout
    · next out cnt cur heq =>
      rw [heq] at hout
      have hset : (t.setOut out).wf = true := State.wf_setOut ht hout
      split_ifs
      · exact State.wf_setOutcnt hset cnt
      · exact hset

theorem wf_dec : (dec s).state.wf = true := by
  refine wf_andThen (wf_ensureTree (State.wf_setOutcnt hs 0)) fun _ t ht => ?_
  have hout := wf_decodeSymbols t.cfg.symCap t.node t.bit t.root t.singleLeaf t.symcnt t.bitcnt 0 0 (t.wf_iff.1 ht).out
  split_ifs
  · exact ht
  · split
    · next out e heq =>
      rw [heq] at hout
      exact State.wf_setOut ht hout
    · next out left cnt heq =>
      rw [heq] at hout
      have hset : (t.setOut out).wf = true := State.wf_setOut ht hout
      split_ifs
      · exact State.wf_setOutcnt hset cnt
      · exact hset

theorem wf_enc : (enc s).state.wf = true := by
  unfold enc
  split_ifs
  · exact hs
  · exact wf_andThen (wf_fcnt hs) fun _ _ h1 =>
      wf_andThen (wf_tbld h1) fun _ _ h2 =>
        wf_andThen (wf_cgen h2) fun _ _ h3 => wf_pack h3

theorem wf_clearError : s.clearError.wf = true := by
  obtain ⟨-, h⟩ | ⟨-, h⟩ := s.clearError_cases <;> rw [h] <;> exact hs

theorem wf_rst : (rst s).wf = true :=
  State.wf_clearCodes (State.wf_clearNodes (State.wf_resetRegs hs))

theorem wf_body (i : Instr) : (body i s).state.wf = true := by
  cases i with
  | nop => exact hs
  | fcnt => exact wf_fcnt hs
  | leaves => exact wf_leaves hs
  | hbld => exact wf_hbld hs
  | hins arg => exact wf_hins hs arg
  | hext => exact wf_hext hs
  | mrg => exact wf_mrg hs
  | tbld => exact wf_tbld hs
  | tchk => exact wf_tchk hs
  | cgen => exact wf_cgen hs
  | pack => exact wf_pack hs
  | unpk => exact wf_unpk hs
  | enc => exact wf_enc hs
  | dec => exact wf_dec hs
  | clre => exact wf_clearError hs
  | rst => exact wf_rst hs

theorem hostStore_wf {t : State} (h : HostStore s t) : t.wf = true := by
  have hc := s.wf_iff.1 hs
  cases h with
  | ignored => exact hs
  | symcnt v => exact State.wf_setSymcnt hs v
  | bitcnt v => exact State.wf_setBitcnt hs v
  | root h => exact hs
  | sym i b => exact State.wf_setSym hs (Mem.wf_set _ _ _ _ _ _ hc.sym (.inr rfl))
  | ft i n => exact State.wf_setFt hs (Mem.wf_set _ _ _ _ _ _ hc.ft (.inr (decide_eq_true (narrow_lt _ n))))
  | node i r => exact State.wf_forgetNodes (State.wf_putNode hs i r)
  | ct i r => exact State.wf_setCt hs (Mem.wf_set _ _ _ _ _ _ hc.ct (.inr rfl))
  | bit i b => exact State.wf_setBit hs (Mem.wf_set _ _ _ _ _ _ hc.bit (.inr rfl))

end Commands

/-- Whatever is drawn, the state after a power-on reset has its form (R47). -/
theorem wf_powerOn (d : Draw) (s : State) : (powerOn d s).wf = true :=
  (State.wf_iff _).2
    { sym := Mem.wf_load 0#8 s.cfg.symCap (fun _ => true) id d.sym fun _ => rfl
      ft := wf_powerOn_ft d s
      node := wf_powerOn_node d s
      heap := Mem.wf_load 0#9 nodeCap (fun _ => true) id d.heap fun _ => rfl
      ct := Mem.wf_load CodeRec.blank nSym (fun _ => true) CodeRec.drawn d.ct fun _ => rfl
      bit := Mem.wf_load 0#8 s.cfg.byteCap (fun _ => true) id d.bit fun _ => rfl
      out := Mem.wf_load 0#8 s.cfg.symCap (fun _ => true) id d.out fun _ => rfl
      own := Mem.wf_nil _ _ _
      symcnt := Nat.two_pow_pos _
      bitcnt := Nat.two_pow_pos _
      outcnt := Nat.two_pow_pos _ }

theorem wf_stepInvariant : StepInvariant (fun s => s.wf = true) where
  setPort _ _ h := h
  setPh _ _ h := h
  setErr _ _ h := h
  body i _ hs := wf_body hs i
  store _ _ hs h := hostStore_wf hs h
  powerOn d s _ := wf_powerOn d s

/-- Settles O55: the form of the state is an invariant of every command, store and reset. -/
theorem stepKeepsWellFormedStates : Obligations.StepKeepsWellFormedStates :=
  fun _ _ => wf_stepInvariant.step

end Sys2Proof.Machine
end

section
/-! What each command writes, and which errors it raises (spec/10_state.md R22; spec/20_memory.md R62;
spec/60_exceptions.md R210, R222). -/

namespace Sys2Proof.Machine

/-! ## What the operations of the heap and of the tree builder write -/

/-- `s` without what the heap operations write: HEAP, OWN, HSIZE, RES (R126, R127). -/
def State.sansHeap (s : State) : State := { s with heap := [], own := [], hsize := 0#9, res := 0#9 }

/-- `s` without what MRG writes: what the heap operations write, NODE and NCNT (R143). -/
def State.sansMerge (s : State) : State := { s.sansHeap with node := [], ncnt := 0#9 }

/-- `s` without what TBLD writes: what MRG writes, NDIST, HCAP, ROOT and TV (R141, R145). -/
def State.sansBuild (s : State) : State := { s.sansMerge with ndist := 0#9, hcap := 0#9, root := 0#9, tv := false }

/-- `s` without what ENC writes: what TBLD writes, FT, CT, BIT and BITCNT (R190). -/
def State.sansEnc (s : State) : State := { s.sansBuild with ft := [], ct := [], bit := [], bitcnt := 0 }

/-- `t` is `s` but for what the heap operations write; and so for MRG, TBLD and ENC. -/
def HeapWrites (s t : State) : Prop := t.sansHeap = s.sansHeap
def MergeWrites (s t : State) : Prop := t.sansMerge = s.sansMerge
def BuildWrites (s t : State) : Prop := t.sansBuild = s.sansBuild
def EncWrites (s t : State) : Prop := t.sansEnc = s.sansEnc

section Writes
variable {s t u : State}

theorem HeapWrites.trans (h : HeapWrites s t) (h' : HeapWrites t u) : HeapWrites s u := Eq.trans h' h
theorem MergeWrites.trans (h : MergeWrites s t) (h' : MergeWrites t u) : MergeWrites s u := Eq.trans h' h
theorem BuildWrites.trans (h : BuildWrites s t) (h' : BuildWrites t u) : BuildWrites s u := Eq.trans h' h
theorem EncWrites.trans (h : EncWrites s t) (h' : EncWrites t u) : EncWrites s u := Eq.trans h' h

theorem HeapWrites.merge (h : HeapWrites s t) : MergeWrites s t :=
  congrArg (fun u : State => ({ u with node := [], ncnt := 0#9 } : State)) h

theorem MergeWrites.build (h : MergeWrites s t) : BuildWrites s t :=
  congrArg (fun u : State => ({ u with ndist := 0#9, hcap := 0#9, root := 0#9, tv := false } : State)) h

theorem MergeWrites.cfg (h : MergeWrites s t) : t.cfg = s.cfg := by
  have h : t.sansMerge = s.sansMerge := h
  exact (congrArg State.cfg h :)

theorem MergeWrites.ft (h : MergeWrites s t) : t.ft = s.ft := by
  have h : t.sansMerge = s.sansMerge := h
  exact (congrArg State.ft h :)

theorem BuildWrites.enc (h : BuildWrites s t) : EncWrites s t :=
  congrArg (fun u : State => ({ u with ft := [], ct := [], bit := [], bitcnt := 0 } : State)) h

end Writes

theorem insert_writes (s : State) (h : Handle) : HeapWrites s (insert s h) := rfl

theorem extractMin_writes (s : State) : HeapWrites s (extractMin s).state := by
  obtain ⟨-, h⟩ | ⟨-, hp, -, h⟩ := extractMin_cases s <;> rw [h] <;> rfl

theorem mergeNode_writes (a b : Handle) (s : State) : MergeWrites s (mergeNode a b s) := by
  simp [MergeWrites, State.sansMerge, State.sansHeap, mergeNode]

theorem mrg_writes (s : State) : MergeWrites s (mrg s).state :=
  Run.andThen_state (P := MergeWrites s) (extractMin_writes s).merge fun a t ht =>
    Run.andThen_state (P := MergeWrites s) (ht.trans (extractMin_writes t).merge) fun b u hu =>
      hu.trans (mergeNode_writes a b u)

theorem mergeAll_writes (fuel : Nat) (s : State) : MergeWrites s (mergeAll fuel s).state := by
  induction fuel generalizing s with
  | zero => exact rfl
  | succ fuel ih =>
    rw [mergeAll]
    split_ifs
    · exact Run.andThen_state (P := MergeWrites s) (mrg_writes s) fun _ t ht => ht.trans (ih t)
    · exact rfl

theorem placeLeaves_writes (bs : List Byte) (n : Nat) (s : State) : MergeWrites s (placeLeaves bs n s).2 := by
  induction bs generalizing n s with
  | nil => exact rfl
  | cons b bs ih =>
    rw [placeLeaves]
    split_ifs
    · exact ih n s
    · refine MergeWrites.trans (t := placeLeaf s n b) ?_ (ih (n + 1) _)
      simp [MergeWrites, State.sansMerge, State.sansHeap, placeLeaf]

theorem leaves_writes (s : State) : BuildWrites s (leaves s).state := by
  have h := (placeLeaves_writes alphabet 0 ((s.setNode (clearNodeV s.node)).setOwn [])).build
  simp only [BuildWrites, State.sansBuild, State.sansMerge, State.sansHeap, State.mk.injEq] at h
  simpa [leaves, BuildWrites, State.sansBuild, State.sansMerge, State.sansHeap] using h

theorem hbld_writes (s : State) : ∃ heap, hbld s = .ok () (s.setHeap heap) := by
  unfold hbld
  split_ifs
  · exact ⟨_, rfl⟩
  · exact ⟨s.heap, rfl⟩

theorem hbld_heapWrites (s : State) : HeapWrites s (hbld s).state := by
  obtain ⟨heap, h⟩ := hbld_writes s
  rw [h]
  rfl

theorem tbld_writes (s : State) : BuildWrites s (tbld s).state :=
  Run.andThen_state (P := BuildWrites s) (leaves_writes s) fun _ t ht =>
    Run.andThen_state (P := BuildWrites s) (ht.trans (hbld_heapWrites t).merge.build) fun _ u hu =>
      Run.andThen_state (P := BuildWrites s) (hu.trans (mergeAll_writes _ u).build) fun _ v hv =>
        Run.andThen_state (P := BuildWrites s) (hv.trans (extractMin_writes v).merge.build) fun _ _ hw =>
          hw.trans rfl

/-! ## What the other commands write -/

theorem fcnt_writes (s : State) : ∃ ft, (fcnt s).state = s.setFt ft := by
  unfold fcnt
  split_ifs
  · exact ⟨s.ft, rfl⟩
  · exact ⟨_, rfl⟩

theorem hins_writes (h : Handle) (s : State) :
    ∃ heap own hsize, (hins h s).state = { s with heap := heap, own := own, hsize := hsize } := by
  unfold hins
  split_ifs <;> exact ⟨_, _, _, rfl⟩

theorem hext_writes (s : State) : HeapWrites s (hext s).state :=
  Run.andThen_state (P := HeapWrites s) (extractMin_writes s) fun _ _ ht => ht

theorem tchk_writes (s : State) : (tchk s).state = s.setTv (treeCheck s.node s.root) := by
  unfold tchk
  split_ifs with h
  · rw [h]; rfl
  · rw [Bool.not_eq_true] at h
    rw [h]; rfl

theorem ensureTree_writes (s : State) : (ensureTree s).state = s.setTv (s.tv || treeCheck s.node s.root) := by
  unfold ensureTree
  split_ifs with h
  · rw [h, Bool.true_or, Run.state_ok, ← h]
    rfl
  · rw [Bool.not_eq_true] at h
    rw [h, Bool.false_or]
    exact tchk_writes s

theorem cgen_writes (s : State) :
    ∃ ct, (cgen s).state = { s with ct := ct, tv := s.tv || treeCheck s.node s.root } := by
  refine Run.andThen_state (P := fun t => ∃ ct, t = { s with ct := ct, tv := s.tv || treeCheck s.node s.root }) ?_ ?_
  · exact ⟨_, ensureTree_writes (s.setCt (clearCtV s.ct))⟩
  · rintro _ _ ⟨ct, rfl⟩
    exact ⟨_, rfl⟩

theorem pack_writes (s : State) : ∃ bit n, (pack s).state = { s with bit := bit, bitcnt := n } := by
  unfold pack
  split_ifs
  · exact ⟨_, _, rfl⟩
  · split <;> exact ⟨_, _, rfl⟩

theorem unpk_writes (s : State) :
    ∃ out n, (unpk s).state = { s with tv := s.tv || treeCheck s.node s.root, out := out, outcnt := n } := by
  refine Run.andThen_state
    (P := fun t => ∃ out n, t = { s with tv := s.tv || treeCheck s.node s.root, out := out, outcnt := n }) ?_ ?_
  · exact ⟨_, _, ensureTree_writes (s.setOutcnt 0)⟩
  · rintro _ _ ⟨out, n, rfl⟩
    dsimp only
    split_ifs
    · exact ⟨_, _, rfl⟩
    · split
      · exact ⟨_, _, rfl⟩
      · split_ifs <;> exact ⟨_, _, rfl⟩

theorem dec_writes (s : State) :
    ∃ out n, (dec s).state = { s with tv := s.tv || treeCheck s.node s.root, out := out, outcnt := n } := by
  refine Run.andThen_state
    (P := fun t => ∃ out n, t = { s with tv := s.tv || treeCheck s.node s.root, out := out, outcnt := n }) ?_ ?_
  · exact ⟨_, _, ensureTree_writes (s.setOutcnt 0)⟩
  · rintro _ _ ⟨out, n, rfl⟩
    dsimp only
    split_ifs
    · exact ⟨_, _, rfl⟩
    · split
      · exact ⟨_, _, rfl⟩
      · split_ifs <;> exact ⟨_, _, rfl⟩

theorem enc_writes (s : State) : EncWrites s (enc s).state := by
  unfold enc
  split_ifs
  · exact rfl
  · refine Run.andThen_state (P := EncWrites s) ?_ fun _ t ht => ?_
    · obtain ⟨ft, h⟩ := fcnt_writes s
      rw [h]; rfl
    refine Run.andThen_state (P := EncWrites s) (ht.trans (tbld_writes t).enc) fun _ u hu => ?_
    refine Run.andThen_state (P := EncWrites s) (hu.trans ?_) fun _ v hv => hv.trans ?_
    · obtain ⟨ct, h⟩ := cgen_writes u
      rw [h]; rfl
    · obtain ⟨bit, n, h⟩ := pack_writes v
      rw [h]; rfl

/-! ## The frame of every command -/

/-- What `i` leaves as it was, when it takes `s` to `t`: every piece of state that does not list `i` among its writers
(R22, R62), STATUS.ERR and PH apart. -/
structure Frame (i : Instr) (s t : State) : Prop where
  cfg : t.cfg = s.cfg
  port : t.port = s.port
  sym : t.sym = s.sym
  symcnt : i ∉ [.rst] → t.symcnt = s.symcnt
  bitcnt : i ∉ [.pack, .enc, .rst] → t.bitcnt = s.bitcnt
  outcnt : i ∉ [.unpk, .dec, .rst] → t.outcnt = s.outcnt
  root : i ∉ [.tbld, .enc, .leaves, .rst] → t.root = s.root
  ncnt : i ∉ [.leaves, .mrg, .tbld, .enc, .rst] → t.ncnt = s.ncnt
  ndist_hcap : i ∉ [.leaves, .tbld, .enc, .rst] → t.ndist = s.ndist ∧ t.hcap = s.hcap
  hsize_own : i ∉ [.leaves, .hext, .mrg, .tbld, .enc, .rst] → (∀ h, i ≠ .hins h) → t.hsize = s.hsize ∧ t.own = s.own
  res : i ∉ [.hext, .mrg, .tbld, .enc, .leaves, .rst] → t.res = s.res
  ft : i ∉ [.fcnt, .enc] → t.ft = s.ft
  node : i ∉ [.leaves, .mrg, .tbld, .enc, .rst] → t.node = s.node
  heap : i ∉ [.leaves, .hbld, .hext, .mrg, .tbld, .enc] → (∀ h, i ≠ .hins h) → t.heap = s.heap
  ct : i ∉ [.cgen, .enc, .rst] → t.ct = s.ct
  bit : i ∉ [.pack, .enc] → t.bit = s.bit
  out : i ∉ [.unpk, .dec] → t.out = s.out
  tv : i ∉ [.leaves, .tbld, .tchk, .cgen, .unpk, .dec, .enc, .rst] → t.tv = s.tv

/-- The frame of a command, with STATUS.ERR and PH, which its course does not write before it raises. -/
structure CourseFrame (i : Instr) (s t : State) : Prop where
  data : Frame i s t
  err : i ∉ [.clre, .rst] → t.err = s.err
  ph : t.ph = s.ph

/-- Where a command's course ends, what the command does not write is as it was. -/
theorem body_frame (i : Instr) (s : State) : CourseFrame i s (body i s).state := by
  cases i with
  | nop => exact ⟨by constructor <;> simp [body], by simp [body], by simp [body]⟩
  | fcnt =>
    obtain ⟨ft, h⟩ := fcnt_writes s
    exact ⟨by constructor <;> simp [body, h], by simp [body, h], by simp [body, h]⟩
  | leaves =>
    have h := leaves_writes s
    simp only [BuildWrites, State.sansBuild, State.sansMerge, State.sansHeap, State.mk.injEq] at h
    exact ⟨by constructor <;> simp [body, h], by simp [body, h], by simp [body, h]⟩
  | hbld =>
    obtain ⟨heap, h⟩ := hbld_writes s
    exact ⟨by constructor <;> simp [body, h], by simp [body, h], by simp [body, h]⟩
  | hins arg =>
    obtain ⟨_, _, _, h⟩ := hins_writes arg s
    exact ⟨by constructor <;> simp [body, h], by simp [body, h], by simp [body, h]⟩
  | hext =>
    have h := hext_writes s
    simp only [HeapWrites, State.sansHeap, State.mk.injEq] at h
    exact ⟨by constructor <;> simp [body, h], by simp [body, h], by simp [body, h]⟩
  | mrg =>
    have h := mrg_writes s
    simp only [MergeWrites, State.sansMerge, State.sansHeap, State.mk.injEq] at h
    exact ⟨by constructor <;> simp [body, h], by simp [body, h], by simp [body, h]⟩
  | tbld =>
    have h := tbld_writes s
    simp only [BuildWrites, State.sansBuild, State.sansMerge, State.sansHeap, State.mk.injEq] at h
    exact ⟨by constructor <;> simp [body, h], by simp [body, h], by simp [body, h]⟩
  | tchk =>
    have h := tchk_writes s
    exact ⟨by constructor <;> simp [body, h], by simp [body, h], by simp [body, h]⟩
  | cgen =>
    obtain ⟨_, h⟩ := cgen_writes s
    exact ⟨by constructor <;> simp [body, h], by simp [body, h], by simp [body, h]⟩
  | pack =>
    obtain ⟨_, _, h⟩ := pack_writes s
    exact ⟨by constructor <;> simp [body, h], by simp [body, h], by simp [body, h]⟩
  | unpk =>
    obtain ⟨_, _, h⟩ := unpk_writes s
    exact ⟨by constructor <;> simp [body, h], by simp [body, h], by simp [body, h]⟩
  | enc =>
    have h := enc_writes s
    simp only [EncWrites, State.sansEnc, State.sansBuild, State.sansMerge, State.sansHeap, State.mk.injEq] at h
    exact ⟨by constructor <;> simp [body, h], by simp [body, h], by simp [body, h]⟩
  | dec =>
    obtain ⟨_, _, h⟩ := dec_writes s
    exact ⟨by constructor <;> simp [body, h], by simp [body, h], by simp [body, h]⟩
  | clre =>
    obtain ⟨-, h⟩ | ⟨-, h⟩ := s.clearError_cases <;> exact ⟨by constructor <;> simp [body, h], by simp [body, h], by simp [body, h]⟩
  | rst => exact ⟨by constructor <;> simp [body], by simp [body], by simp [body]⟩

/-! ## Which errors a command raises -/

theorem fcnt_raises {s t : State} {e : ErrorCode} (h : fcnt s = .raised e t) : e = .capacity := by
  unfold fcnt at h
  split_ifs at h
  cases h; rfl

theorem hins_raises {g : Handle} {s t : State} {e : ErrorCode} (h : hins g s = .raised e t) :
    e = .operand ∨ e = .capacity := by
  unfold hins at h
  split_ifs at h
  · cases h; exact .inl rfl
  · cases h; exact .inr rfl

theorem extractMin_raises {s t : State} {e : ErrorCode} (h : extractMin s = .raised e t) : e = .emptyHeap := by
  obtain ⟨-, h'⟩ | ⟨-, hp, -, h'⟩ := extractMin_cases s <;> rw [h'] at h <;> cases h
  rfl

/-- ExtractMin raises on an empty heap only (R127, R212). -/
theorem hsize_of_extractMin_raised {s t : State} {e : ErrorCode} (h : extractMin s = .raised e t) : s.hsize = 0#9 := by
  obtain ⟨h0, -⟩ | ⟨-, hp, -, h'⟩ := extractMin_cases s
  · exact h0
  · exact nomatch h'.symm.trans h

theorem hext_raises {s t : State} {e : ErrorCode} (h : hext s = .raised e t) : e = .emptyHeap := by
  obtain h | ⟨_, _, -, h⟩ := Run.andThen_eq_raised.1 h
  · exact extractMin_raises h
  · cases h

theorem mrg_raises {s t : State} {e : ErrorCode} (h : mrg s = .raised e t) : e = .emptyHeap := by
  obtain ⟨u, -, h'⟩ | ⟨_, _, u, -, -, h'⟩ | ⟨_, _, _, _, -, -, h'⟩ := mrg_cases s <;> rw [h'] at h <;> cases h <;> rfl

theorem mergeAll_raises (fuel : Nat) {s t : State} {e : ErrorCode} (h : mergeAll fuel s = .raised e t) :
    e = .emptyHeap := by
  induction fuel generalizing s with
  | zero => cases h
  | succ fuel ih =>
    rw [mergeAll] at h
    split_ifs at h
    obtain h | ⟨_, _, -, h⟩ := Run.andThen_eq_raised.1 h
    · exact mrg_raises h
    · exact ih h

theorem tbld_raises {s t : State} {e : ErrorCode} (h : tbld s = .raised e t) : e = .emptyHeap := by
  obtain h | ⟨_, s1, -, h⟩ := Run.andThen_eq_raised.1 h
  · cases h
  obtain h | ⟨_, s2, -, h⟩ := Run.andThen_eq_raised.1 h
  · obtain ⟨heap, h'⟩ := hbld_writes s1
    rw [h'] at h; cases h
  obtain h | ⟨_, s3, -, h⟩ := Run.andThen_eq_raised.1 h
  · exact mergeAll_raises _ h
  obtain h | ⟨_, s4, -, h⟩ := Run.andThen_eq_raised.1 h
  · exact extractMin_raises h
  · cases h

theorem tchk_raises {s t : State} {e : ErrorCode} (h : tchk s = .raised e t) : e = .malformedTree := by
  unfold tchk at h
  split_ifs at h
  cases h; rfl

theorem ensureTree_raises {s t : State} {e : ErrorCode} (h : ensureTree s = .raised e t) : e = .malformedTree := by
  unfold ensureTree at h
  split_ifs at h
  exact tchk_raises h

theorem cgen_raises {s t : State} {e : ErrorCode} (h : cgen s = .raised e t) : e = .malformedTree := by
  obtain h | ⟨_, _, -, h⟩ := Run.andThen_eq_raised.1 h
  · exact ensureTree_raises h
  · cases h

theorem packSymbols_raises (c : Config) (sym : Mem Byte) (ct : Mem CodeRec) (m k pos : Nat) (bit : Mem Byte)
    {e : ErrorCode} (h : (packSymbols c sym ct m k pos bit).2 = .error e) : e = .noCode ∨ e = .capacity := by
  induction m generalizing k pos bit with
  | zero => cases h
  | succ m ih =>
    simp only [packSymbols] at h
    split_ifs at h
    · cases h; exact .inl rfl
    · cases h; exact .inr rfl
    · exact ih _ _ _ h

theorem pack_raises {s t : State} {e : ErrorCode} (h : pack s = .raised e t) : e = .noCode ∨ e = .capacity := by
  unfold pack at h
  split_ifs at h
  · cases h; exact .inr rfl
  · split at h
    · cases h
    · next bit e' heq =>
      cases h
      exact packSymbols_raises s.cfg s.sym s.ct s.symcnt 0 0 s.bit (congrArg Prod.snd heq)

theorem walkBit_raises {node : Mem NodeRec} {single : Bool} {cur : Handle} {b : Bool} {e : ErrorCode}
    (h : walkBit node single cur b = .error e) : e = .invalidCode := by
  unfold walkBit at h
  split_ifs at h
  cases h; rfl

theorem unpackBits_raises (c : Config) (node : Mem NodeRec) (bit : Mem Byte) (root : Handle) (single : Bool)
    (n pos : Nat) (cur : Handle) (cnt : Nat) (out : Mem Byte) {e : ErrorCode}
    (h : (unpackBits c node bit root single n pos cur cnt out).2 = .error e) : e = .invalidCode ∨ e = .capacity := by
  induction n generalizing pos cur cnt out with
  | zero => cases h
  | succ n ih =>
    rw [unpackBits] at h
    split at h
    · next heq => cases h; exact .inl (walkBit_raises heq)
    · split at h
      · exact ih _ _ _ _ h
      · split_ifs at h
        · cases h; exact .inr rfl
        · exact ih _ _ _ _ h

theorem unpk_raises {s t : State} {e : ErrorCode} (h : unpk s = .raised e t) : raisedBy e .unpk = true := by
  obtain h | ⟨_, u, -, h⟩ := Run.andThen_eq_raised.1 h
  · rw [ensureTree_raises h]; rfl
  · split_ifs at h
    · cases h; rfl
    · split at h
      · next out e' heq =>
        cases h
        obtain rfl | rfl := unpackBits_raises _ _ _ _ _ _ _ _ _ _ (congrArg Prod.snd heq) <;> rfl
      · split_ifs at h
        cases h; rfl

theorem decodeSymbol_raises (node : Mem NodeRec) (bit : Mem Byte) (single : Bool) (left pos : Nat) (cur : Handle)
    {e : ErrorCode} (h : decodeSymbol node bit single left pos cur = .error e) :
    e = .invalidCode ∨ e = .truncatedStream := by
  induction left generalizing pos cur with
  | zero => cases h; exact .inr rfl
  | succ left ih =>
    rw [decodeSymbol] at h
    split at h
    · next heq => cases h; exact .inl (walkBit_raises heq)
    · split at h
      · cases h
      · exact ih _ _ h

theorem decodeSymbols_raises (cap : Nat) (node : Mem NodeRec) (bit : Mem Byte) (root : Handle) (single : Bool)
    (m left pos cnt : Nat) (out : Mem Byte) {e : ErrorCode}
    (h : (decodeSymbols cap node bit root single m left pos cnt out).2 = .error e) :
    e = .invalidCode ∨ e = .truncatedStream := by
  induction m generalizing left pos cnt out with
  | zero => cases h
  | succ m ih =>
    rw [decodeSymbols] at h
    split at h
    · next heq => cases h; exact decodeSymbol_raises _ _ _ _ _ _ heq
    · exact ih _ _ _ _ h

theorem dec_raises {s t : State} {e : ErrorCode} (h : dec s = .raised e t) : raisedBy e .dec = true := by
  obtain h | ⟨_, u, -, h⟩ := Run.andThen_eq_raised.1 h
  · rw [ensureTree_raises h]; rfl
  · split_ifs at h
    · cases h; rfl
    · split at h
      · next out e' heq =>
        cases h
        obtain rfl | rfl := decodeSymbols_raises _ _ _ _ _ _ _ _ _ _ (congrArg Prod.snd heq) <;> rfl
      · split_ifs at h
        cases h; rfl

/-- A command other than ENC raises only errors that R210 gives it. -/
theorem body_raises {i : Instr} {s t : State} {e : ErrorCode} (hi : i ≠ .enc) (h : body i s = .raised e t) :
    raisedBy e i = true := by
  cases i with
  | nop | leaves | clre | rst => cases h
  | enc => exact absurd rfl hi
  | fcnt => rw [fcnt_raises h]; rfl
  | hbld => obtain ⟨heap, h'⟩ := hbld_writes s; exact nomatch h'.symm.trans h
  | hins arg => obtain rfl | rfl := hins_raises h <;> rfl
  | hext => rw [hext_raises h]; rfl
  | mrg => rw [mrg_raises h]; rfl
  | tbld => rw [tbld_raises h]; rfl
  | tchk => rw [tchk_raises h]; rfl
  | cgen => rw [cgen_raises h]; rfl
  | pack => obtain rfl | rfl := pack_raises h <;> rfl
  | unpk => exact unpk_raises h
  | dec => exact dec_raises h

end Sys2Proof.Machine
end

section
/-! The engine's invariants in two parts, the forest of the allocated nodes and the heap and ownership bits over it, and
that the heap commands keep them (spec/10_state.md R46; spec/40_heap.md R125 to R127). -/

namespace Sys2Proof.Machine

/-! ## Nine-bit counters and the handles allocated -/

theorem toNat_add_one {n : BitVec 9} (h : n.toNat < nodeCap) : (n + 1#9).toNat = n.toNat + 1 := by
  simp only [nodeCap] at h
  simp only [BitVec.toNat_add, BitVec.toNat_ofNat]
  omega

theorem toNat_sub_one {n : BitVec 9} (h : n ≠ 0#9) : (n - 1#9).toNat + 1 = n.toNat := by
  have hlt := n.isLt
  have hne : n.toNat ≠ 0 := fun h0 => h (BitVec.eq_of_toNat_eq h0)
  simp only [BitVec.toNat_sub, BitVec.toNat_ofNat]
  omega

theorem ne_null_of_lt {g n : Handle} (h : g < n) : g ≠ null := by
  rintro rfl
  have hn := n.isLt
  simp only [BitVec.lt_def, null, BitVec.toNat_ofNat] at h
  omega

namespace State

variable {s t : State} {g h : Handle}

@[simp] theorem mem_handles : h ∈ s.handles ↔ h < s.ncnt := by
  simp only [handles, List.mem_map, List.mem_range, BitVec.lt_def]
  constructor
  · rintro ⟨i, hi, rfl⟩
    have hn := s.ncnt.isLt
    rw [BitVec.toNat_ofNat, Nat.mod_eq_of_lt (by omega)]
    exact hi
  · exact fun hlt => ⟨h.toNat, hlt, by simp⟩

theorem handles_length (s : State) : s.handles.length = s.ncnt.toNat := by simp [handles]

theorem handles_nodup (s : State) : s.handles.Nodup := by
  refine List.Nodup.map_on (fun i hi j hj hij => ?_) List.nodup_range
  have hn := s.ncnt.isLt
  rw [List.mem_range] at hi hj
  have := congrArg BitVec.toNat hij
  simp only [BitVec.toNat_ofNat] at this
  omega

theorem handles_succ (hn : t.ncnt.toNat = s.ncnt.toNat + 1) : t.handles = s.handles ++ [s.ncnt] := by
  simp [handles, hn, List.range_succ]

theorem heapList_length (s : State) : s.heapList.length = s.hsize.toNat := by simp [heapList]

end State

theorem isParent_iff {node : Mem NodeRec} {p h : Handle} :
    isParent node p h = true ↔
      (nodeAt node p).k = .internal ∧ ((nodeAt node p).left = h ∨ (nodeAt node p).right = h) := by
  simp [isParent]

namespace State

variable {s t : State} {g h : Handle}

theorem hasParent_iff : s.hasParent h = true ↔ ∃ p, p < s.ncnt ∧ isParent s.node p h = true := by
  simp [hasParent]

theorem mem_roots : h ∈ s.roots ↔ h < s.ncnt ∧ s.hasParent h = false := by simp [roots]

theorem mem_internals : h ∈ s.internals ↔ h < s.ncnt ∧ (nodeAt s.node h).k = .internal := by simp [internals]

theorem roots_nodup (s : State) : s.roots.Nodup := s.handles_nodup.filter _

theorem internals_nodup (s : State) : s.internals.Nodup := s.handles_nodup.filter _

end State

/-! ## The heap's contents after the heap operations -/

/-- HBLD permutes the heap (R125). -/
theorem heapList_hbld (s : State) : (hbld s).state.heapList.Perm s.heapList := by
  unfold hbld
  split_ifs
  · exact (siftAll_spec _ _ (hsize_le_nodeCap s) _ _).1
  · exact .refl _

/-- Insert adds its handle to the heap (R126). -/
theorem heapList_insert (s : State) (h : Handle) (hs : s.hsize.toNat < nodeCap) :
    (insert s h).heapList.Perm (h :: s.heapList) := by
  have hput : (List.range s.hsize.toNat).map (heapAt (putHeap s.heap s.hsize.toNat h)) = s.heapList := by
    refine List.map_congr_left fun k hk => ?_
    rw [List.mem_range] at hk
    rw [heapAt_putHeap, if_neg (by omega)]
  have hlast : heapAt (putHeap s.heap s.hsize.toNat h) s.hsize.toNat = h := by simp [heapAt_putHeap, hs]
  have hsift := (siftUp_spec s.node (s.hsize.toNat + 1) hs s.hsize.toNat s.hsize.toNat (Nat.lt_succ_self _)
    (putHeap s.heap s.hsize.toNat h)).1
  rw [State.heapList, State.insert_hsize, toNat_add_one hs, State.insert_heap]
  refine hsift.trans ?_
  rw [List.range_succ, List.map_append, hput, List.map_singleton, hlast]
  exact List.perm_append_singleton h s.heapList

/-- The elements of a heap of `n + 1` positions after its last one is moved to the root: all but the old root. -/
theorem moveLast_perm (hp : Mem Handle) (n : Nat) :
    (heapAt hp 0 :: (List.range n).map (heapAt (putHeap hp 0 (heapAt hp n)))).Perm
      ((List.range (n + 1)).map (heapAt hp)) := by
  cases n with
  | zero => exact .refl _
  | succ m =>
    have hroot : heapAt (putHeap hp 0 (heapAt hp (m + 1))) 0 = heapAt hp (m + 1) := by simp [heapAt_putHeap, nodeCap]
    have hrest : (fun k => heapAt (putHeap hp 0 (heapAt hp (m + 1))) (k + 1)) = fun k => heapAt hp (k + 1) := by
      funext k
      simp [heapAt_putHeap]
    rw [List.range_succ_eq_map, List.range_succ_eq_map (n := m + 1), List.range_succ]
    simp only [List.map_cons, List.map_append, List.map_nil, List.map_map, Function.comp_def, Nat.succ_eq_add_one,
      hroot, hrest]
    exact (List.perm_append_singleton _ _).symm.cons _

/-- What ExtractMin does to the heap and the ownership bits when it returns `h` (R127). -/
theorem extractMin_spec {s t : State} {h : Handle} (he : extractMin s = .ok h t) :
    s.heapList.Perm (h :: t.heapList) ∧ t.hsize.toNat + 1 = s.hsize.toNat ∧
      ∀ g, ownAt t.own g = if g = h ∧ h ≠ null then false else ownAt s.own g := by
  obtain ⟨-, h1⟩ | ⟨h0, hp, hhp, h1⟩ := extractMin_cases s
  · exact nomatch h1.symm.trans he
  · obtain ⟨rfl, rfl⟩ := Run.ok.inj (h1.symm.trans he)
    have hlen : (s.hsize - 1#9).toNat + 1 = s.hsize.toNat := toNat_sub_one h0
    have hn : s.hsize.toNat - 1 = (s.hsize - 1#9).toNat := by omega
    refine ⟨?_, hlen, fun g => ownAt_putOwn _ _ _ _⟩
    rw [hn] at hhp
    have hle : (s.hsize - 1#9).toNat ≤ nodeCap := by have := hsize_le_nodeCap s; omega
    have hsift := (siftDown_spec s.node _ hle (s.hsize - 1#9).toNat 0
      (putHeap s.heap 0 (heapAt s.heap (s.hsize - 1#9).toNat))).1
    rw [← hhp] at hsift
    have hmove := moveLast_perm s.heap (s.hsize - 1#9).toNat
    rw [hlen] at hmove
    exact hmove.symm.trans (hsift.symm.cons _)

/-! ## The forest of the allocated nodes -/

/-- The states agree on the allocated nodes: NODE, NCNT, NDIST, HCAP and the parameters. -/
structure SameForest (s t : State) : Prop where
  cfg : t.cfg = s.cfg
  node : t.node = s.node
  ncnt : t.ncnt = s.ncnt
  ndist : t.ndist = s.ndist
  hcap : t.hcap = s.hcap

theorem HeapWrites.sameForest {s t : State} (h : HeapWrites s t) : SameForest s t := by
  have h : t.sansHeap = s.sansHeap := h
  exact ⟨(congrArg State.cfg h :), (congrArg State.node h :), (congrArg State.ncnt h :), (congrArg State.ndist h :),
    (congrArg State.hcap h :)⟩

namespace SameForest

variable {s t : State} (h : SameForest s t)
include h

theorem handles : t.handles = s.handles := by simp [State.handles, h.ncnt]
theorem hasParent : t.hasParent = s.hasParent := by funext g; simp [State.hasParent, h.handles, h.node]
theorem roots : t.roots = s.roots := by simp [State.roots, h.handles, h.hasParent]
theorem internals : t.internals = s.internals := by simp [State.internals, h.handles, h.node]

end SameForest

/-- The part of `EngineInv` that speaks of the nodes alone: (I1), (I3), (I5), and of (I4) the counts. -/
structure ForestInv (s : State) : Prop where
  valid : ∀ h ∈ s.handles, (nodeAt s.node h).v = true
  leafShape : ∀ h ∈ s.handles, (nodeAt s.node h).k = .leaf →
    (nodeAt s.node h).left = null ∧ (nodeAt s.node h).right = null
  internalShape : ∀ h ∈ s.internals, (nodeAt s.node h).sym = 0#8
  children : ∀ h ∈ s.internals,
    (nodeAt s.node h).left < h ∧ (nodeAt s.node h).right < h ∧ (nodeAt s.node h).left ≠ (nodeAt s.node h).right ∧
    (nodeAt s.node h).freq = freqOf s.node (nodeAt s.node h).left + freqOf s.node (nodeAt s.node h).right
  oneParent : ∀ p ∈ s.handles, ∀ q ∈ s.handles, ∀ h, isParent s.node p h = true → isParent s.node q h = true → p = q
  rootCount : s.roots.length + s.internals.length = s.ndist.toNat
  hcap : 1 ≤ s.ndist.toNat → s.hcap.toNat = 2 * s.ndist.toNat - 1
  frequencies : (s.roots.map (freqOf s.node)).sum ≤ s.ndist.toNat * (2 ^ s.cfg.freqBits - 1)
  distinct : s.ndist.toNat ≤ nSym

/-- The part of `EngineInv` that speaks of the heap and the ownership bits: (I2), and of (I4) who is parentless. -/
structure QueueInv (s : State) : Prop where
  heapFits : s.hsize ≤ s.hcap
  heapAllocated : ∀ h ∈ s.heapList, h < s.ncnt ∧ ownAt s.own h = true
  heapDistinct : s.heapList.Nodup
  parentless : ∀ h, h < s.ncnt → (s.hasParent h = false ↔ (h ∈ s.heapList ∨ ownAt s.own h = false))

theorem ForestInv.congr {s t : State} (h : SameForest s t) (hs : ForestInv s) : ForestInv t where
  valid := by simpa only [h.handles, h.node] using hs.valid
  leafShape := by simpa only [h.handles, h.node] using hs.leafShape
  internalShape := by simpa only [h.internals, h.node] using hs.internalShape
  children := by simpa only [h.internals, h.node] using hs.children
  oneParent := by simpa only [h.handles, h.node] using hs.oneParent
  rootCount := by simpa only [h.roots, h.internals, h.ndist] using hs.rootCount
  hcap := by simpa only [h.hcap, h.ndist] using hs.hcap
  frequencies := by simpa only [h.roots, h.node, h.ndist, h.cfg] using hs.frequencies
  distinct := by simpa only [h.ndist] using hs.distinct

namespace ForestInv

variable {s : State} (hs : ForestInv s)
include hs

/-- A child of an allocated internal node is allocated before it. -/
theorem lt_of_isParent {p h : Handle} (hp : p < s.ncnt) (h' : isParent s.node p h = true) : h < p := by
  obtain ⟨hk, hc⟩ := isParent_iff.1 h'
  obtain ⟨hl, hr, -⟩ := hs.children p (State.mem_internals.2 ⟨hp, hk⟩)
  obtain rfl | rfl := hc
  · exact hl
  · exact hr

/-- No node is a child of itself or of an older one: the node allocated next has no parent. -/
theorem hasParent_ncnt : s.hasParent s.ncnt = false := by
  rw [← Bool.not_eq_true, State.hasParent_iff]
  rintro ⟨p, hp, h⟩
  exact absurd (BitVec.lt_trans (hs.lt_of_isParent hp h) hp) (BitVec.lt_irrefl _)

/-- Every node that is no root is one of the two children of an internal one, so NCNT + roots ≤ 2 · NDIST. -/
theorem ncnt_add_roots_le : s.ncnt.toNat + s.roots.length ≤ 2 * s.ndist.toNat := by
  have hsplit : s.ncnt.toNat = (s.handles.filter s.hasParent).length + s.roots.length := by
    rw [← s.handles_length, List.length_eq_length_filter_add s.hasParent, State.roots]
  have hsub : (s.handles.filter s.hasParent) ⊆
      s.internals.flatMap fun p => [(nodeAt s.node p).left, (nodeAt s.node p).right] := by
    intro h hh
    obtain ⟨p, hp, hpar⟩ := State.hasParent_iff.1 (List.mem_filter.1 hh).2
    obtain ⟨hk, hc⟩ := isParent_iff.1 hpar
    exact List.mem_flatMap.2 ⟨p, State.mem_internals.2 ⟨hp, hk⟩, by simpa [eq_comm] using hc⟩
  have hle := ((s.handles_nodup.filter s.hasParent).subperm hsub).length_le
  have hlen : (s.internals.flatMap fun p => [(nodeAt s.node p).left, (nodeAt s.node p).right]).length =
      2 * s.internals.length := by simp [List.length_flatMap, Nat.mul_comm]
  have := hs.rootCount
  omega

/-- While a node is allocated, so is a root: the newest node has no parent. -/
theorem roots_pos (hn : s.ncnt ≠ 0#9) : 0 < s.roots.length := by
  have hlast := toNat_sub_one hn
  have hlt : s.ncnt - 1#9 < s.ncnt := by rw [BitVec.lt_def]; omega
  refine List.length_pos_of_mem (State.mem_roots.2 ⟨hlt, ?_⟩)
  rw [← Bool.not_eq_true, State.hasParent_iff]
  rintro ⟨p, hp, h⟩
  have := hs.lt_of_isParent hp h
  rw [BitVec.lt_def] at this hp
  omega

end ForestInv

namespace QueueInv

variable {s : State} (hq : QueueInv s)
include hq

/-- The heap holds distinct allocated nodes, so HSIZE ≤ NCNT (I6). -/
theorem heapSize : s.hsize ≤ s.ncnt := by
  have hsub : s.heapList ⊆ s.handles := fun h hh => State.mem_handles.2 (hq.heapAllocated h hh).1
  have := (hq.heapDistinct.subperm hsub).length_le
  rw [s.heapList_length, s.handles_length] at this
  exact this

theorem not_mem_heapList {h : Handle} (hown : ownAt s.own h = false) : h ∉ s.heapList :=
  fun hh => absurd (hq.heapAllocated h hh).2 (by simp [hown])

/-- A child of an allocated node is owned and not in the heap (I3). -/
theorem owned_of_isParent {p h : Handle} (hp : p < s.ncnt) (hh : h < s.ncnt) (h' : isParent s.node p h = true) :
    ownAt s.own h = true ∧ h ∉ s.heapList := by
  have hpar : ¬ s.hasParent h = false := by
    rw [Bool.not_eq_false]
    exact State.hasParent_iff.2 ⟨p, hp, h'⟩
  rw [hq.parentless h hh, not_or, Bool.not_eq_false] at hpar
  exact hpar.symm

end QueueInv

theorem engineInv_iff (s : State) : EngineInv s ↔ ForestInv s ∧ QueueInv s := by
  constructor
  · intro h
    exact ⟨⟨h.valid, h.leafShape, h.internalShape,
      fun p hp => by obtain ⟨hl, hr, hne, -, -, -, -, hf⟩ := h.children p hp; exact ⟨hl, hr, hne, hf⟩,
      h.oneParent, h.rootCount, fun hn => (h.capacity hn).2, h.frequencies, h.distinct⟩,
      ⟨h.heapFits, fun g hg => by simpa using h.heapAllocated g hg, h.heapDistinct,
      fun g hg => h.parentless g (State.mem_handles.2 hg)⟩⟩
  · rintro ⟨hf, hq⟩
    have hcount := hf.ncnt_add_roots_le
    have hpos : s.ncnt ≠ 0#9 → 0 < s.roots.length := hf.roots_pos
    have hzero : s.ncnt.toNat = 0 → s.ncnt = 0#9 := fun h => BitVec.eq_of_toNat_eq h
    refine ⟨hf.valid, hf.leafShape, hf.internalShape, hq.heapFits,
      fun g hg => by simpa using hq.heapAllocated g hg, hq.heapDistinct, fun p hp => ?_, hf.oneParent,
      fun g hg => hq.parentless g (State.mem_handles.1 hg), hf.rootCount, fun hn => ⟨?_, hf.hcap hn⟩, fun hn => ?_,
      hf.frequencies, hf.distinct, hq.heapSize⟩
    · obtain ⟨hl, hr, hne, hfreq⟩ := hf.children p hp
      obtain ⟨hpn, hk⟩ := State.mem_internals.1 hp
      obtain ⟨hol, hhl⟩ := hq.owned_of_isParent hpn (BitVec.lt_trans hl hpn) (isParent_iff.2 ⟨hk, .inl rfl⟩)
      obtain ⟨hor, hhr⟩ := hq.owned_of_isParent hpn (BitVec.lt_trans hr hpn) (isParent_iff.2 ⟨hk, .inr rfl⟩)
      exact ⟨hl, hr, hne, hol, hor, hhl, hhr, hfreq⟩
    · by_cases h0 : s.ncnt = 0#9
      · simp [h0]
      · have := hpos h0
        omega
    · rw [hn] at hcount
      exact hzero (by simpa using hcount.trans' (Nat.le_add_right _ _))

/-- Without allocated nodes the invariants hold emptily (R46, after a host write to NODE; R47). -/
theorem EngineInv.of_none {s : State} (hn : s.ncnt = 0#9) (hd : s.ndist = 0#9) (hh : s.hsize = 0#9) : EngineInv s := by
  have hhandles : s.handles = [] := by simp [State.handles, hn]
  have hheap : s.heapList = [] := by simp [State.heapList, hh]
  have hle : 0#9 ≤ s.hcap := BitVec.le_def.2 (Nat.zero_le _)
  constructor <;> simp [State.roots, State.internals, hhandles, hheap, hn, hd, hh, hle]

/-! ## The heap commands keep them -/

section HeapCommands
variable {s t : State}

/-- Taking `h` out of the heap and clearing its ownership bit. -/
theorem QueueInv.extract (hq : QueueInv s) (hw : SameForest s t) {h : Handle}
    (hperm : s.heapList.Perm (h :: t.heapList)) (hsize : t.hsize.toNat + 1 = s.hsize.toNat)
    (hown : ∀ g, ownAt t.own g = if g = h ∧ h ≠ null then false else ownAt s.own g) : QueueInv t := by
  have hmem : ∀ g, g ∈ s.heapList ↔ g = h ∨ g ∈ t.heapList := fun g => by rw [hperm.mem_iff, List.mem_cons]
  obtain ⟨hnot, hnodup⟩ := List.nodup_cons.1 (hperm.nodup_iff.1 hq.heapDistinct)
  have hlt : h < s.ncnt := (hq.heapAllocated h ((hmem h).2 (.inl rfl))).1
  have hown : ∀ g, ownAt t.own g = if g = h then false else ownAt s.own g := by
    simpa [ne_null_of_lt hlt] using hown
  refine ⟨?_, fun g hg => ?_, hnodup, fun g hg => ?_⟩
  · have hfits := hq.heapFits
    rw [hw.hcap]
    rw [BitVec.le_def] at hfits ⊢
    omega
  · have hne : g ≠ h := fun he => hnot (he ▸ hg)
    rw [hw.ncnt, hown, if_neg hne]
    exact hq.heapAllocated g ((hmem g).2 (.inr hg))
  · rw [hw.ncnt] at hg
    rw [hw.hasParent, hq.parentless g hg, hmem, hown]
    by_cases he : g = h
    · simp [he]
    · simp [he]

/-- Putting the unowned node `h` into the heap and owning it. -/
theorem QueueInv.insert (hq : QueueInv s) (hw : SameForest s t) {h : Handle} (hlt : h < s.ncnt)
    (hfree : ownAt s.own h = false) (hperm : t.heapList.Perm (h :: s.heapList)) (hfits : t.hsize ≤ s.hcap)
    (hown : ∀ g, ownAt t.own g = if g = h then true else ownAt s.own g) : QueueInv t := by
  have hmem : ∀ g, g ∈ t.heapList ↔ g = h ∨ g ∈ s.heapList := fun g => by rw [hperm.mem_iff, List.mem_cons]
  refine ⟨hw.hcap ▸ hfits, fun g hg => ?_, hperm.nodup_iff.2 (List.nodup_cons.2 ⟨hq.not_mem_heapList hfree,
    hq.heapDistinct⟩), fun g hg => ?_⟩
  · rw [hw.ncnt, hown]
    by_cases he : g = h
    · simp [he, hlt]
    · simpa [he] using hq.heapAllocated g (((hmem g).1 hg).resolve_left he)
  · rw [hw.ncnt] at hg
    rw [hw.hasParent, hq.parentless g hg, hmem, hown]
    by_cases he : g = h
    · simp [he, hfree]
    · simp [he]

/-- Rearranging the heap. -/
theorem QueueInv.perm (hq : QueueInv s) (hw : SameForest s t) (hperm : t.heapList.Perm s.heapList)
    (hsize : t.hsize = s.hsize) (hown : t.own = s.own) : QueueInv t where
  heapFits := by rw [hsize, hw.hcap]; exact hq.heapFits
  heapAllocated g hg := by rw [hw.ncnt, hown]; exact hq.heapAllocated g (hperm.mem_iff.1 hg)
  heapDistinct := hperm.nodup_iff.2 hq.heapDistinct
  parentless g hg := by
    rw [hw.ncnt] at hg
    rw [hw.hasParent, hown, hperm.mem_iff]
    exact hq.parentless g hg

/-- `EngineInv` speaks of the nodes, the heap and the ownership bits alone. -/
theorem EngineInv.congr (hs : EngineInv s) (hw : SameForest s t) (hheap : t.heap = s.heap) (hsize : t.hsize = s.hsize)
    (hown : t.own = s.own) : EngineInv t := by
  obtain ⟨hf, hq⟩ := (engineInv_iff s).1 hs
  have hlist : t.heapList = s.heapList := by simp [State.heapList, hheap, hsize]
  exact (engineInv_iff t).2 ⟨hf.congr hw, hq.perm hw (.of_eq hlist) hsize hown⟩

theorem extractMin_engineInv (hs : EngineInv s) {h : Handle} (he : extractMin s = .ok h t) :
    EngineInv t ∧ h < s.ncnt ∧ h ∈ s.heapList ∧ h ∉ t.heapList ∧
      (∀ g, ownAt t.own g = if g = h then false else ownAt s.own g) ∧ SameForest s t := by
  obtain ⟨hf, hq⟩ := (engineInv_iff s).1 hs
  have hw : SameForest s t := by
    have := (extractMin_writes s).sameForest
    rwa [he] at this
  obtain ⟨hperm, hsize, hown⟩ := extractMin_spec he
  have hmem : h ∈ s.heapList := hperm.mem_iff.2 List.mem_cons_self
  have hlt : h < s.ncnt := (hq.heapAllocated h hmem).1
  exact ⟨(engineInv_iff t).2 ⟨hf.congr hw, hq.extract hw hperm hsize hown⟩, hlt, hmem,
    (List.nodup_cons.1 (hperm.nodup_iff.1 hq.heapDistinct)).1, by simpa [ne_null_of_lt hlt] using hown, hw⟩

theorem extractMin_state_engineInv (hs : EngineInv s) : EngineInv (extractMin s).state := by
  obtain ⟨-, h⟩ | ⟨-, hp, -, h⟩ := extractMin_cases s
  · rw [h]
    exact hs.congr ⟨rfl, rfl, rfl, rfl, rfl⟩ rfl rfl rfl
  · rw [h]
    exact (extractMin_engineInv hs h).1

theorem hext_engineInv (hs : EngineInv s) : EngineInv (hext s).state :=
  Run.andThen_state (extractMin_state_engineInv hs) fun _ _ ht => ht

theorem hbld_engineInv (hs : EngineInv s) : EngineInv (hbld s).state := by
  obtain ⟨hf, hq⟩ := (engineInv_iff s).1 hs
  have hw := (hbld_heapWrites s).sameForest
  have hperm := heapList_hbld s
  obtain ⟨heap, h⟩ := hbld_writes s
  rw [h] at hw hperm ⊢
  exact (engineInv_iff _).2 ⟨hf.congr hw, hq.perm hw hperm rfl rfl⟩

theorem hins_engineInv (hs : EngineInv s) (h : Handle) : EngineInv (hins h s).state := by
  unfold hins
  split_ifs with hrefuse hfull
  · exact hs
  · exact hs
  · obtain ⟨hf, hq⟩ := (engineInv_iff s).1 hs
    obtain ⟨hlt, hfree⟩ := not_or.1 hrefuse
    rw [BitVec.not_le] at hlt
    have hroom : s.hsize.toNat < s.hcap.toNat :=
      Nat.lt_of_le_of_ne hq.heapFits fun he => hfull (BitVec.eq_of_toNat_eq he)
    have hcap : s.hsize.toNat < nodeCap := Nat.lt_of_lt_of_le hroom (Nat.le_of_lt_succ s.hcap.isLt)
    have hw := (insert_writes s h).sameForest
    refine (engineInv_iff _).2 ⟨hf.congr hw, hq.insert hw hlt (by simpa using hfree) (heapList_insert s h hcap) ?_ ?_⟩
    · rw [Run.state_ok, State.insert_hsize, BitVec.le_def, toNat_add_one hcap]
      exact hroom
    · intro g
      have := ownAt_putOwn s h g true
      simpa [ne_null_of_lt hlt] using this

end HeapCommands

end Sys2Proof.Machine
end

section
/-! MRG keeps the engine's invariants (spec/10_state.md R46; spec/41_tree_builder.md R143, R144). -/

namespace Sys2Proof.Machine

/-- `t` is `s` after MRG's last part (R143): the node allocated next has the children `a` and `b` and is in the heap, and
all three are owned. -/
structure Merged (s t : State) (a b : Handle) : Prop where
  cfg : t.cfg = s.cfg
  ndist : t.ndist = s.ndist
  hcap : t.hcap = s.hcap
  ncnt : t.ncnt.toNat = s.ncnt.toNat + 1
  new : nodeAt t.node s.ncnt = internalRec a b (freqOf s.node a + freqOf s.node b)
  old : ∀ g, g ≠ s.ncnt → nodeAt t.node g = nodeAt s.node g
  heap : t.heapList.Perm (s.ncnt :: s.heapList)
  hsize : t.hsize.toNat = s.hsize.toNat + 1
  own : ∀ g, ownAt t.own g = if g = s.ncnt ∨ g = a ∨ g = b then true else ownAt s.own g

/-- MRG's last part up to its Insert: the node is written and counted, its children are owned. -/
def allocated (a b : Handle) (s : State) : State :=
  (((s.putNode s.ncnt.toNat (internalRec a b (freqOf s.node a + freqOf s.node b))).setNcnt (s.ncnt + 1#9)).putOwn a
    true).putOwn b true

theorem mergeNode_eq (a b : Handle) (s : State) : mergeNode a b s = insert (allocated a b s) s.ncnt := rfl

theorem ownAt_insert (s : State) (h g : Handle) :
    ownAt (insert s h).own g = if g = h ∧ h ≠ null then true else ownAt s.own g := ownAt_putOwn s h g true

theorem nodeAt_allocated (a b : Handle) (s : State) (g : Handle) :
    nodeAt (allocated a b s).node g = if g.toNat = s.ncnt.toNat ∧ s.ncnt.toNat < nodeCap then
      (internalRec a b (freqOf s.node a + freqOf s.node b)).atWidth s.cfg.nfreqBits else nodeAt s.node g :=
  nodeAt_putNode s s.ncnt.toNat (internalRec a b (freqOf s.node a + freqOf s.node b)) g

theorem ownAt_allocated {a b : Handle} (ha : a ≠ null) (hb : b ≠ null) (s : State) (g : Handle) :
    ownAt (allocated a b s).own g = if g = a ∨ g = b then true else ownAt s.own g := by
  rw [allocated, ownAt_putOwn, ownAt_putOwn]
  by_cases ea : g = a <;> by_cases eb : g = b <;> simp [ea, eb, ha, hb]

/-- MRG's last part, where there is room for the node and its frequency. -/
theorem mergeNode_merged (s : State) {a b : Handle} (ha : a ≠ null) (hb : b ≠ null) (hn : s.ncnt.toNat < nodeCap)
    (hh : s.hsize.toNat < nodeCap) (hf : freqOf s.node a + freqOf s.node b < 2 ^ s.cfg.nfreqBits) :
    Merged s (mergeNode a b s) a b := by
  have hk : s.ncnt ≠ null := by
    intro he
    rw [he] at hn
    exact absurd hn (by decide)
  rw [mergeNode_eq]
  constructor
  case cfg => simp [allocated]
  case ndist => simp [allocated]
  case hcap => simp [allocated]
  case ncnt => simp only [allocated, State.insert_ncnt, State.putOwn_ncnt, State.setNcnt_ncnt, toNat_add_one hn]
  case hsize =>
    simp only [allocated, State.insert_hsize, State.putOwn_hsize, State.setNcnt_hsize, State.putNode_hsize,
      toNat_add_one hh]
  case new =>
    rw [State.insert_node, nodeAt_allocated, if_pos ⟨rfl, hn⟩]
    simp [NodeRec.atWidth, internalRec, narrow_of_lt hf]
  case old =>
    intro g hg
    rw [State.insert_node, nodeAt_allocated, if_neg fun h => hg (BitVec.eq_of_toNat_eq h.1)]
  case heap => exact heapList_insert (allocated a b s) s.ncnt hh
  case own =>
    intro g
    rw [ownAt_insert, ownAt_allocated ha hb]
    by_cases e : g = s.ncnt <;> simp [e, hk]

namespace Merged

variable {s t : State} {a b g p : Handle} (hm : Merged s t a b)
include hm

theorem lt_iff : g < t.ncnt ↔ g < s.ncnt ∨ g = s.ncnt := by
  rw [BitVec.lt_def, BitVec.lt_def, hm.ncnt, ← BitVec.toNat_inj]
  omega

theorem isParent_old (hp : p ≠ s.ncnt) : isParent t.node p g = isParent s.node p g := by
  simp [isParent, hm.old p hp]

theorem isParent_new : isParent t.node s.ncnt g = (a == g || b == g) := by
  simp [isParent, hm.new, internalRec]

theorem old_of_lt (hg : g < s.ncnt) : nodeAt t.node g = nodeAt s.node g :=
  hm.old g fun he => absurd hg (he ▸ BitVec.lt_irrefl _)

theorem freqOf_old (hg : g < s.ncnt) : freqOf t.node g = freqOf s.node g := congrArg NodeRec.freq (hm.old_of_lt hg)

theorem hasParent (g : Handle) : t.hasParent g = (s.hasParent g || (a == g || b == g)) := by
  have hold : s.handles.any (fun p => isParent t.node p g) = s.hasParent g := by
    rw [Bool.eq_iff_iff]
    simp only [State.hasParent, List.any_eq_true, State.mem_handles]
    exact exists_congr fun p => and_congr_right fun hp =>
      by rw [hm.isParent_old fun he => absurd hp (he ▸ BitVec.lt_irrefl _)]
  rw [State.hasParent, State.handles_succ hm.ncnt, List.any_append, hold]
  simp [hm.isParent_new]

theorem internals : t.internals = s.internals ++ [s.ncnt] := by
  have hold : s.handles.filter (fun h => (nodeAt t.node h).k == .internal) = s.internals :=
    List.filter_congr fun h hh => by rw [hm.old_of_lt (State.mem_handles.1 hh)]
  rw [State.internals, State.handles_succ hm.ncnt, List.filter_append, hold]
  simp [hm.new, internalRec]

/-- The roots after a merge: the two children have a parent now, and the new node has none. -/
theorem roots (hnew : s.hasParent s.ncnt = false) (ha : a ≠ s.ncnt) (hb : b ≠ s.ncnt) :
    t.roots = s.roots.filter (fun g => !(a == g || b == g)) ++ [s.ncnt] := by
  have hold : s.handles.filter (fun g => !t.hasParent g) = s.roots.filter (fun g => !(a == g || b == g)) := by
    rw [State.roots, List.filter_filter]
    exact List.filter_congr fun g _ => by rw [hm.hasParent, Bool.not_or, Bool.and_comm]
  rw [State.roots, State.handles_succ hm.ncnt, List.filter_append, hold]
  simp [hm.hasParent, hnew, ha, hb]

end Merged

/-- A duplicate-free list with two of its elements taken out and put in front. -/
theorem perm_cons_cons_filter {l : List Handle} (hl : l.Nodup) {a b : Handle} (ha : a ∈ l) (hb : b ∈ l) (hab : a ≠ b) :
    l.Perm (a :: b :: l.filter (fun g => !(a == g || b == g))) := by
  refine (List.perm_ext_iff_of_nodup hl ?_).2 fun g => ?_
  · have := hl.filter (fun g => !(a == g || b == g))
    simpa [hab] using this
  · simp only [List.mem_cons, List.mem_filter, Bool.not_eq_true', Bool.or_eq_false_iff, beq_eq_false_iff_ne]
    constructor
    · intro hg
      by_cases e1 : g = a
      · exact .inl e1
      · by_cases e2 : g = b
        · exact .inr (.inl e2)
        · exact .inr (.inr ⟨hg, Ne.symm e1, Ne.symm e2⟩)
    · rintro (rfl | rfl | ⟨hg, -⟩)
      · exact ha
      · exact hb
      · exact hg

section Forest
variable {s : State} (hs : ForestInv s) {a b : Handle} (ha : a ∈ s.roots) (hb : b ∈ s.roots) (hab : a ≠ b)
include hs ha hb hab

/-- With two roots there is room for one more node. -/
theorem ForestInv.room : s.ncnt.toNat < nodeCap := by
  have hlen := (perm_cons_cons_filter s.roots_nodup ha hb hab).length_eq
  have hcount := hs.ncnt_add_roots_le
  have hdist := hs.distinct
  simp only [List.length_cons, nSym] at hlen hdist
  simp only [nodeCap]
  omega

/-- The sum of two roots' frequencies fits NFREQ_BITS (R144): all roots' together are at most 256 counts (I5). -/
theorem ForestInv.freq_add_lt : freqOf s.node a + freqOf s.node b < 2 ^ s.cfg.nfreqBits := by
  have hsum := ((perm_cons_cons_filter s.roots_nodup ha hb hab).map (freqOf s.node)).sum_eq
  have hbound := hs.frequencies
  simp only [List.map_cons, List.sum_cons] at hsum
  have hle : s.ndist.toNat * (2 ^ s.cfg.freqBits - 1) ≤ 2 ^ 8 * (2 ^ s.cfg.freqBits - 1) :=
    Nat.mul_le_mul_right _ hs.distinct
  have hpow : 2 ^ s.cfg.nfreqBits = 2 ^ 8 * 2 ^ s.cfg.freqBits := by
    rw [Config.nfreqBits, symBits, Nat.pow_add, Nat.mul_comm]
  have hpos := Nat.two_pow_pos s.cfg.freqBits
  omega

variable {t : State} (hm : Merged s t a b)
include hm

theorem ForestInv.merge : ForestInv t := by
  obtain ⟨han, hpa⟩ := State.mem_roots.1 ha
  obtain ⟨hbn, hpb⟩ := State.mem_roots.1 hb
  have hak : a ≠ s.ncnt := fun he => absurd han (he ▸ BitVec.lt_irrefl _)
  have hbk : b ≠ s.ncnt := fun he => absurd hbn (he ▸ BitVec.lt_irrefl _)
  have hroots := hm.roots hs.hasParent_ncnt hak hbk
  have hperm := perm_cons_cons_filter s.roots_nodup ha hb hab
  have hparent {p h : Handle} (hp : p < s.ncnt) (h' : isParent t.node p h = true) : isParent s.node p h = true := by
    rwa [hm.isParent_old fun he => absurd hp (he ▸ BitVec.lt_irrefl _)] at h'
  have hnotNew {p h : Handle} (hp : p < s.ncnt) (h' : isParent t.node p h = true) :
      ¬ isParent t.node s.ncnt h = true := by
    have hhp : s.hasParent h = true := State.hasParent_iff.2 ⟨p, hp, hparent hp h'⟩
    rw [hm.isParent_new]
    intro he
    obtain rfl | rfl : a = h ∨ b = h := by simpa using he
    · simp [hhp] at hpa
    · simp [hhp] at hpb
  refine ⟨fun h hh => ?valid, fun h hh => ?leafShape, fun h hh => ?internalShape, fun h hh => ?children,
    fun p hp q hq h h1 h2 => ?oneParent, ?rootCount, ?hcap, ?frequencies, ?distinct⟩
  case valid =>
    obtain hlt | rfl := hm.lt_iff.1 (State.mem_handles.1 hh)
    · rw [hm.old_of_lt hlt]; exact hs.valid h (State.mem_handles.2 hlt)
    · rw [hm.new]; rfl
  case leafShape =>
    obtain hlt | rfl := hm.lt_iff.1 (State.mem_handles.1 hh)
    · rw [hm.old_of_lt hlt]; exact hs.leafShape h (State.mem_handles.2 hlt)
    · rw [hm.new]; exact nofun
  case internalShape =>
    rw [hm.internals, List.mem_append, List.mem_singleton] at hh
    obtain hold | rfl := hh
    · rw [hm.old_of_lt (State.mem_internals.1 hold).1]; exact hs.internalShape h hold
    · rw [hm.new]; rfl
  case children =>
    rw [hm.internals, List.mem_append, List.mem_singleton] at hh
    obtain hold | rfl := hh
    · have hlt := (State.mem_internals.1 hold).1
      obtain ⟨hl, hr, hne, hf⟩ := hs.children h hold
      rw [hm.old_of_lt hlt, hm.freqOf_old (BitVec.lt_trans hl hlt), hm.freqOf_old (BitVec.lt_trans hr hlt)]
      exact ⟨hl, hr, hne, hf⟩
    · rw [hm.new]
      exact ⟨han, hbn, hab, by simp [internalRec, hm.freqOf_old han, hm.freqOf_old hbn]⟩
  case oneParent =>
    obtain hp | rfl := hm.lt_iff.1 (State.mem_handles.1 hp) <;> obtain hq | rfl := hm.lt_iff.1 (State.mem_handles.1 hq)
    · exact hs.oneParent p (State.mem_handles.2 hp) q (State.mem_handles.2 hq) h (hparent hp h1) (hparent hq h2)
    · exact absurd h2 (hnotNew hp h1)
    · exact absurd h1 (hnotNew hq h2)
    · rfl
  case rootCount =>
    have hcount := hs.rootCount
    have hlen := hperm.length_eq
    simp only [List.length_cons] at hlen
    rw [hroots, hm.internals, hm.ndist, List.length_append, List.length_append, List.length_singleton]
    omega
  case hcap => rw [hm.ndist, hm.hcap]; exact hs.hcap
  case frequencies =>
    have hsum := (hperm.map (freqOf s.node)).sum_eq
    have hbound := hs.frequencies
    have hold : (s.roots.filter (fun g => !(a == g || b == g))).map (freqOf t.node) =
        (s.roots.filter (fun g => !(a == g || b == g))).map (freqOf s.node) :=
      List.map_congr_left fun g hg => hm.freqOf_old (State.mem_roots.1 (List.mem_filter.1 hg).1).1
    have hnew : freqOf t.node s.ncnt = freqOf s.node a + freqOf s.node b := congrArg NodeRec.freq hm.new
    simp only [List.map_cons, List.sum_cons] at hsum
    rw [hroots, hm.ndist, hm.cfg, List.map_append, List.sum_append, hold, List.map_singleton, List.sum_singleton, hnew]
    omega
  case distinct => rw [hm.ndist]; exact hs.distinct

theorem QueueInv.merge (hq : QueueInv s) (hoa : ownAt s.own a = false) (hob : ownAt s.own b = false)
    (hroom : s.hsize.toNat < s.hcap.toNat) : QueueInv t := by
  have hmem : ∀ g, g ∈ t.heapList ↔ g = s.ncnt ∨ g ∈ s.heapList := fun g => by rw [hm.heap.mem_iff, List.mem_cons]
  have hnot : s.ncnt ∉ s.heapList := fun h => absurd (hq.heapAllocated _ h).1 (BitVec.lt_irrefl _)
  obtain ⟨han, -⟩ := State.mem_roots.1 ha
  obtain ⟨hbn, -⟩ := State.mem_roots.1 hb
  refine ⟨?_, fun g hg => ?_, hm.heap.nodup_iff.2 (List.nodup_cons.2 ⟨hnot, hq.heapDistinct⟩), fun g hg => ?_⟩
  · rw [BitVec.le_def, hm.hsize, hm.hcap]
    exact hroom
  · rw [hm.lt_iff, hm.own]
    obtain rfl | hold := (hmem g).1 hg
    · simp
    · obtain ⟨hlt, hown⟩ := hq.heapAllocated g hold
      simp [hlt, hown]
  · rw [hm.hasParent, hmem, hm.own]
    obtain hlt | rfl := hm.lt_iff.1 hg
    · have hne : g ≠ s.ncnt := fun he => absurd hlt (he ▸ BitVec.lt_irrefl _)
      by_cases ega : g = a
      · subst ega; simp [hne, hq.not_mem_heapList hoa]
      · by_cases egb : g = b
        · subst egb; simp [hne, hq.not_mem_heapList hob]
        · simpa [hne, ega, egb, Ne.symm ega, Ne.symm egb] using hq.parentless g hlt
    · have hak : a ≠ s.ncnt := fun he => absurd han (he ▸ BitVec.lt_irrefl _)
      have hbk : b ≠ s.ncnt := fun he => absurd hbn (he ▸ BitVec.lt_irrefl _)
      simp [hs.hasParent_ncnt, hak, hbk]

end Forest

/-- The course of MRG over the invariants (R143, R223): with fewer than two nodes in the heap it raises; otherwise two
distinct roots `a` and `b` are taken out of the heap, which leaves `u`, and merged. -/
theorem mrg_merges {s : State} (hs : EngineInv s) :
    (s.hsize.toNat ≤ 1 ∧ ∃ t, mrg s = .raised .emptyHeap t ∧ EngineInv t ∧ HeapWrites s t) ∨
    (2 ≤ s.hsize.toNat ∧ ∃ a b u, EngineInv u ∧ HeapWrites s u ∧ s.heapList.Perm (a :: b :: u.heapList) ∧
      (a ∈ u.roots ∧ b ∈ u.roots ∧ a ≠ b) ∧ (∀ g, ownAt u.own g = if g = a ∨ g = b then false else ownAt s.own g) ∧
      mrg s = .ok () (mergeNode a b u) ∧ Merged u (mergeNode a b u) a b) := by
  obtain ⟨t, he, h⟩ | ⟨a, s1, t, he1, he2, h⟩ | ⟨a, s1, b, u, he1, he2, h⟩ := mrg_cases s
  · have h0 := hsize_of_extractMin_raised he
    have ht := extractMin_state_engineInv hs
    have hw := extractMin_writes s
    rw [he] at ht hw
    exact .inl ⟨by simp [h0], t, h, ht, hw⟩
  · have hs1 := (extractMin_engineInv hs he1).1
    have h0 := hsize_of_extractMin_raised he2
    have hsize := (extractMin_spec he1).2.1
    have ht := extractMin_state_engineInv hs1
    have hw1 := extractMin_writes s
    have hw2 := extractMin_writes s1
    rw [he1] at hw1
    rw [he2] at ht hw2
    exact .inl ⟨by simp [h0] at hsize; omega, t, h, ht, hw1.trans hw2⟩
  · obtain ⟨hperm1, hsize1, -⟩ := extractMin_spec he1
    obtain ⟨hperm2, hsize2, -⟩ := extractMin_spec he2
    obtain ⟨hs1, han, -, hnot, hown1, hw1⟩ := extractMin_engineInv hs he1
    obtain ⟨hu, hbn, hbmem, -, hown2, hw2⟩ := extractMin_engineInv hs1 he2
    have hab : a ≠ b := fun he => hnot (he ▸ hbmem)
    have hown : ∀ g, ownAt u.own g = if g = a ∨ g = b then false else ownAt s.own g := by
      intro g
      rw [hown2, hown1]
      by_cases ea : g = a <;> by_cases eb : g = b <;> simp [ea, eb]
    have hroot : ∀ g, g < s.ncnt → ownAt u.own g = false → g ∈ u.roots := by
      intro g hg hfree
      have hgu : g < u.ncnt := by rwa [hw2.ncnt, hw1.ncnt]
      exact State.mem_roots.2 ⟨hgu, (hu.parentless g (State.mem_handles.2 hgu)).2 (.inr hfree)⟩
    have ha : a ∈ u.roots := hroot a han (by simp [hown])
    have hb : b ∈ u.roots := hroot b (hw1.ncnt ▸ hbn) (by simp [hown])
    obtain ⟨hfu, hqu⟩ := (engineInv_iff u).1 hu
    have hroom := hfu.room ha hb hab
    have hw1 := extractMin_writes s
    have hw2 := extractMin_writes s1
    rw [he1] at hw1
    rw [he2] at hw2
    refine .inr ⟨by omega, a, b, u, hu, hw1.trans hw2, hperm1.trans (hperm2.cons a), ⟨ha, hb, hab⟩, hown, h, ?_⟩
    exact mergeNode_merged u (ne_null_of_lt han) (ne_null_of_lt hbn) hroom
      (Nat.lt_of_le_of_lt hqu.heapSize hroom) (hfu.freq_add_lt ha hb hab)

theorem mrg_engineInv {s : State} (hs : EngineInv s) : EngineInv (mrg s).state := by
  obtain ⟨-, t, h, ht, -⟩ | ⟨-, a, b, u, hu, hw, hperm, ⟨ha, hb, hab⟩, hown, h, hm⟩ := mrg_merges hs
  · rw [h]; exact ht
  · obtain ⟨hfu, hqu⟩ := (engineInv_iff u).1 hu
    have hroom : u.hsize.toNat < u.hcap.toNat := by
      have hlen := hperm.length_eq
      have hfits := hs.heapFits
      simp only [List.length_cons, State.heapList_length] at hlen
      rw [BitVec.le_def] at hfits
      rw [hw.sameForest.hcap]
      omega
    rw [h]
    exact (engineInv_iff _).2 ⟨hfu.merge ha hb hab hm,
      hqu.merge hfu ha hb hab hm (by simp [hown]) (by simp [hown]) hroom⟩

theorem mergeAll_engineInv (fuel : Nat) {s : State} (hs : EngineInv s) : EngineInv (mergeAll fuel s).state := by
  induction fuel generalizing s with
  | zero => exact hs
  | succ fuel ih =>
    rw [mergeAll]
    split_ifs
    · exact Run.andThen_state (mrg_engineInv hs) fun _ _ ht => ih ht
    · exact hs

end Sys2Proof.Machine
end

section
/-! What LEAVES makes, and that it establishes the engine's invariants (spec/41_tree_builder.md R141, R142). -/

namespace Sys2Proof.Machine

/-! ## The loop of LEAVES -/

/-- `t` is `s` after the leaves of the symbols `p` were placed at the indices from `n` on (R141). -/
structure LeavesPlaced (s t : State) (n : Nat) (p : List Byte) : Prop where
  leaf : ∀ j b, p[j]? = some b →
    nodeAt t.node (BitVec.ofNat 9 (n + j)) = (leafRec b (ftAt s.ft b)).atWidth s.cfg.nfreqBits
  node : ∀ h : Handle, h.toNat < n ∨ n + p.length ≤ h.toNat → nodeAt t.node h = nodeAt s.node h
  heap : ∀ i, heapAt t.heap i = if n ≤ i ∧ i < n + p.length then BitVec.ofNat 9 i else heapAt s.heap i
  own : ∀ h : Handle, ownAt t.own h = if n ≤ h.toNat ∧ h.toNat < n + p.length then true else ownAt s.own h

theorem ofNat_toNat_of_lt {n : Nat} (hn : n < nodeCap) : (BitVec.ofNat 9 n).toNat = n := by
  simp only [nodeCap] at hn
  rw [BitVec.toNat_ofNat, Nat.mod_eq_of_lt (by omega)]

theorem nodeAt_placeLeaf (s : State) {n : Nat} (hn : n < nodeCap) (b : Byte) (h : Handle) :
    nodeAt (placeLeaf s n b).node h =
      if h.toNat = n then (leafRec b (ftAt s.ft b)).atWidth s.cfg.nfreqBits else nodeAt s.node h := by
  have := nodeAt_putNode s n (leafRec b (ftAt s.ft b)) h
  simp only [hn, and_true] at this
  exact this

theorem heapAt_placeLeaf (s : State) {n : Nat} (hn : n < nodeCap) (b : Byte) (i : Nat) :
    heapAt (placeLeaf s n b).heap i = if i = n then BitVec.ofNat 9 n else heapAt s.heap i := by
  have := heapAt_putHeap s.heap n i (BitVec.ofNat 9 n)
  simp only [hn, and_true] at this
  exact this

theorem ownAt_placeLeaf (s : State) {n : Nat} (hn : n < nodeCap) (b : Byte) (h : Handle) :
    ownAt (placeLeaf s n b).own h = if h.toNat = n then true else ownAt s.own h := by
  have hne : BitVec.ofNat 9 n ≠ null := fun he => by
    have := congrArg BitVec.toNat he
    rw [ofNat_toNat_of_lt hn] at this
    exact absurd hn (this ▸ by decide)
  have heq : h = BitVec.ofNat 9 n ↔ h.toNat = n := by rw [← BitVec.toNat_inj, ofNat_toNat_of_lt hn]
  have := ownAt_putOwn ((s.putNode n (leafRec b (ftAt s.ft b))).setHeap (putHeap s.heap n (BitVec.ofNat 9 n)))
    (BitVec.ofNat 9 n) h true
  simp only [heq, hne, ne_eq, not_false_eq_true, and_true] at this
  exact this

/-- Placing one leaf, then more. -/
theorem LeavesPlaced.cons {s t : State} {n : Nat} {b : Byte} {p : List Byte} (hn : n < nodeCap)
    (h : LeavesPlaced (placeLeaf s n b) t (n + 1) p) : LeavesPlaced s t n (b :: p) where
  leaf j c hj := by
    cases j with
    | zero =>
      obtain rfl : b = c := by simpa using hj
      have hlt : (BitVec.ofNat 9 n).toNat = n := ofNat_toNat_of_lt hn
      rw [Nat.add_zero, h.node _ (.inl (by omega)), nodeAt_placeLeaf s hn, if_pos hlt]
    | succ j =>
      have := h.leaf j c (by simpa using hj)
      rwa [Nat.add_right_comm] at this
  node g hg := by
    rw [List.length_cons] at hg
    rw [h.node g (by omega), nodeAt_placeLeaf s hn, if_neg (by omega)]
  heap i := by
    rw [h.heap, heapAt_placeLeaf s hn, List.length_cons]
    by_cases hi : i = n
    · subst hi; simp
    · simp only [hi, if_false]
      exact if_congr (by omega) rfl rfl
  own g := by
    rw [h.own, ownAt_placeLeaf s hn, List.length_cons]
    by_cases hg : g.toNat = n
    · simp [hg]
    · simp only [hg, if_false]
      exact if_congr (by omega) rfl rfl

/-- The loop places a leaf for each symbol that occurs, in order. -/
theorem placeLeaves_spec (bs : List Byte) (n : Nat) (s : State) (hn : n + bs.length ≤ nodeCap) :
    (placeLeaves bs n s).1 = n + (bs.filter fun b => decide (ftAt s.ft b ≠ 0)).length ∧
      LeavesPlaced s (placeLeaves bs n s).2 n (bs.filter fun b => decide (ftAt s.ft b ≠ 0)) := by
  induction bs generalizing n s with
  | nil =>
    refine ⟨rfl, fun j b hj => by simp at hj, fun _ _ => rfl, fun i => ?_, fun h => ?_⟩
    · exact (if_neg (by simp)).symm
    · exact (if_neg (by simp)).symm
  | cons b bs ih =>
    rw [List.length_cons] at hn
    rw [placeLeaves]
    by_cases hb : ftAt s.ft b = 0
    · have hdrop : (b :: bs).filter (fun b => decide (ftAt s.ft b ≠ 0)) =
          bs.filter fun b => decide (ftAt s.ft b ≠ 0) := by simp [hb]
      rw [if_pos hb, hdrop]
      exact ih n s (by omega)
    · have hkeep : (b :: bs).filter (fun b => decide (ftAt s.ft b ≠ 0)) =
          b :: bs.filter fun b => decide (ftAt s.ft b ≠ 0) := by simp [hb]
      obtain ⟨hcount, hplaced⟩ := ih (n + 1) (placeLeaf s n b) (by omega)
      rw [if_neg hb, hkeep]
      exact ⟨hcount.trans (by rw [List.length_cons, Nat.add_right_comm]; rfl), hplaced.cons (by omega)⟩

/-! ## LEAVES -/

theorem alphabet_length : alphabet.length = nSym := by simp [alphabet]

theorem alphabet_nodup : alphabet.Nodup := by
  refine List.Nodup.map_on (fun i hi j hj hij => ?_) List.nodup_range
  have := congrArg BitVec.toNat hij
  simp only [List.mem_range, nSym, BitVec.toNat_ofNat] at hi hj this
  omega

theorem mem_alphabet (b : Byte) : b ∈ alphabet :=
  List.mem_map.2 ⟨b.toNat, List.mem_range.2 b.isLt, by simp⟩

theorem present_nodup (s : State) : s.present.Nodup := alphabet_nodup.filter _

theorem mem_present {s : State} {b : Byte} : b ∈ s.present ↔ ftAt s.ft b ≠ 0 := by
  simp [State.present, mem_alphabet]

theorem present_length_le (s : State) : s.present.length ≤ nSym :=
  alphabet_length ▸ List.length_filter_le _ _

/-- `t` is what LEAVES makes of `s` (R141): one leaf per symbol of `s.present`, all of them owned and in the heap, and
no other record valid. -/
structure LeavesMade (s t : State) : Prop where
  cfg : t.cfg = s.cfg
  ft : t.ft = s.ft
  tv : t.tv = false
  ncnt : t.ncnt.toNat = s.present.length
  ndist : t.ndist.toNat = s.present.length
  hsize : t.hsize.toNat = s.present.length
  hcap : 1 ≤ s.present.length → t.hcap.toNat = 2 * s.present.length - 1
  fits : t.hsize ≤ t.hcap
  leaf : ∀ j b, s.present[j]? = some b →
    nodeAt t.node (BitVec.ofNat 9 j) = (leafRec b (ftAt s.ft b)).atWidth s.cfg.nfreqBits
  fresh : ∀ h : Handle, s.present.length ≤ h.toNat → nodeAt t.node h = { nodeAt s.node h with v := false }
  heap : ∀ i, i < s.present.length → heapAt t.heap i = BitVec.ofNat 9 i
  own : ∀ h : Handle, ownAt t.own h = decide (h.toNat < s.present.length)

/-- The registers that LEAVES writes after its loop has placed `n` leaves (R141). -/
def leavesEnd (n : Nat) (u : State) : State :=
  ((((((u.setNcnt (BitVec.ofNat 9 n)).setNdist (BitVec.ofNat 9 n)).setHsize (BitVec.ofNat 9 n)).setHcap
    (BitVec.ofNat 9 (heapCapacity n))).setRoot null).setRes null).setTv false

/-- The state in which the loop of LEAVES begins: every record invalid, no node owned (R141). -/
def leavesStart (s : State) : State := (s.setNode (clearNodeV s.node)).setOwn []

theorem leaves_eq (s : State) :
    leaves s = .ok () (leavesEnd (placeLeaves alphabet 0 (leavesStart s)).1
      (placeLeaves alphabet 0 (leavesStart s)).2) := rfl

section leavesEnd
variable (n : Nat) (u : State)
@[simp] theorem leavesEnd_cfg : (leavesEnd n u).cfg = u.cfg := by simp [leavesEnd]
@[simp] theorem leavesEnd_tv : (leavesEnd n u).tv = false := by simp [leavesEnd]
@[simp] theorem leavesEnd_ft : (leavesEnd n u).ft = u.ft := by simp [leavesEnd]
@[simp] theorem leavesEnd_node : (leavesEnd n u).node = u.node := by simp [leavesEnd]
@[simp] theorem leavesEnd_heap : (leavesEnd n u).heap = u.heap := by simp [leavesEnd]
@[simp] theorem leavesEnd_own : (leavesEnd n u).own = u.own := by simp [leavesEnd]
@[simp] theorem leavesEnd_ncnt : (leavesEnd n u).ncnt = BitVec.ofNat 9 n := by simp [leavesEnd]
@[simp] theorem leavesEnd_ndist : (leavesEnd n u).ndist = BitVec.ofNat 9 n := by simp [leavesEnd]
@[simp] theorem leavesEnd_hsize : (leavesEnd n u).hsize = BitVec.ofNat 9 n := by simp [leavesEnd]
@[simp] theorem leavesEnd_hcap : (leavesEnd n u).hcap = BitVec.ofNat 9 (heapCapacity n) := by simp [leavesEnd]
end leavesEnd

theorem toNat_heapCapacity {n : Nat} (hn : n ≤ nSym) : (BitVec.ofNat 9 (heapCapacity n)).toNat = heapCapacity n := by
  simp only [nSym] at hn
  rw [BitVec.toNat_ofNat, Nat.mod_eq_of_lt]
  unfold heapCapacity
  split_ifs <;> omega

theorem le_heapCapacity (n : Nat) : n ≤ heapCapacity n := by
  unfold heapCapacity
  split_ifs <;> omega

/-- The registers that LEAVES writes last complete what its loop has placed. -/
theorem LeavesPlaced.made {s u : State} (hp : LeavesPlaced (leavesStart s) u 0 s.present) (hcfg : u.cfg = s.cfg)
    (hft : u.ft = s.ft) : LeavesMade s (leavesEnd s.present.length u) := by
  have hle := present_length_le s
  have hnat : (BitVec.ofNat 9 s.present.length).toNat = s.present.length :=
    ofNat_toNat_of_lt (Nat.lt_of_le_of_lt hle (by decide))
  have hcap := toNat_heapCapacity hle
  refine ⟨by simp [hcfg], by simp [hft], by simp, ?ncnt, ?ndist, ?hsize, fun hpos => ?hcap, ?fits, fun j b hj => ?leaf,
    fun h hh => ?fresh, fun i hi => ?heap, fun h => ?own⟩
  case ncnt => rw [leavesEnd_ncnt, hnat]
  case ndist => rw [leavesEnd_ndist, hnat]
  case hsize => rw [leavesEnd_hsize, hnat]
  case hcap => rw [leavesEnd_hcap, hcap, heapCapacity, if_neg (by omega)]
  case fits =>
    rw [leavesEnd_hsize, leavesEnd_hcap, BitVec.le_def, hnat, hcap]
    exact le_heapCapacity _
  case leaf =>
    have hleaf := hp.leaf j b hj
    rw [Nat.zero_add] at hleaf
    rw [leavesEnd_node, hleaf]
    rfl
  case fresh =>
    rw [leavesEnd_node, hp.node h (.inr (by omega))]
    exact nodeAt_clearNodeV s.node h
  case heap => rw [leavesEnd_heap, hp.heap, if_pos ⟨Nat.zero_le i, by omega⟩]
  case own =>
    rw [leavesEnd_own, hp.own]
    have hstart : ownAt (leavesStart s).own h = false := rfl
    by_cases hh : h.toNat < s.present.length <;> simp [hh, hstart]

theorem leaves_spec (s : State) : ∃ t, leaves s = .ok () t ∧ LeavesMade s t := by
  obtain ⟨hcount, hplaced⟩ := placeLeaves_spec alphabet 0 (leavesStart s) (by rw [alphabet_length]; decide)
  have hcount : (placeLeaves alphabet 0 (leavesStart s)).1 = s.present.length := hcount.trans (Nat.zero_add _)
  have hwrites := placeLeaves_writes alphabet 0 (leavesStart s)
  refine ⟨_, leaves_eq s, ?_⟩
  rw [hcount]
  exact LeavesPlaced.made hplaced hwrites.cfg hwrites.ft

namespace LeavesMade

variable {s t : State} (hm : LeavesMade s t)
include hm

/-- Each allocated node is the leaf of a symbol that occurs. -/
theorem exists_leaf {h : Handle} (hh : h < t.ncnt) :
    ∃ b, s.present[h.toNat]? = some b ∧ nodeAt t.node h = (leafRec b (ftAt s.ft b)).atWidth s.cfg.nfreqBits := by
  rw [BitVec.lt_def, hm.ncnt] at hh
  refine ⟨s.present[h.toNat], List.getElem?_eq_getElem hh, ?_⟩
  have := hm.leaf h.toNat _ (List.getElem?_eq_getElem hh)
  rwa [BitVec.ofNat_toNat, BitVec.setWidth_eq] at this

theorem kind {h : Handle} (hh : h < t.ncnt) : (nodeAt t.node h).k = .leaf := by
  obtain ⟨b, -, hb⟩ := hm.exists_leaf hh
  rw [hb]; rfl

theorem internals : t.internals = [] := by
  rw [State.internals, List.filter_eq_nil_iff]
  intro h hh
  simp [hm.kind (State.mem_handles.1 hh)]

theorem hasParent (h : Handle) : t.hasParent h = false := by
  rw [← Bool.not_eq_true, State.hasParent_iff]
  rintro ⟨p, hp, hpar⟩
  exact nomatch (hm.kind hp).symm.trans (isParent_iff.1 hpar).1

theorem roots : t.roots = t.handles := by
  rw [State.roots, List.filter_eq_self]
  intro h _
  simp [hm.hasParent h]

theorem heapList : t.heapList = t.handles := by
  rw [State.heapList, State.handles, hm.hsize, hm.ncnt]
  exact List.map_congr_left fun i hi => hm.heap i (List.mem_range.1 hi)

/-- The distinct leaves that LEAVES makes have distinct symbols. -/
theorem sym_inj {g h : Handle} (hg : g < t.ncnt) (hh : h < t.ncnt)
    (heq : (nodeAt t.node g).sym = (nodeAt t.node h).sym) : g = h := by
  obtain ⟨b, hb, hgb⟩ := hm.exists_leaf hg
  obtain ⟨c, hc, hhc⟩ := hm.exists_leaf hh
  rw [hgb, hhc] at heq
  obtain rfl : b = c := heq
  rw [BitVec.lt_def, hm.ncnt] at hg
  exact BitVec.eq_of_toNat_eq ((List.getElem?_inj hg (present_nodup s)).1 (hb.trans hc.symm))

/-- LEAVES establishes the invariants, whatever the engine held before. -/
theorem engineInv (hft : ∀ b, ftAt s.ft b < 2 ^ s.cfg.freqBits) : EngineInv t := by
  have hfreq : ∀ h ∈ t.handles, freqOf t.node h ≤ 2 ^ s.cfg.freqBits - 1 := by
    intro h hh
    obtain ⟨b, -, hb⟩ := hm.exists_leaf (State.mem_handles.1 hh)
    rw [freqOf, hb]
    exact (Nat.mod_le _ _).trans (Nat.le_sub_one_of_lt (hft b))
  have hlen : t.handles.length = s.present.length := t.handles_length.trans hm.ncnt
  refine (engineInv_iff t).2 ⟨⟨fun h hh => ?_, fun h hh _ => ?_, ?_, ?_, fun p hp q _ h hpar => ?_, ?_, ?_, ?_, ?_⟩,
    ⟨hm.fits, fun h hh => ?_, ?_, fun h hh => ?_⟩⟩
  · obtain ⟨b, -, hb⟩ := hm.exists_leaf (State.mem_handles.1 hh)
    rw [hb]; rfl
  · obtain ⟨b, -, hb⟩ := hm.exists_leaf (State.mem_handles.1 hh)
    rw [hb]; exact ⟨rfl, rfl⟩
  · simp [hm.internals]
  · simp [hm.internals]
  · exact nomatch (hm.kind (State.mem_handles.1 hp)).symm.trans (isParent_iff.1 hpar).1
  · rw [hm.roots, hm.internals, hlen, hm.ndist, List.length_nil, Nat.add_zero]
  · rw [hm.ndist]; exact hm.hcap
  · have hsum := List.sum_le_card_nsmul (t.handles.map (freqOf t.node)) (2 ^ s.cfg.freqBits - 1) (by simpa using hfreq)
    rwa [hm.roots, hm.ndist, hm.cfg, ← hlen, ← List.length_map (f := freqOf t.node)]
  · rw [hm.ndist]; exact present_length_le s
  · rw [hm.heapList, State.mem_handles] at hh
    refine ⟨hh, ?_⟩
    rw [hm.own, ← hm.ncnt]
    exact decide_eq_true hh
  · rw [hm.heapList]; exact t.handles_nodup
  · rw [hm.hasParent, hm.heapList, State.mem_handles]
    simp [hh]

end LeavesMade

/-- An FT entry of a state in its form is within FREQ_BITS bits. -/
theorem ftAt_lt {s : State} (hs : s.wf = true) (b : Byte) : ftAt s.ft b < 2 ^ s.cfg.freqBits := by
  obtain h | h := Mem.ok_read 0 nSym _ s.ft ((State.wf_iff s).1 hs).ft b.toNat
  · exact (show ftAt s.ft b = 0 from h) ▸ Nat.two_pow_pos _
  · exact of_decide_eq_true h

theorem leaves_engineInv {s : State} (hft : ∀ b, ftAt s.ft b < 2 ^ s.cfg.freqBits) :
    EngineInv (leaves s).state := by
  obtain ⟨t, h, hm⟩ := leaves_spec s
  rw [h]
  exact hm.engineInv hft

theorem tbld_engineInv {s : State} (hft : ∀ b, ftAt s.ft b < 2 ^ s.cfg.freqBits) : EngineInv (tbld s).state :=
  Run.andThen_state (leaves_engineInv hft) fun _ _ h1 =>
    Run.andThen_state (hbld_engineInv h1) fun _ _ h2 =>
      Run.andThen_state (mergeAll_engineInv _ h2) fun _ _ h3 =>
        Run.andThen_state (extractMin_state_engineInv h3) fun _ _ h4 =>
          h4.congr ⟨rfl, rfl, rfl, rfl, rfl⟩ rfl rfl rfl

/-! ## Every step keeps the engine's invariants -/

/-- A command that writes neither nodes, heap nor ownership bits keeps the invariants. -/
theorem engineInv_of_frame {i : Instr} {s t : State} (hs : EngineInv s) (hf : Frame i s t)
    (hi : i ∉ [.leaves, .hbld, .hext, .mrg, .tbld, .enc, .rst]) (hhins : ∀ h, i ≠ .hins h) : EngineInv t := by
  have out : ∀ L : List Instr, L ⊆ [.leaves, .hbld, .hext, .mrg, .tbld, .enc, .rst] → i ∉ L :=
    fun L hL hmem => hi (hL hmem)
  obtain ⟨hndist, hhcap⟩ := hf.ndist_hcap (out _ (by decide))
  obtain ⟨hhsize, hown⟩ := hf.hsize_own (out _ (by decide)) hhins
  exact hs.congr ⟨hf.cfg, hf.node (out _ (by decide)), hf.ncnt (out _ (by decide)), hndist, hhcap⟩
    (hf.heap (out _ (by decide)) hhins) hhsize hown

section Commands
variable {s : State} (hwf : s.wf = true) (hs : EngineInv s)
include hwf hs

theorem enc_engineInv : EngineInv (enc s).state := by
  unfold enc
  split_ifs
  · exact hs
  · refine (Run.andThen_state (P := fun t => t.wf = true ∧ EngineInv t)
      ⟨wf_fcnt hwf, engineInv_of_frame hs (body_frame .fcnt s).data (by decide) nofun⟩ fun _ t ht => ?_).2
    refine Run.andThen_state (P := fun t => t.wf = true ∧ EngineInv t)
      ⟨wf_tbld ht.1, tbld_engineInv (ftAt_lt ht.1)⟩ fun _ u hu => ?_
    refine Run.andThen_state (P := fun t => t.wf = true ∧ EngineInv t)
      ⟨wf_cgen hu.1, engineInv_of_frame hu.2 (body_frame .cgen u).data (by decide) nofun⟩ fun _ v hv => ?_
    exact ⟨wf_pack hv.1, engineInv_of_frame hv.2 (body_frame .pack v).data (by decide) nofun⟩

theorem body_engineInv (i : Instr) : EngineInv (body i s).state := by
  cases i with
  | leaves => exact leaves_engineInv (ftAt_lt hwf)
  | hbld => exact hbld_engineInv hs
  | hins arg => exact hins_engineInv hs arg
  | hext => exact hext_engineInv hs
  | mrg => exact mrg_engineInv hs
  | tbld => exact tbld_engineInv (ftAt_lt hwf)
  | enc => exact enc_engineInv hwf hs
  | rst => exact .of_none rfl rfl rfl
  | nop | fcnt | tchk | cgen | pack | unpk | dec | clre =>
    exact engineInv_of_frame hs (body_frame _ s).data (by decide) nofun

omit hwf in
theorem hostStore_engineInv {t : State} (h : HostStore s t) : EngineInv t := by
  cases h with
  | ignored => exact hs
  | node i r => exact .of_none rfl rfl rfl
  | symcnt | bitcnt | root | sym | ft | ct | bit => exact hs.congr ⟨rfl, rfl, rfl, rfl, rfl⟩ rfl rfl rfl

end Commands

theorem engineInv_stepInvariant : StepInvariant (fun s => s.wf = true ∧ EngineInv s) where
  setPort _ _ h := ⟨h.1, h.2.congr ⟨rfl, rfl, rfl, rfl, rfl⟩ rfl rfl rfl⟩
  setPh _ _ h := ⟨h.1, h.2.congr ⟨rfl, rfl, rfl, rfl, rfl⟩ rfl rfl rfl⟩
  setErr _ _ h := ⟨h.1, h.2.congr ⟨rfl, rfl, rfl, rfl, rfl⟩ rfl rfl rfl⟩
  body i _ h := ⟨wf_body h.1 i, body_engineInv h.1 h.2 i⟩
  store _ _ h hst := ⟨hostStore_wf h.1 hst, hostStore_engineInv h.2 hst⟩
  powerOn d s _ := ⟨wf_powerOn d s, .of_none rfl rfl rfl⟩

/-- Settles O56: LEAVES establishes the invariants, the heap commands and MRG keep them, a host write to NODE and a reset
leave them empty, and nothing else touches what they speak of. -/
theorem stepKeepsTheEngineInvariants : Obligations.StepKeepsTheEngineInvariants :=
  fun _ _ hwf hs h => (engineInv_stepInvariant.step ⟨hwf, hs⟩ h).2

/-! ## The reset states -/

/-- With nothing allocated and TV = 0 nothing is promised of the tree. -/
theorem TreeInv.of_none {s : State} (hn : s.ncnt = 0#9) (htv : s.tv = false) : TreeInv s where
  fresh hne := absurd hn hne
  sound h := nomatch h.symm.trans htv

/-- A power-on reset meets every invariant, whatever is drawn. -/
theorem powerOn_invariants (d : Draw) (s : State) :
    (powerOn d s).wf = true ∧ EngineInv (powerOn d s) ∧ TreeInv (powerOn d s) :=
  ⟨wf_powerOn d s, .of_none rfl rfl rfl, .of_none rfl rfl⟩

/-- `State.reset` is what a power-on reset leaves that draws 0 everywhere. -/
theorem reset_eq_powerOn {s : State} (hcfg : s.cfg = Config.default) (hport : s.port = { inputs := [], replies := [] }) :
    State.reset = powerOn { sym := [], ft := [], node := [], heap := [], ct := [], bit := [], out := [] } s := by
  cases s
  cases hcfg
  cases hport
  rfl

/-- Settles O58: a power-on reset leaves nothing allocated and TV = 0, and State.reset is one. -/
theorem resetMeetsTheInvariants : Obligations.ResetMeetsTheInvariants := by
  refine ⟨fun s => reset_eq_powerOn, ?_, powerOn_invariants⟩
  rw [reset_eq_powerOn (s := State.reset) rfl rfl]
  exact powerOn_invariants _ _

end Sys2Proof.Machine
end

section
/-! The structural check over the nodes that the engine makes: it passes from every root of a forest whose leaves have
distinct symbols, and a record allocated after a check does not undo it (spec/10_state.md R23; spec/41_tree_builder.md
R149, R150). -/

namespace Sys2Proof.Machine

/-- One pop of TCHK's loop (R149): what the record popped must be for the check to go on, and with what. -/
theorem checkFrom_cons {node : Mem NodeRec} {fuel : Nat} {h : Handle} {stack vis : List Handle} {seen : List Byte} :
    checkFrom node (fuel + 1) (h :: stack) vis seen = true ↔ h ∉ vis ∧
      (((nodeAt node h).k = .leaf ∧ (nodeAt node h).sym ∉ seen ∧
        checkFrom node fuel stack (h :: vis) ((nodeAt node h).sym :: seen) = true) ∨
      ((nodeAt node h).k = .internal ∧ ((nodeAt node h).left ≠ null ∧ (nodeAt node h).right ≠ null) ∧
        ((nodeAt node (nodeAt node h).left).v = true ∧ (nodeAt node (nodeAt node h).right).v = true) ∧
        checkFrom node fuel ((nodeAt node h).left :: (nodeAt node h).right :: stack) (h :: vis) seen = true)) := by
  rw [checkFrom]
  by_cases hvis : h ∈ vis
  · simp [hvis]
  · cases hk : (nodeAt node h).k with
    | leaf => by_cases hseen : (nodeAt node h).sym ∈ seen <;> simp [hvis, hseen]
    | internal =>
      by_cases hnull : (nodeAt node h).left = null ∨ (nodeAt node h).right = null
      · have : ¬ ((nodeAt node h).left ≠ null ∧ (nodeAt node h).right ≠ null) := by tauto
        simp [hvis, hnull, this]
      · have hne := not_or.1 hnull
        by_cases hv : (nodeAt node (nodeAt node h).left).v = false ∨ (nodeAt node (nodeAt node h).right).v = false
        · have : ¬ ((nodeAt node (nodeAt node h).left).v = true ∧ (nodeAt node (nodeAt node h).right).v = true) := by
            simpa [imp_iff_not_or] using hv
          simp [hvis, hne, hv, this]
        · have hvv := not_or.1 hv
          simp [hvis, hne, hvv]

theorem treeCheck_iff {node : Mem NodeRec} {root : Handle} :
    treeCheck node root = true ↔
      root ≠ null ∧ (nodeAt node root).v = true ∧ checkFrom node 512 [root] [] [] = true := by
  unfold treeCheck
  by_cases h : root = null ∨ (nodeAt node root).v = false
  · rw [if_pos h]
    constructor
    · exact nofun
    · rintro ⟨hne, hv, -⟩
      exact absurd h (by simp [hne, hv])
  · rw [if_neg h]
    obtain ⟨hne, hv⟩ := not_or.1 h
    simp [hne, hv]

/-! ## Records allocated later -/

section Agree
variable {node node' : Mem NodeRec} (hag : ∀ h, (nodeAt node h).v = true → nodeAt node' h = nodeAt node h)
include hag

/-- The check meets valid records only, so it passes as well where the valid records are the same. -/
theorem checkFrom_of_agree (fuel : Nat) (stack vis : List Handle) (seen : List Byte)
    (hv : ∀ h ∈ stack, (nodeAt node h).v = true) (hc : checkFrom node fuel stack vis seen = true) :
    checkFrom node' fuel stack vis seen = true := by
  induction fuel generalizing stack vis seen with
  | zero =>
    cases stack with
    | nil => rfl
    | cons h stack => exact nomatch hc
  | succ fuel ih =>
    cases stack with
    | nil => rfl
    | cons h stack =>
      have hh := hag h (hv h List.mem_cons_self)
      have hstack : ∀ g ∈ stack, (nodeAt node g).v = true := fun g hg => hv g (List.mem_cons_of_mem h hg)
      obtain ⟨hvis, ⟨hk, hseen, hrest⟩ | ⟨hk, hne, ⟨hl, hr⟩, hrest⟩⟩ := checkFrom_cons.1 hc
      · refine checkFrom_cons.2 ⟨hvis, .inl ?_⟩
        rw [hh]
        exact ⟨hk, hseen, ih _ _ _ hstack hrest⟩
      · refine checkFrom_cons.2 ⟨hvis, .inr ?_⟩
        rw [hh, hag _ hl, hag _ hr]
        refine ⟨hk, hne, ⟨hl, hr⟩, ih _ _ _ ?_ hrest⟩
        simpa [hl, hr] using hstack

theorem treeCheck_of_agree {root : Handle} (h : treeCheck node root = true) : treeCheck node' root = true := by
  obtain ⟨hne, hv, hc⟩ := treeCheck_iff.1 h
  refine treeCheck_iff.2 ⟨hne, by rw [hag _ hv]; exact hv, ?_⟩
  exact checkFrom_of_agree hag _ _ _ _ (by simpa using hv) hc

end Agree

/-! ## The engine's own trees -/

/-- The leaves allocated have distinct symbols. -/
def State.LeafSymsDistinct (s : State) : Prop :=
  ∀ g h, g < s.ncnt → h < s.ncnt → (nodeAt s.node g).k = .leaf → (nodeAt s.node h).k = .leaf →
    (nodeAt s.node g).sym = (nodeAt s.node h).sym → g = h

/-- TCHK's stack, VIS and SEEN while it walks the engine's own tree from `root` (R149): distinct allocated handles, each
the root or a child of a visited one, and the symbols of visited leaves. -/
structure Walking (s : State) (root : Handle) (stack vis : List Handle) (seen : List Byte) : Prop where
  nodup : (stack ++ vis).Nodup
  allocated : ∀ h ∈ stack ++ vis, h < s.ncnt
  origin : ∀ h ∈ stack ++ vis, h = root ∨ ∃ p ∈ vis, isParent s.node p h = true
  seen : ∀ b ∈ seen, ∃ g ∈ vis, (nodeAt s.node g).k = .leaf ∧ (nodeAt s.node g).sym = b

namespace Walking

variable {s : State} {root h : Handle} {stack vis : List Handle} {seen : List Byte}

/-- Visiting the handle on top. -/
theorem visit (hw : Walking s root (h :: stack) vis seen) : Walking s root stack (h :: vis) seen where
  nodup := (List.perm_middle.nodup_iff).2 hw.nodup
  allocated g hg := hw.allocated g (List.perm_middle.mem_iff.1 hg)
  origin g hg := (hw.origin g (List.perm_middle.mem_iff.1 hg)).imp_right
    fun ⟨p, hp, hpar⟩ => ⟨p, List.mem_cons_of_mem h hp, hpar⟩
  seen b hb := by
    obtain ⟨g, hg, hgb⟩ := hw.seen b hb
    exact ⟨g, List.mem_cons_of_mem h hg, hgb⟩

theorem not_mem_vis (hw : Walking s root (h :: stack) vis seen) : h ∉ vis := fun hmem =>
  (List.nodup_cons.1 hw.nodup).1 (List.mem_append_right stack hmem)

/-- Seeing the symbol of the leaf just visited. -/
theorem see (hw : Walking s root stack (h :: vis) seen) (hk : (nodeAt s.node h).k = .leaf) :
    Walking s root stack (h :: vis) ((nodeAt s.node h).sym :: seen) where
  nodup := hw.nodup
  allocated := hw.allocated
  origin := hw.origin
  seen b hb := by
    obtain rfl | hb := List.mem_cons.1 hb
    · exact ⟨h, List.mem_cons_self, hk, rfl⟩
    · exact hw.seen b hb

/-- A child of the internal node about to be visited is new: its one parent has not been visited, and it is not the root. -/
theorem child_not_mem (hs : ForestInv s) (hroot : s.hasParent root = false) (hw : Walking s root (h :: stack) vis seen)
    {c : Handle} (hc : isParent s.node h c = true) : c ∉ stack ++ h :: vis := by
  have hlt : h < s.ncnt := hw.allocated h List.mem_cons_self
  intro hmem
  obtain rfl | ⟨p, hp, hpar⟩ := hw.origin c (List.perm_middle.mem_iff.1 hmem)
  · exact absurd (State.hasParent_iff.2 ⟨h, hlt, hc⟩) (by simp [hroot])
  · have hpn : p < s.ncnt := hw.allocated p (List.mem_append_right _ hp)
    obtain rfl := hs.oneParent p (State.mem_handles.2 hpn) h (State.mem_handles.2 hlt) c hpar hc
    exact hw.not_mem_vis hp

/-- Pushing the two children of the internal node just visited. -/
theorem push (hs : ForestInv s) (hroot : s.hasParent root = false) (hw : Walking s root (h :: stack) vis seen)
    (hk : (nodeAt s.node h).k = .internal) :
    Walking s root ((nodeAt s.node h).left :: (nodeAt s.node h).right :: stack) (h :: vis) seen := by
  have hlt : h < s.ncnt := hw.allocated h List.mem_cons_self
  obtain ⟨hl, hr, hne, -⟩ := hs.children h (State.mem_internals.2 ⟨hlt, hk⟩)
  have hpl : isParent s.node h (nodeAt s.node h).left = true := isParent_iff.2 ⟨hk, .inl rfl⟩
  have hpr : isParent s.node h (nodeAt s.node h).right = true := isParent_iff.2 ⟨hk, .inr rfl⟩
  have hv := hw.visit
  refine ⟨?_, ?_, ?_, hv.seen⟩
  · refine List.nodup_cons.2 ⟨fun hmem => ?_, List.nodup_cons.2 ⟨child_not_mem hs hroot hw hpr, hv.nodup⟩⟩
    obtain he | hmem := List.mem_cons.1 hmem
    · exact hne he
    · exact child_not_mem hs hroot hw hpl hmem
  · intro g hg
    obtain rfl | hg := List.mem_cons.1 hg
    · exact BitVec.lt_trans hl hlt
    · obtain rfl | hg := List.mem_cons.1 hg
      · exact BitVec.lt_trans hr hlt
      · exact hv.allocated g hg
  · intro g hg
    obtain rfl | hg := List.mem_cons.1 hg
    · exact .inr ⟨h, List.mem_cons_self, hpl⟩
    · obtain rfl | hg := List.mem_cons.1 hg
      · exact .inr ⟨h, List.mem_cons_self, hpr⟩
      · exact hv.origin g hg

/-- The pops are bounded by the number of records (R149). -/
theorem vis_length_lt (hw : Walking s root (h :: stack) vis seen) : vis.length < nodeCap + 1 := by
  have hsub : vis ⊆ s.handles := fun g hg => State.mem_handles.2 (hw.allocated g (List.mem_append_right _ hg))
  have hnodup : vis.Nodup := (List.nodup_append.1 hw.nodup).2.1
  have hle := (hnodup.subperm hsub).length_le
  rw [s.handles_length] at hle
  exact Nat.lt_of_le_of_lt hle s.ncnt.isLt

end Walking

section Forest
variable {s : State} (hs : ForestInv s) (hsym : s.LeafSymsDistinct) {root : Handle}
include hs hsym

theorem checkFrom_of_walking (hroot : s.hasParent root = false) (fuel : Nat) (stack vis : List Handle)
    (seen : List Byte) (hw : Walking s root stack vis seen) (hfuel : nodeCap + 1 ≤ fuel + vis.length) :
    checkFrom s.node fuel stack vis seen = true := by
  induction fuel generalizing stack vis seen with
  | zero =>
    cases stack with
    | nil => rfl
    | cons h stack =>
      have := hw.vis_length_lt
      omega
  | succ fuel ih =>
    cases stack with
    | nil => rfl
    | cons h stack =>
      have hlt : h < s.ncnt := hw.allocated h List.mem_cons_self
      have hfuel : nodeCap + 1 ≤ fuel + (h :: vis).length := by rw [List.length_cons]; omega
      refine checkFrom_cons.2 ⟨hw.not_mem_vis, ?_⟩
      cases hk : (nodeAt s.node h).k with
      | leaf =>
        refine .inl ⟨rfl, fun hseen => ?_, ih _ _ _ (hw.visit.see hk) hfuel⟩
        obtain ⟨g, hg, hgk, hgb⟩ := hw.seen _ hseen
        have hgn : g < s.ncnt := hw.allocated g (List.mem_append_right _ hg)
        obtain rfl := hsym g h hgn hlt hgk hk hgb
        exact hw.not_mem_vis hg
      | internal =>
        obtain ⟨hl, hr, -⟩ := hs.children h (State.mem_internals.2 ⟨hlt, hk⟩)
        have hln : (nodeAt s.node h).left < s.ncnt := BitVec.lt_trans hl hlt
        have hrn : (nodeAt s.node h).right < s.ncnt := BitVec.lt_trans hr hlt
        exact .inr ⟨rfl, ⟨ne_null_of_lt hln, ne_null_of_lt hrn⟩,
          ⟨hs.valid _ (State.mem_handles.2 hln), hs.valid _ (State.mem_handles.2 hrn)⟩,
          ih _ _ _ (hw.push hs hroot hk) hfuel⟩

/-- The check passes from every root of the engine's forest (R150). -/
theorem ForestInv.treeCheck (hlt : root < s.ncnt) (hroot : s.hasParent root = false) :
    treeCheck s.node root = true := by
  refine treeCheck_iff.2 ⟨ne_null_of_lt hlt, hs.valid root (State.mem_handles.2 hlt), ?_⟩
  refine checkFrom_of_walking hs hsym hroot 512 [root] [] [] ⟨by simp, by simpa using hlt, by simp, by simp⟩ ?_
  decide

end Forest

end Sys2Proof.Machine
end

section
/-! TBLD builds one tree: its loop merges the forest of the leaves into one, of which every node but the root is a child
(spec/41_tree_builder.md R145 to R150). -/

namespace Sys2Proof.Machine

/-- The state while TBLD builds over the symbols `p`: the engine's invariants, and every root waits in the heap, every
record not allocated is invalid, and the leaves are those of `p`. -/
structure Building (p : List Byte) (s : State) : Prop where
  engine : EngineInv s
  queued : ∀ h ∈ s.roots, h ∈ s.heapList
  fresh : ∀ h, s.ncnt ≤ h → (nodeAt s.node h).v = false
  symsDistinct : s.LeafSymsDistinct
  leaves : ∀ b ∈ p, ∃ h, h < s.ncnt ∧ (nodeAt s.node h).k = .leaf ∧ (nodeAt s.node h).sym = b

/-- LEAVES begins the building. -/
theorem LeavesMade.building {s t : State} (hm : LeavesMade s t) (hft : ∀ b, ftAt s.ft b < 2 ^ s.cfg.freqBits) :
    Building s.present t where
  engine := hm.engineInv hft
  queued h hh := by rwa [hm.heapList, ← hm.roots]
  fresh h hh := by
    rw [BitVec.le_def, hm.ncnt] at hh
    rw [hm.fresh h hh]
  symsDistinct _ _ hg hh _ _ heq := hm.sym_inj hg hh heq
  leaves b hb := by
    obtain ⟨j, hj, rfl⟩ := List.mem_iff_getElem.1 hb
    have hle := present_length_le s
    have hnat : (BitVec.ofNat 9 j).toNat = j :=
      ofNat_toNat_of_lt (Nat.lt_of_lt_of_le hj (hle.trans (by decide)))
    have hlt : BitVec.ofNat 9 j < t.ncnt := by rwa [BitVec.lt_def, hnat, hm.ncnt]
    refine ⟨_, hlt, hm.kind hlt, ?_⟩
    rw [hm.leaf j _ (List.getElem?_eq_getElem hj)]
    rfl

/-- The heap operations between the merges do not disturb the building while they keep the heap's contents. -/
theorem Building.perm {p : List Byte} {s t : State} (hb : Building p s) (hs : EngineInv t) (hw : SameForest s t)
    (hperm : t.heapList.Perm s.heapList) : Building p t where
  engine := hs
  queued h hh := hperm.mem_iff.2 (hb.queued h (hw.roots ▸ hh))
  fresh h hh := by rw [hw.node]; exact hb.fresh h (hw.ncnt ▸ hh)
  symsDistinct := by
    have := hb.symsDistinct
    simpa only [State.LeafSymsDistinct, hw.node, hw.ncnt] using this
  leaves := by simpa only [hw.node, hw.ncnt] using hb.leaves

/-- Each merge keeps the building, and leaves one node less in the heap (R147). -/
theorem Building.mrg {p : List Byte} {s : State} (hb : Building p s) (hsize : 2 ≤ s.hsize.toNat) :
    ∃ t, mrg s = .ok () t ∧ Building p t ∧ t.hsize.toNat + 1 = s.hsize.toNat := by
  obtain ⟨hsmall, -⟩ | ⟨-, a, b, u, hu, hw, hperm, ⟨ha, hb', hab⟩, -, h, hm⟩ := mrg_merges hb.engine
  · omega
  have hsame := hw.sameForest
  have ht : EngineInv (mergeNode a b u) := by
    have := mrg_engineInv hb.engine
    rwa [h] at this
  obtain ⟨hfu, -⟩ := (engineInv_iff u).1 hu
  have hak : a ≠ u.ncnt := fun he => absurd (State.mem_roots.1 ha).1 (he ▸ BitVec.lt_irrefl _)
  have hbk : b ≠ u.ncnt := fun he => absurd (State.mem_roots.1 hb').1 (he ▸ BitVec.lt_irrefl _)
  have hlen := hperm.length_eq
  simp only [List.length_cons, State.heapList_length] at hlen
  have hleaf : ∀ g, g < (mergeNode a b u).ncnt → (nodeAt (mergeNode a b u).node g).k = .leaf →
      g < s.ncnt ∧ nodeAt (mergeNode a b u).node g = nodeAt s.node g := by
    intro g hg hk
    obtain hlt | rfl := hm.lt_iff.1 hg
    · exact ⟨hsame.ncnt ▸ hlt, by rw [hm.old_of_lt hlt, hsame.node]⟩
    · rw [hm.new] at hk
      exact nomatch hk
  refine ⟨_, h, ⟨ht, fun g hg => ?queued, fun g hg => ?fresh, fun f g hf hg hfk hgk heq => ?syms, fun c hc => ?leaves⟩,
    by rw [hm.hsize]; omega⟩
  case queued =>
    rw [hm.roots hfu.hasParent_ncnt hak hbk, List.mem_append, List.mem_singleton, List.mem_filter] at hg
    rw [hm.heap.mem_iff, List.mem_cons]
    obtain ⟨hgr, hne⟩ | rfl := hg
    · have hmem := hperm.mem_iff.1 (hb.queued g (hsame.roots ▸ hgr))
      obtain ⟨hga, hgb⟩ : ¬ a = g ∧ ¬ b = g := by simpa using hne
      simp only [List.mem_cons, Ne.symm hga, Ne.symm hgb, false_or] at hmem
      exact .inr hmem
    · exact .inl rfl
  case fresh =>
    rw [BitVec.le_def, hm.ncnt] at hg
    have hne : g ≠ u.ncnt := by rintro rfl; omega
    rw [hm.old g hne, hsame.node]
    refine hb.fresh g ?_
    rw [← hsame.ncnt, BitVec.le_def]
    omega
  case syms =>
    obtain ⟨hf', hfn⟩ := hleaf f hf hfk
    obtain ⟨hg', hgn⟩ := hleaf g hg hgk
    rw [hfn] at hfk heq
    rw [hgn] at hgk heq
    exact hb.symsDistinct f g hf' hg' hfk hgk heq
  case leaves =>
    obtain ⟨g, hg, hk, hsym⟩ := hb.leaves c hc
    have hgu : g < u.ncnt := by rwa [hsame.ncnt]
    refine ⟨g, hm.lt_iff.2 (.inl hgu), ?_⟩
    rw [hm.old_of_lt hgu, hsame.node]
    exact ⟨hk, hsym⟩

/-- TBLD's loop ends with one node in the heap (R145, R147). -/
theorem Building.mergeAll {p : List Byte} (fuel : Nat) {s : State} (hb : Building p s) (hpos : 1 ≤ s.hsize.toNat)
    (hfuel : s.hsize.toNat ≤ fuel + 1) :
    ∃ t, mergeAll fuel s = .ok () t ∧ Building p t ∧ t.hsize.toNat = 1 := by
  induction fuel generalizing s with
  | zero => exact ⟨s, rfl, hb, by omega⟩
  | succ fuel ih =>
    rw [Machine.mergeAll]
    split_ifs with hsize
    · obtain ⟨t, ht, hbt, hlen⟩ := hb.mrg hsize
      rw [ht, Run.andThen_ok]
      exact ih hbt (by omega) (by omega)
    · exact ⟨s, rfl, hb, by omega⟩

/-- What TBLD leaves over the symbols `p` (R145, R150): the engine's invariants, one root, the leaves of `p`, and no
other record valid. -/
structure Built (p : List Byte) (t : State) : Prop where
  engine : EngineInv t
  tv : t.tv = true
  root_lt : t.root < t.ncnt
  hasParent : ∀ h, h < t.ncnt → (t.hasParent h = false ↔ h = t.root)
  fresh : ∀ h, t.ncnt ≤ h → (nodeAt t.node h).v = false
  symsDistinct : t.LeafSymsDistinct
  leaves : ∀ b ∈ p, ∃ h, h < t.ncnt ∧ (nodeAt t.node h).k = .leaf ∧ (nodeAt t.node h).sym = b

theorem Building.built {p : List Byte} {s : State} (hb : Building p s) (hsize : s.hsize.toNat = 1) :
    ∃ h t, extractMin s = .ok h t ∧ Built p ((t.setRoot h).setTv true) := by
  cases he : extractMin s with
  | raised e t => exact absurd hsize (by simp [hsize_of_extractMin_raised he])
  | ok h t =>
    refine ⟨h, t, rfl, ?_⟩
    obtain ⟨ht, hlt, hmem, -, -, hw⟩ := extractMin_engineInv hb.engine he
    have honly : ∀ g, g ∈ s.heapList ↔ g = h := by
      obtain ⟨g, hg⟩ := List.length_eq_one_iff.1 (s.heapList_length.trans hsize)
      rw [hg, List.mem_singleton] at hmem
      simp [hg, hmem]
    have hsame : SameForest s ((t.setRoot h).setTv true) := ⟨hw.cfg, hw.node, hw.ncnt, hw.ndist, hw.hcap⟩
    refine ⟨ht.congr ⟨rfl, rfl, rfl, rfl, rfl⟩ rfl rfl rfl, rfl, hsame.ncnt ▸ hlt, fun g hg => ?_, fun g hg => ?_, ?_, ?_⟩
    · rw [hsame.ncnt] at hg
      rw [hsame.hasParent]
      constructor
      · exact fun hp => (honly g).1 (hb.queued g (State.mem_roots.2 ⟨hg, hp⟩))
      · intro he'
        exact (hb.engine.parentless g (State.mem_handles.2 hg)).2 (.inl ((honly g).2 he'))
    · rw [hsame.node]
      exact hb.fresh g (hsame.ncnt ▸ hg)
    · have := hb.symsDistinct
      simpa only [State.LeafSymsDistinct, hsame.node, hsame.ncnt] using this
    · simpa only [hsame.node, hsame.ncnt] using hb.leaves

/-- TBLD by cases (R145, R148): on an all-zero table it raises and leaves nothing allocated; otherwise it builds the tree
of the symbols that occur. -/
theorem tbld_cases {s : State} (hft : ∀ b, ftAt s.ft b < 2 ^ s.cfg.freqBits) :
    (s.present = [] ∧ ∃ t, tbld s = .raised .emptyHeap t ∧ t.ncnt = 0#9 ∧ t.tv = false) ∨
    (s.present ≠ [] ∧ ∃ t, tbld s = .ok () t ∧ Built s.present t) := by
  obtain ⟨s1, h1, hm⟩ := leaves_spec s
  obtain ⟨heap, h2⟩ := hbld_writes s1
  have hsize : (s1.setHeap heap).hsize.toNat = s.present.length := hm.hsize
  by_cases hp : s.present = []
  · refine .inl ⟨hp, (s1.setHeap heap).setRes null, ?_, ?_, hm.tv⟩
    · have h0 : (s1.setHeap heap).hsize = 0#9 := BitVec.eq_of_toNat_eq (by rw [hsize, hp]; rfl)
      have h4 : extractMin (s1.setHeap heap) = .raised .emptyHeap ((s1.setHeap heap).setRes null) := by
        obtain ⟨-, h⟩ | ⟨hne, -⟩ := extractMin_cases (s1.setHeap heap)
        · exact h
        · exact absurd h0 hne
      have h3 : mergeAll (s1.setHeap heap).hsize.toNat (s1.setHeap heap) = .ok () (s1.setHeap heap) := by
        rw [h0]; rfl
      simp only [tbld, h1, h2, Run.andThen_ok, h3, h4, Run.andThen_raised]
    · exact BitVec.eq_of_toNat_eq (by rw [State.setRes_ncnt, State.setHeap_ncnt, hm.ncnt, hp]; rfl)
  · have hpos : 1 ≤ s.present.length := List.length_pos_iff.2 hp
    have hb1 := hm.building hft
    have hs2 := hbld_engineInv hb1.engine
    have hw := (hbld_heapWrites s1).sameForest
    have hperm := heapList_hbld s1
    rw [h2] at hs2 hw hperm
    have hb2 : Building s.present (s1.setHeap heap) := hb1.perm hs2 hw hperm
    obtain ⟨s3, h3, hb3, hone⟩ := hb2.mergeAll (s1.setHeap heap).hsize.toNat (by omega) (Nat.le_succ _)
    obtain ⟨h, s4, h4, hbuilt⟩ := hb3.built hone
    refine .inr ⟨hp, _, ?_, hbuilt⟩
    simp only [tbld, h1, h2, Run.andThen_ok, h3, h4]

/-! ## Every step keeps what STATUS.TV promises -/

theorem Built.treeInv {p : List Byte} {t : State} (hb : Built p t) : TreeInv t where
  fresh _ := hb.fresh
  sound _ := ((engineInv_iff t).1 hb.engine).1.treeCheck hb.symsDistinct hb.root_lt
    ((hb.hasParent _ hb.root_lt).2 rfl)

section Commands
variable {s t : State}

theorem TreeInv.congr (hs : TreeInv s) (hnode : t.node = s.node) (hncnt : t.ncnt = s.ncnt) (hroot : t.root = s.root)
    (htv : t.tv = true → s.tv = true ∨ treeCheck s.node s.root = true) : TreeInv t where
  fresh := by rw [hnode, hncnt]; exact hs.fresh
  sound h := by
    rw [hnode, hroot]
    exact (htv h).elim hs.sound id

/-- A command that makes no node and moves no root keeps the promise, if it sets TV only where the check passes. -/
theorem treeInv_of_frame {i : Instr} (hs : TreeInv s) (hf : Frame i s t) (hi : i ∉ [.leaves, .mrg, .tbld, .enc, .rst])
    (htv : t.tv = true → s.tv = true ∨ treeCheck s.node s.root = true) : TreeInv t :=
  have out : ∀ L : List Instr, L ⊆ [.leaves, .mrg, .tbld, .enc, .rst] → i ∉ L := fun L hL hmem => hi (hL hmem)
  hs.congr (hf.node (out _ (by decide))) (hf.ncnt (out _ (by decide))) (hf.root (out _ (by decide))) htv

theorem leaves_treeInv (s : State) : TreeInv (leaves s).state := by
  obtain ⟨t, h, hm⟩ := leaves_spec s
  rw [h]
  refine ⟨fun _ g hg => ?_, fun htv => nomatch htv.symm.trans hm.tv⟩
  rw [Run.state_ok, BitVec.le_def, hm.ncnt] at hg
  rw [Run.state_ok, hm.fresh g hg]

/-- MRG allocates a record that was invalid, so that no record of a checked tree changes. -/
theorem mrg_treeInv (he : EngineInv s) (hs : TreeInv s) : TreeInv (mrg s).state := by
  have hf := (body_frame .mrg s).data
  have hroot : (mrg s).state.root = s.root := hf.root (by decide)
  have htv : (mrg s).state.tv = s.tv := hf.tv (by decide)
  obtain ⟨-, t, h, -, hw⟩ | ⟨hsize, a, b, u, hu, hw, -, -, -, h, hm⟩ := mrg_merges he
  · rw [h] at hroot htv ⊢
    exact hs.congr hw.sameForest.node hw.sameForest.ncnt hroot fun h => .inl (htv ▸ h)
  · have hsame := hw.sameForest
    have hne : s.ncnt ≠ 0#9 := by
      intro h0
      have := BitVec.le_def.1 he.heapSize
      rw [h0, BitVec.toNat_ofNat, Nat.zero_mod] at this
      omega
    have hfresh := hs.fresh hne
    rw [h] at hroot htv ⊢
    rw [Run.state_ok] at hroot htv ⊢
    refine ⟨fun _ g hg => ?_, fun h' => ?_⟩
    · rw [BitVec.le_def, hm.ncnt] at hg
      have hgu : g ≠ u.ncnt := by rintro rfl; omega
      rw [hm.old g hgu, hsame.node]
      refine hfresh g ?_
      rw [← hsame.ncnt, BitVec.le_def]
      omega
    · rw [htv] at h'
      rw [hroot]
      refine treeCheck_of_agree (fun g hg => ?_) (hs.sound h')
      have hgu : g ≠ u.ncnt := by
        rintro rfl
        rw [hsame.ncnt] at hg
        exact nomatch hg.symm.trans (hfresh s.ncnt (BitVec.le_refl _))
      rw [hm.old g hgu, hsame.node]

theorem tbld_treeInv (hft : ∀ b, ftAt s.ft b < 2 ^ s.cfg.freqBits) : TreeInv (tbld s).state := by
  obtain ⟨-, t, h, hn, htv⟩ | ⟨-, t, h, hb⟩ := tbld_cases hft
  · rw [h]; exact .of_none hn htv
  · rw [h]; exact hb.treeInv

theorem tchk_treeInv (hs : TreeInv s) : TreeInv (tchk s).state :=
  treeInv_of_frame hs (body_frame .tchk s).data (by decide) fun h => .inr (by rwa [tchk_writes] at h)

theorem cgen_treeInv (hs : TreeInv s) : TreeInv (cgen s).state := by
  refine treeInv_of_frame hs (body_frame .cgen s).data (by decide) fun h => ?_
  obtain ⟨ct, hw⟩ := cgen_writes s
  rw [hw] at h
  exact (Bool.or_eq_true _ _).mp h

theorem unpk_treeInv (hs : TreeInv s) : TreeInv (unpk s).state := by
  refine treeInv_of_frame hs (body_frame .unpk s).data (by decide) fun h => ?_
  obtain ⟨out, n, hw⟩ := unpk_writes s
  rw [hw] at h
  exact (Bool.or_eq_true _ _).mp h

theorem dec_treeInv (hs : TreeInv s) : TreeInv (dec s).state := by
  refine treeInv_of_frame hs (body_frame .dec s).data (by decide) fun h => ?_
  obtain ⟨out, n, hw⟩ := dec_writes s
  rw [hw] at h
  exact (Bool.or_eq_true _ _).mp h

/-- A command that does not write TV either. -/
theorem treeInv_of_frame_tv {i : Instr} (hs : TreeInv s) (hf : Frame i s t)
    (hi : i ∉ [.leaves, .mrg, .tbld, .enc, .rst, .tchk, .cgen, .unpk, .dec]) : TreeInv t := by
  have out : ∀ L : List Instr, L ⊆ [.leaves, .mrg, .tbld, .enc, .rst, .tchk, .cgen, .unpk, .dec] → i ∉ L :=
    fun L hL hmem => hi (hL hmem)
  exact treeInv_of_frame hs hf (out _ (by decide)) fun h => .inl (hf.tv (out _ (by decide)) ▸ h)

theorem enc_treeInv (hwf : s.wf = true) (hs : TreeInv s) : TreeInv (enc s).state := by
  unfold enc
  split_ifs
  · exact hs
  · refine (Run.andThen_state (P := fun t => t.wf = true ∧ TreeInv t)
      ⟨wf_fcnt hwf, treeInv_of_frame_tv hs (body_frame .fcnt s).data (by decide)⟩ fun _ t ht => ?_).2
    refine Run.andThen_state (P := fun t => t.wf = true ∧ TreeInv t)
      ⟨wf_tbld ht.1, tbld_treeInv (ftAt_lt ht.1)⟩ fun _ u hu => ?_
    refine Run.andThen_state (P := fun t => t.wf = true ∧ TreeInv t)
      ⟨wf_cgen hu.1, cgen_treeInv hu.2⟩ fun _ v hv => ?_
    exact ⟨wf_pack hv.1, treeInv_of_frame_tv hv.2 (body_frame .pack v).data (by decide)⟩

theorem body_treeInv (hwf : s.wf = true) (he : EngineInv s) (hs : TreeInv s) (i : Instr) :
    TreeInv (body i s).state := by
  cases i with
  | leaves => exact leaves_treeInv s
  | mrg => exact mrg_treeInv he hs
  | tbld => exact tbld_treeInv (ftAt_lt hwf)
  | tchk => exact tchk_treeInv hs
  | cgen => exact cgen_treeInv hs
  | unpk => exact unpk_treeInv hs
  | enc => exact enc_treeInv hwf hs
  | dec => exact dec_treeInv hs
  | rst => exact .of_none rfl rfl
  | hins arg => exact treeInv_of_frame_tv hs (body_frame _ s).data (by simp)
  | nop | fcnt | hbld | hext | pack | clre => exact treeInv_of_frame_tv hs (body_frame _ s).data (by decide)

theorem hostStore_treeInv (hs : TreeInv s) (h : HostStore s t) : TreeInv t := by
  cases h with
  | ignored => exact hs
  | node i r => exact .of_none rfl rfl
  | root h => exact ⟨hs.fresh, nofun⟩
  | symcnt | bitcnt | sym | ft | ct | bit => exact hs.congr rfl rfl rfl .inl

end Commands

theorem treeInv_stepInvariant : StepInvariant (fun s => (s.wf = true ∧ EngineInv s) ∧ TreeInv s) where
  setPort s p h := ⟨engineInv_stepInvariant.setPort s p h.1, h.2.congr rfl rfl rfl .inl⟩
  setPh s p h := ⟨engineInv_stepInvariant.setPh s p h.1, h.2.congr rfl rfl rfl .inl⟩
  setErr s e h := ⟨engineInv_stepInvariant.setErr s e h.1, h.2.congr rfl rfl rfl .inl⟩
  body i s h := ⟨engineInv_stepInvariant.body i s h.1, body_treeInv h.1.1 h.1.2 h.2 i⟩
  store s t h hst := ⟨engineInv_stepInvariant.store s t h.1 hst, hostStore_treeInv h.2 hst⟩
  powerOn d s h := ⟨engineInv_stepInvariant.powerOn d s h.1, .of_none rfl rfl⟩

/-- Settles O57: TV is set by TCHK where the check passes and by TBLD on a tree that passes it, and what a checked tree
is made of stays until TV is cleared. -/
theorem stepKeepsTheTreeValid : Obligations.StepKeepsTheTreeValid :=
  fun _ _ hwf he hs h => (treeInv_stepInvariant.step ⟨⟨hwf, he⟩, hs⟩ h).2

end Sys2Proof.Machine
end

section
/-! What ENC can raise (spec/44_facade.md R190; spec/60_exceptions.md R210, R217): after its own count, tree and code
table every symbol of the input has a usable code. -/

namespace Sys2Proof.Machine

/-! ## The count -/

/-- While no entry can overflow, the loop of FCNT adds to each entry how often its symbol occurs (R140). -/
theorem ftAt_countSymbols (w : Nat) (sym : Mem Byte) (m k : Nat) (ft : Mem Nat) (hroom : ∀ b, ftAt ft b + m < 2 ^ w)
    (b : Byte) :
    ftAt (countSymbols w sym m k ft) b = ftAt ft b + ((List.range' k m).map (byteAt sym)).count b := by
  induction m generalizing k ft with
  | zero => rfl
  | succ m ih =>
    have hnarrow : narrow w (ftAt ft (byteAt sym k) + 1) = ftAt ft (byteAt sym k) + 1 :=
      narrow_of_lt (by have := hroom (byteAt sym k); omega)
    have hput : ∀ c, ftAt (putFt w ft (byteAt sym k) (ftAt ft (byteAt sym k) + 1)) c =
        ftAt ft c + if byteAt sym k = c then 1 else 0 := by
      intro c
      rw [ftAt_putFt, hnarrow]
      by_cases hc : c = byteAt sym k
      · simp [hc]
      · simp [hc, Ne.symm hc]
    have hnext : ∀ c, ftAt (putFt w ft (byteAt sym k) (ftAt ft (byteAt sym k) + 1)) c + m < 2 ^ w := by
      intro c
      have := hroom c
      rw [hput]
      split_ifs <;> omega
    rw [countSymbols, ih (k + 1) _ hnext, hput, List.range'_succ, List.map_cons, List.count_cons]
    simp only [beq_iff_eq]
    omega

/-- FCNT of an input that fits SYM (R140): FT[b] is the number of occurrences of `b`. -/
theorem fcnt_counts {s : State} (hv : s.cfg.Valid) (hfits : s.symcnt ≤ s.cfg.symCap) :
    ∃ ft, fcnt s = .ok () (s.setFt ft) ∧ ∀ b, ftAt ft b = s.occurrences b := by
  obtain ⟨-, ⟨-, hcap⟩, -, -⟩ := hv
  have hpos := Nat.two_pow_pos s.cfg.freqBits
  refine ⟨_, if_neg (by omega), fun b => ?_⟩
  have hzero : ∀ c, ftAt [] c = 0 := fun _ => rfl
  rw [ftAt_countSymbols _ _ _ _ _ (fun c => by rw [hzero]; omega), hzero, Nat.zero_add, ← List.range_eq_range']
  rfl

theorem occurrences_lt {s : State} (hv : s.cfg.Valid) (hfits : s.symcnt ≤ s.cfg.symCap) (b : Byte) :
    s.occurrences b < 2 ^ s.cfg.freqBits := by
  obtain ⟨-, ⟨-, hcap⟩, -, -⟩ := hv
  have hpos := Nat.two_pow_pos s.cfg.freqBits
  have hle : s.occurrences b ≤ s.symcnt := List.count_le_length.trans (by simp [State.input])
  omega

theorem occurrences_ne_zero (s : State) {k : Nat} (hk : k < s.symcnt) : s.occurrences (byteAt s.sym k) ≠ 0 :=
  (List.count_pos_iff.2 (List.mem_map.2 ⟨k, List.mem_range.2 hk, rfl⟩)).ne'

/-! ## Paths in the tree -/

theorem Reaches.append {node : Mem NodeRec} {r h t : Handle} {p q : List Bool} (hp : Reaches node r p h)
    (hq : Reaches node h q t) : Reaches node r (p ++ q) t := by
  induction hp with
  | here _ => exact hq
  | left hk _ ih => exact .left hk (ih hq)
  | right hk _ ih => exact .right hk (ih hq)

/-- From a leaf only the leaf itself is reached. -/
theorem Reaches.eq_of_leaf {node : Mem NodeRec} {h t : Handle} {p : List Bool} (hp : Reaches node h p t)
    (hk : (nodeAt node h).k = .leaf) : t = h := by
  cases hp with
  | here => rfl
  | left hi _ => exact nomatch hk.symm.trans hi
  | right hi _ => exact nomatch hk.symm.trans hi

/-- A child is reached from its parent. -/
theorem exists_reaches_of_isParent {node : Mem NodeRec} {p h : Handle} (hp : isParent node p h = true) :
    ∃ q, Reaches node p q h := by
  obtain ⟨hk, rfl | rfl⟩ := isParent_iff.1 hp
  · exact ⟨[false], .left hk (.here _)⟩
  · exact ⟨[true], .right hk (.here _)⟩

/-- Handles fall along a path, so a path from `h` is no longer than the internal nodes up to `h` are many. -/
theorem ForestInv.path_length_le {s : State} (hs : ForestInv s) {h t : Handle} {p : List Bool}
    (hp : Reaches s.node h p t) (hlt : h < s.ncnt) :
    p.length ≤ (s.internals.filter fun g => decide (g ≤ h)).length := by
  have hstep : ∀ {h c : Handle}, h < s.ncnt → (nodeAt s.node h).k = .internal → c < h →
      (s.internals.filter fun g => decide (g ≤ c)).length + 1 ≤
        (s.internals.filter fun g => decide (g ≤ h)).length := by
    intro h c hh hk hc
    have hnot : h ∉ s.internals.filter fun g => decide (g ≤ c) := by
      simp [BitVec.not_le.2 hc]
    have hsub : (h :: s.internals.filter fun g => decide (g ≤ c)) ⊆ s.internals.filter fun g => decide (g ≤ h) := by
      intro g hg
      obtain rfl | hg := List.mem_cons.1 hg
      · simp [State.mem_internals, hh, hk]
      · rw [List.mem_filter, decide_eq_true_eq] at hg ⊢
        exact ⟨hg.1, BitVec.le_trans hg.2 (BitVec.le_of_lt hc)⟩
    exact ((List.nodup_cons.2 ⟨hnot, s.internals_nodup.filter _⟩).subperm hsub).length_le
  induction hp with
  | here _ => exact Nat.zero_le _
  | left hk _ ih =>
    obtain ⟨hl, -⟩ := hs.children _ (State.mem_internals.2 ⟨hlt, hk⟩)
    exact (Nat.succ_le_succ (ih (BitVec.lt_trans hl hlt))).trans (hstep hlt hk hl)
  | right hk _ ih =>
    obtain ⟨-, hr, -⟩ := hs.children _ (State.mem_internals.2 ⟨hlt, hk⟩)
    exact (Nat.succ_le_succ (ih (BitVec.lt_trans hr hlt))).trans (hstep hlt hk hr)

namespace Built

variable {p : List Byte} {t : State} (hb : Built p t)
include hb

/-- Every node of the tree is reached from the root: each other one has a younger parent. -/
theorem reaches {h : Handle} (hh : h < t.ncnt) : ∃ q, Reaches t.node t.root q h := by
  induction hn : t.ncnt.toNat - h.toNat using Nat.strong_induction_on generalizing h with
  | _ n ih =>
    by_cases hroot : h = t.root
    · exact ⟨[], hroot ▸ .here _⟩
    · have hpar : t.hasParent h = true := by
        rw [← Bool.not_eq_false, hb.hasParent h hh]
        exact hroot
      obtain ⟨g, hg, hgh⟩ := State.hasParent_iff.1 hpar
      have hlt := ((engineInv_iff t).1 hb.engine).1.lt_of_isParent hg hgh
      rw [BitVec.lt_def] at hlt
      have hgn := BitVec.lt_def.1 hg
      obtain ⟨q, hq⟩ := ih (t.ncnt.toNat - g.toNat) (by omega) hg rfl
      obtain ⟨q', hq'⟩ := exists_reaches_of_isParent hgh
      exact ⟨q ++ q', hq.append hq'⟩

/-- No path of the tree is longer than MAXLEN: it has at most 255 internal nodes (R11, R161). -/
theorem path_length_le {q : List Bool} {h : Handle} (hq : Reaches t.node t.root q h) : q.length ≤ maxLen := by
  obtain ⟨hf, -⟩ := (engineInv_iff t).1 hb.engine
  have hroots : 0 < t.roots.length :=
    List.length_pos_of_mem (State.mem_roots.2 ⟨hb.root_lt, (hb.hasParent _ hb.root_lt).2 rfl⟩)
  have hcount := hf.rootCount
  have hdist := hf.distinct
  have hle := (hf.path_length_le hq hb.root_lt).trans (List.length_filter_le _ _)
  simp only [nSym] at hdist
  simp only [maxLen]
  omega

/-- Every symbol of the alphabet is at a leaf of the tree. -/
theorem exists_leaf {b : Byte} (hbp : b ∈ p) :
    ∃ q h, Reaches t.node t.root q h ∧ (nodeAt t.node h).k = .leaf ∧ (nodeAt t.node h).sym = b := by
  obtain ⟨h, hh, hk, hsym⟩ := hb.leaves b hbp
  obtain ⟨q, hq⟩ := hb.reaches hh
  exact ⟨q, h, hq, hk, hsym⟩

end Built

/-! ## The code table -/

/-- A code of 1 to 255 bits is one that PACK can use (R97, R217). -/
theorem codeRec_usable {p : List Bool} (hpos : p ≠ []) (hle : p.length ≤ maxLen) : (codeRec p).usable = true := by
  have hpos := List.length_pos_iff.2 hpos
  simp only [maxLen] at hle
  have hlen : BitVec.ofNat 8 p.length ≠ 0#8 := by
    intro h0
    have := congrArg BitVec.toNat h0
    simp only [BitVec.toNat_ofNat] at this
    omega
  simp [CodeRec.usable, codeRec, hlen]

/-- CGEN's walk below `h` writes usable codes only, and one for each leaf that it reaches (R161). -/
theorem walk_usable (node : Mem NodeRec) (fuel : Nat) (h : Handle) (path : List Bool) (ct : Mem CodeRec)
    (hdepth : ∀ p t, Reaches node h p t → path.length + p.length ≤ maxLen)
    (hcode : path ≠ [] ∨ (nodeAt node h).k = .internal) :
    (∀ b, (ctAt ct b).usable = true → (ctAt (walk node fuel h path ct) b).usable = true) ∧
    ∀ p t, Reaches node h p t → (nodeAt node t).k = .leaf → p.length < fuel →
      (ctAt (walk node fuel h path ct) (nodeAt node t).sym).usable = true := by
  induction fuel generalizing h path ct with
  | zero => exact ⟨fun _ => id, fun _ _ _ _ hlt => absurd hlt (Nat.not_lt_zero _)⟩
  | succ fuel ih =>
    rw [walk]
    cases hk : (nodeAt node h).k with
    | leaf =>
      have hne : path.reverse ≠ [] := by simpa [hk] using hcode
      have huse : (codeRec path.reverse).usable = true :=
        codeRec_usable hne (by simpa using hdepth [] h (.here h))
      refine ⟨fun b hb => ?_, fun p t hp ht _ => ?_⟩
      · rw [ctAt_putCt]
        split_ifs
        · exact huse
        · exact hb
      · rw [hp.eq_of_leaf hk, ctAt_putCt, if_pos rfl]
        exact huse
    | internal =>
      obtain ⟨hkeepl, hleft⟩ := ih (nodeAt node h).left (false :: path) ct (fun p t hp => by
        have := hdepth (false :: p) t (.left hk hp)
        simp only [List.length_cons] at this ⊢
        omega) (.inl (List.cons_ne_nil _ _))
      obtain ⟨hkeepr, hright⟩ := ih (nodeAt node h).right (true :: path)
        (walk node fuel (nodeAt node h).left (false :: path) ct) (fun p t hp => by
        have := hdepth (true :: p) t (.right hk hp)
        simp only [List.length_cons] at this ⊢
        omega) (.inl (List.cons_ne_nil _ _))
      refine ⟨fun b hb => hkeepr b (hkeepl b hb), fun p t hp ht hlt => ?_⟩
      cases hp with
      | here => exact nomatch hk.symm.trans ht
      | left _ hp => exact hkeepr _ (hleft _ t hp ht (Nat.lt_of_succ_lt_succ hlt))
      | right _ hp => exact hright _ t hp ht (Nat.lt_of_succ_lt_succ hlt)

/-- In the table of a tree no deeper than MAXLEN every leaf's symbol has a usable code (R161 to R163). -/
theorem generateCodes_usable {node : Mem NodeRec} {root t : Handle} {p : List Bool} (ct : Mem CodeRec)
    (hdepth : ∀ p t, Reaches node root p t → p.length ≤ maxLen) (hp : Reaches node root p t)
    (ht : (nodeAt node t).k = .leaf) : (ctAt (generateCodes node root ct) (nodeAt node t).sym).usable = true := by
  unfold generateCodes
  cases hk : (nodeAt node root).k with
  | leaf =>
    rw [hp.eq_of_leaf hk, ctAt_putCt, if_pos rfl]
    exact codeRec_usable (List.cons_ne_nil _ _) (by decide)
  | internal =>
    exact (walk_usable node (maxLen + 1) root [] ct (by simpa using hdepth) (.inr hk)).2 p t hp ht
      (Nat.lt_succ_of_le (hdepth p t hp))

/-- With TV = 1 CGEN makes the table of the tree at ROOT over the old one, its codes dropped (R161). -/
theorem cgen_of_tv {s : State} (htv : s.tv = true) :
    cgen s = .ok () ((s.setCt (clearCtV s.ct)).setCt (generateCodes s.node s.root (clearCtV s.ct))) := by
  have hensure : ensureTree (s.setCt (clearCtV s.ct)) = .ok () (s.setCt (clearCtV s.ct)) := if_pos htv
  rw [cgen, hensure]
  rfl

/-! ## The packing -/

theorem packSymbols_noCode (c : Config) (sym : Mem Byte) (ct : Mem CodeRec) (m k pos : Nat) (bit : Mem Byte)
    (h : (packSymbols c sym ct m k pos bit).2 = .error .noCode) :
    ∃ j, j < k + m ∧ (ctAt ct (byteAt sym j)).usable = false := by
  induction m generalizing k pos bit with
  | zero => cases h
  | succ m ih =>
    simp only [packSymbols] at h
    split_ifs at h with hbad hfull
    · refine ⟨k, by omega, ?_⟩
      obtain hv | hlen := hbad
      · simp [CodeRec.usable, hv]
      · simp [CodeRec.usable, hlen]
    · cases h
    · obtain ⟨j, hj, hju⟩ := ih _ _ _ h
      exact ⟨j, by omega, hju⟩

/-- PACK raises NoCodeError only where an input symbol has no usable code (R217). -/
theorem pack_noCode {s t : State} (h : pack s = .raised .noCode t) :
    ∃ k, k < s.symcnt ∧ (s.codeAt k).usable = false := by
  unfold pack at h
  split_ifs at h
  · cases h
  split at h
  · cases h
  · next bit e heq =>
    cases h
    obtain ⟨k, hk, hbad⟩ := packSymbols_noCode s.cfg s.sym s.ct s.symcnt 0 0 s.bit (congrArg Prod.snd heq)
    exact ⟨k, by omega, hbad⟩

/-! ## ENC -/

/-- ENC raises EmptyInputError on an empty input, and CapacityError alone on any other (R190). -/
theorem enc_raises {s t : State} {e : ErrorCode} (hv : s.cfg.Valid) (h : enc s = .raised e t) :
    (e = .emptyInput ∧ s.symcnt = 0) ∨ (e = .capacity ∧ s.symcnt ≠ 0) := by
  unfold enc at h
  split_ifs at h with hempty
  · cases h
    exact .inl ⟨rfl, hempty⟩
  refine .inr ⟨?_, hempty⟩
  by_cases hfits : s.symcnt ≤ s.cfg.symCap
  swap
  · have hraise : fcnt s = .raised .capacity s := if_pos (Nat.lt_of_not_le hfits)
    rw [hraise, Run.andThen_raised] at h
    cases h; rfl
  obtain ⟨ft, hfcnt, hft⟩ := fcnt_counts hv hfits
  rw [hfcnt, Run.andThen_ok] at h
  have hlt : ∀ b, ftAt (s.setFt ft).ft b < 2 ^ (s.setFt ft).cfg.freqBits := fun b => by
    rw [State.setFt_ft, hft]
    exact occurrences_lt hv hfits b
  have hpresent : ∀ k, k < s.symcnt → byteAt s.sym k ∈ (s.setFt ft).present := fun k hk => by
    rw [mem_present, State.setFt_ft, hft]
    exact occurrences_ne_zero s hk
  obtain ⟨hnone, -⟩ | ⟨-, u, htbld, hb⟩ := tbld_cases hlt
  · exact absurd (hpresent 0 (Nat.pos_of_ne_zero hempty)) (by simp [hnone])
  have hframe := (body_frame .tbld (s.setFt ft)).data
  have husym : u.sym = s.sym := by have := hframe.sym; rwa [body, htbld] at this
  have husymcnt : u.symcnt = s.symcnt := by have := hframe.symcnt (by decide); rwa [body, htbld] at this
  rw [htbld, Run.andThen_ok, cgen_of_tv hb.tv, Run.andThen_ok] at h
  obtain rfl | rfl := pack_raises h
  · obtain ⟨k, hk, hbad⟩ := pack_noCode h
    have hk : k < s.symcnt := husymcnt ▸ hk
    obtain ⟨q, g, hq, hgk, hsym⟩ := hb.exists_leaf (hpresent k hk)
    have huse := generateCodes_usable (clearCtV u.ct) (fun _ _ => hb.path_length_le) hq hgk
    rw [hsym, ← husym] at huse
    exact nomatch hbad.symm.trans huse
  · rfl

end Sys2Proof.Machine
end

section
/-! Which commands write each piece of state, and what they do to STATUS.ERR and PH (spec/10_state.md R22; spec/20_memory.md
R62; spec/60_exceptions.md R210, R222). -/

namespace Sys2Proof.Machine

/-- A raised error is one that R210 gives the command, for ENC under the constraints of R10. -/
theorem body_raises_listed {i : Instr} {s t : State} {e : ErrorCode} (hv : i = .enc → s.cfg.Valid)
    (h : body i s = .raised e t) : raisedBy e i = true := by
  by_cases hi : i = .enc
  · subst hi
    obtain ⟨rfl, -⟩ | ⟨rfl, -⟩ := enc_raises (hv rfl) h <;> rfl
  · exact body_raises hi h

theorem body_ne_raised {i : Instr} (hi : i ∈ [.nop, .leaves, .hbld, .clre, .rst]) {s t : State} {e : ErrorCode} :
    body i s ≠ .raised e t := by
  simp only [List.mem_cons, List.not_mem_nil, or_false] at hi
  obtain rfl | rfl | rfl | rfl | rfl := hi
  case inr.inr.inl =>
    obtain ⟨heap, h⟩ := hbld_writes s
    rw [body, h]
    exact nofun
  all_goals exact nofun

/-- CLRE and RST keep the pending error or clear it (R201, R202). -/
theorem body_err_of_clearing {i : Instr} (hi : i ∈ [.clre, .rst]) (s : State) :
    (body i s).state.err = s.err ∨ (body i s).state.err = none := by
  simp only [List.mem_cons, List.not_mem_nil, or_false] at hi
  obtain rfl | rfl := hi
  · obtain ⟨-, h⟩ | ⟨-, h⟩ := s.clearError_cases <;> rw [body, h]
    · exact .inl rfl
    · exact .inr rfl
  · exact .inr rfl

/-- A command's frame with its error entry (R222): STATUS.ERR and PH are as its course left them, or as the entry of the
error that it raised sets them. -/
theorem exec_frame {i : Instr} {s t : State} (h : exec i s = .next t) :
    Frame i s t ∧ ((t.err = (body i s).state.err ∧ t.ph = s.ph) ∨
      ∃ e u, body i s = .raised e u ∧ t.err = some e ∧ t.ph = .idle) := by
  have hb := body_frame i s
  obtain ⟨-, rfl⟩ | ⟨e, hraised, rfl⟩ := Run.finish_next ((exec_eq_finish i s).symm.trans h)
  · exact ⟨hb.data, .inl ⟨rfl, hb.ph⟩⟩
  · exact ⟨{ hb.data with }, .inr ⟨e, _, hraised, rfl, rfl⟩⟩

/-- Settles O59: the frame of each command, and its error entry. -/
theorem onlyTheListedCommandsWrite : Obligations.OnlyTheListedCommandsWrite := by
  intro i s t h
  obtain ⟨f, hend⟩ := exec_frame h
  refine ⟨f.cfg, f.port, f.sym, f.symcnt, f.bitcnt, f.outcnt, f.root, f.ncnt, f.ndist_hcap, f.hsize_own, f.res, f.ft,
    f.node, f.heap, f.ct, f.bit, f.out, f.tv, fun hi => ?quiet, fun hi => ?clearing, fun hi hv => ?raising, fun hi => ?ph,
    ?phEnd⟩
  case quiet =>
    have hsub : i ∈ [.nop, .leaves, .hbld, .clre, .rst] := by simp only [List.mem_cons] at hi ⊢; tauto
    obtain ⟨herr, -⟩ | ⟨e, u, hraised, -⟩ := hend
    · refine herr.trans ((body_frame i s).err fun hmem => ?_)
      simp only [List.mem_cons, List.not_mem_nil, or_false] at hi hmem
      obtain rfl | rfl := hmem <;> simp at hi
    · exact absurd hraised (body_ne_raised hsub)
  case clearing =>
    have hsub : i ∈ [.nop, .leaves, .hbld, .clre, .rst] := by simp only [List.mem_cons] at hi ⊢; tauto
    obtain ⟨herr, -⟩ | ⟨e, u, hraised, -⟩ := hend
    · rw [herr]; exact body_err_of_clearing hi s
    · exact absurd hraised (body_ne_raised hsub)
  case raising =>
    obtain ⟨herr, -⟩ | ⟨e, u, hraised, herr, -⟩ := hend
    · exact .inl (herr.trans ((body_frame i s).err hi))
    · exact .inr ⟨e, herr, body_raises_listed hv hraised⟩
  case ph =>
    obtain ⟨-, hph⟩ | ⟨e, u, hraised, -⟩ := hend
    · exact hph
    · exact absurd hraised (body_ne_raised hi)
  case phEnd =>
    obtain ⟨-, hph⟩ | ⟨e, u, -, herr, hph⟩ := hend
    · exact .inl hph
    · exact .inr ⟨hph, by simp [herr]⟩

end Sys2Proof.Machine
end

section
/-! The memories as the host sees them: what a host read returns in each space, that transactions outside the spaces
and writes to read-only elements change nothing, that a read gives back what was written, and when the port holds a
transaction off (spec/20_memory.md R60 to R66, R71; spec/30_encoding.md R95, R97). -/

namespace Sys2Proof.Machine

/-! ## Records as numbers -/

theorem Kind.bit_ofBit (b : Bool) : (Kind.ofBit b).bit = b.toNat := by cases b <;> rfl

/-- The bits of a node record above FREQ, as a number of 28 bits (R95). -/
def NodeRec.header (r : NodeRec) : Nat :=
  r.v.toNat * 2 ^ 27 + r.k.bit * 2 ^ 26 + r.sym.toNat * 2 ^ 18 + r.left.toNat * 2 ^ 9 + r.right.toNat

theorem NodeRec.toWord_eq (nf : Nat) (r : NodeRec) : r.toWord nf = 2 ^ nf * r.header + narrow nf r.freq := by
  unfold NodeRec.toWord NodeRec.header
  ring

/-- The fields taken out of a word, put together again, are the 28 bits above FREQ. -/
theorem NodeRec.header_ofWord {nf w : Nat} (hw : w < 2 ^ (nf + 28)) : (NodeRec.ofWord nf w).header = w / 2 ^ nf := by
  have hdiv (k : Nat) : w / 2 ^ (nf + k) = w / 2 ^ nf / 2 ^ k := by rw [pow_add, Nat.div_div_eq_div_mul]
  have hq : w / 2 ^ nf < 2 ^ 28 := Nat.div_lt_of_lt_mul (by rwa [← pow_add])
  simp only [NodeRec.header, NodeRec.ofWord, Kind.bit_ofBit, Nat.toNat_testBit, BitVec.toNat_ofNat, hdiv]
  generalize w / 2 ^ nf = q at hq
  omega

/-- A number of NF + 28 bits is the layout of the record it holds (R95). -/
theorem NodeRec.toWord_ofWord {nf w : Nat} (hw : w < 2 ^ (nf + 28)) : (NodeRec.ofWord nf w).toWord nf = w := by
  have hfreq : narrow nf (NodeRec.ofWord nf w).freq = w % 2 ^ nf := narrow_narrow nf w
  rw [NodeRec.toWord_eq, NodeRec.header_ofWord hw, hfreq, Nat.div_add_mod]

/-- A 264-bit word is the layout of the record it holds (R97). -/
theorem CodeRec.toWord_ofWord (w : BitVec 264) : (CodeRec.ofWord w).toWord = w := by
  refine BitVec.eq_of_getLsbD_eq fun i hi => ?_
  simp only [CodeRec.toWord, CodeRec.ofWord, BitVec.getLsbD_append, BitVec.getLsbD_extractLsb']
  by_cases hcode : i < 255
  · simp [hcode]
  · by_cases hlen : i - 255 < 8
    · simp [hcode, hlen, show 255 + (i - 255) = i by omega]
    · obtain rfl : i = 263 := by omega
      simp

/-! ## What a host read returns -/

/-- A read sees nothing of the port. -/
theorem hostRead_setPort (s : State) (p : Port) (sp : Space) (i : Nat) :
    hostRead (s.setPort p) sp i = hostRead s sp i := rfl

/-- An offered host read is answered at once and changes nothing else. -/
theorem step_of_offers_read {s : State} {sp : Space} {i : Nat} {rest : List Input} (h : s.Offers (.read sp i) rest) :
    step s = .next ((s.setInputs rest).reply (hostRead s sp i)) :=
  step_of_offers h

section Reads
variable (s : State) {i : Nat}

theorem hostRead_sym (hi : i < s.cfg.symCap) : hostRead s .sym i = (byteAt s.sym i).toNat := if_pos hi

theorem hostRead_ft (hi : i < nSym) : hostRead s .ft i = Mem.read 0 s.ft i := if_pos hi

theorem hostRead_node (hi : i < nodeCap) :
    hostRead s .node i = (Mem.read NodeRec.blank s.node i).toWord s.cfg.nfreqBits := if_pos hi

theorem hostRead_heap (hi : i < nodeCap) : hostRead s .heap i = (heapAt s.heap i).toNat := if_pos hi

theorem hostRead_ct (hi : i < nSym) : hostRead s .ct i = (Mem.read CodeRec.blank s.ct i).toWord.toNat := if_pos hi

theorem hostRead_bit (hi : i < s.cfg.byteCap) : hostRead s .bit i = (byteAt s.bit i).toNat := if_pos hi

theorem hostRead_out (hi : i < s.cfg.symCap) : hostRead s .out i = (byteAt s.out i).toNat := if_pos hi

end Reads

/-- STATUS has five bits that are not reserved (R23). -/
theorem status_lt (s : State) : s.status.toNat < 2 ^ 5 := by
  have htv : s.tv.toNat < 2 := Bool.toNat_lt s.tv
  have herr : s.errField.toNat < 2 ^ 4 := s.errField.isLt
  have hsum := status_toNat s
  omega

/-! ## Transactions that reach nothing -/

theorem hostRead_outside {s : State} {sp : Space} {i : Nat} (hi : spaceSize s.cfg sp ≤ i) : hostRead s sp i = 0 :=
  if_neg (Nat.not_lt.2 hi)

theorem hostWrite_outside {s : State} {sp : Space} {i : Nat} (v : Nat) (hi : spaceSize s.cfg sp ≤ i) :
    hostWrite s sp i v = .next s :=
  if_neg (Nat.not_lt.2 hi)

theorem regWrite_readOnly {s : State} {i : Nat} (v : Nat) (hro : hostReadOnly .reg i = true) :
    regWrite s i v = .next s := by
  fun_cases regWrite s i v with
  | case1 | case2 | case3 | case4 => cases hro
  | case5 => rfl

theorem hostWrite_readOnly {s : State} {sp : Space} {i : Nat} (v : Nat) (hro : hostReadOnly sp i = true) :
    hostWrite s sp i v = .next s := by
  fun_cases hostWrite s sp i v with
  | case1 => exact regWrite_readOnly v hro
  | case2 | case3 | case4 | case6 | case7 => cases hro
  | case5 | case8 | case9 => rfl

/-- Settles O9: both transactions fall outside the element count that every access tests first. -/
theorem outOfRangeTransactionsReachNothing : Obligations.OutOfRangeTransactionsReachNothing := by
  intro s sp i v rest hi
  refine ⟨fun h => (step_of_offers_write h).trans (hostWrite_outside v hi), fun h => ?_⟩
  rw [step_of_offers_read h, hostRead_outside hi]

/-- Settles O10: a write to a read-only element is ignored, and a read is the element of its space. -/
theorem readOnlyElementsAndReads : Obligations.ReadOnlyElementsAndReads := by
  refine ⟨?write, fun s => ⟨rfl, status_lt s⟩, ?read, ?reg, ?mem, ?byte, ?node⟩
  case write => exact fun s sp i v rest h hro => (step_of_offers_write h).trans (hostWrite_readOnly v hro)
  case read => exact fun s sp i rest h => ⟨step_of_offers_read h, fun p => hostRead_setPort s p sp i⟩
  case reg => exact fun s => ⟨rfl, rfl, rfl, rfl, rfl, rfl, rfl, rfl, rfl⟩
  case mem => exact fun s _ => ⟨hostRead_heap s, fun hi => ⟨hostRead_out s hi, hostRead_sym s hi⟩, hostRead_bit s⟩
  case byte => exact fun s b => ⟨hostRead_ft s b.isLt, hostRead_ct s b.isLt⟩
  case node => exact fun s h hne => hostRead_node s (toNat_lt_nodeCap hne)

/-! ## Reading back what was written -/

theorem toNat_ofNat_of_lt {w v : Nat} (hv : v < 2 ^ w) : (BitVec.ofNat w v).toNat = v :=
  (BitVec.toNat_ofNat v w).trans (Nat.mod_eq_of_lt hv)

section ReadBack
variable (s : State) {i v : Nat}

/-- The registers that the host can write are SYMCNT, BITCNT and ROOT (R22). -/
theorem hostRead_reg_after_write (hrw : hostWritable .reg i = true) (hv : v < 2 ^ regWidth s.cfg i) :
    ∃ t, regWrite s i v = .next t ∧ hostRead t .reg i = v := by
  have hi : i = 2 ∨ i = 3 ∨ i = 5 := by simpa [hostWritable] using hrw
  obtain rfl | rfl | rfl := hi
  · exact ⟨_, rfl, narrow_of_lt hv⟩
  · exact ⟨_, rfl, narrow_of_lt hv⟩
  · exact ⟨_, rfl, toNat_ofNat_of_lt hv⟩

theorem hostRead_sym_after_write (hi : i < s.cfg.symCap) (hv : v < 2 ^ 8) :
    ∃ t, hostWrite s .sym i v = .next t ∧ hostRead t .sym i = v := by
  refine ⟨_, hostWrite_sym s v hi, ?_⟩
  rw [hostRead_sym _ (by exact hi), State.setSym_sym, byteAt_set hi, if_pos rfl, toNat_ofNat_of_lt hv]

theorem hostRead_ft_after_write (hi : i < nSym) (hv : v < 2 ^ s.cfg.freqBits) :
    ∃ t, hostWrite s .ft i v = .next t ∧ hostRead t .ft i = v := by
  refine ⟨_, hostWrite_ft s v hi, ?_⟩
  rw [hostRead_ft _ hi, State.setFt_ft, Mem.read_set_same _ _ _ _ _ hi, narrow_of_lt hv]

theorem hostRead_node_after_write (hi : i < nodeCap) (hv : v < 2 ^ (s.cfg.nfreqBits + 28)) :
    ∃ t, hostWrite s .node i v = .next t ∧ hostRead t .node i = v := by
  refine ⟨_, hostWrite_node s v hi, ?_⟩
  rw [hostRead_node _ hi, State.forgetNodes_node, State.putNode_node, Mem.read_set_same _ _ _ _ _ hi,
    NodeRec.atWidth_ofWord]
  exact NodeRec.toWord_ofWord hv

theorem hostRead_ct_after_write (hi : i < nSym) (hv : v < 2 ^ 264) :
    ∃ t, hostWrite s .ct i v = .next t ∧ hostRead t .ct i = v := by
  refine ⟨_, hostWrite_ct s v hi, ?_⟩
  rw [hostRead_ct _ hi, State.setCt_ct, Mem.read_set_same _ _ _ _ _ hi, CodeRec.toWord_ofWord, toNat_ofNat_of_lt hv]

theorem hostRead_bit_after_write (hi : i < s.cfg.byteCap) (hv : v < 2 ^ 8) :
    ∃ t, hostWrite s .bit i v = .next t ∧ hostRead t .bit i = v := by
  refine ⟨_, hostWrite_bit s v hi, ?_⟩
  rw [hostRead_bit _ (by exact hi), State.setBit_bit, byteAt_set hi, if_pos rfl, toNat_ofNat_of_lt hv]

end ReadBack

/-- A value within its width is stored and comes back, space by space (R60, R61, R65, R71). -/
theorem hostRead_after_hostWrite (s : State) {sp : Space} {i v : Nat} (hrw : hostWritable sp i = true)
    (hi : i < spaceSize s.cfg sp) (hv : v < 2 ^ elementWidth s.cfg sp i) :
    ∃ t, hostWrite s sp i v = .next t ∧ hostRead t sp i = v := by
  cases sp with
  | reg => rw [hostWrite_reg s hi v]; exact hostRead_reg_after_write s hrw hv
  | sym => exact hostRead_sym_after_write s hi hv
  | ft => exact hostRead_ft_after_write s hi hv
  | node => exact hostRead_node_after_write s hi hv
  | ct => exact hostRead_ct_after_write s hi (by simpa only [elementWidth] using hv)
  | bit => exact hostRead_bit_after_write s hi hv
  | heap | out => cases hrw

/-- Settles O11: the write is taken off the port and performed, and its element reads back. -/
theorem hostReadsBackWhatItWrote : Obligations.HostReadsBackWhatItWrote := by
  intro s sp i v rest h hrw hi hv
  obtain ⟨t, ht, hread⟩ := hostRead_after_hostWrite (s.setInputs rest) hrw hi hv
  exact ⟨t, (step_of_offers_write h).trans ht, hread⟩

/-! ## Waiting -/

/-- With no input presented the engine waits (R241). -/
theorem step_of_no_input {s : State} (h : s.port.inputs = []) : step s = .next s := by
  simp [step, portStep, h]

/-- An input that the port does not accept is held off: the step changes nothing, and it stays at the port (R66). -/
theorem step_of_held_off {s : State} {inp : Input} {rest : List Input} (h : s.port.inputs = inp :: rest)
    (hacc : accepts s inp = false) : step s = .next s := by
  simp [step, portStep, h, hacc]

/-- The power-on reset is taken whatever PH is (R240). -/
theorem step_of_powerOn {s : State} {d : Draw} {rest : List Input} (h : s.port.inputs = .powerOn d :: rest) :
    step s = .next (powerOn d (s.setInputs rest)) := by
  simp [step, portStep, h, accepts, perform]

/-- Settles O13: PH = RUN makes the port accept neither kind of transaction. -/
theorem transactionsWaitWhileACommandRuns : Obligations.TransactionsWaitWhileACommandRuns := by
  refine fun s rest sp i v d => ⟨step_of_no_input, fun hrun hin => ?_, step_of_powerOn⟩
  have hidle : (s.ph == .idle) = false := by rw [hrun]; rfl
  obtain hin | hin := hin
  · exact step_of_held_off hin hidle
  · exact step_of_held_off hin hidle

end Sys2Proof.Machine
end

section
/-! Command words: the three fields of a word, the opcode map both ways, and the round trip between commands and words
(spec/30_encoding.md R90 to R94). -/

namespace Sys2Proof

/-! ## The fields of a word -/

/-- Fields put together in the order of R90 are read back from the word. -/
theorem fieldsOf_append (op : BitVec 8) (zero : BitVec 15) (arg : Handle) :
    fieldsOf (op ++ zero ++ arg) = { op := op, zero := zero, arg := arg } := by
  have hop : (op ++ zero ++ arg).extractLsb' 24 8 = op := by
    rw [BitVec.extractLsb'_append_eq_of_le (by decide)]
    exact BitVec.extractLsb'_append_eq_left
  have hzero : (op ++ zero ++ arg).extractLsb' 9 15 = zero := by
    rw [BitVec.extractLsb'_append_eq_of_le (by decide)]
    exact BitVec.extractLsb'_append_eq_right
  have harg : (op ++ zero ++ arg).extractLsb' 0 9 = arg := BitVec.extractLsb'_append_eq_right
  exact congr (congr (congrArg CmdFields.mk hop) hzero) harg

/-- No bit of a word lies outside its three fields (R90). -/
theorem append_fieldsOf (w : CmdWord) : (fieldsOf w).op ++ (fieldsOf w).zero ++ (fieldsOf w).arg = w := by
  calc w.extractLsb' 24 8 ++ w.extractLsb' 9 15 ++ w.extractLsb' 0 9
      = w.extractLsb' 9 23 ++ w.extractLsb' 0 9 :=
          congrArg (· ++ _) (BitVec.extractLsb'_append_extractLsb'_eq_extractLsb' (len₂ := 8) rfl)
    _ = w.extractLsb' 0 32 := BitVec.extractLsb'_append_extractLsb'_eq_extractLsb' rfl
    _ = w := BitVec.extractLsb'_eq_self

theorem fieldsOf_injective : Function.Injective fieldsOf := fun v w h => by
  rw [← append_fieldsOf v, h, append_fieldsOf]

@[simp] theorem fieldsOf_encode (i : Instr) :
    fieldsOf (encode i) = { op := opcode i, zero := 0#15, arg := argument i } :=
  fieldsOf_append _ _ _

section Numbers
variable (w : CmdWord)

theorem fieldsOf_op_toNat : (fieldsOf w).op.toNat = w.toNat / 2 ^ 24 := by
  have hlt : w.toNat < 2 ^ 32 := w.isLt
  simp only [fieldsOf, BitVec.extractLsb'_toNat, Nat.shiftRight_eq_div_pow]
  omega

theorem fieldsOf_zero_toNat : (fieldsOf w).zero.toNat = w.toNat / 2 ^ 9 % 2 ^ 15 := by
  simp only [fieldsOf, BitVec.extractLsb'_toNat, Nat.shiftRight_eq_div_pow]

theorem fieldsOf_arg_toNat : (fieldsOf w).arg.toNat = w.toNat % 2 ^ 9 := by
  simp only [fieldsOf, BitVec.extractLsb'_toNat, Nat.shiftRight_zero]

/-- The test of R93 on the fields as numbers. -/
theorem wellFormed_iff : (fieldsOf w).wellFormed = true ↔
    w.toNat / 2 ^ 24 ≤ 0x0F ∧ w.toNat / 2 ^ 9 % 2 ^ 15 = 0 ∧ (w.toNat % 2 ^ 9 = 0 ∨ w.toNat / 2 ^ 24 = 0x04) := by
  simp [CmdFields.wellFormed, CmdFields.opOk, CmdFields.zeroOk, CmdFields.argOk, ← BitVec.toNat_inj, fieldsOf_op_toNat,
    fieldsOf_zero_toNat, fieldsOf_arg_toNat, and_assoc]

end Numbers

/-! ## The opcode map -/

theorem instrOf_opcode (i : Instr) : instrOf (opcode i) (argument i) = some i := by cases i <;> rfl

/-- What the opcode map can answer: the command with that opcode, ARG being kept by HINS alone (R91, R92). -/
theorem opcode_argument_of_instrOf {op : BitVec 8} {arg : Handle} {i : Instr} (h : instrOf op arg = some i) :
    opcode i = op ∧ argument i = if op = 0x04#8 then arg else 0#9 := by
  revert h
  fun_cases instrOf op arg with
  | case17 => exact nofun
  | case1 hop | case2 hop | case3 hop | case4 hop | case5 hop | case6 hop | case7 hop | case8 hop | case9 hop
  | case10 hop | case11 hop | case12 hop | case13 hop | case14 hop | case15 hop | case16 hop =>
    rintro ⟨⟩
    obtain ⟨-, rfl⟩ := BitVec.toNat_eq_nat.1 hop
    exact ⟨rfl, rfl⟩

/-- The opcode map covers 0x00 to 0x0F; all above is reserved (R91, R94). -/
theorem isSome_instrOf (op : BitVec 8) (arg : Handle) : (instrOf op arg).isSome = true ↔ op.toNat ≤ 0x0F := by
  fun_cases instrOf op arg with
  | case17 =>
    simp only [Option.isSome_none, Bool.false_eq_true, false_iff, imp_false] at *
    omega
  | case1 hop | case2 hop | case3 hop | case4 hop | case5 hop | case6 hop | case7 hop | case8 hop | case9 hop
  | case10 hop | case11 hop | case12 hop | case13 hop | case14 hop | case15 hop | case16 hop => simp [hop]

/-! ## Decode -/

theorem decode_eq_ok_iff_instrOf {w : CmdWord} {i : Instr} : decode w = .ok i ↔
    instrOf (fieldsOf w).op (fieldsOf w).arg = some i ∧ (fieldsOf w).zeroOk = true ∧ (fieldsOf w).argOk = true := by
  cases hj : instrOf (fieldsOf w).op (fieldsOf w).arg with
  | none => simp [decode, hj]
  | some j => cases hz : (fieldsOf w).zeroOk <;> cases ha : (fieldsOf w).argOk <;> simp [decode, hj, hz, ha]

/-- The command of a word has the word's fields: its OP, a zero field, its ARG. -/
theorem fieldsOf_of_decode {w : CmdWord} {i : Instr} (h : decode w = .ok i) :
    fieldsOf w = { op := opcode i, zero := 0#15, arg := argument i } := by
  obtain ⟨hi, hzero, harg⟩ := decode_eq_ok_iff_instrOf.1 h
  obtain ⟨hop, hargument⟩ := opcode_argument_of_instrOf hi
  have hzero : (fieldsOf w).zero = 0#15 := by simpa [CmdFields.zeroOk] using hzero
  have harg : (fieldsOf w).arg = argument i := by
    obtain h0 | h4 : (fieldsOf w).arg = 0#9 ∨ (fieldsOf w).op = 0x04#8 := by simpa [CmdFields.argOk] using harg
    · simp [hargument, h0]
    · simp [hargument, h4]
  rw [hop, ← hzero, ← harg]

theorem decode_encode (i : Instr) : decode (encode i) = .ok i := by
  have harg : argument i = 0#9 ∨ opcode i = 0x04#8 := by
    cases i with
    | hins arg => exact .inr rfl
    | _ => exact .inl rfl
  simp [decode_eq_ok_iff_instrOf, instrOf_opcode, CmdFields.zeroOk, CmdFields.argOk, harg]

/-- Settles O2: the fields of a word determine it, and they are those of the command that it decodes to. -/
theorem decodeExactlyInvertsEncode : Obligations.DecodeExactlyInvertsEncode := by
  refine fun w i => ⟨fun h => fieldsOf_injective ?_, fun h => h ▸ decode_encode i⟩
  rw [fieldsOf_of_decode h, fieldsOf_encode]

/-- The words that decode are those that pass the test of R93. -/
theorem exists_decode_iff_wellFormed (w : CmdWord) : (∃ i, decode w = .ok i) ↔ (fieldsOf w).wellFormed = true := by
  simp only [decode_eq_ok_iff_instrOf, exists_and_right, ← Option.isSome_iff_exists, isSome_instrOf,
    CmdFields.wellFormed, CmdFields.opOk, Bool.and_eq_true, decide_eq_true_eq, and_assoc]

/-- A word with a reserved OP is no command (R94). -/
theorem exists_decode_error_of_reserved {w : CmdWord} (hop : 0x0F < w.toNat / 2 ^ 24) : ∃ e, decode w = .error e := by
  cases h : decode w with
  | error e => exact ⟨e, rfl⟩
  | ok i =>
    obtain ⟨hle, -⟩ := (wellFormed_iff w).1 ((exists_decode_iff_wellFormed w).1 ⟨i, h⟩)
    exact absurd hle (Nat.not_le_of_lt hop)

/-- Settles O1: the words of the table and of the vectors by evaluation, the reserved words by the test of R93. -/
theorem opcodeMapWordsDecode : Obligations.OpcodeMapWordsDecode :=
  ⟨by decide, by decide, fun _ => exists_decode_error_of_reserved⟩

end Sys2Proof
end

section
/-! Command acceptance on the raw fields of the word (spec/30_encoding.md R93). -/

namespace Sys2Proof.Machine

theorem alwaysAccepted_iff (i : Instr) :
    alwaysAccepted i = true ↔ (opcode i).toNat = 0x0F ∨ (opcode i).toNat = 0x0E := by
  cases i <;> simp [alwaysAccepted, opcode]

theorem eq_rst_of_opcode {i : Instr} (h : (opcode i).toNat = 0x0F) : i = .rst := by
  cases i with
  | rst => rfl
  | _ => cases h

theorem eq_clre_of_opcode {i : Instr} (h : (opcode i).toNat = 0x0E) : i = .clre := by
  cases i with
  | clre => rfl
  | _ => cases h

theorem State.setPh_eq_self {s : State} {p : Phase} (h : s.ph = p) : s.setPh p = s := by
  subst h
  rfl

/-- RST in acceptance: its rule alone, PH being IDLE before and after (R93, R202). -/
theorem runCommand_rst {s : State} (h : s.ph = .idle) : runCommand .rst s = exec .rst s :=
  congrArg Host.Outcome.next (State.setPh_eq_self (s := rst s) h)

theorem State.clearError_setPh (s : State) (p : Phase) : (s.setPh p).clearError = s.clearError.setPh p :=
  (apply_ite (State.setPh · p) (s.err = some .emptyHeap) s (s.setErr none)).symm

theorem State.clearError_ph (s : State) : s.clearError.ph = s.ph := by
  obtain ⟨-, h⟩ | ⟨-, h⟩ := s.clearError_cases <;> rw [h]
  rfl

/-- CLRE in acceptance: its rule alone, PH being IDLE before and after (R93, R201). -/
theorem runCommand_clre {s : State} (h : s.ph = .idle) : runCommand .clre s = exec .clre s := by
  have hidle : s.clearError.ph = .idle := s.clearError_ph.trans h
  calc runCommand .clre s = .next ((s.setPh .run).clearError.setPh .idle) := rfl
    _ = .next (s.clearError.setPh .idle) := by rw [State.clearError_setPh]; rfl
    _ = exec .clre s := by rw [State.setPh_eq_self hidle]; rfl

/-- A pending error makes every word but a well-formed RST or CLRE change nothing (R93). -/
theorem submit_of_ignored {w : CmdWord} {s : State} (hno : ∀ i, decode w = .ok i → alwaysAccepted i = false)
    (herr : s.err ≠ none) : submit w s = .next s := by
  obtain ⟨i, hi, hok, -⟩ | ⟨-, -, h⟩ | ⟨-, hnone, -⟩ := submit_cases w s
  · exact absurd hok (by simp [hno i hi, herr])
  · exact h
  · exact absurd hnone herr

/-- With no error pending an ill-formed word raises IllegalCommandError (R93, R219). -/
theorem submit_of_illFormed {w : CmdWord} {s : State} (hno : ∀ i, decode w ≠ .ok i) (herr : s.err = none) :
    submit w s = .next (s.raiseError .illegalCommand) := by
  obtain ⟨i, hi, -, -⟩ | ⟨-, hsome, -⟩ | ⟨-, -, h⟩ := submit_cases w s
  · exact absurd hi (hno i)
  · exact absurd herr hsome
  · exact h

/-- An offered command word is submitted (R24, R73). -/
theorem step_of_offers_command {s : State} {w : CmdWord} {rest : List Input}
    (h : s.Offers (.write .reg 1 w.toNat) rest) : step s = submit w (s.setInputs rest) := by
  calc step s = hostWrite (s.setInputs rest) .reg 1 w.toNat := step_of_offers_write h
    _ = submit (BitVec.ofNat 32 w.toNat) (s.setInputs rest) := hostWrite_reg _ (by decide) _
    _ = submit w (s.setInputs rest) := by rw [BitVec.ofNat_toNat, BitVec.setWidth_eq]

/-- The command of a word, by the word as a number (R90). -/
theorem opcode_argument_of_decode {w : CmdWord} {i : Instr} (h : decode w = .ok i) :
    (opcode i).toNat = w.toNat / 2 ^ 24 ∧ (argument i).toNat = w.toNat % 2 ^ 9 := by
  rw [← fieldsOf_op_toNat, ← fieldsOf_arg_toNat, fieldsOf_of_decode h]
  exact ⟨rfl, rfl⟩

/-- Settles O7: a word is well-formed exactly when it decodes, and each case of R93 is a case of `submit`. -/
theorem commandAcceptance : Obligations.CommandAcceptance := by
  rintro s u w rest op res arg wellformed hoff rfl rfl rfl rfl hwf
  have hdec : wellformed ↔ ∃ i, decode w = .ok i :=
    hwf.trans ((exists_decode_iff_wellFormed w).trans (wellFormed_iff w)).symm
  have hstep := step_of_offers_command hoff
  have hidle : (s.setInputs rest).ph = .idle := hoff.1
  refine ⟨fun hw hop => ?rst, fun hw hop => ?clre, fun hno herr => ?ignored, fun hw herr => ?illegal,
    fun hw _ _ herr => ?run⟩
  case rst =>
    obtain ⟨i, hi⟩ := hdec.1 hw
    obtain rfl := eq_rst_of_opcode ((opcode_argument_of_decode hi).1.trans hop)
    exact hstep.trans ((submit_of_decode hi (.inl rfl)).trans (runCommand_rst hidle))
  case clre =>
    obtain ⟨i, hi⟩ := hdec.1 hw
    obtain rfl := eq_clre_of_opcode ((opcode_argument_of_decode hi).1.trans hop)
    exact hstep.trans ((submit_of_decode hi (.inl rfl)).trans (runCommand_clre hidle))
  case ignored =>
    refine hstep.trans (submit_of_ignored (fun i hi => Bool.eq_false_iff.2 fun hacc => hno ⟨hdec.2 ⟨i, hi⟩, ?_⟩) herr)
    rwa [← (opcode_argument_of_decode hi).1, ← alwaysAccepted_iff]
  case illegal =>
    exact hstep.trans (submit_of_illFormed (fun i hi => hw (hdec.2 ⟨i, hi⟩)) herr)
  case run =>
    obtain ⟨i, hi⟩ := hdec.1 hw
    obtain ⟨hopcode, hargument⟩ := opcode_argument_of_decode hi
    obtain ⟨t, ht⟩ := exec_next i ((s.setInputs rest).setPh .run)
    exact ⟨i, t, hopcode, hargument, ht,
      hstep.trans ((submit_of_decode (s := s.setInputs rest) hi (.inr herr)).trans (runCommand_eq ht))⟩

end Sys2Proof.Machine
end

section
/-! The bit layout of NODE and CT elements: what stands at each position of a record's word, and that no bit of it is
lost (spec/30_encoding.md R95, R97). -/

namespace Sys2Proof.Machine

/-! ## Node records -/

theorem Kind.ofBit_bit (k : Kind) : Kind.ofBit (decide (k.bit = 1)) = k := by cases k <;> rfl

theorem Kind.bit_eq_one_iff (k : Kind) : k.bit = 1 ↔ k = .internal := by cases k <;> decide

namespace NodeRec

/-- The 28 bits above FREQ, field by field: V, K, SYM, LEFT, RIGHT from the top (R95). -/
theorem header_fields (r : NodeRec) :
    r.header < 2 ^ 28 ∧ r.header / 2 ^ 27 = r.v.toNat ∧ r.header / 2 ^ 26 % 2 = r.k.bit ∧
    r.header / 2 ^ 18 % 2 ^ 8 = r.sym.toNat ∧ r.header / 2 ^ 9 % 2 ^ 9 = r.left.toNat ∧
    r.header % 2 ^ 9 = r.right.toNat := by
  have hv : r.v.toNat < 2 := r.v.toNat_lt
  have hk : r.k.bit < 2 := by cases r.k <;> decide
  have hsym : r.sym.toNat < 2 ^ 8 := r.sym.isLt
  have hleft : r.left.toNat < 2 ^ 9 := r.left.isLt
  have hright : r.right.toNat < 2 ^ 9 := r.right.isLt
  unfold header
  omega

section Word
variable {nf : Nat} {r : NodeRec} (h : r.freq < 2 ^ nf)
include h

theorem toWord_eq_of_lt : r.toWord nf = 2 ^ nf * r.header + r.freq := by
  rw [toWord_eq, narrow, Nat.mod_eq_of_lt h]

theorem toWord_mod : r.toWord nf % 2 ^ nf = r.freq := by
  rw [toWord_eq_of_lt h, Nat.mul_add_mod, Nat.mod_eq_of_lt h]

/-- From bit NF up a word is its header. -/
theorem toWord_div (k : Nat) : r.toWord nf / 2 ^ (nf + k) = r.header / 2 ^ k := by
  rw [pow_add, ← Nat.div_div_eq_div_mul, toWord_eq_of_lt h, Nat.mul_add_div (Nat.two_pow_pos nf), Nat.div_eq_of_lt h,
    Nat.add_zero]

theorem toWord_lt : r.toWord nf < 2 ^ (nf + 28) := by
  obtain ⟨hlt, -⟩ := r.header_fields
  have hq : r.toWord nf / 2 ^ (nf + 28) = 0 := by rw [toWord_div h, Nat.div_eq_of_lt hlt]
  exact (Nat.div_eq_zero_iff_lt (Nat.two_pow_pos _)).1 hq

theorem testBit_toWord (k : Nat) : (r.toWord nf).testBit (nf + k) = decide (r.header / 2 ^ k % 2 = 1) := by
  rw [Nat.testBit_eq_decide_div_mod_eq, toWord_div h]

theorem testBit_toWord_v : (r.toWord nf).testBit (nf + 27) = r.v := by
  obtain ⟨-, hv, -⟩ := r.header_fields
  rw [testBit_toWord h, hv]
  cases r.v <;> rfl

theorem testBit_toWord_k : (r.toWord nf).testBit (nf + 26) = decide (r.k.bit = 1) := by
  obtain ⟨-, -, hk, -⟩ := r.header_fields
  rw [testBit_toWord h, hk]

theorem toWord_sym : r.toWord nf / 2 ^ (nf + 18) % 2 ^ 8 = r.sym.toNat := by
  obtain ⟨-, -, -, hsym, -⟩ := r.header_fields
  rw [toWord_div h, hsym]

theorem toWord_left : r.toWord nf / 2 ^ (nf + 9) % 2 ^ 9 = r.left.toNat := by
  obtain ⟨-, -, -, -, hleft, -⟩ := r.header_fields
  rw [toWord_div h, hleft]

theorem toWord_right : r.toWord nf / 2 ^ nf % 2 ^ 9 = r.right.toNat := by
  obtain ⟨-, -, -, -, -, hright⟩ := r.header_fields
  exact (congrArg (· % 2 ^ 9) ((toWord_div h 0).trans (Nat.div_one _))).trans hright

/-- The record is in its word, whole (R95). -/
theorem ofWord_toWord : NodeRec.ofWord nf (r.toWord nf) = r := by
  have hv := testBit_toWord_v h
  have hk : Kind.ofBit ((r.toWord nf).testBit (nf + 26)) = r.k := by rw [testBit_toWord_k h, Kind.ofBit_bit]
  have hsym : BitVec.ofNat 8 (r.toWord nf / 2 ^ (nf + 18)) = r.sym := BitVec.eq_of_toNat_eq (toWord_sym h)
  have hleft : BitVec.ofNat 9 (r.toWord nf / 2 ^ (nf + 9)) = r.left := BitVec.eq_of_toNat_eq (toWord_left h)
  have hright : BitVec.ofNat 9 (r.toWord nf / 2 ^ nf) = r.right := BitVec.eq_of_toNat_eq (toWord_right h)
  have hfreq : narrow nf (r.toWord nf) = r.freq := toWord_mod h
  rw [NodeRec.ofWord, hv, hk, hsym, hleft, hright, hfreq]

end Word

end NodeRec

/-- Settles O3: a word is its 28-bit header above FREQ, and each field is read off the header. -/
theorem nodeRecordLayout : Obligations.NodeRecordLayout := by
  refine ⟨fun nf r h => ⟨NodeRec.toWord_lt h, NodeRec.testBit_toWord_v h, ?_, NodeRec.toWord_sym h,
    NodeRec.toWord_left h, NodeRec.toWord_right h, NodeRec.toWord_mod h, NodeRec.ofWord_toWord h⟩,
    fun _ _ => NodeRec.toWord_ofWord, by decide, by decide⟩
  rw [NodeRec.testBit_toWord_k h, decide_eq_true_eq, Kind.bit_eq_one_iff]

/-! ## Code records -/

namespace CodeRec
variable (r : CodeRec)

theorem toWord_v : r.toWord.getLsbD 263 = r.v := by
  rw [toWord, BitVec.getLsbD_append, BitVec.getLsbD_append]
  simp

theorem toWord_len : r.toWord.extractLsb' 255 8 = r.len := by
  rw [toWord, BitVec.extractLsb'_append_eq_of_le (by decide)]
  exact BitVec.extractLsb'_append_eq_right

theorem toWord_code : r.toWord.extractLsb' 0 255 = r.code := BitVec.extractLsb'_append_eq_right

/-- c[i] is bit 254 − i (R97). -/
theorem toWord_codeBit {i : Nat} (hi : i < 255) : r.toWord.getLsbD (254 - i) = r.codeBit i := by
  have hlow : 254 - i < 255 := by omega
  rw [codeBit, BitVec.getMsbD_eq_getLsbD, toWord, BitVec.getLsbD_append]
  simp [hi, hlow]

/-- The record is in its word, whole (R97). -/
theorem ofWord_toWord : CodeRec.ofWord r.toWord = r := by
  rw [CodeRec.ofWord, toWord_v, toWord_len, toWord_code]

end CodeRec

/-- Bit `j` of a code read as a number, the first code bit being the most significant. -/
theorem testBit_bitsToNat (p : List Bool) (j : Nat) : (bitsToNat p).testBit j = p.reverse.getD j false := by
  induction p using List.reverseRecOn generalizing j with
  | nil => simp [bitsToNat]
  | append_singleton p b ih =>
    have hbit : bitsToNat (p ++ [b]) = Nat.bit b (bitsToNat p) := by
      simp [bitsToNat, Nat.bit_val]
    cases j with
    | zero => simp [hbit]
    | succ j => simp [hbit, Nat.testBit_bit_succ, ih]

/-- Code bit `i`, counted from the first, is that many bits below the top bit of the number. -/
theorem testBit_bitsToNat_of_lt {p : List Bool} {i : Nat} (hi : i < p.length) :
    (bitsToNat p).testBit (p.length - 1 - i) = p.getD i false := by
  have hback : p.length - 1 - (p.length - 1 - i) = i := by omega
  rw [testBit_bitsToNat, List.getD_reverse (p.length - 1 - i) (by omega), hback]

theorem codeBit_codeRec_eq_testBit (p : List Bool) (i : Nat) : (codeRec p).codeBit i =
    (decide (i < 255) && (bitsToNat p * 2 ^ (255 - p.length)).testBit (254 - i)) := by
  have hlow : 254 - i < 255 := by omega
  rw [CodeRec.codeBit, BitVec.getMsbD_eq_getLsbD]
  simp only [codeRec, alignCode, BitVec.getLsbD_ofNat, hlow, decide_true, Bool.true_and, maxLen]

/-- A code of at most 255 bits stands left-aligned in CODE, zeros after it (R97). -/
theorem codeBit_codeRec {p : List Bool} (hle : p.length ≤ maxLen) (i : Nat) :
    (codeRec p).codeBit i = p.getD i false := by
  have hle : p.length ≤ 255 := hle
  rw [codeBit_codeRec_eq_testBit, Nat.testBit_mul_two_pow, ← Bool.and_assoc, ← Bool.decide_and]
  by_cases hi : i < p.length
  · have hin : i < 255 ∧ 255 - p.length ≤ 254 - i := by omega
    have hpos : 254 - i - (255 - p.length) = p.length - 1 - i := by omega
    rw [decide_eq_true hin, Bool.true_and, hpos, testBit_bitsToNat_of_lt hi]
  · have hout : ¬ (i < 255 ∧ 255 - p.length ≤ 254 - i) := by omega
    rw [decide_eq_false hout, Bool.false_and, List.getD_eq_default _ _ (Nat.le_of_not_lt hi)]

theorem len_codeRec {p : List Bool} (hle : p.length ≤ maxLen) : (codeRec p).len.toNat = p.length :=
  toNat_ofNat_of_lt (Nat.lt_succ_of_le hle)

theorem bits_codeRec {p : List Bool} (hle : p.length ≤ maxLen) : (codeRec p).bits = p := by
  refine List.ext_getElem (by simp [CodeRec.bits, len_codeRec hle]) fun i _ hi => ?_
  simp [CodeRec.bits, codeBit_codeRec hle, hi]

/-- Settles O4: the word is the three fields in a row, and the engine's CODE is the code followed by zeros. -/
theorem codeRecordLayout : Obligations.CodeRecordLayout := by
  refine ⟨fun r => ⟨r.toWord_v, r.toWord_len, fun i => r.toWord_codeBit, r.ofWord_toWord⟩, CodeRec.toWord_ofWord,
    fun p _ hle => ⟨rfl, len_codeRec hle, bits_codeRec hle, fun i hi => ?_⟩, by decide⟩
  rw [codeBit_codeRec hle, List.getD_eq_default _ _ hi]

end Sys2Proof.Machine
end

section
/-! Heap order under the sifts: SiftDown and SiftUp, read as the relations `SiftsDown` and `SiftsUp`, put one misplaced
element where order holds again (spec/40_heap.md R120 to R124, R128). -/

namespace Sys2Proof.Machine

/-! ## Heap order by parent and child -/

/-- Position `c` is a child of position `p` (R120). -/
def IsChild (p c : Nat) : Prop := c = 2 * p + 1 ∨ c = 2 * p + 2

/-- Among the first `n` positions, the parents from `k` on are no greater than their children. -/
def OrderedFrom (freq : Handle → Nat) (n k : Nat) (h : Nat → Handle) : Prop :=
  ∀ p c, k ≤ p → IsChild p c → c < n → freq (h p) ≤ freq (h c)

theorem isChild_iff {p c : Nat} : IsChild p c ↔ 1 ≤ c ∧ (c - 1) / 2 = p := by
  unfold IsChild; omega

theorem IsChild.lt {p c : Nat} (h : IsChild p c) : p < c := by
  unfold IsChild at h; omega

theorem IsChild.parent_unique {p q c : Nat} (hp : IsChild p c) (hq : IsChild q c) : p = q :=
  (isChild_iff.1 hp).2.symm.trans (isChild_iff.1 hq).2

/-- The invariant of R121 is order from the root on. -/
theorem heapOrdered_iff {s : State} :
    HeapOrdered s ↔ OrderedFrom (freqOf s.node) s.hsize.toNat 0 (heapAt s.heap) := by
  constructor
  · intro hs p c _ hpc hc
    obtain ⟨hpos, rfl⟩ := isChild_iff.1 hpc
    exact hs c hpos hc
  · intro hs c hpos hc
    exact hs _ c (Nat.zero_le _) (isChild_iff.2 ⟨hpos, rfl⟩) hc

theorem heapOrdered_of_empty {s : State} (h : s.hsize = 0#9) : HeapOrdered s := by
  intro i _ hi
  rw [h] at hi
  exact absurd hi (Nat.not_lt_zero i)

/-- In a heap in order the root has the least frequency (R121). -/
theorem OrderedFrom.root_le {freq : Handle → Nat} {n : Nat} {h : Nat → Handle} (ho : OrderedFrom freq n 0 h) (j : Nat)
    (hj : j < n) : freq (h 0) ≤ freq (h j) := by
  induction j using Nat.strongRecOn with
  | ind j ih =>
    obtain rfl | hpos := Nat.eq_zero_or_pos j
    · exact Nat.le_refl _
    · have hpar : IsChild ((j - 1) / 2) j := isChild_iff.2 ⟨hpos, rfl⟩
      exact (ih _ hpar.lt (hpar.lt.trans hj)).trans (ho _ j (Nat.zero_le _) hpar hj)

/-! ## The exchange of two positions -/

@[simp] theorem swapped_left (h : Nat → Handle) (i j : Nat) : swapped h i j i = h j := if_pos rfl

@[simp] theorem swapped_right (h : Nat → Handle) (i j : Nat) : swapped h i j j = h i := by
  by_cases hji : j = i <;> simp [swapped, hji]

theorem swapped_of_ne (h : Nat → Handle) {i j k : Nat} (hi : k ≠ i) (hj : k ≠ j) : swapped h i j k = h k := by
  rw [swapped, if_neg hi, if_neg hj]

/-! ## SiftDown -/

section ChosenChild
variable {freq : Handle → Nat} {n i c : Nat} {h : Nat → Handle} (hc : ChosenChild freq n h i c)
include hc

theorem ChosenChild.isChild : IsChild i c := by
  obtain ⟨rfl, -⟩ | ⟨rfl, -⟩ := hc
  · exact .inr rfl
  · exact .inl rfl

theorem ChosenChild.lt : c < n := by
  obtain ⟨-, hcn, -⟩ | ⟨-, hcn, -⟩ := hc <;> exact hcn

/-- The chosen child is a least one (R123). -/
theorem ChosenChild.le {d : Nat} (hd : IsChild i d) (hdn : d < n) : freq (h c) ≤ freq (h d) := by
  obtain ⟨rfl, -, hright⟩ | ⟨rfl, -, hleft⟩ := hc <;> obtain rfl | rfl := hd
  · exact hright.le
  · exact Nat.le_refl _
  · exact Nat.le_refl _
  · exact hleft hdn

end ChosenChild

/-- While SiftDown is at position `i`: the parents from `k` on are in order, save that the element at `i` may be too
great for its place; the parent of `i` is no greater than the children of `i`. -/
structure TooGreatAt (freq : Handle → Nat) (n k i : Nat) (h : Nat → Handle) : Prop where
  start : k ≤ i
  order : ∀ p c, k ≤ p → p ≠ i → IsChild p c → c < n → freq (h p) ≤ freq (h c)
  bypass : ∀ p c, k ≤ p → IsChild p i → IsChild i c → c < n → freq (h p) ≤ freq (h c)

/-- A pass of SiftDown moves the misplaced element to the chosen child's position (R123). -/
theorem TooGreatAt.swap {freq : Handle → Nat} {n k i c : Nat} {h : Nat → Handle} (hi : TooGreatAt freq n k i h)
    (hc : ChosenChild freq n h i c) (hf : freq (h c) < freq (h i)) : TooGreatAt freq n k c (swapped h i c) := by
  have hic := hc.isChild
  refine ⟨hi.start.trans hic.lt.le, fun p d hp hpc hpd hdn => ?order, fun p d hp hpc hcd hdn => ?bypass⟩
  case order =>
    by_cases hpi : p = i
    · subst hpi
      by_cases hdc : d = c
      · subst hdc
        rw [swapped_left, swapped_right]
        exact hf.le
      · rw [swapped_left, swapped_of_ne h hpd.lt.ne' hdc]
        exact hc.le hpd hdn
    · have hdc : d ≠ c := fun hdc => hpi (IsChild.parent_unique (hdc ▸ hpd) hic)
      rw [swapped_of_ne h hpi hpc]
      by_cases hdi : d = i
      · subst hdi
        rw [swapped_left]
        exact hi.bypass p c hp hpd hic hc.lt
      · rw [swapped_of_ne h hdi hdc]
        exact hi.order p d hp hpi hpd hdn
  case bypass =>
    obtain rfl := IsChild.parent_unique hpc hic
    rw [swapped_left, swapped_of_ne h (hic.lt.trans hcd.lt).ne' hcd.lt.ne']
    exact hi.order c d (hi.start.trans hic.lt.le) hic.lt.ne' hcd hdn

/-- SiftDown restores order where one element may be too great for its place (R123). -/
theorem SiftsDown.orderedFrom {freq : Handle → Nat} {n k i : Nat} {h h' : Nat → Handle} (hs : SiftsDown freq n i h h')
    (hi : TooGreatAt freq n k i h) : OrderedFrom freq n k h' := by
  induction hs with
  | noChild hn =>
    intro p c hp hpc hcn
    refine hi.order p c hp ?_ hpc hcn
    rintro rfl
    unfold IsChild at hpc; omega
  | @stop i _ h hc hf =>
    intro p d hp hpd hdn
    by_cases hpi : p = i
    · subst hpi
      exact hf.trans (hc.le hpd hdn)
    · exact hi.order p d hp hpi hpd hdn
  | swap hc hf _ ih => exact ih (hi.swap hc hf)

/-- SiftDown(k) extends order from the parents above `k` to `k` itself: the step of HBLD (R125). -/
theorem SiftsDown.orderedFrom_of_succ {freq : Handle → Nat} {n k : Nat} {h h' : Nat → Handle}
    (hs : SiftsDown freq n k h h') (ho : OrderedFrom freq n (k + 1) h) : OrderedFrom freq n k h' := by
  refine hs.orderedFrom ⟨Nat.le_refl k, fun p c hp hpk => ho p c (by omega), fun p _ hp hpk => ?_⟩
  exact absurd hpk.lt (Nat.not_lt.2 hp)

/-! ## SiftUp -/

/-- While SiftUp is at position `i`: all is in order, save that the element at `i` may be too small for its place; the
parent of `i` is no greater than the children of `i`. -/
structure TooSmallAt (freq : Handle → Nat) (n i : Nat) (h : Nat → Handle) : Prop where
  order : ∀ p c, c ≠ i → IsChild p c → c < n → freq (h p) ≤ freq (h c)
  bypass : ∀ p c, IsChild p i → IsChild i c → c < n → freq (h p) ≤ freq (h c)

/-- A pass of SiftUp moves the misplaced element to its parent's position (R124). -/
theorem TooSmallAt.swap {freq : Handle → Nat} {n p i : Nat} {h : Nat → Handle} (hi : TooSmallAt freq n i h)
    (hin : i < n) (hpi : IsChild p i) (hf : freq (h i) < freq (h p)) : TooSmallAt freq n p (swapped h i p) := by
  have hsibling : ∀ d, d ≠ i → IsChild p d → d < n → freq (h p) ≤ freq (h d) := fun d => hi.order p d
  refine ⟨fun q d hdp hqd hdn => ?order, fun q d hqp hpd hdn => ?bypass⟩
  case order =>
    by_cases hdi : d = i
    · subst hdi
      obtain rfl := IsChild.parent_unique hqd hpi
      rw [swapped_left, swapped_right]
      exact hf.le
    · rw [swapped_of_ne h hdi hdp]
      by_cases hqp : q = p
      · subst hqp
        rw [swapped_right]
        exact hf.le.trans (hsibling d hdi hqd hdn)
      · by_cases hqi : q = i
        · subst hqi
          rw [swapped_left]
          exact hi.bypass p d hpi hqd hdn
        · rw [swapped_of_ne h hqi hqp]
          exact hi.order q d hdi hqd hdn
  case bypass =>
    have hqp_le : freq (h q) ≤ freq (h p) := hi.order q p hpi.lt.ne hqp (hpi.lt.trans hin)
    rw [swapped_of_ne h (hqp.lt.trans hpi.lt).ne hqp.lt.ne]
    by_cases hdi : d = i
    · subst hdi
      rwa [swapped_left]
    · rw [swapped_of_ne h hdi hpd.lt.ne']
      exact hqp_le.trans (hsibling d hdi hpd hdn)

/-- SiftUp restores order where one element may be too small for its place (R124). -/
theorem SiftsUp.orderedFrom {freq : Handle → Nat} {n i : Nat} {h h' : Nat → Handle} (hs : SiftsUp freq i h h')
    (hin : i < n) (hi : TooSmallAt freq n i h) : OrderedFrom freq n 0 h' := by
  induction hs with
  | root => exact fun p c _ hpc => hi.order p c (Nat.ne_zero_of_lt hpc.lt) hpc
  | @stop i h hpos hf =>
    intro p c _ hpc hcn
    by_cases hci : c = i
    · subst hci
      obtain ⟨-, rfl⟩ := isChild_iff.1 hpc
      exact hf
    · exact hi.order p c hci hpc hcn
  | @swap i _ _ hpos hf _ ih =>
    have hpar : IsChild ((i - 1) / 2) i := isChild_iff.2 ⟨hpos, rfl⟩
    exact ih (hpar.lt.trans hin) (hi.swap hin hpar hf)

end Sys2Proof.Machine
end

section
/-! What HBLD, HINS and HEXT do to the heap: the array after each command, heap order, and what stays as it was
(spec/40_heap.md R125 to R129). -/

namespace Sys2Proof.Machine

/-! ## HBLD -/

/-- SiftDown moves nothing in a heap in order (R125). -/
theorem siftDown_eq_self {node : Mem NodeRec} {n : Nat} {hp : Mem Handle}
    (ho : OrderedFrom (freqOf node) n 0 (heapAt hp)) (fuel i : Nat) : siftDown node n fuel i hp = hp := by
  cases fuel with
  | zero => rfl
  | succ fuel =>
    obtain h | ⟨c, hic, hcn, hlt, -⟩ := siftDown_step node n fuel i hp
    · exact h
    · exact absurd hlt (Nat.not_lt.2 (ho i c (Nat.zero_le i) hic hcn))

theorem siftAll_eq_self {node : Mem NodeRec} {n : Nat} {hp : Mem Handle}
    (ho : OrderedFrom (freqOf node) n 0 (heapAt hp)) (k : Nat) : siftAll node n k hp = hp := by
  induction k with
  | zero => rfl
  | succ k ih => rw [siftAll, siftDown_eq_self ho, ih]

/-- The sifts of HBLD extend order from the parents from `k` on to all (R125). -/
theorem siftAll_orderedFrom (node : Mem NodeRec) {n : Nat} (hn : n ≤ nodeCap) (k : Nat) {hp : Mem Handle}
    (ho : OrderedFrom (freqOf node) n k (heapAt hp)) :
    OrderedFrom (freqOf node) n 0 (heapAt (siftAll node n k hp)) := by
  induction k generalizing hp with
  | zero => exact ho
  | succ k ih => exact ih ((siftDown_sifts node n hn n k (by omega) hp).orderedFrom_of_succ ho)

/-- No position from HSIZE div 2 on has a child (R120). -/
theorem orderedFrom_half (freq : Handle → Nat) (n : Nat) (h : Nat → Handle) : OrderedFrom freq n (n / 2) h := by
  intro p c hp hpc hcn
  unfold IsChild at hpc
  omega

/-- HBLD is its sifts also where it does nothing: a heap of fewer than two elements has no position to sift (R125). -/
theorem exec_hbld (s : State) :
    exec .hbld s = .next (s.setHeap (siftAll s.node s.hsize.toNat (s.hsize.toNat / 2) s.heap)) := by
  rw [exec_eq_finish, body, hbld]
  split_ifs with h
  · rfl
  · have hhalf : s.hsize.toNat / 2 = 0 := by omega
    rw [hhalf]
    rfl

/-- Settles O26: order grows from the last parent down to the root, one SiftDown at a time. -/
theorem hbldOrdersTheHeap : Obligations.HbldOrdersTheHeap := by
  intro s
  have hn := hsize_le_nodeCap s
  obtain ⟨hperm, habove, -⟩ := siftAll_spec s.node _ hn (s.hsize.toNat / 2) s.heap
  have hordered := siftAll_orderedFrom s.node hn _ (orderedFrom_half _ _ (heapAt s.heap))
  refine ⟨_, exec_hbld s, heapOrdered_iff.2 hordered, hperm, habove, ?stays, siftAll_sifts s.node _ hn _ s.heap⟩
  rintro (hsmall | ho)
  · have hhalf : s.hsize.toNat / 2 = 0 := by omega
    rw [hhalf]
    rfl
  · exact siftAll_eq_self (heapOrdered_iff.1 ho) _

/-! ## HINS -/

theorem heapAt_putHeap_of_lt (hp : Mem Handle) {i : Nat} (hi : i < nodeCap) (h : Handle) :
    heapAt (putHeap hp i h) = fun k => if k = i then h else heapAt hp k := by
  funext k
  simp [heapAt_putHeap, hi]

theorem exec_hins_of_operand {s : State} {h : Handle} (hbad : s.ncnt ≤ h ∨ ownAt s.own h = true) :
    exec (.hins h) s = .next (s.raiseError .operand) := by
  rw [exec_eq_finish, body, hins, if_pos hbad]
  rfl

section Hins
variable {s : State} {h : Handle} (hlt : h < s.ncnt) (hown : ownAt s.own h = false)
include hlt hown

theorem hins_of_insertable :
    hins h s = if s.hsize = s.hcap then .raised .capacity s else .ok () (insert s h) := by
  rw [hins, if_neg]
  simp [hown, BitVec.not_le.2 hlt]

theorem exec_hins_of_full (hfull : s.hsize = s.hcap) : exec (.hins h) s = .next (s.raiseError .capacity) := by
  rw [exec_eq_finish, body, hins_of_insertable hlt hown, if_pos hfull]
  rfl

theorem exec_hins_of_room (hroom : s.hsize ≠ s.hcap) : exec (.hins h) s = .next (insert s h) := by
  rw [exec_eq_finish, body, hins_of_insertable hlt hown, if_neg hroom]
  rfl

end Hins

section Insert
variable {s : State} (hcap : s.hsize.toNat < nodeCap) (h : Handle)
include hcap

/-- Insert leaves the array that SiftUp gives from the node appended (R126). -/
theorem insert_siftsUp :
    SiftsUp (freqOf s.node) s.hsize.toNat (fun k => if k = s.hsize.toNat then h else heapAt s.heap k)
      (heapAt (insert s h).heap) := by
  rw [← heapAt_putHeap_of_lt s.heap hcap h]
  exact siftUp_sifts s.node _ _ (Nat.le_refl _) hcap _

theorem heapAt_insert_above {j : Nat} (hj : s.hsize.toNat < j) : heapAt (insert s h).heap j = heapAt s.heap j := by
  rw [State.insert_heap, (siftUp_spec s.node (s.hsize.toNat + 1) hcap _ _ (Nat.lt_succ_self _) _).2.1 j hj,
    heapAt_putHeap, if_neg fun hlast => hj.ne' hlast.1]

end Insert

/-- The node appended can be out of order with its parent alone (R126, R128). -/
theorem tooSmallAt_last {freq : Handle → Nat} {n : Nat} {f : Nat → Handle} (ho : OrderedFrom freq n 0 f) (h : Handle) :
    TooSmallAt freq (n + 1) n (fun k => if k = n then h else f k) where
  order p c hcn hpc hc := by
    have hc : c < n := by omega
    rw [if_neg (hpc.lt.trans hc).ne, if_neg hcn]
    exact ho p c (Nat.zero_le p) hpc hc
  bypass p c hp hnc hc := absurd hnc.lt (by omega)

/-- Insert keeps heap order; where HSIZE wraps it leaves an empty heap (R128). -/
theorem insert_heapOrdered {s : State} (hs : HeapOrdered s) (h : Handle) : HeapOrdered (insert s h) := by
  by_cases hcap : s.hsize.toNat < nodeCap
  · rw [heapOrdered_iff, State.insert_node, State.insert_hsize, toNat_add_one hcap]
    exact (insert_siftsUp hcap h).orderedFrom (Nat.lt_succ_self _) (tooSmallAt_last (heapOrdered_iff.1 hs) h)
  · have hlast : s.hsize.toNat = 511 := Nat.le_antisymm (hsize_le_nodeCap s) (Nat.le_of_not_lt hcap)
    refine heapOrdered_of_empty (BitVec.eq_of_toNat_eq ?_)
    rw [State.insert_hsize, BitVec.toNat_add, hlast]
    rfl

/-- Settles O27: the two refusals, and Insert with SiftUp's array. -/
theorem hinsInsertsOrRefuses : Obligations.HinsInsertsOrRefuses := by
  intro s h
  refine ⟨exec_hins_of_operand, exec_hins_of_full, fun hlt hown hroom hcap => ?_⟩
  refine ⟨(insert s h).heap, (insert s h).own, exec_hins_of_room hlt hown hroom, heapList_insert s h hcap,
    fun j hj => heapAt_insert_above hcap h hj, fun g => ?_, insert_siftsUp hcap h⟩
  rw [ownAt_insert]
  simp [ne_null_of_lt hlt]

/-! ## HEXT -/

/-- The heap array that ExtractMin leaves on a heap that is not empty (R127). -/
def extracted (s : State) : Mem Handle :=
  siftDown s.node (s.hsize.toNat - 1) (s.hsize.toNat - 1) 0 (putHeap s.heap 0 (heapAt s.heap (s.hsize.toNat - 1)))

theorem exec_hext_of_empty {s : State} (h0 : s.hsize = 0#9) :
    exec .hext s = .next ((s.setRes null).raiseError .emptyHeap) := by
  rw [exec_eq_finish, body, hext, extractMin, if_pos h0]
  rfl

theorem extractMin_of_ne {s : State} (h0 : s.hsize ≠ 0#9) :
    extractMin s = .ok (heapAt s.heap 0) ((((s.setHeap (extracted s)).setHsize (s.hsize - 1#9)).putOwn
      (heapAt s.heap 0) false).setRes (heapAt s.heap 0)) := by
  obtain ⟨h, -⟩ | ⟨-, _, rfl, h⟩ := extractMin_cases s
  · exact absurd h h0
  · exact h

theorem exec_hext_of_ne {s : State} (h0 : s.hsize ≠ 0#9) :
    exec .hext s = .next ((((s.setHeap (extracted s)).setHsize (s.hsize - 1#9)).putOwn
      (heapAt s.heap 0) false).setRes (heapAt s.heap 0)) := by
  rw [exec_eq_finish, body, hext, extractMin_of_ne h0]
  rfl

/-- The root is a position of the HEAP space (R37). -/
theorem nodeCap_pos : 0 < nodeCap := by decide

/-- ExtractMin leaves the array that SiftDown(0) gives from the last element moved to the root (R127). -/
theorem extracted_siftsDown (s : State) :
    SiftsDown (freqOf s.node) (s.hsize.toNat - 1) 0
      (fun k => if k = 0 then heapAt s.heap (s.hsize.toNat - 1) else heapAt s.heap k) (heapAt (extracted s)) := by
  rw [← heapAt_putHeap_of_lt s.heap nodeCap_pos]
  exact siftDown_sifts s.node _ ((Nat.sub_le _ _).trans (hsize_le_nodeCap s)) _ 0 (by omega) _

/-- The vacated element and what lies above it keep their handles (R127). -/
theorem heapAt_extracted_above (s : State) {j : Nat} (hj : s.hsize.toNat - 1 ≤ j) :
    heapAt (extracted s) j = heapAt s.heap j := by
  rw [extracted, (siftDown_spec s.node _ ((Nat.sub_le _ _).trans (hsize_le_nodeCap s)) _ 0 _).2.1 j hj, heapAt_putHeap]
  split_ifs with hroot
  · have hlast : s.hsize.toNat - 1 = j := by omega
    rw [hlast]
  · rfl

/-- The element moved to the root can be out of order with its children alone (R127, R128). -/
theorem tooGreatAt_root {freq : Handle → Nat} {n : Nat} {f : Nat → Handle} (ho : OrderedFrom freq n 0 f) (h : Handle) :
    TooGreatAt freq (n - 1) 0 0 (fun k => if k = 0 then h else f k) where
  start := Nat.le_refl 0
  order p c hp hp0 hpc hc := by
    rw [if_neg hp0, if_neg (Nat.ne_zero_of_lt hpc.lt)]
    exact ho p c hp hpc (by omega)
  bypass p c _ hp0 := absurd hp0.lt (Nat.not_lt_zero p)

/-- HEXT keeps heap order, also when it raises (R128). -/
theorem hext_heapOrdered {s t : State} (hs : HeapOrdered s) (h : exec .hext s = .next t) : HeapOrdered t := by
  by_cases h0 : s.hsize = 0#9
  · obtain rfl := Host.Outcome.next.inj ((exec_hext_of_empty h0).symm.trans h)
    exact hs
  · obtain rfl := Host.Outcome.next.inj ((exec_hext_of_ne h0).symm.trans h)
    have hsize : (s.hsize - 1#9).toNat = s.hsize.toNat - 1 := by have := toNat_sub_one h0; omega
    have hordered := (extracted_siftsDown s).orderedFrom (tooGreatAt_root (heapOrdered_iff.1 hs) _)
    rw [← hsize] at hordered
    exact heapOrdered_iff.2 hordered

/-- Settles O28: the empty heap, and ExtractMin with SiftDown's array. -/
theorem hextTakesTheRootOut : Obligations.HextTakesTheRootOut := by
  intro s
  refine ⟨exec_hext_of_empty, fun h0 => ?_⟩
  obtain ⟨hperm, -, hown⟩ := extractMin_spec (extractMin_of_ne h0)
  refine ⟨extracted s, _, exec_hext_of_ne h0, hperm.symm, fun j hj => heapAt_extracted_above s hj, fun g => ?_,
    extracted_siftsDown s⟩
  refine (hown g).trans (if_congr (and_congr_right fun hg => ?_) rfl rfl)
  rw [hg]

/-! ## R128 -/

/-- HINS keeps heap order, also when it raises (R128). -/
theorem hins_heapOrdered {s t : State} {h : Handle} (hs : HeapOrdered s) (ht : exec (.hins h) s = .next t) :
    HeapOrdered t := by
  refine Run.finish_keeps (P := HeapOrdered) (r := hins h s) (fun _ _ hs => hs) (fun _ _ hs => hs) ?_ ht
  unfold hins
  split_ifs
  · exact hs
  · exact hs
  · exact insert_heapOrdered hs h

/-- Two symbols, the first the more frequent: LEAVES places them in symbol order, out of heap order. -/
def twoCounts : State := State.reset.setFt [(0, 2), (1, 1)]

theorem twoCounts_present : twoCounts.present = [0#8, 1#8] := by decide

theorem leaves_twoCounts_not_ordered {t : State} (hm : LeavesMade twoCounts t) : ¬ HeapOrdered t := by
  intro ho
  have hlen : twoCounts.present.length = 2 := congrArg List.length twoCounts_present
  have hroot : freqOf t.node (heapAt t.heap 0) = 2 := by
    rw [hm.heap 0 (by omega), freqOf, hm.leaf 0 0#8 (by rw [twoCounts_present]; rfl)]
    decide
  have hchild : freqOf t.node (heapAt t.heap 1) = 1 := by
    rw [hm.heap 1 (by omega), freqOf, hm.leaf 1 1#8 (by rw [twoCounts_present]; rfl)]
    decide
  have hle : freqOf t.node (heapAt t.heap 0) ≤ freqOf t.node (heapAt t.heap 1) :=
    ho 1 (Nat.le_refl 1) (by rw [hm.hsize, hlen]; decide)
  omega

/-- Settles O29: Insert and ExtractMin keep order, HBLD makes it, and two leaves in symbol order lack it. -/
theorem heapOrderIsKept : Obligations.HeapOrderIsKept := by
  refine ⟨fun _ _ _ => hins_heapOrdered, fun _ _ => hext_heapOrdered, fun s t ht => ?hbld,
    fun _ => heapOrdered_of_empty, ?leaves⟩
  case hbld =>
    obtain ⟨hp, hexec, hordered, -⟩ := hbldOrdersTheHeap s
    obtain rfl := Host.Outcome.next.inj (hexec.symm.trans ht)
    exact hordered
  case leaves =>
    obtain ⟨t, ht, hm⟩ := leaves_spec twoCounts
    refine ⟨twoCounts, t, ?_, leaves_twoCounts_not_ordered hm⟩
    rw [exec_eq_finish, body, ht]
    rfl

/-! ## R129 -/

/-- The heap's parts written back over a state whose heap's parts are blank. -/
theorem State.sansHeap_set (s : State) (hp : Mem Handle) (n : BitVec 9) (r : Handle) (ow : Mem Bool) :
    (((s.sansHeap.setHeap hp).setHsize n).setRes r).setOwn ow = (((s.setHeap hp).setHsize n).setRes r).setOwn ow := by
  simp only [State.sansHeap, State.setHeap, State.setHsize, State.setRes, State.setOwn]

/-- What the heap operations leave is the old state but for HEAP, HSIZE, RES and OWN. -/
theorem HeapWrites.eq_set {s t : State} (h : HeapWrites s t) :
    t = (((s.setHeap t.heap).setHsize t.hsize).setRes t.res).setOwn t.own := by
  rw [← State.sansHeap_set s, ← show t.sansHeap = s.sansHeap from h, State.sansHeap_set]
  rfl

theorem body_heapWrites {i : Instr} (hi : i = .hext ∨ ∃ h, i = .hins h) (s : State) :
    HeapWrites s (body i s).state := by
  obtain rfl | ⟨h, rfl⟩ := hi
  · exact hext_writes s
  · obtain ⟨_, _, _, hw⟩ := hins_writes h s
    rw [body, hw]
    rfl

theorem body_heap_raises {i : Instr} (hi : i = .hext ∨ ∃ h, i = .hins h) {s t : State} {e : ErrorCode}
    (h : body i s = .raised e t) : e = .emptyHeap ∨ e = .operand ∨ e = .capacity := by
  obtain rfl | ⟨_, rfl⟩ := hi
  · exact .inl (hext_raises h)
  · exact .inr (hins_raises h)

/-- HINS and HEXT change nothing but HEAP, HSIZE, RES and OWN, and ERR and PH where they raise (R129). -/
theorem exec_heap_frame {i : Instr} (hi : i = .hext ∨ ∃ h, i = .hins h) {s t : State} (ht : exec i s = .next t) :
    t = ((((((s.setHeap t.heap).setHsize t.hsize).setRes t.res).setOwn t.own).setErr t.err).setPh t.ph) ∧
    (t.err ≠ s.err → t.err = some .emptyHeap ∨ t.err = some .operand ∨ t.err = some .capacity) := by
  have hw := (body_heapWrites hi s).eq_set
  obtain ⟨-, rfl⟩ | ⟨e, hraised, rfl⟩ := Run.finish_next ((exec_eq_finish i s).symm.trans ht)
  · have herr : (body i s).state.err = s.err := (congrArg State.err hw :)
    exact ⟨congrArg (fun u => (u.setErr (body i s).state.err).setPh (body i s).state.ph) hw, fun hne => absurd herr hne⟩
  · refine ⟨congrArg (fun u => u.raiseError e) hw, fun _ => ?_⟩
    obtain rfl | rfl | rfl := body_heap_raises hi hraised
    · exact .inl rfl
    · exact .inr (.inl rfl)
    · exact .inr (.inr rfl)

/-- Settles O30: HEXT answers HEAP[0], the least of a heap in order, and the frame of both commands. -/
theorem hextReturnsTheLeast : Obligations.HextReturnsTheLeast := by
  refine ⟨fun s hs hpos => ?_, fun s t i hi ht => exec_heap_frame hi ht⟩
  have h0 : s.hsize ≠ 0#9 := by rintro h0; simp [h0] at hpos
  refine ⟨_, exec_hext_of_ne h0, rfl, fun h hh => ?_⟩
  obtain ⟨j, hj, rfl⟩ := List.mem_map.1 hh
  exact (heapOrdered_iff.1 hs).root_le j (List.mem_range.1 hj)

end Sys2Proof.Machine
end

section
/-! TCHK decides T1 to T4: its loop passes exactly where the records reachable from the root are a finite tree whose
handles and leaf symbols, listed in the order of the visits, repeat nothing; and that is what T1 to T4 say
(spec/41_tree_builder.md R149). -/

namespace Sys2Proof.Machine

/-! ## The trees that the check walks -/

/-- T2 at `h`: both children are there, not NULL and valid records. -/
def ChildrenValid (node : Mem NodeRec) (h : Handle) : Prop :=
  ((nodeAt node h).left ≠ null ∧ (nodeAt node (nodeAt node h).left).v = true) ∧
    ((nodeAt node h).right ≠ null ∧ (nodeAt node (nodeAt node h).right).v = true)

/-- The records reachable from `h` are a finite tree of leaves and of internal nodes with valid children; `hs` lists its
handles and `bs` its leaves' symbols in the order in which TCHK visits them. -/
inductive Spans (node : Mem NodeRec) : Handle → List Handle → List Byte → Prop where
  | leaf {h : Handle} (hk : (nodeAt node h).k = .leaf) : Spans node h [h] [(nodeAt node h).sym]
  | internal {h : Handle} {hl hr : List Handle} {bl br : List Byte} (hk : (nodeAt node h).k = .internal)
      (hc : ChildrenValid node h) (hleft : Spans node (nodeAt node h).left hl bl)
      (hright : Spans node (nodeAt node h).right hr br) : Spans node h (h :: (hl ++ hr)) (bl ++ br)

/-- The trees below the handles of a stack, one after the other. -/
inductive SpansAll (node : Mem NodeRec) : List Handle → List Handle → List Byte → Prop where
  | nil : SpansAll node [] [] []
  | cons {h : Handle} {stack hs hs' : List Handle} {bs bs' : List Byte} (hspan : Spans node h hs bs)
      (hrest : SpansAll node stack hs' bs') : SpansAll node (h :: stack) (hs ++ hs') (bs ++ bs')

section SpansAll
variable {node : Mem NodeRec} {h : Handle} {stack hs : List Handle} {bs : List Byte}

theorem spansAll_nil : SpansAll node [] hs bs ↔ hs = [] ∧ bs = [] := by
  constructor
  · rintro ⟨⟩
    exact ⟨rfl, rfl⟩
  · rintro ⟨rfl, rfl⟩
    exact .nil

theorem spansAll_singleton : SpansAll node [h] hs bs ↔ Spans node h hs bs := by
  constructor
  · rintro (_ | ⟨hspan, hrest⟩)
    obtain ⟨rfl, rfl⟩ := spansAll_nil.1 hrest
    rwa [List.append_nil, List.append_nil]
  · intro hspan
    have := SpansAll.cons hspan .nil
    rwa [List.append_nil, List.append_nil] at this

/-- A leaf on top of the stack is visited. -/
theorem spansAll_leaf (hk : (nodeAt node h).k = .leaf) :
    SpansAll node (h :: stack) hs bs ↔
      ∃ hs' bs', hs = h :: hs' ∧ bs = (nodeAt node h).sym :: bs' ∧ SpansAll node stack hs' bs' := by
  constructor
  · rintro (_ | ⟨_ | ⟨hk', -, -, -⟩, hrest⟩)
    · exact ⟨_, _, rfl, rfl, hrest⟩
    · exact nomatch hk.symm.trans hk'
  · rintro ⟨hs', bs', rfl, rfl, hrest⟩
    exact .cons (.leaf hk) hrest

/-- An internal node on top of the stack is visited, then its two children in place of it. -/
theorem spansAll_internal (hk : (nodeAt node h).k = .internal) :
    SpansAll node (h :: stack) hs bs ↔ ChildrenValid node h ∧
      ∃ hs', hs = h :: hs' ∧ SpansAll node ((nodeAt node h).left :: (nodeAt node h).right :: stack) hs' bs := by
  constructor
  · rintro (_ | ⟨hk' | ⟨-, hc, hleft, hright⟩, hrest⟩)
    · exact nomatch hk.symm.trans hk'
    · refine ⟨hc, _, List.cons_append, ?_⟩
      rw [List.append_assoc, List.append_assoc]
      exact .cons hleft (.cons hright hrest)
  · rintro ⟨hc, _, rfl, _ | ⟨hleft, _ | ⟨hright, hrest⟩⟩⟩
    have := SpansAll.cons (.internal hk hc hleft hright) hrest
    rwa [List.cons_append, List.append_assoc, List.append_assoc] at this

end SpansAll

/-! ## The loop of TCHK -/

/-- Moving an element from the front of one list to the front of the next. -/
theorem nodup_cons_append {α : Type} {x : α} {l m : List α} : (x :: l ++ m).Nodup ↔ (l ++ x :: m).Nodup :=
  List.perm_middle.nodup_iff.symm

/-- The loop passes exactly where the stack's trees, with what is visited and seen already, repeat neither a handle nor
a leaf's symbol, and the pops suffice. -/
theorem checkFrom_iff {node : Mem NodeRec} {fuel : Nat} {stack vis : List Handle} {seen : List Byte}
    (hvis : vis.Nodup) (hseen : seen.Nodup) :
    checkFrom node fuel stack vis seen = true ↔
      ∃ hs bs, SpansAll node stack hs bs ∧ hs.length ≤ fuel ∧ (hs ++ vis).Nodup ∧ (bs ++ seen).Nodup := by
  induction fuel generalizing stack vis seen with
  | zero =>
    cases stack with
    | nil => simp [checkFrom, spansAll_nil, hvis, hseen]
    | cons h stack =>
      refine ⟨nofun, ?_⟩
      rintro ⟨hs, bs, hspan, hlen, -⟩
      obtain rfl := List.length_eq_zero_iff.1 (Nat.le_zero.1 hlen)
      cases hk : (nodeAt node h).k with
      | leaf => simp [spansAll_leaf hk] at hspan
      | internal => simp [spansAll_internal hk] at hspan
  | succ fuel ih =>
    cases stack with
    | nil => simp [checkFrom, spansAll_nil, hvis, hseen]
    | cons h stack =>
      rw [checkFrom_cons]
      constructor
      · rintro ⟨hnew, ⟨hk, hsym, hrest⟩ | ⟨hk, ⟨hl, hr⟩, ⟨hlv, hrv⟩, hrest⟩⟩
        · obtain ⟨hs, bs, hspan, hlen, hhs, hbs⟩ :=
            (ih (List.nodup_cons.2 ⟨hnew, hvis⟩) (List.nodup_cons.2 ⟨hsym, hseen⟩)).1 hrest
          exact ⟨_, _, (spansAll_leaf hk).2 ⟨hs, bs, rfl, rfl, hspan⟩, Nat.succ_le_succ hlen,
            nodup_cons_append.2 hhs, nodup_cons_append.2 hbs⟩
        · obtain ⟨hs, bs, hspan, hlen, hhs, hbs⟩ := (ih (List.nodup_cons.2 ⟨hnew, hvis⟩) hseen).1 hrest
          exact ⟨_, bs, (spansAll_internal hk).2 ⟨⟨⟨hl, hlv⟩, hr, hrv⟩, hs, rfl, hspan⟩, Nat.succ_le_succ hlen,
            nodup_cons_append.2 hhs, hbs⟩
      · rintro ⟨hs, bs, hspan, hlen, hhs, hbs⟩
        cases hk : (nodeAt node h).k with
        | leaf =>
          obtain ⟨hs, bs, rfl, rfl, hrest⟩ := (spansAll_leaf hk).1 hspan
          rw [nodup_cons_append] at hhs hbs
          have hvis' := hhs.of_append_right
          have hseen' := hbs.of_append_right
          exact ⟨(List.nodup_cons.1 hvis').1, .inl ⟨rfl, (List.nodup_cons.1 hseen').1,
            (ih hvis' hseen').2 ⟨hs, bs, hrest, Nat.le_of_succ_le_succ hlen, hhs, hbs⟩⟩⟩
        | internal =>
          obtain ⟨⟨⟨hl, hlv⟩, hr, hrv⟩, hs, rfl, hrest⟩ := (spansAll_internal hk).1 hspan
          rw [nodup_cons_append] at hhs
          have hvis' := hhs.of_append_right
          exact ⟨(List.nodup_cons.1 hvis').1, .inr ⟨rfl, ⟨hl, hr⟩, ⟨hlv, hrv⟩,
            (ih hvis' hseen).2 ⟨hs, bs, hrest, Nat.le_of_succ_le_succ hlen, hhs, hbs⟩⟩⟩

/-- There are 512 values of a handle. -/
theorem length_le_of_nodup {hs : List Handle} (hnodup : hs.Nodup) : hs.length ≤ 512 := by
  have hsub : hs ⊆ (List.range 512).map (BitVec.ofNat 9) := fun h _ =>
    List.mem_map.2 ⟨h.toNat, List.mem_range.2 h.isLt, by simp⟩
  simpa using (hnodup.subperm hsub).length_le

/-- TCHK passes on a valid root below which a finite tree repeats neither a handle nor a leaf's symbol; 512 pops are
more than there are handles (R149). -/
theorem treeCheck_iff_spans {node : Mem NodeRec} {root : Handle} :
    treeCheck node root = true ↔ (root ≠ null ∧ (nodeAt node root).v = true) ∧
      ∃ hs bs, Spans node root hs bs ∧ hs.Nodup ∧ bs.Nodup := by
  rw [treeCheck_iff, checkFrom_iff List.nodup_nil List.nodup_nil, and_assoc]
  simp only [spansAll_singleton, List.append_nil]
  refine and_congr_right fun _ => and_congr_right fun _ => exists₂_congr fun hs bs => and_congr_right fun _ => ?_
  exact ⟨And.right, fun hnodup => ⟨length_le_of_nodup hnodup.1, hnodup⟩⟩

/-! ## Paths in a finite tree -/

/-- From a leaf no path goes on. -/
theorem Reaches.path_eq_nil {node : Mem NodeRec} {h t : Handle} {p : List Bool} (hp : Reaches node h p t)
    (hk : (nodeAt node h).k = .leaf) : p = [] := by
  cases hp with
  | here => rfl
  | left hi _ => exact nomatch hk.symm.trans hi
  | right hi _ => exact nomatch hk.symm.trans hi

namespace Spans

variable {node : Mem NodeRec} {h g : Handle} {hs : List Handle} {bs : List Byte}

theorem mem_iff (hspan : Spans node h hs bs) : g ∈ hs ↔ ∃ p, Reaches node h p g := by
  induction hspan with
  | leaf hk =>
    rw [List.mem_singleton]
    constructor
    · rintro rfl
      exact ⟨[], .here _⟩
    · rintro ⟨p, hp⟩
      exact hp.eq_of_leaf hk
  | @internal h _ _ _ _ hk _ _ _ ihl ihr =>
    rw [List.mem_cons, List.mem_append, ihl, ihr]
    constructor
    · rintro (rfl | ⟨p, hp⟩ | ⟨p, hp⟩)
      · exact ⟨[], .here _⟩
      · exact ⟨_, .left hk hp⟩
      · exact ⟨_, .right hk hp⟩
    · rintro ⟨_, _ | ⟨-, hp⟩ | ⟨-, hp⟩⟩
      · exact .inl rfl
      · exact .inr (.inl ⟨_, hp⟩)
      · exact .inr (.inr ⟨_, hp⟩)

theorem mem_syms_iff {b : Byte} (hspan : Spans node h hs bs) :
    b ∈ bs ↔ ∃ p g, Reaches node h p g ∧ (nodeAt node g).k = .leaf ∧ (nodeAt node g).sym = b := by
  induction hspan with
  | @leaf h hk =>
    rw [List.mem_singleton]
    constructor
    · rintro rfl
      exact ⟨[], h, .here _, hk, rfl⟩
    · rintro ⟨p, g, hp, -, rfl⟩
      rw [hp.eq_of_leaf hk]
  | internal hk _ _ _ ihl ihr =>
    rw [List.mem_append, ihl, ihr]
    constructor
    · rintro (⟨p, g, hp, hg⟩ | ⟨p, g, hp, hg⟩)
      · exact ⟨_, g, .left hk hp, hg⟩
      · exact ⟨_, g, .right hk hp, hg⟩
    · rintro ⟨_, g, _ | ⟨-, hp⟩ | ⟨-, hp⟩, hg⟩
      · exact nomatch hk.symm.trans hg.1
      · exact .inl ⟨_, g, hp, hg⟩
      · exact .inr ⟨_, g, hp, hg⟩

theorem childrenValid {p : List Bool} (hspan : Spans node h hs bs) (hp : Reaches node h p g)
    (hk : (nodeAt node g).k = .internal) : ChildrenValid node g := by
  induction hspan generalizing p with
  | leaf hleaf =>
    rw [hp.eq_of_leaf hleaf] at hk
    exact nomatch hleaf.symm.trans hk
  | internal _ hc _ _ ihl ihr =>
    cases hp with
    | here => exact hc
    | left _ hp => exact ihl hp
    | right _ hp => exact ihr hp

/-- The handles are all different exactly where no record is reached by two paths (T3). -/
theorem nodup_iff (hspan : Spans node h hs bs) :
    hs.Nodup ↔ ∀ p q g, Reaches node h p g → Reaches node h q g → p = q := by
  induction hspan with
  | leaf hk =>
    refine ⟨fun _ p q g hp hq => ?_, fun _ => List.nodup_singleton _⟩
    rw [hp.path_eq_nil hk, hq.path_eq_nil hk]
  | @internal h _ _ _ _ hk _ hleft hright ihl ihr =>
    rw [List.nodup_cons, List.mem_append, hleft.mem_iff, hright.mem_iff, List.nodup_append', ihl, ihr]
    constructor
    · rintro ⟨hroot, hl, hr, hlr⟩ p q g hp hq
      cases hp with
      | here =>
        cases hq with
        | here => rfl
        | left _ hq => exact absurd (.inl ⟨_, hq⟩) hroot
        | right _ hq => exact absurd (.inr ⟨_, hq⟩) hroot
      | left _ hp =>
        cases hq with
        | here => exact absurd (.inl ⟨_, hp⟩) hroot
        | left _ hq => rw [hl _ _ g hp hq]
        | right _ hq => exact absurd (hright.mem_iff.2 ⟨_, hq⟩) (hlr (hleft.mem_iff.2 ⟨_, hp⟩))
      | right _ hp =>
        cases hq with
        | here => exact absurd (.inr ⟨_, hp⟩) hroot
        | left _ hq => exact absurd (hright.mem_iff.2 ⟨_, hp⟩) (hlr (hleft.mem_iff.2 ⟨_, hq⟩))
        | right _ hq => rw [hr _ _ g hp hq]
    · intro hone
      refine ⟨?_, fun p q g hp hq => List.tail_eq_of_cons_eq (hone _ _ g (.left hk hp) (.left hk hq)),
        fun p q g hp hq => List.tail_eq_of_cons_eq (hone _ _ g (.right hk hp) (.right hk hq)), fun g hgl hgr => ?_⟩
      · rintro (⟨p, hp⟩ | ⟨p, hp⟩)
        · exact nomatch hone _ _ _ (.here h) (.left hk hp)
        · exact nomatch hone _ _ _ (.here h) (.right hk hp)
      · obtain ⟨p, hp⟩ := hleft.mem_iff.1 hgl
        obtain ⟨q, hq⟩ := hright.mem_iff.1 hgr
        exact nomatch hone _ _ _ (.left hk hp) (.right hk hq)

/-- The leaves' symbols are all different exactly where no two leaves have the same (T4). -/
theorem nodup_syms_iff (hspan : Spans node h hs bs) :
    bs.Nodup ↔ ∀ p q f g, Reaches node h p f → Reaches node h q g → (nodeAt node f).k = .leaf →
      (nodeAt node g).k = .leaf → (nodeAt node f).sym = (nodeAt node g).sym → p = q := by
  induction hspan with
  | leaf hk =>
    refine ⟨fun _ p q f g hp hq _ _ _ => ?_, fun _ => List.nodup_singleton _⟩
    rw [hp.path_eq_nil hk, hq.path_eq_nil hk]
  | internal hk _ hleft hright ihl ihr =>
    rw [List.nodup_append', ihl, ihr]
    constructor
    · rintro ⟨hl, hr, hlr⟩ p q f g hp hq hf hg heq
      cases hp with
      | here => exact nomatch hk.symm.trans hf
      | left _ hp =>
        cases hq with
        | here => exact nomatch hk.symm.trans hg
        | left _ hq => rw [hl _ _ f g hp hq hf hg heq]
        | right _ hq =>
          exact absurd (hright.mem_syms_iff.2 ⟨_, g, hq, hg, rfl⟩) (hlr (hleft.mem_syms_iff.2 ⟨_, f, hp, hf, heq⟩))
      | right _ hp =>
        cases hq with
        | here => exact nomatch hk.symm.trans hg
        | left _ hq =>
          exact absurd (hright.mem_syms_iff.2 ⟨_, f, hp, hf, heq⟩) (hlr (hleft.mem_syms_iff.2 ⟨_, g, hq, hg, rfl⟩))
        | right _ hq => rw [hr _ _ f g hp hq hf hg heq]
    · intro hone
      refine ⟨fun p q f g hp hq hf hg heq =>
          List.tail_eq_of_cons_eq (hone _ _ f g (.left hk hp) (.left hk hq) hf hg heq),
        fun p q f g hp hq hf hg heq =>
          List.tail_eq_of_cons_eq (hone _ _ f g (.right hk hp) (.right hk hq) hf hg heq), fun b hbl hbr => ?_⟩
      obtain ⟨p, f, hp, hf, hfb⟩ := hleft.mem_syms_iff.1 hbl
      obtain ⟨q, g, hq, hg, hgb⟩ := hright.mem_syms_iff.1 hbr
      exact nomatch hone _ _ f g (.left hk hp) (.right hk hq) hf hg (hfb.trans hgb.symm)

end Spans

/-! ## T1 to T4 -/

/-- A path goes through the node that each of its beginnings reaches. -/
theorem Reaches.split {node : Mem NodeRec} {r t : Handle} {p q : List Bool} (h : Reaches node r (p ++ q) t) :
    ∃ g, Reaches node r p g ∧ Reaches node g q t := by
  induction p generalizing r with
  | nil => exact ⟨r, .here r, h⟩
  | cons b p ih =>
    cases h with
    | left hk h =>
      obtain ⟨g, hp, hq⟩ := ih h
      exact ⟨g, .left hk hp, hq⟩
    | right hk h =>
      obtain ⟨g, hp, hq⟩ := ih h
      exact ⟨g, .right hk hp, hq⟩

/-- Where no record is reached by two paths the nodes on a path are all different, so it has less than 512 turns. -/
theorem Reaches.length_lt {node : Mem NodeRec} {r t : Handle} {p : List Bool} (h : Reaches node r p t)
    (hone : ∀ p q g, Reaches node r p g → Reaches node r q g → p = q) : p.length < 512 := by
  have hnode : ∀ i : ℕ, ∃ g, Reaches node r (p.take i) g := fun i => by
    rw [← List.take_append_drop i p] at h
    obtain ⟨g, hg, -⟩ := h.split
    exact ⟨g, hg⟩
  choose g hg using hnode
  have hnodup : ((List.range (p.length + 1)).map g).Nodup := by
    refine List.Nodup.map_on (fun i hi j hj hij => ?_) List.nodup_range
    have htake := congrArg List.length (hone _ _ _ (hg i) (hij ▸ hg j))
    rw [List.mem_range] at hi hj
    rw [List.length_take, List.length_take] at htake
    omega
  simpa using length_le_of_nodup hnodup

/-- The records of a tree are finitely many: T2 and T3 bound every path below the root. -/
theorem IsTree.spans {node : Mem NodeRec} {root : Handle} (ht : IsTree node root) :
    ∃ hs bs, Spans node root hs bs := by
  have hbelow : ∀ (d : ℕ) (p : List Bool) (h : Handle), Reaches node root p h → 512 ≤ p.length + d →
      ∃ hs bs, Spans node h hs bs := by
    intro d
    induction d with
    | zero => exact fun p h hp hd => absurd (hp.length_lt ht.onePath) (Nat.not_lt.2 hd)
    | succ d ih =>
      intro p h hp hd
      cases hk : (nodeAt node h).k with
      | leaf => exact ⟨_, _, .leaf hk⟩
      | internal =>
        have hlen : ∀ b : Bool, 512 ≤ (p ++ [b]).length + d := fun b => by
          rw [List.length_append, List.length_singleton]
          omega
        obtain ⟨hl, bl, hleft⟩ := ih _ _ (hp.append (.left hk (.here _))) (hlen false)
        obtain ⟨hr, br, hright⟩ := ih _ _ (hp.append (.right hk (.here _))) (hlen true)
        exact ⟨_, _, .internal hk (ht.twoChildren p h hp hk) hleft hright⟩
  exact hbelow 512 [] root (.here root) (Nat.le_add_left _ _)

/-- The structural check decides T1 to T4 (R149). -/
theorem treeCheck_iff_isTree {node : Mem NodeRec} {root : Handle} :
    treeCheck node root = true ↔ IsTree node root := by
  rw [treeCheck_iff_spans]
  constructor
  · rintro ⟨hroot, hs, bs, hspan, hhs, hbs⟩
    exact ⟨hroot, fun p h hp hk => hspan.childrenValid hp hk, hspan.nodup_iff.1 hhs, hspan.nodup_syms_iff.1 hbs⟩
  · intro ht
    obtain ⟨hs, bs, hspan⟩ := ht.spans
    exact ⟨ht.rootValid, hs, bs, hspan, hspan.nodup_iff.2 ht.onePath, hspan.nodup_syms_iff.2 ht.oneLeaf⟩

/-- Settles O39: TCHK is the structural check, which passes exactly on T1 to T4. -/
theorem tchkDecidesTheInvariants : Obligations.TchkDecidesTheInvariants := by
  intro s
  rw [exec_eq_finish, body, tchk, ← treeCheck_iff_isTree]
  refine ⟨fun hpass => ?_, fun hfail => ?_⟩
  · rw [if_pos hpass, Run.finish_ok]
  · rw [if_neg hfail, Run.finish_raised]

end Sys2Proof.Machine
end

section
/-! MRG in every state, whatever the engine held before: the two nodes it extracts, the node it makes of them, the
heap's array, and its two ways to raise (spec/41_tree_builder.md R143, R144; spec/60_exceptions.md R223). -/

namespace Sys2Proof.Machine

/-! ## Frames as equations -/

section Frames
variable (s : State) (node : Mem NodeRec) (hp : Mem Handle) (ow : Mem Bool) (n d z c : BitVec 9) (r q : Handle)
  (b : Bool)

/-- What MRG writes, written over a state whose parts for it are blank. -/
theorem State.sansMerge_set :
    (((((s.sansMerge.setNode node).setHeap hp).setOwn ow).setHsize z).setRes r).setNcnt n =
      (((((s.setNode node).setHeap hp).setOwn ow).setHsize z).setRes r).setNcnt n := by
  simp only [State.sansMerge, State.sansHeap, State.setNode, State.setHeap, State.setOwn, State.setHsize, State.setRes,
    State.setNcnt]

/-- What TBLD writes, written over a state whose parts for it are blank. -/
theorem State.sansBuild_set :
    (((((((((s.sansBuild.setNode node).setHeap hp).setOwn ow).setNcnt n).setNdist d).setHsize z).setHcap c).setRoot
      q).setRes r).setTv b =
    (((((((((s.setNode node).setHeap hp).setOwn ow).setNcnt n).setNdist d).setHsize z).setHcap c).setRoot q).setRes
      r).setTv b := by
  simp only [State.sansBuild, State.sansMerge, State.sansHeap, State.setNode, State.setHeap, State.setOwn,
    State.setNcnt, State.setNdist, State.setHsize, State.setHcap, State.setRoot, State.setRes, State.setTv]

end Frames

/-- What MRG leaves is the old state but for NODE, HEAP, OWN, HSIZE, RES and NCNT. -/
theorem MergeWrites.eq_set {s t : State} (h : MergeWrites s t) :
    t = (((((s.setNode t.node).setHeap t.heap).setOwn t.own).setHsize t.hsize).setRes t.res).setNcnt t.ncnt := by
  rw [← State.sansMerge_set s, ← show t.sansMerge = s.sansMerge from h, State.sansMerge_set]
  simp only [State.setNode, State.setHeap, State.setOwn, State.setHsize, State.setRes, State.setNcnt]

/-- What LEAVES and TBLD leave is the old state but for NODE, HEAP, OWN and the registers of the tree and the heap. -/
theorem BuildWrites.eq_set {s t : State} (h : BuildWrites s t) :
    t = (((((((((s.setNode t.node).setHeap t.heap).setOwn t.own).setNcnt t.ncnt).setNdist t.ndist).setHsize
      t.hsize).setHcap t.hcap).setRoot t.root).setRes t.res).setTv t.tv := by
  rw [← State.sansBuild_set s, ← show t.sansBuild = s.sansBuild from h, State.sansBuild_set]
  simp only [State.setNode, State.setHeap, State.setOwn, State.setNcnt, State.setNdist, State.setHsize, State.setHcap,
    State.setRoot, State.setRes, State.setTv]

/-! ## ExtractMin on a heap that is not empty -/

/-- What ExtractMin leaves of a heap that is not empty; its RES is the handle returned (R127). -/
def withoutMin (s : State) : State :=
  (((s.setHeap (extracted s)).setHsize (s.hsize - 1#9)).putOwn (heapAt s.heap 0) false).setRes (heapAt s.heap 0)

section withoutMin
variable (s : State)
@[simp] theorem withoutMin_cfg : (withoutMin s).cfg = s.cfg := rfl
@[simp] theorem withoutMin_node : (withoutMin s).node = s.node := rfl
@[simp] theorem withoutMin_ncnt : (withoutMin s).ncnt = s.ncnt := rfl
@[simp] theorem withoutMin_hsize : (withoutMin s).hsize = s.hsize - 1#9 := rfl
@[simp] theorem withoutMin_heap : (withoutMin s).heap = extracted s := rfl
@[simp] theorem withoutMin_res : (withoutMin s).res = heapAt s.heap 0 := rfl

theorem withoutMin_writes : HeapWrites s (withoutMin s) := by
  simp [HeapWrites, State.sansHeap, withoutMin]

theorem ownAt_withoutMin (g : Handle) :
    ownAt (withoutMin s).own g = if g = (withoutMin s).res ∧ g ≠ null then false else ownAt s.own g := by
  rw [withoutMin, State.setRes_own, State.setRes_res, ownAt_putOwn]
  exact if_congr (and_congr_right fun hg => by rw [hg]) rfl rfl
end withoutMin

theorem extractMin_eq_ok {s : State} (h0 : s.hsize ≠ 0#9) : extractMin s = .ok (heapAt s.heap 0) (withoutMin s) :=
  extractMin_of_ne h0

theorem extractMin_eq_raised {s : State} (h0 : s.hsize = 0#9) : extractMin s = .raised .emptyHeap (s.setRes null) :=
  if_pos h0

theorem exec_hext_eq {s : State} (h0 : s.hsize ≠ 0#9) : exec .hext s = .next (withoutMin s) := exec_hext_of_ne h0

theorem toNat_hsize_withoutMin {s : State} (h0 : s.hsize ≠ 0#9) :
    (withoutMin s).hsize.toNat + 1 = s.hsize.toNat := toNat_sub_one h0

theorem hsize_ne_zero {s : State} (hpos : 0 < s.hsize.toNat) : s.hsize ≠ 0#9 := by
  rintro h0
  rw [h0] at hpos
  exact absurd hpos (Nat.lt_irrefl 0)

theorem heapList_perm_withoutMin {s : State} (h0 : s.hsize ≠ 0#9) :
    s.heapList.Perm (heapAt s.heap 0 :: (withoutMin s).heapList) :=
  (extractMin_spec (extractMin_eq_ok h0)).1

/-- The root of a heap that is not empty is one of its elements. -/
theorem heapAt_zero_mem {s : State} (h0 : s.hsize ≠ 0#9) : heapAt s.heap 0 ∈ s.heapList :=
  (heapList_perm_withoutMin h0).mem_iff.2 List.mem_cons_self

/-! ## MRG on a heap of two nodes or more -/

section allocated
variable (a b : Handle) (s : State)
@[simp] theorem allocated_hsize : (allocated a b s).hsize = s.hsize := by simp [allocated]
@[simp] theorem allocated_heap : (allocated a b s).heap = s.heap := by simp [allocated]
@[simp] theorem allocated_ncnt : (allocated a b s).ncnt = s.ncnt + 1#9 := by simp [allocated]
@[simp] theorem allocated_heapList : (allocated a b s).heapList = s.heapList := by simp [State.heapList]
end allocated

/-- The state in which MRG has two children out of the heap (R143). -/
def withoutTwo (s : State) : State := withoutMin (withoutMin s)

section withoutTwo
variable (s : State)
@[simp] theorem withoutTwo_cfg : (withoutTwo s).cfg = s.cfg := by simp [withoutTwo]
@[simp] theorem withoutTwo_node : (withoutTwo s).node = s.node := by simp [withoutTwo]
@[simp] theorem withoutTwo_ncnt : (withoutTwo s).ncnt = s.ncnt := by simp [withoutTwo]
@[simp] theorem withoutTwo_hsize : (withoutTwo s).hsize = s.hsize - 1#9 - 1#9 := by simp [withoutTwo]

theorem withoutTwo_writes : HeapWrites s (withoutTwo s) := (withoutMin_writes s).trans (withoutMin_writes _)
end withoutTwo

/-- What MRG leaves of a heap of two nodes or more: the first extracted is the left child, the second the right one
(R143, R144). -/
def mergedTwo (s : State) : State := mergeNode (withoutMin s).res (withoutTwo s).res (withoutTwo s)

theorem mergedTwo_eq (s : State) :
    mergedTwo s = insert (allocated (withoutMin s).res (withoutTwo s).res (withoutTwo s)) s.ncnt := by
  rw [mergedTwo, mergeNode_eq, withoutTwo_ncnt]

theorem mergedTwo_hsize (s : State) : (mergedTwo s).hsize = s.hsize - 1#9 := by
  rw [mergedTwo_eq, State.insert_hsize, allocated_hsize, withoutTwo_hsize, BitVec.sub_add_cancel]

theorem mergedTwo_ncnt (s : State) : (mergedTwo s).ncnt = s.ncnt + 1#9 := by
  rw [mergedTwo_eq, State.insert_ncnt, allocated_ncnt, withoutTwo_ncnt]

theorem mergedTwo_res (s : State) : (mergedTwo s).res = (withoutTwo s).res := by
  simp [mergedTwo_eq, allocated]

theorem mergedTwo_writes (s : State) : MergeWrites s (mergedTwo s) :=
  (withoutTwo_writes s).merge.trans (mergeNode_writes _ _ _)

theorem nodeAt_mergedTwo (s : State) {h : Handle} (hne : h ≠ null) :
    nodeAt (mergedTwo s).node h = if h = s.ncnt then
      (internalRec (withoutMin s).res (withoutTwo s).res
        (freqOf s.node (withoutMin s).res + freqOf s.node (withoutTwo s).res)).atWidth s.cfg.nfreqBits
      else nodeAt s.node h := by
  have hnew : h.toNat = s.ncnt.toNat ∧ s.ncnt.toNat < nodeCap ↔ h = s.ncnt := by
    rw [BitVec.toNat_inj]
    exact and_iff_left_of_imp fun he => he ▸ toNat_lt_nodeCap hne
  rw [mergedTwo_eq, State.insert_node, nodeAt_allocated]
  simp only [withoutTwo_ncnt, withoutTwo_node, withoutTwo_cfg, hnew]

/-- The children, taken out of the heap, are owned again, and so is the new node (R143). -/
theorem ownAt_mergedTwo (s : State) {h : Handle} (hne : h ≠ null) :
    ownAt (mergedTwo s).own h =
      if h = (withoutMin s).res ∨ h = (withoutTwo s).res ∨ h = s.ncnt then true else ownAt s.own h := by
  have hput : ∀ (u : State) (g : Handle) (b : Bool),
      ownAt (u.putOwn g b).own h = if h = g then b else ownAt u.own h := fun u g b => by
    rw [ownAt_putOwn]
    exact if_congr (and_iff_left_of_imp fun he => he ▸ hne) rfl rfl
  have hout : ownAt (withoutTwo s).own h = if h = (withoutTwo s).res then false else
      if h = (withoutMin s).res then false else ownAt s.own h := by
    rw [withoutTwo, ownAt_withoutMin, ownAt_withoutMin]
    simp only [hne, ne_eq, not_false_eq_true, and_true]
  rw [mergedTwo_eq, ownAt_insert, allocated, hput, hput, State.setNcnt_own, State.putNode_own, hout]
  generalize (withoutMin s).res = a
  generalize (withoutTwo s).res = b
  by_cases hnew : h = s.ncnt
  · simp [hnew, hnew ▸ hne]
  · by_cases hleft : h = a <;> by_cases hright : h = b <;> simp [hnew, hleft, hright]

section Merge
variable {s : State} (h2 : 2 ≤ s.hsize.toNat)
include h2

theorem hsize_withoutMin_ne : (withoutMin s).hsize ≠ 0#9 := by
  have := toNat_hsize_withoutMin (hsize_ne_zero (s := s) (by omega))
  exact hsize_ne_zero (by omega)

theorem toNat_hsize_withoutTwo : (withoutTwo s).hsize.toNat + 2 = s.hsize.toNat := by
  have h1 := toNat_hsize_withoutMin (hsize_ne_zero (s := s) (by omega))
  have h2 := toNat_hsize_withoutMin (hsize_withoutMin_ne h2)
  rw [withoutTwo]
  omega

theorem hsize_withoutTwo_lt : (withoutTwo s).hsize.toNat < nodeCap := by
  have := toNat_hsize_withoutTwo h2
  have := hsize_le_nodeCap s
  omega

theorem mrg_eq_ok : mrg s = .ok () (mergedTwo s) := by
  have hleft := extractMin_eq_ok (s := s) (hsize_ne_zero (by omega))
  have hright := extractMin_eq_ok (hsize_withoutMin_ne h2)
  simp only [mrg, hleft, hright, Run.andThen_ok, mergedTwo, withoutTwo, withoutMin_res]

/-- The new node is in the heap in place of the two extracted (R143). -/
theorem heapList_mergedTwo : (mergedTwo s).heapList.Perm (s.ncnt :: (withoutTwo s).heapList) := by
  rw [mergedTwo_eq, ← allocated_heapList (withoutMin s).res (withoutTwo s).res (withoutTwo s)]
  exact heapList_insert _ s.ncnt (by rw [allocated_hsize]; exact hsize_withoutTwo_lt h2)

/-- Above the heap that MRG leaves the array is as before (R127, R143). -/
theorem heapAt_mergedTwo_above {j : Nat} (hj : s.hsize.toNat - 1 ≤ j) :
    heapAt (mergedTwo s).heap j = heapAt s.heap j := by
  have hcap := hsize_withoutTwo_lt h2
  have hsize1 := toNat_hsize_withoutMin (hsize_ne_zero (s := s) (by omega))
  have hsize2 := toNat_hsize_withoutTwo h2
  rw [mergedTwo_eq, heapAt_insert_above (by rwa [allocated_hsize]) _ (by rw [allocated_hsize]; omega), allocated_heap,
    withoutTwo, withoutMin_heap, heapAt_extracted_above _ (by omega), withoutMin_heap, heapAt_extracted_above s hj]

/-- The array that MRG leaves is SiftUp's from the new node appended (R124, R143). -/
theorem mergedTwo_siftsUp :
    SiftsUp (freqOf (mergedTwo s).node) (withoutTwo s).hsize.toNat
      (fun k => if k = (withoutTwo s).hsize.toNat then s.ncnt else heapAt (withoutTwo s).heap k)
      (heapAt (mergedTwo s).heap) := by
  have hsifts := insert_siftsUp (s := allocated (withoutMin s).res (withoutTwo s).res (withoutTwo s))
    (by rw [allocated_hsize]; exact hsize_withoutTwo_lt h2) s.ncnt
  rwa [allocated_hsize, allocated_heap, ← State.insert_node _ s.ncnt, ← mergedTwo_eq] at hsifts

/-- From a heap in order the first node extracted has no greater frequency than the second (R144). -/
theorem freq_left_le_right (ho : HeapOrdered s) :
    freqOf s.node (withoutMin s).res ≤ freqOf s.node (withoutTwo s).res := by
  have h0 := hsize_ne_zero (s := s) (by omega)
  obtain ⟨t, ht, -, hleast⟩ := hextReturnsTheLeast.1 s ho (by omega)
  obtain rfl := Host.Outcome.next.inj ((exec_hext_eq h0).symm.trans ht)
  exact hleast _ ((heapList_perm_withoutMin h0).mem_iff.2
    (List.mem_cons_of_mem _ (heapAt_zero_mem (hsize_withoutMin_ne h2))))

end Merge

/-- Settles O33: MRG's result is two ExtractMins, one record and Insert's SiftUp. -/
theorem mrgMergesTheFirstTwo : Obligations.MrgMergesTheFirstTwo := by
  intro s h2
  have hlast : s.hsize.toNat - 2 = (withoutTwo s).hsize.toNat := by have := toNat_hsize_withoutTwo h2; omega
  have hset := (mergedTwo_writes s).eq_set
  rw [mergedTwo_hsize, mergedTwo_res, mergedTwo_ncnt] at hset
  refine ⟨withoutMin s, withoutTwo s, (mergedTwo s).node, (mergedTwo s).heap, (mergedTwo s).own,
    exec_hext_eq (hsize_ne_zero (by omega)), exec_hext_eq (hsize_withoutMin_ne h2), ?exec,
    fun h hne => nodeAt_mergedTwo s hne, ?perm, fun h hne => ownAt_mergedTwo s hne, freq_left_le_right h2,
    fun j hj => heapAt_mergedTwo_above h2 hj, ?sifts⟩
  case exec =>
    rw [exec_eq_finish, body, mrg_eq_ok h2, Run.finish_ok]
    exact congrArg Host.Outcome.next hset
  case perm =>
    have hperm := heapList_mergedTwo h2
    rw [State.heapList, mergedTwo_hsize] at hperm
    rwa [State.heapList, State.setHsize_hsize, State.setHsize_heap, State.setHeap_heap]
  case sifts =>
    rw [hlast]
    exact mergedTwo_siftsUp h2

/-! ## MRG on a heap too small -/

/-- Settles O34: the first or the second extraction finds the heap empty. -/
theorem mrgOnTooSmallAHeap : Obligations.MrgOnTooSmallAHeap := by
  intro s
  refine ⟨fun h0 => ?_, fun h1 => ?_⟩
  · rw [exec_eq_finish, body, mrg, extractMin_eq_raised h0, Run.andThen_raised, Run.finish_raised]
  · have h0 : s.hsize ≠ 0#9 := by rw [h1]; decide
    have hempty : (withoutMin s).hsize = 0#9 := by rw [withoutMin_hsize, h1]; rfl
    refine ⟨extracted s, (withoutMin s).own, ?_, fun g => ?_, fun j => heapAt_extracted_above s (by simp [h1])⟩
    · rw [exec_eq_finish, body, mrg, extractMin_eq_ok h0, Run.andThen_ok, extractMin_eq_raised hempty,
        Run.andThen_raised, Run.finish_raised, ← hempty]
      rfl
    · rw [ownAt_withoutMin, withoutMin_res]

end Sys2Proof.Machine
end

section
/-! FCNT's counts, what LEAVES makes element by element, and TBLD on a table without a symbol (spec/41_tree_builder.md
R140 to R142, R148). -/

namespace Sys2Proof.Machine

/-! ## FCNT -/

/-- How often each of `L` occurs in a list of elements of `L` adds up to that list's length. -/
theorem sum_count_eq_length {L l : List Byte} (hL : L.Nodup) (hl : l ⊆ L) :
    (L.map fun b => l.count b).sum = l.length := by
  rw [← List.sum_toFinset _ hL]
  simpa only [Multiset.coe_count, Multiset.coe_card] using
    Multiset.sum_count_eq_card (m := (l : Multiset Byte)) fun b hb => List.mem_toFinset.2 (hl hb)

/-- Settles O31: the size test, and the counting loop over a cleared table. -/
theorem fcntCountsTheInput : Obligations.FcntCountsTheInput := by
  refine ⟨by decide, fun s => ⟨fun hbig => ?_, fun hv hfits => ?_⟩⟩
  · rw [exec_eq_finish, body, fcnt, if_pos hbig, Run.finish_raised]
  · obtain ⟨ft, hfcnt, hft⟩ := fcnt_counts hv hfits
    refine ⟨ft, by rw [exec_eq_finish, body, hfcnt, Run.finish_ok], hft, ?_⟩
    calc (s.setFt ft).totalCount
        = (alphabet.map s.occurrences).sum := by rw [State.totalCount, State.setFt_ft, funext hft]
      _ = (s.input s.symcnt).length := sum_count_eq_length alphabet_nodup fun b _ => mem_alphabet b
      _ = s.symcnt := by rw [State.input, List.length_map, List.length_range]

/-! ## LEAVES -/

/-- A count that FT holds is within the width of a node's frequency (R36, R141). -/
theorem leafRec_atWidth {s : State} (hs : s.wf = true) (b : Byte) :
    (leafRec b (ftAt s.ft b)).atWidth s.cfg.nfreqBits = leafRec b (ftAt s.ft b) := by
  have hlt : ftAt s.ft b < 2 ^ s.cfg.nfreqBits :=
    (ftAt_lt hs b).trans_le (Nat.pow_le_pow_right (Nat.succ_pos 1) (Nat.le_add_right _ _))
  rw [NodeRec.atWidth, leafRec, narrow_of_lt hlt]

/-- What LEAVES leaves (R141). -/
def leavesDone (s : State) : State := leavesEnd s.present.length (placeLeaves alphabet 0 (leavesStart s)).2

theorem placeLeaves_alphabet (s : State) :
    (placeLeaves alphabet 0 (leavesStart s)).1 = s.present.length ∧
      LeavesPlaced (leavesStart s) (placeLeaves alphabet 0 (leavesStart s)).2 0 s.present := by
  obtain ⟨hcount, hplaced⟩ := placeLeaves_spec alphabet 0 (leavesStart s) (by rw [alphabet_length]; decide)
  exact ⟨hcount.trans (Nat.zero_add _), hplaced⟩

theorem leaves_eq_done (s : State) : leaves s = .ok () (leavesDone s) := by
  rw [leaves_eq, (placeLeaves_alphabet s).1, leavesDone]

theorem leavesDone_made (s : State) : LeavesMade s (leavesDone s) := by
  obtain ⟨t, ht, hm⟩ := leaves_spec s
  obtain ⟨-, rfl⟩ := Run.ok.inj ((leaves_eq_done s).symm.trans ht)
  exact hm

theorem leavesDone_writes (s : State) : BuildWrites s (leavesDone s) := by
  have h := leaves_writes s
  rwa [leaves_eq_done] at h

/-- LEAVES fills the heap in order of placement and leaves the rest of it as before (R141, R142). -/
theorem heapAt_leavesDone (s : State) (i : Nat) :
    heapAt (leavesDone s).heap i = if i < s.present.length then BitVec.ofNat 9 i else heapAt s.heap i := by
  rw [leavesDone, leavesEnd_heap, (placeLeaves_alphabet s).2.heap]
  exact if_congr (by omega) rfl rfl

/-- LEAVES' result as writes over the old state (R141). -/
theorem leavesDone_eq_set (s : State) :
    leavesDone s =
      (((((((((s.setNode (leavesDone s).node).setHeap (leavesDone s).heap).setOwn (leavesDone s).own).setNcnt
        (BitVec.ofNat 9 s.present.length)).setNdist (BitVec.ofNat 9 s.present.length)).setHsize
        (BitVec.ofNat 9 s.present.length)).setHcap (BitVec.ofNat 9 (heapCapacity s.present.length))).setRoot
        null).setRes null).setTv false :=
  (leavesDone_writes s).eq_set

/-- The leaf of the symbol at place `h` of the alphabet is record `h`. -/
theorem LeavesMade.nodeAt_leaf {s t : State} (hm : LeavesMade s t) (hs : s.wf = true) {h : Handle} {b : Byte}
    (hb : s.present[h.toNat]? = some b) : nodeAt t.node h = leafRec b (ftAt s.ft b) := by
  have hleaf := hm.leaf h.toNat b hb
  rwa [BitVec.ofNat_toNat, BitVec.setWidth_eq, leafRec_atWidth hs] at hleaf

/-- Settles O32: the loop of LEAVES over the cleared records, and its registers. -/
theorem leavesPlacesTheAlphabet : Obligations.LeavesPlacesTheAlphabet := by
  refine ⟨by decide, ?_⟩
  rintro s _ hs rfl
  have hm := leavesDone_made s
  refine ⟨(leavesDone s).node, (leavesDone s).heap, (leavesDone s).own, ?_, present_length_le s,
    fun h b => hm.nodeAt_leaf hs, hm.fresh, heapAt_leavesDone s, fun h => ?_⟩
  · rw [exec_eq_finish, body, leaves_eq_done, Run.finish_ok]
    exact congrArg Host.Outcome.next (leavesDone_eq_set s)
  · rw [hm.own, decide_eq_true_eq]

/-! ## TBLD without a symbol -/

theorem placeLeaves_of_zero {s : State} (h0 : ∀ b, ftAt s.ft b = 0) (bs : List Byte) (n : Nat) :
    placeLeaves bs n s = (n, s) := by
  induction bs with
  | nil => rfl
  | cons b bs ih => rw [placeLeaves, if_pos (h0 b), ih]

theorem present_eq_nil_iff {s : State} : s.present = [] ↔ ∀ b, ftAt s.ft b = 0 := by
  simp [List.eq_nil_iff_forall_not_mem, mem_present]

/-- On an all-zero table LEAVES clears the records and the ownership bits and places nothing (R141). -/
theorem leavesDone_of_zero {s : State} (h0 : ∀ b, ftAt s.ft b = 0) : leavesDone s = leavesEnd 0 (leavesStart s) := by
  rw [leavesDone, present_eq_nil_iff.2 h0, placeLeaves_of_zero (s := leavesStart s) h0, List.length_nil]

/-- With an empty heap TBLD ends in the failing ExtractMin after LEAVES (R148). -/
theorem tbld_of_zero {s : State} (h0 : ∀ b, ftAt s.ft b = 0) :
    tbld s = .raised .emptyHeap ((leavesEnd 0 (leavesStart s)).setRes null) := by
  have hsize : (leavesEnd 0 (leavesStart s)).hsize = 0#9 := leavesEnd_hsize 0 _
  have hhbld : hbld (leavesEnd 0 (leavesStart s)) = .ok () (leavesEnd 0 (leavesStart s)) := by
    rw [hbld, if_neg (by rw [hsize]; decide)]
  rw [tbld, leaves_eq_done, leavesDone_of_zero h0, Run.andThen_ok, hhbld, Run.andThen_ok, hsize]
  simp only [BitVec.toNat_ofNat, Nat.zero_mod, mergeAll, Run.andThen_ok, extractMin_eq_raised hsize, Run.andThen_raised]

/-- Settles O36: the failing ExtractMin writes RES, which LEAVES has already made NULL. -/
theorem tbldOnAnEmptyAlphabet : Obligations.TbldOnAnEmptyAlphabet := by
  intro s h0
  refine ⟨clearNodeV s.node, ?_, nodeAt_clearNodeV s.node⟩
  rw [exec_eq_finish, body, tbld_of_zero h0, Run.finish_raised]
  simp only [leavesEnd, leavesStart, heapCapacity, if_pos, State.raiseError, State.setNode, State.setOwn, State.setNcnt,
    State.setNdist, State.setHsize, State.setHcap, State.setRoot, State.setRes, State.setTv, State.setErr, State.setPh]

end Sys2Proof.Machine
end

section
/-! The tree that TBLD builds, record by record: the leaves that LEAVES placed stay in place, each merge adds an
internal node above them, the heap's frequencies keep their sum, and the last node made is the root (spec/41_tree_builder.md R145
to R147, R150). -/

namespace Sys2Proof.Machine

/-! ## What the building keeps -/

/-- `t` stands between LEAVES and the last ExtractMin of TBLD begun in `s`: the leaves of LEAVES, internal nodes after
them, every other record invalid and otherwise as in `s`, all nodes owned, the heap's part beyond the leaves as in `s`;
each merge allocates one node and takes one out of the heap, whose frequencies add up to all counts. -/
structure Growing (s t : State) : Prop where
  engine : EngineInv t
  ndist : t.ndist = BitVec.ofNat 9 s.present.length
  hcap : t.hcap = BitVec.ofNat 9 (heapCapacity s.present.length)
  leaf : ∀ h b, s.present[h.toNat]? = some b → nodeAt t.node h = leafRec b (ftAt s.ft b)
  internal : ∀ h, s.present.length ≤ h.toNat → h < t.ncnt → (nodeAt t.node h).k = .internal
  fresh : ∀ h, t.ncnt ≤ h → nodeAt t.node h = { nodeAt s.node h with v := false }
  above : ∀ j, s.present.length ≤ j → heapAt t.heap j = heapAt s.heap j
  own : ∀ h, ownAt t.own h = true ↔ h < t.ncnt
  leavesAllocated : s.present.length ≤ t.ncnt.toNat
  merges : t.ncnt.toNat + t.hsize.toNat = 2 * s.present.length
  frequencies : (t.heapList.map (freqOf t.node)).sum = s.totalCount

/-- A symbol that does not occur adds nothing to the sum of all counts. -/
theorem sum_present (s : State) : (s.present.map (ftAt s.ft)).sum = s.totalCount := by
  rw [State.present, State.totalCount]
  induction alphabet with
  | nil => rfl
  | cons b bs ih =>
    by_cases hb : ftAt s.ft b = 0
    · rw [List.filter_cons_of_neg (by simpa using hb), ih, List.map_cons, List.sum_cons, hb, Nat.zero_add]
    · rw [List.filter_cons_of_pos (by simpa using hb), List.map_cons, List.map_cons, List.sum_cons, List.sum_cons, ih]

/-- The frequencies of the leaves in their places are the counts of the symbols that occur (R141). -/
theorem LeavesMade.sum_freqs {s t : State} (hm : LeavesMade s t) (hs : s.wf = true) :
    (t.heapList.map (freqOf t.node)).sum = s.totalCount := by
  have hfreqs : t.heapList.map (freqOf t.node) = s.present.map (ftAt s.ft) := by
    refine List.ext_getElem (by simp [State.heapList_length, hm.hsize]) fun j hj hj' => ?_
    rw [List.length_map] at hj'
    have hleaf := hm.leaf j _ (List.getElem?_eq_getElem hj')
    rw [leafRec_atWidth hs] at hleaf
    simp [State.heapList, hm.heap j hj', freqOf, hleaf, leafRec]
  rw [hfreqs, sum_present]

/-- LEAVES begins the building. -/
theorem leavesDone_growing {s : State} (hs : s.wf = true) : Growing s (leavesDone s) := by
  have hm := leavesDone_made s
  have hncnt : ∀ h : Handle, h < (leavesDone s).ncnt ↔ h.toNat < s.present.length := fun h => by
    rw [BitVec.lt_def, hm.ncnt]
  refine ⟨hm.engineInv (ftAt_lt hs), by simp [leavesDone], by simp [leavesDone], fun h b => hm.nodeAt_leaf hs,
    fun h hle hlt => ?_, fun h hle => ?_, fun j hj => ?_, fun h => ?_, hm.ncnt.ge, ?_, hm.sum_freqs hs⟩
  · exact absurd ((hncnt h).1 hlt) (Nat.not_lt.2 hle)
  · rw [BitVec.le_def, hm.ncnt] at hle
    exact hm.fresh h hle
  · rw [heapAt_leavesDone, if_neg (Nat.not_lt.2 hj)]
  · rw [hm.own, decide_eq_true_eq, hncnt]
  · rw [hm.ncnt, hm.hsize]
    omega

/-- HBLD is its sifts (R125). -/
theorem hbld_eq (s : State) :
    hbld s = .ok () (s.setHeap (siftAll s.node s.hsize.toNat (s.hsize.toNat / 2) s.heap)) := by
  obtain ⟨heap, h⟩ := hbld_writes s
  have hexec := exec_hbld s
  rw [exec_eq_finish, body, h, Run.finish_ok] at hexec
  rw [h, Host.Outcome.next.inj hexec]

namespace Growing

variable {s t : State} (hg : Growing s t)
include hg

theorem hsize_le : t.hsize.toNat ≤ s.present.length := by
  have := hg.merges
  have := hg.leavesAllocated
  omega

/-- HBLD reorders the heap and nothing else. -/
theorem hbld : ∃ u, Machine.hbld t = .ok () u ∧ Growing s u ∧ u.hsize = t.hsize := by
  have hn := hsize_le_nodeCap t
  have hengine := hbld_engineInv hg.engine
  have hperm := heapList_hbld t
  obtain ⟨-, habove, -⟩ := siftAll_spec t.node t.hsize.toNat hn (t.hsize.toNat / 2) t.heap
  rw [hbld_eq] at hengine hperm
  refine ⟨_, hbld_eq t, ⟨hengine, hg.ndist, hg.hcap, hg.leaf, hg.internal, hg.fresh, fun j hj => ?_, hg.own,
    hg.leavesAllocated, hg.merges, ?_⟩, rfl⟩
  · exact (habove j (hg.hsize_le.trans hj)).trans (hg.above j hj)
  · exact (hperm.map _).sum_eq.trans hg.frequencies

/-- Each merge keeps what the building keeps (R143, R147). -/
theorem mrg (h2 : 2 ≤ t.hsize.toNat) : Growing s (mergedTwo t) := by
  obtain ⟨hsmall, -⟩ | ⟨-, a, b, u, hu, hw, hperm, ⟨ha, hb, -⟩, hown, hmrg, hm⟩ := mrg_merges hg.engine
  · omega
  have hengine := mrg_engineInv hg.engine
  rw [mrg_eq_ok h2] at hengine hmrg
  obtain ⟨-, hmerged⟩ := Run.ok.inj hmrg
  rw [← hmerged] at hm
  have hsame := hw.sameForest
  have hlen := hperm.length_eq
  simp only [List.length_cons, State.heapList_length] at hlen
  have hncnt := hm.ncnt
  rw [hsame.ncnt] at hncnt
  have hold : ∀ g, g ≠ t.ncnt → nodeAt (mergedTwo t).node g = nodeAt t.node g := fun g hne => by
    rw [hm.old g (hsame.ncnt ▸ hne), hsame.node]
  have hlt : ∀ g, g < (mergedTwo t).ncnt ↔ g < t.ncnt ∨ g = t.ncnt := fun g => by rw [hm.lt_iff, hsame.ncnt]
  refine ⟨hengine, ?ndist, ?hcap, fun h c hc => ?leaf, fun h hle hltn => ?internal, fun h hle => ?fresh,
    fun j hj => ?above, fun h => ?own, ?leavesAllocated, ?merges, ?frequencies⟩
  case ndist => rw [hm.ndist, hsame.ndist, hg.ndist]
  case hcap => rw [hm.hcap, hsame.hcap, hg.hcap]
  case leaf =>
    have hne : h ≠ t.ncnt := by
      rintro rfl
      exact absurd hg.leavesAllocated (Nat.not_le.2 (List.getElem?_eq_some_iff.1 hc).1)
    rw [hold h hne, hg.leaf h c hc]
  case internal =>
    obtain hltn | rfl := (hlt h).1 hltn
    · rw [hold h (BitVec.ne_of_lt hltn), hg.internal h hle hltn]
    · rw [← hsame.ncnt, hm.new, internalRec]
  case fresh =>
    rw [BitVec.le_def, hncnt] at hle
    rw [hold h (by rintro rfl; omega)]
    exact hg.fresh h (BitVec.le_def.2 (by omega))
  case above =>
    rw [heapAt_mergedTwo_above h2 (by have := hg.hsize_le; omega), hg.above j hj]
  case own =>
    have hal := (State.mem_roots.1 ha).1
    have hbl := (State.mem_roots.1 hb).1
    rw [hsame.ncnt] at hal hbl
    rw [hm.own, hlt, hsame.ncnt, hown]
    by_cases hchild : h = a ∨ h = b
    · have hht : h < t.ncnt := by obtain rfl | rfl := hchild <;> assumption
      simp [hchild, hht]
    · simp only [hchild, or_false, if_false]
      by_cases hnew : h = t.ncnt
      · simp [hnew]
      · simp [hnew, hg.own]
  case leavesAllocated => have := hg.leavesAllocated; omega
  case merges => have := hg.merges; have := hm.hsize; omega
  case frequencies =>
    have hkept : u.heapList.map (freqOf (mergedTwo t).node) = u.heapList.map (freqOf t.node) :=
      List.map_congr_left fun g hgm => by
        have hgu := (hu.heapAllocated g hgm).1
        rw [State.mem_handles, hsame.ncnt] at hgu
        exact congrArg NodeRec.freq (hold g (BitVec.ne_of_lt hgu))
    have hnew : freqOf (mergedTwo t).node u.ncnt = freqOf t.node a + freqOf t.node b := by
      rw [freqOf, hm.new, internalRec, hsame.node]
    have hsum := (hperm.map (freqOf t.node)).sum_eq
    have hsum' := (hm.heap.map (freqOf (mergedTwo t).node)).sum_eq
    simp only [List.map_cons, List.sum_cons] at hsum hsum'
    rw [hsum', hkept, hnew, ← hg.frequencies, hsum, Nat.add_assoc]

/-- TBLD's loop ends with one node in the heap (R147). -/
theorem mergeAll (fuel : Nat) (hpos : 1 ≤ t.hsize.toNat) (hfuel : t.hsize.toNat ≤ fuel + 1) :
    ∃ u, Machine.mergeAll fuel t = .ok () u ∧ Growing s u ∧ u.hsize.toNat = 1 := by
  induction fuel generalizing t with
  | zero => exact ⟨t, rfl, hg, by omega⟩
  | succ fuel ih =>
    rw [Machine.mergeAll]
    split_ifs with h2
    · have hsize : (mergedTwo t).hsize.toNat + 1 = t.hsize.toNat := by
        rw [mergedTwo_hsize]
        exact toNat_sub_one (hsize_ne_zero (by omega))
      rw [mrg_eq_ok h2, Run.andThen_ok]
      exact ih (hg.mrg h2) (by omega) (by omega)
    · exact ⟨t, rfl, hg, by omega⟩

end Growing

/-- What TBLD leaves when its loop has left `t`: the last node extracted is the root (R145). -/
def rooted (t : State) : State := ((withoutMin t).setRoot (heapAt t.heap 0)).setTv true

/-- The course of TBLD over an alphabet that is not empty (R145, R147). -/
theorem tbld_grows {s : State} (hs : s.wf = true) (hp : s.present ≠ []) :
    ∃ t, Growing s t ∧ t.hsize.toNat = 1 ∧ tbld s = .ok () (rooted t) := by
  have hpos : 1 ≤ s.present.length := List.length_pos_iff.2 hp
  obtain ⟨u, hhbld, hgu, hkept⟩ := (leavesDone_growing hs).hbld
  have hsize : u.hsize.toNat = s.present.length := by rw [hkept, (leavesDone_made s).hsize]
  obtain ⟨t, hmerge, hgt, hone⟩ := hgu.mergeAll u.hsize.toNat (by omega) (Nat.le_succ _)
  refine ⟨t, hgt, hone, ?_⟩
  simp only [tbld, leaves_eq_done, hhbld, hmerge, Run.andThen_ok, extractMin_eq_ok (hsize_ne_zero (s := t) (by omega)),
    rooted]

/-! ## The root -/

section rooted
variable (t : State)
@[simp] theorem rooted_node : (rooted t).node = t.node := by simp [rooted]
@[simp] theorem rooted_ncnt : (rooted t).ncnt = t.ncnt := by simp [rooted]
@[simp] theorem rooted_heap : (rooted t).heap = extracted t := by simp [rooted]
@[simp] theorem rooted_own : (rooted t).own = (withoutMin t).own := by simp [rooted]
@[simp] theorem rooted_hsize : (rooted t).hsize = t.hsize - 1#9 := by simp [rooted]
@[simp] theorem rooted_ndist : (rooted t).ndist = t.ndist := by simp [rooted, withoutMin]
@[simp] theorem rooted_hcap : (rooted t).hcap = t.hcap := by simp [rooted, withoutMin]
@[simp] theorem rooted_root : (rooted t).root = heapAt t.heap 0 := by simp [rooted]
@[simp] theorem rooted_res : (rooted t).res = heapAt t.heap 0 := by simp [rooted]
@[simp] theorem rooted_tv : (rooted t).tv = true := by simp [rooted]
end rooted

theorem eq_ofNat_of_toNat {x : BitVec 9} {k : Nat} (h : x.toNat = k) : x = BitVec.ofNat 9 k := by
  rw [← h, BitVec.ofNat_toNat, BitVec.setWidth_eq]

/-- Children are older than their parents, so the node allocated last has no parent. -/
theorem ForestInv.hasParent_newest {t : State} (hf : ForestInv t) {h : Handle} (hh : h.toNat + 1 = t.ncnt.toNat) :
    t.hasParent h = false := by
  rw [← Bool.not_eq_true, State.hasParent_iff]
  rintro ⟨p, hp, hpar⟩
  have hlt := hf.lt_of_isParent hp hpar
  rw [BitVec.lt_def] at hlt hp
  omega

/-- The root of the tree built is the node allocated last (R145). -/
theorem Built.root_newest {p : List Byte} {t : State} (hb : Built p t) : t.root.toNat + 1 = t.ncnt.toNat := by
  have hroot := BitVec.lt_def.1 hb.root_lt
  have hlast : (t.ncnt - 1#9).toNat + 1 = t.ncnt.toNat := toNat_sub_one fun h0 => by
    rw [h0] at hroot
    exact absurd hroot (Nat.not_lt_zero _)
  have hlt : t.ncnt - 1#9 < t.ncnt := BitVec.lt_def.2 (by omega)
  rwa [← (hb.hasParent _ hlt).1 (((engineInv_iff t).1 hb.engine).1.hasParent_newest hlast)]

/-- TBLD over an alphabet that is not empty: its course, and the tree that it leaves (R145, R150). -/
theorem tbld_builds {s : State} (hs : s.wf = true) (hp : s.present ≠ []) :
    ∃ t, Growing s t ∧ t.hsize.toNat = 1 ∧ tbld s = .ok () (rooted t) ∧ Built s.present (rooted t) := by
  obtain ⟨t, hg, hone, htbld⟩ := tbld_grows hs hp
  obtain ⟨hnil, -⟩ | ⟨-, u, hu, hb⟩ := tbld_cases (ftAt_lt hs)
  · exact absurd hnil hp
  · obtain ⟨-, rfl⟩ := Run.ok.inj (hu.symm.trans htbld)
    exact ⟨t, hg, hone, htbld, hb⟩

/-! ## The end of TBLD, with one node left in the heap -/

section Single
variable {s t : State} (hg : Growing s t) (hone : t.hsize.toNat = 1)
include hg hone

theorem Growing.toNat_ncnt : t.ncnt.toNat = 2 * s.present.length - 1 := by
  have := hg.merges
  omega

/-- The root's frequency is the sum of all counts (R147). -/
theorem Growing.freqOf_root : freqOf t.node (heapAt t.heap 0) = s.totalCount := by
  have htotal := hg.frequencies
  rw [State.heapList, hone] at htotal
  simpa using htotal

variable (hb : Built s.present (rooted t))
include hb

theorem Growing.toNat_root : (heapAt t.heap 0).toNat = 2 * s.present.length - 2 := by
  have hlast := hb.root_newest
  rw [rooted_root, rooted_ncnt, hg.toNat_ncnt hone] at hlast
  omega

/-- The last ExtractMin leaves every node but the root owned (R145). -/
theorem Growing.ownAt_rooted (h : Handle) :
    ownAt (rooted t).own h = true ↔ h.toNat < 2 * s.present.length - 2 := by
  have hncnt := hg.toNat_ncnt hone
  have hroot := hg.toNat_root hone hb
  rw [rooted_own, ownAt_withoutMin, withoutMin_res]
  by_cases hh : h = heapAt t.heap 0
  · have hne : h ≠ null := ne_null_of_lt (n := (rooted t).ncnt) (hh ▸ hb.root_lt)
    rw [if_pos ⟨hh, hne⟩, hh, hroot]
    exact iff_of_false Bool.false_ne_true (Nat.lt_irrefl _)
  · have hne : h.toNat ≠ (heapAt t.heap 0).toNat := fun he => hh (BitVec.eq_of_toNat_eq he)
    rw [if_neg fun hroot => hh hroot.1, hg.own, BitVec.lt_def]
    omega

end Single

/-- Settles O35: the building's invariant where one node is left in the heap, and the frame of TBLD. -/
theorem tbldBuildsTheTree : Obligations.TbldBuildsTheTree := by
  rintro s _ hs - rfl hpos
  obtain ⟨t, hg, hone, htbld, hb⟩ := tbld_builds hs (List.length_pos_iff.1 hpos)
  have hncnt := hg.toNat_ncnt hone
  have hroot := eq_ofNat_of_toNat (hg.toNat_root hone hb)
  have hhsize : t.hsize - 1#9 = 0#9 :=
    BitVec.eq_of_toNat_eq (Nat.succ.inj ((toNat_sub_one (hsize_ne_zero (by omega))).trans hone))
  have hhcap : heapCapacity s.present.length = 2 * s.present.length - 1 := if_neg (by omega)
  have hset := (tbld_writes s).eq_set
  rw [htbld, Run.state_ok, rooted_node, rooted_ncnt, rooted_ndist, rooted_hsize, rooted_hcap, rooted_root, rooted_res,
    rooted_tv, hg.ndist, hg.hcap, hhsize, hhcap, hroot, eq_ofNat_of_toNat hncnt] at hset
  refine ⟨t.node, (rooted t).heap, (rooted t).own, ?exec, hg.leaf, fun h hle => ?fresh, fun j hj => ?above,
    hg.ownAt_rooted hone hb, hroot ▸ hg.freqOf_root hone⟩
  case exec =>
    rw [exec_eq_finish, body, htbld, Run.finish_ok]
    exact congrArg Host.Outcome.next hset
  case fresh => exact hg.fresh h (BitVec.le_def.2 (by omega))
  case above => rw [rooted_heap, heapAt_extracted_above t (by omega), hg.above j hj]

/-! ## Its tree -/

/-- Every node that a path from an allocated one reaches is allocated. -/
theorem ForestInv.lt_of_reaches {t : State} (hf : ForestInv t) {r h : Handle} {p : List Bool}
    (hp : Reaches t.node r p h) (hr : r < t.ncnt) : h < t.ncnt := by
  induction hp with
  | here => exact hr
  | left hk _ ih => exact ih (BitVec.lt_trans (hf.children _ (State.mem_internals.2 ⟨hr, hk⟩)).1 hr)
  | right hk _ ih => exact ih (BitVec.lt_trans (hf.children _ (State.mem_internals.2 ⟨hr, hk⟩)).2.1 hr)

/-- Each leaf of the tree is the leaf of a symbol that occurs. -/
theorem Growing.exists_symbol {s t : State} (hg : Growing s t) {h : Handle} (hlt : h < t.ncnt)
    (hk : (nodeAt t.node h).k = .leaf) : ∃ b, ftAt s.ft b ≠ 0 ∧ nodeAt t.node h = leafRec b (ftAt s.ft b) := by
  have hplace : h.toNat < s.present.length := by
    rw [← Nat.not_le]
    exact fun hle => nomatch hk.symm.trans (hg.internal h hle hlt)
  exact ⟨s.present[h.toNat], mem_present.1 (List.getElem_mem hplace), hg.leaf h _ (List.getElem?_eq_getElem hplace)⟩

/-- A node that is not the root has exactly one parent among the allocated nodes (R150). -/
theorem Built.one_parent {p : List Byte} {t : State} (hb : Built p t) {h : Handle} (hlt : h < t.ncnt)
    (hroot : h ≠ t.root) : (t.handles.filter (fun q => isParent t.node q h)).length = 1 := by
  have hpar : t.hasParent h = true := by
    rw [← Bool.not_eq_false, hb.hasParent h hlt]
    exact hroot
  obtain ⟨q, hq, hqh⟩ := State.hasParent_iff.1 hpar
  have hq := State.mem_handles.2 hq
  refine ((List.perm_ext_iff_of_nodup (t.handles_nodup.filter _) (List.nodup_singleton q)).2 fun r => ?_).length_eq
  rw [List.mem_filter, List.mem_singleton]
  constructor
  · rintro ⟨hr, hrh⟩
    exact hb.engine.oneParent r hr q hq h hrh hqh
  · rintro rfl
    exact ⟨hq, hqh⟩

/-- Settles O37: the structural check passes, the leaves are those of LEAVES, the engine's invariants say the rest. -/
theorem tbldTreesAreWellFormed : Obligations.TbldTreesAreWellFormed := by
  rintro s t hs - ⟨c, hc⟩ ht
  obtain ⟨u, hg, -, htbld, hb⟩ := tbld_builds hs (List.ne_nil_of_mem (mem_present.2 hc))
  rw [exec_eq_finish, body, htbld, Run.finish_ok] at ht
  obtain rfl := Host.Outcome.next.inj ht
  have hf := ((engineInv_iff _).1 hb.engine).1
  have hleaf : ∀ p h, Reaches (rooted u).node (rooted u).root p h → (nodeAt (rooted u).node h).k = .leaf →
      ∃ b, ftAt s.ft b ≠ 0 ∧ nodeAt (rooted u).node h = leafRec b (ftAt s.ft b) := fun p h hp hk => by
    have hlt := hf.lt_of_reaches hp hb.root_lt
    rw [rooted_ncnt] at hlt
    rw [rooted_node] at hk ⊢
    exact hg.exists_symbol hlt hk
  refine ⟨treeCheck_iff_isTree.1 (hb.treeInv.sound hb.tv), fun h hh hk => ?children, fun b => ⟨?occurs, ?hasLeaf⟩,
    fun p h hp hk => ?count, fun h hh => hb.one_parent (State.mem_handles.1 hh),
    fun h hh => hb.reaches (State.mem_handles.1 hh)⟩
  case children =>
    obtain ⟨hl, hr, -, hsum⟩ := hf.children h (State.mem_internals.2 ⟨State.mem_handles.1 hh, hk⟩)
    exact ⟨hl, hr, hsum⟩
  case occurs =>
    rintro ⟨p, h, hp, hk, rfl⟩
    obtain ⟨b, hb, hrec⟩ := hleaf p h hp hk
    rw [hrec]
    exact hb
  case hasLeaf => exact fun hb' => hb.exists_leaf (mem_present.2 hb')
  case count =>
    obtain ⟨b, -, hrec⟩ := hleaf p h hp hk
    rw [hrec, leafRec]

end Sys2Proof.Machine
end

section
/-! TBLD run from two states with the same frequency table: after LEAVES the two runs agree on every valid record and on
the heap, and each sift and each merge reads no more than that (spec/41_tree_builder.md R151; spec/40_heap.md R122 to
R127). -/

namespace Sys2Proof.Machine

/-! ## The heap's arrays -/

/-- Record `h` is valid and the same in both memories. -/
def SameValid (nd nd' : Mem NodeRec) (h : Handle) : Prop := (nodeAt nd h).v = true ∧ nodeAt nd' h = nodeAt nd h

theorem SameValid.freqOf_eq {nd nd' : Mem NodeRec} {h : Handle} (hv : SameValid nd nd' h) :
    freqOf nd' h = freqOf nd h := congrArg NodeRec.freq hv.2

/-- Position `k` of the two arrays holds one handle, of a record that is valid and the same in both memories. -/
def SamePlace (nd nd' : Mem NodeRec) (hp hp' : Mem Handle) (k : Nat) : Prop :=
  heapAt hp' k = heapAt hp k ∧ SameValid nd nd' (heapAt hp k)

/-- The heaps of `n` positions are the same, handles and records. -/
def SameQueue (nd nd' : Mem NodeRec) (n : Nat) (hp hp' : Mem Handle) : Prop :=
  ∀ k, k < n → SamePlace nd nd' hp hp' k

section SameQueue
variable {nd nd' : Mem NodeRec} {n : Nat} {hp hp' : Mem Handle}

/-- The elements of the same heaps compare alike (R122). -/
theorem SameQueue.freq_lt_iff (hq : SameQueue nd nd' n hp hp') {i j : Nat} (hi : i < n) (hj : j < n) :
    freqOf nd' (heapAt hp' i) < freqOf nd' (heapAt hp' j) ↔ freqOf nd (heapAt hp i) < freqOf nd (heapAt hp j) := by
  obtain ⟨hi, hvi⟩ := hq i hi
  obtain ⟨hj, hvj⟩ := hq j hj
  rw [hi, hj, hvi.freqOf_eq, hvj.freqOf_eq]

theorem SameQueue.swap (hq : SameQueue nd nd' n hp hp') (hn : n ≤ nodeCap) {i j : Nat} (hi : i < n) (hj : j < n) :
    SameQueue nd nd' n (swapHeap hp i j) (swapHeap hp' i j) := by
  intro k hk
  have hswap : Equiv.swap i j k < n := by
    rw [Equiv.swap_apply_def]
    split_ifs <;> assumption
  rw [SamePlace, heapAt_swapHeap _ _ _ _ (by omega) (by omega), heapAt_swapHeap _ _ _ _ (by omega) (by omega)]
  exact hq _ hswap

/-- SiftDown moves the same heaps alike (R123). -/
theorem SameQueue.siftDown (hn : n ≤ nodeCap) (fuel i : Nat) {hp hp' : Mem Handle}
    (hq : SameQueue nd nd' n hp hp') :
    SameQueue nd nd' n (Machine.siftDown nd n fuel i hp) (Machine.siftDown nd' n fuel i hp') := by
  induction fuel generalizing i hp hp' with
  | zero => exact hq
  | succ fuel ih =>
    rw [Machine.siftDown, Machine.siftDown]
    by_cases hl : n ≤ 2 * i + 1
    · simp only [hl, if_true]
      exact hq
    · have hchoice : (2 * i + 2 < n ∧ freqOf nd' (heapAt hp' (2 * i + 2)) < freqOf nd' (heapAt hp' (2 * i + 1))) ↔
          (2 * i + 2 < n ∧ freqOf nd (heapAt hp (2 * i + 2)) < freqOf nd (heapAt hp (2 * i + 1))) :=
        and_congr_right fun hr => hq.freq_lt_iff hr (by omega)
      simp only [hl, if_false, hchoice]
      generalize hc : (if 2 * i + 2 < n ∧ freqOf nd (heapAt hp (2 * i + 2)) < freqOf nd (heapAt hp (2 * i + 1))
        then 2 * i + 2 else 2 * i + 1) = c
      have hcn : c < n := by split at hc <;> omega
      simp only [hq.freq_lt_iff hcn (show i < n by omega)]
      split_ifs
      · exact ih c (hq.swap hn (by omega) hcn)
      · exact hq

/-- SiftUp moves the same heaps alike (R124). -/
theorem SameQueue.siftUp (hn : n ≤ nodeCap) (fuel i : Nat) (hi : i < n) {hp hp' : Mem Handle}
    (hq : SameQueue nd nd' n hp hp') :
    SameQueue nd nd' n (Machine.siftUp nd fuel i hp) (Machine.siftUp nd' fuel i hp') := by
  induction fuel generalizing i hp hp' with
  | zero => exact hq
  | succ fuel ih =>
    have hpar : (i - 1) / 2 < n := by omega
    rw [Machine.siftUp, Machine.siftUp]
    simp only [hq.freq_lt_iff hi hpar]
    split_ifs
    · exact hq
    · exact ih _ hpar (hq.swap hn hi hpar)
    · exact hq

theorem SameQueue.siftAll (hn : n ≤ nodeCap) (k : Nat) {hp hp' : Mem Handle} (hq : SameQueue nd nd' n hp hp') :
    SameQueue nd nd' n (Machine.siftAll nd n k hp) (Machine.siftAll nd' n k hp') := by
  induction k generalizing hp hp' with
  | zero => exact hq
  | succ k ih => exact ih (hq.siftDown hn n k)

/-- A write of one handle to both arrays. -/
theorem SamePlace.put {i k : Nat} {h : Handle} (hi : i < nodeCap) (hv : SameValid nd nd' h)
    (hk : k ≠ i → SamePlace nd nd' hp hp' k) : SamePlace nd nd' (putHeap hp i h) (putHeap hp' i h) k := by
  rw [SamePlace, heapAt_putHeap, heapAt_putHeap]
  by_cases hki : k = i
  · simp only [hki, hi, and_self, if_true]
    exact ⟨trivial, hv⟩
  · simp only [hki, false_and, if_false]
    exact hk hki

end SameQueue

/-! ## Two builds -/

/-- The states agree on what the build reads: registers, validity of the records, valid records, and the heap. -/
structure SameBuild (s t : State) : Prop where
  cfg : t.cfg = s.cfg
  ncnt : t.ncnt = s.ncnt
  ndist : t.ndist = s.ndist
  hsize : t.hsize = s.hsize
  root : t.root = s.root
  node : ∀ h, SameValid s.node t.node h ∨ ((nodeAt s.node h).v = false ∧ (nodeAt t.node h).v = false)
  queue : SameQueue s.node t.node s.hsize.toNat s.heap t.heap

/-- LEAVES makes the same of the same table (R141, R142). -/
theorem sameBuild_leavesDone {s t : State} (hcfg : s.cfg = t.cfg) (hft : ∀ b, ftAt s.ft b = ftAt t.ft b) :
    SameBuild (leavesDone s) (leavesDone t) := by
  have hs := leavesDone_made s
  have ht := leavesDone_made t
  have hpresent : t.present = s.present := by simp only [State.present, hft]
  have hvalid : ∀ h : Handle, h.toNat < s.present.length →
      SameValid (leavesDone s).node (leavesDone t).node h := by
    intro h hh
    obtain ⟨b, hb, hrec⟩ := hs.exists_leaf (h := h) (by rwa [BitVec.lt_def, hs.ncnt])
    obtain ⟨c, hc, hrec'⟩ := ht.exists_leaf (h := h) (by rwa [BitVec.lt_def, ht.ncnt, hpresent])
    rw [hpresent, hb] at hc
    obtain rfl := Option.some.inj hc
    exact ⟨by rw [hrec]; rfl, by rw [hrec, hrec', hft, hcfg]⟩
  refine ⟨by rw [hs.cfg, ht.cfg, hcfg], by simp [leavesDone, hpresent], by simp [leavesDone, hpresent],
    by simp [leavesDone, hpresent], by simp [leavesDone, leavesEnd], fun h => ?_, fun k hk => ?_⟩
  · obtain hh | hh := Nat.lt_or_ge h.toNat s.present.length
    · exact .inl (hvalid h hh)
    · rw [hs.fresh h hh, ht.fresh h (hpresent ▸ hh)]
      exact .inr ⟨rfl, rfl⟩
  · rw [hs.hsize] at hk
    have hle := present_length_le s
    rw [SamePlace, hs.heap k hk, ht.heap k (hpresent ▸ hk)]
    exact ⟨rfl, hvalid _ (by rwa [ofNat_toNat_of_lt (hk.trans_le (hle.trans (by decide)))])⟩

section SameBuild
variable {s t : State} (h : SameBuild s t)
include h

theorem SameBuild.setHeap {hp hp' : Mem Handle} (hq : SameQueue s.node t.node s.hsize.toNat hp hp') :
    SameBuild (s.setHeap hp) (t.setHeap hp') where
  cfg := h.cfg
  ncnt := h.ncnt
  ndist := h.ndist
  hsize := h.hsize
  root := h.root
  node := h.node
  queue := hq

theorem SameBuild.withoutMin (h0 : s.hsize ≠ 0#9) : SameBuild (withoutMin s) (withoutMin t) := by
  have hn := hsize_le_nodeCap s
  have hsize := toNat_hsize_withoutMin h0
  have hlast := h.queue (s.hsize.toNat - 1) (by omega)
  refine ⟨?_, ?_, ?_, ?_, ?_, ?_, ?_⟩
  · simp [h.cfg]
  · simp [h.ncnt]
  · simp [Machine.withoutMin, h.ndist]
  · simp [h.hsize]
  · simp [Machine.withoutMin, h.root]
  · simpa using h.node
  · have hmoved : SameQueue s.node t.node (s.hsize.toNat - 1)
        (putHeap s.heap 0 (heapAt s.heap (s.hsize.toNat - 1)))
        (putHeap t.heap 0 (heapAt t.heap (s.hsize.toNat - 1))) := by
      rw [hlast.1]
      exact fun k hk => .put nodeCap_pos hlast.2 fun _ => h.queue k (by omega)
    have hsifted := hmoved.siftDown (by omega) (s.hsize.toNat - 1) 0
    have hsize' : (Machine.withoutMin s).hsize.toNat = s.hsize.toNat - 1 := by omega
    rw [hsize', withoutMin_node, withoutMin_node, withoutMin_heap, withoutMin_heap, extracted, extracted, h.hsize]
    exact hsifted

theorem SameBuild.insert {g : Handle} (hcap : s.hsize.toNat < nodeCap) (hv : SameValid s.node t.node g) :
    SameBuild (insert s g) (insert t g) := by
  refine ⟨h.cfg, h.ncnt, h.ndist, by simp [h.hsize], h.root, h.node, ?_⟩
  have hput : SameQueue s.node t.node (s.hsize.toNat + 1) (putHeap s.heap s.hsize.toNat g)
      (putHeap t.heap s.hsize.toNat g) := fun k hk => .put hcap hv fun hne => h.queue k (by omega)
  rw [State.insert_hsize, State.insert_heap, State.insert_heap, State.insert_node, State.insert_node,
    toNat_add_one hcap, h.hsize]
  exact hput.siftUp hcap _ _ (Nat.lt_succ_self _)

section Allocated
variable {a b : Handle} (ha : SameValid s.node t.node a) (hb : SameValid s.node t.node b)
include ha hb

/-- MRG's record is the same over the same children (R143). -/
theorem SameBuild.nodeAt_allocated (g : Handle) :
    nodeAt (allocated a b t).node g = if g.toNat = s.ncnt.toNat ∧ s.ncnt.toNat < nodeCap then
      (internalRec a b (freqOf s.node a + freqOf s.node b)).atWidth s.cfg.nfreqBits else nodeAt t.node g := by
  rw [Machine.nodeAt_allocated, ha.freqOf_eq, hb.freqOf_eq, h.ncnt, h.cfg]

theorem SameBuild.allocated_new (hroom : s.ncnt.toNat < nodeCap) :
    SameValid (allocated a b s).node (allocated a b t).node s.ncnt := by
  rw [SameValid, h.nodeAt_allocated ha hb, Machine.nodeAt_allocated, if_pos ⟨rfl, hroom⟩, if_pos ⟨rfl, hroom⟩]
  exact ⟨rfl, rfl⟩

theorem SameBuild.allocated : SameBuild (allocated a b s) (allocated a b t) := by
  have hvalid : ∀ g, SameValid s.node t.node g →
      SameValid (Machine.allocated a b s).node (Machine.allocated a b t).node g := by
    intro g hg
    rw [SameValid, h.nodeAt_allocated ha hb, Machine.nodeAt_allocated]
    split_ifs
    · exact ⟨rfl, rfl⟩
    · exact hg
  refine ⟨?_, ?_, ?_, ?_, ?_, fun g => ?_, fun k hk => ?_⟩
  · simp [Machine.allocated, h.cfg]
  · simp [h.ncnt]
  · simp [Machine.allocated, h.ndist]
  · simp [h.hsize]
  · simp [Machine.allocated, h.root]
  · obtain hg | ⟨hs, ht⟩ := h.node g
    · exact .inl (hvalid g hg)
    · rw [SameValid, h.nodeAt_allocated ha hb, Machine.nodeAt_allocated]
      split_ifs
      · exact .inl ⟨rfl, rfl⟩
      · exact .inr ⟨hs, ht⟩
  · rw [allocated_hsize] at hk
    obtain ⟨heq, hv⟩ := h.queue k hk
    rw [SamePlace, allocated_heap, allocated_heap]
    exact ⟨heq, hvalid _ hv⟩

end Allocated

/-- Two runs of MRG take the same two nodes out and make the same one of them (R143). -/
theorem SameBuild.mergedTwo (h2 : 2 ≤ s.hsize.toNat) (hroom : s.ncnt.toNat < nodeCap) :
    SameBuild (mergedTwo s) (mergedTwo t) := by
  have hsize := toNat_hsize_withoutMin (hsize_ne_zero (s := s) (by omega))
  have h1 := h.withoutMin (hsize_ne_zero (by omega))
  have hu : SameBuild (withoutTwo s) (withoutTwo t) := h1.withoutMin (hsize_withoutMin_ne h2)
  obtain ⟨hleft, ha⟩ := h.queue 0 (by omega)
  obtain ⟨hright, hb⟩ := h1.queue 0 (by omega)
  rw [← withoutMin_res, ← withoutMin_res] at hleft hright
  rw [← withoutMin_res, ← withoutTwo_node s, ← withoutTwo_node t] at ha
  rw [← withoutMin_res, withoutMin_node, withoutMin_node, ← withoutTwo_node s, ← withoutTwo_node t] at hb
  have hnew := hu.allocated_new ha hb (by rwa [withoutTwo_ncnt])
  rw [withoutTwo_ncnt] at hnew
  rw [mergedTwo_eq, mergedTwo_eq, h.ncnt, hleft, withoutTwo, withoutTwo, hright]
  exact (hu.allocated ha hb).insert (by rw [allocated_hsize]; exact hsize_withoutTwo_lt h2) hnew

end SameBuild

/-! ## Two courses -/

/-- The courses end alike: in one value or one error, and in states that agree. -/
inductive SameCourse {α : Type} : Run α → Run α → Prop where
  | ok {a : α} {s t : State} (h : SameBuild s t) : SameCourse (.ok a s) (.ok a t)
  | raised {e : ErrorCode} {s t : State} (h : SameBuild s t) : SameCourse (.raised e s) (.raised e t)

theorem SameCourse.andThen {α β : Type} {r r' : Run α} {f : α → State → Run β} (hr : SameCourse r r')
    (hf : ∀ a s t, SameBuild s t → SameCourse (f a s) (f a t)) : SameCourse (r.andThen f) (r'.andThen f) := by
  cases hr with
  | ok h => exact hf _ _ _ h
  | raised h => exact .raised h

theorem SameBuild.extractMin {s t : State} (h : SameBuild s t) :
    SameCourse (extractMin s) (extractMin t) := by
  by_cases h0 : s.hsize = 0#9
  · rw [extractMin_eq_raised h0, extractMin_eq_raised (h.hsize.trans h0)]
    exact .raised ⟨h.cfg, h.ncnt, h.ndist, h.hsize, h.root, h.node, h.queue⟩
  · have hpos : 0 < s.hsize.toNat := by have := toNat_hsize_withoutMin h0; omega
    rw [extractMin_eq_ok h0, extractMin_eq_ok (h.hsize ▸ h0), (h.queue 0 hpos).1]
    exact .ok (h.withoutMin h0)

/-- TBLD's loop, with room for a node for each one that a merge takes out of the heap (R147). -/
theorem SameBuild.mergeAll (fuel : Nat) {s t : State} (h : SameBuild s t)
    (hroom : s.ncnt.toNat + s.hsize.toNat ≤ 512) : SameCourse (mergeAll fuel s) (mergeAll fuel t) := by
  induction fuel generalizing s t with
  | zero => exact .ok h
  | succ fuel ih =>
    rw [Machine.mergeAll, Machine.mergeAll, h.hsize]
    split_ifs with h2
    · have h2' : 2 ≤ t.hsize.toNat := h.hsize ▸ h2
      have hncnt : s.ncnt.toNat < nodeCap := by simp only [nodeCap]; omega
      have hsize : (Machine.mergedTwo s).hsize.toNat + 1 = s.hsize.toNat := by
        rw [mergedTwo_hsize]
        exact toNat_sub_one (hsize_ne_zero (by omega))
      rw [mrg_eq_ok h2, mrg_eq_ok h2', Run.andThen_ok, Run.andThen_ok]
      refine ih (h.mergedTwo h2 hncnt) ?_
      rw [mergedTwo_ncnt, toNat_add_one hncnt]
      omega
    · exact .ok h

/-- Two runs of TBLD over the same table end alike (R151). -/
theorem sameCourse_tbld {s t : State} (hcfg : s.cfg = t.cfg) (hft : ∀ b, ftAt s.ft b = ftAt t.ft b) :
    SameCourse (tbld s) (tbld t) := by
  have hleaves := sameBuild_leavesDone hcfg hft
  have hn := hsize_le_nodeCap (leavesDone s)
  have hqueued := hleaves.setHeap (hleaves.queue.siftAll hn ((leavesDone s).hsize.toNat / 2))
  have hroom : (leavesDone s).ncnt.toNat + (leavesDone s).hsize.toNat ≤ 512 := by
    have := present_length_le s
    simp only [nSym] at this
    rw [(leavesDone_made s).ncnt, (leavesDone_made s).hsize]
    omega
  rw [tbld, tbld, leaves_eq_done, leaves_eq_done, Run.andThen_ok, Run.andThen_ok, hbld_eq, hbld_eq,
    Run.andThen_ok, Run.andThen_ok, State.setHeap_hsize, State.setHeap_hsize, hleaves.hsize]
  refine (hqueued.mergeAll _ hroom).andThen fun _ u v h => h.extractMin.andThen fun g u v h => .ok ?_
  exact ⟨h.cfg, h.ncnt, h.ndist, h.hsize, rfl, h.node, h.queue⟩

/-- Courses that end alike leave states that agree, the error entered or not (R222). -/
theorem SameCourse.finish {r r' : Run Unit} {s t : State} (h : SameCourse r r') (hs : r.finish = .next s)
    (ht : r'.finish = .next t) : SameBuild s t := by
  cases h with
  | ok h =>
    obtain rfl := Host.Outcome.next.inj hs
    obtain rfl := Host.Outcome.next.inj ht
    exact h
  | raised h =>
    obtain rfl := Host.Outcome.next.inj hs
    obtain rfl := Host.Outcome.next.inj ht
    exact ⟨h.cfg, h.ncnt, h.ndist, h.hsize, h.root, h.node, h.queue⟩

/-- Settles O38: the two runs agree after LEAVES and through every sift and merge. -/
theorem tbldDependsOnFtAlone : Obligations.TbldDependsOnFtAlone := by
  intro s1 s2 t1 t2 hcfg hft h1 h2
  rw [exec_eq_finish, body] at h1 h2
  have h := (sameCourse_tbld hcfg hft).finish h1 h2
  refine ⟨h.root.symm, h.ncnt.symm, h.ndist.symm, fun g _ => ?_⟩
  obtain ⟨-, heq⟩ | ⟨hv1, hv2⟩ := h.node g
  · exact ⟨by rw [heq], fun _ => heq.symm⟩
  · exact ⟨by rw [hv1, hv2], fun hv => nomatch hv1.symm.trans hv⟩

end Sys2Proof.Machine
end

section
/-! The code table that CGEN makes of a tree: every leaf's path is its symbol's code, the codes are prefix-free and fill the
Kraft sum, and for a tree of TBLD their weighted length is the sum of the internal nodes' frequencies (spec/42_code_table.md
R160 to R164). -/

namespace Sys2Proof.Machine

/-! ## Paths to leaves -/

/-- A path leads to one node. -/
theorem Reaches.unique {node : Mem NodeRec} {r g h : Handle} {p : List Bool} (hg : Reaches node r p g)
    (hh : Reaches node r p h) : g = h := by
  induction hg with
  | here => cases hh; rfl
  | left _ _ ih => cases hh with | left _ hh => exact ih hh
  | right _ _ ih => cases hh with | right _ hh => exact ih hh

/-- A path that goes through a leaf ends there. -/
theorem Reaches.eq_of_prefix {node : Mem NodeRec} {r g h : Handle} {p q : List Bool} (hp : Reaches node r p g)
    (hk : (nodeAt node g).k = .leaf) (hq : Reaches node r q h) (hpre : p <+: q) : h = g := by
  obtain ⟨e, rfl⟩ := hpre
  obtain ⟨f, hf, he⟩ := hq.split
  obtain rfl := hp.unique hf
  exact he.eq_of_leaf hk

namespace Spans

variable {node : Mem NodeRec} {h g : Handle} {hs : List Handle} {bs : List Byte}

theorem syms_length_pos (hspan : Spans node h hs bs) : 0 < bs.length := by
  induction hspan with
  | leaf => exact Nat.zero_lt_one
  | internal _ _ _ _ ihl _ => rw [List.length_append]; omega

/-- Each turn of a path leaves a leaf on its other side, so a path is shorter than the leaves are many. -/
theorem path_length_lt {p : List Bool} (hspan : Spans node h hs bs) (hp : Reaches node h p g) :
    p.length < bs.length := by
  induction hspan generalizing p with
  | leaf hk => rw [hp.path_eq_nil hk]; exact Nat.zero_lt_one
  | internal hk hc hleft hright ihl ihr =>
    have hlpos := hleft.syms_length_pos
    have hrpos := hright.syms_length_pos
    rw [List.length_append]
    cases hp with
    | here => exact Nat.add_pos_left hlpos _
    | left _ hp => have := ihl hp; rw [List.length_cons]; omega
    | right _ hp => have := ihr hp; rw [List.length_cons]; omega

end Spans

/-- There are 256 symbols. -/
theorem symbols_length_le {bs : List Byte} (hbs : bs.Nodup) : bs.length ≤ maxLen + 1 := by
  have hle := (hbs.subperm fun b _ => mem_alphabet b).length_le
  rwa [alphabet_length] at hle

/-- The records of a tree, and each of its handles and leaf symbols once. -/
theorem IsTree.spans_nodup {node : Mem NodeRec} {root : Handle} (ht : IsTree node root) :
    ∃ hs bs, Spans node root hs bs ∧ hs.Nodup ∧ bs.Nodup :=
  (treeCheck_iff_spans.1 (treeCheck_iff_isTree.2 ht)).2

/-! ## Codes and depths -/

/-- How much longer a code is than the path to its leaf: by the one bit of the single-leaf tree (R162). -/
def extraBit (node : Mem NodeRec) (root : Handle) : Nat :=
  match (nodeAt node root).k with
  | .leaf => 1
  | .internal => 0

theorem extraBit_of_leaf {node : Mem NodeRec} {root : Handle} (hk : (nodeAt node root).k = .leaf) :
    extraBit node root = 1 := by rw [extraBit, hk]

theorem extraBit_of_internal {node : Mem NodeRec} {root : Handle} (hk : (nodeAt node root).k = .internal) :
    extraBit node root = 0 := by rw [extraBit, hk]

section Codes
variable {node : Mem NodeRec} {root : Handle} {a b : Byte} {c c' : List Bool}

/-- In the single-leaf tree the code of the leaf's symbol is `0` (R162). -/
theorem codeOf_of_leaf (hk : (nodeAt node root).k = .leaf) :
    CodeOf node root b c ↔ (nodeAt node root).sym = b ∧ c = [false] := by
  constructor
  · rintro ⟨p, h, hp, -, hsym, rfl⟩
    rw [hp.eq_of_leaf hk] at hsym
    exact ⟨hsym, if_pos (hp.path_eq_nil hk)⟩
  · rintro ⟨hsym, rfl⟩
    exact ⟨[], root, .here root, hk, hsym, (if_pos rfl).symm⟩

/-- Below an internal root the code of a symbol is the path to its leaf (R160). -/
theorem codeOf_of_internal (hk : (nodeAt node root).k = .internal) :
    CodeOf node root b c ↔ ∃ h, Reaches node root c h ∧ (nodeAt node h).k = .leaf ∧ (nodeAt node h).sym = b := by
  have hne : ∀ {p h}, Reaches node root p h → (nodeAt node h).k = .leaf → p ≠ [] := by
    rintro _ h hp hleaf rfl
    cases hp
    exact nomatch hk.symm.trans hleaf
  constructor
  · rintro ⟨p, h, hp, hleaf, hsym, rfl⟩
    rw [if_neg (hne hp hleaf)]
    exact ⟨h, hp, hleaf, hsym⟩
  · rintro ⟨h, hp, hleaf, hsym⟩
    exact ⟨c, h, hp, hleaf, hsym, (if_neg (hne hp hleaf)).symm⟩

/-- A code is as long as its leaf is deep, and one bit longer in the single-leaf tree (R163, G2). -/
theorem exists_codeOf_of_reaches {p : List Bool} {h : Handle} (hp : Reaches node root p h)
    (hleaf : (nodeAt node h).k = .leaf) :
    ∃ c, CodeOf node root (nodeAt node h).sym c ∧ c.length = extraBit node root + p.length := by
  cases hk : (nodeAt node root).k with
  | leaf =>
    rw [extraBit_of_leaf hk, hp.path_eq_nil hk, hp.eq_of_leaf hk]
    exact ⟨_, (codeOf_of_leaf hk).2 ⟨rfl, rfl⟩, rfl⟩
  | internal =>
    rw [extraBit_of_internal hk, Nat.zero_add]
    exact ⟨p, (codeOf_of_internal hk).2 ⟨h, hp, hleaf, rfl⟩, rfl⟩

/-- No code is a prefix of another symbol's (R163, G3). -/
theorem CodeOf.eq_of_prefix (ha : CodeOf node root a c) (hb : CodeOf node root b c') (hpre : c <+: c') : a = b := by
  cases hk : (nodeAt node root).k with
  | leaf => exact ((codeOf_of_leaf hk).1 ha).1.symm.trans ((codeOf_of_leaf hk).1 hb).1
  | internal =>
    obtain ⟨g, hg, hleaf, rfl⟩ := (codeOf_of_internal hk).1 ha
    obtain ⟨h, hh, -, rfl⟩ := (codeOf_of_internal hk).1 hb
    rw [hg.eq_of_prefix hleaf hh hpre]

end Codes

namespace Spans

variable {node : Mem NodeRec} {h g root : Handle} {hs : List Handle} {bs : List Byte} {b : Byte} {c : List Bool}

/-- The symbols with a code are those of the leaves (R163, G1). -/
theorem mem_syms_iff_codeOf (hspan : Spans node root hs bs) : b ∈ bs ↔ ∃ c, CodeOf node root b c := by
  rw [hspan.mem_syms_iff]
  constructor
  · rintro ⟨p, g, hp, hk, hsym⟩
    exact ⟨_, p, g, hp, hk, hsym, rfl⟩
  · rintro ⟨_, p, g, hp, hk, hsym, -⟩
    exact ⟨p, g, hp, hk, hsym⟩

theorem extraBit_add_length_le (hspan : Spans node root hs bs) (hbs : bs.Nodup) :
    extraBit node root + bs.length ≤ maxLen + 1 := by
  cases hspan with
  | leaf hk => rw [extraBit_of_leaf hk, List.length_singleton]; decide
  | internal hk => rw [extraBit_of_internal hk, Nat.zero_add]; exact symbols_length_le hbs

/-- A code has 1 to 255 bits (R163, G2). -/
theorem codeOf_length (hspan : Spans node root hs bs) (hbs : bs.Nodup) (hc : CodeOf node root b c) :
    1 ≤ c.length ∧ c.length ≤ maxLen := by
  obtain ⟨p, h, hp, -, -, rfl⟩ := hc
  have hlt := hspan.path_length_lt hp
  have hle := symbols_length_le hbs
  split_ifs with hnil
  · decide
  · exact ⟨List.length_pos_iff.2 hnil, by omega⟩

/-! ## The table -/

/-- CGEN's walk leaves alone the entries of symbols without a leaf below (R161). -/
theorem ctAt_walk_of_not_mem (hspan : Spans node h hs bs) (hb : b ∉ bs) (fuel : Nat) (path : List Bool)
    (ct : Mem CodeRec) : ctAt (walk node fuel h path ct) b = ctAt ct b := by
  induction hspan generalizing fuel path ct with
  | leaf hk =>
    cases fuel with
    | zero => rfl
    | succ fuel => rw [walk, hk]; exact (ctAt_putCt ..).trans (if_neg (mt List.mem_singleton.2 hb))
  | internal hk _ _ _ ihl ihr =>
    obtain ⟨hl, hr⟩ := not_or.1 fun hmem => hb (List.mem_append.2 hmem)
    cases fuel with
    | zero => rfl
    | succ fuel => rw [walk, hk]; exact (ihr hr ..).trans (ihl hl ..)

/-- CGEN's walk with depth enough gives each leaf's symbol the turns taken before and those to the leaf (R160, R161). -/
theorem ctAt_walk_leaf {fuel : Nat} {p : List Bool} (hspan : Spans node h hs bs) (hbs : bs.Nodup)
    (hfuel : bs.length ≤ fuel) (path : List Bool) (ct : Mem CodeRec) (hp : Reaches node h p g)
    (hleaf : (nodeAt node g).k = .leaf) :
    ctAt (walk node fuel h path ct) (nodeAt node g).sym = codeRec (path.reverse ++ p) := by
  induction hspan generalizing fuel p path ct with
  | leaf hk =>
    obtain ⟨fuel, rfl⟩ := Nat.exists_eq_succ_of_ne_zero (Nat.ne_of_gt hfuel)
    rw [walk, hk, hp.eq_of_leaf hk, hp.path_eq_nil hk, List.append_nil]
    exact (ctAt_putCt ..).trans (if_pos rfl)
  | @internal h _ _ _ _ hk _ hleft hright ihl ihr =>
    obtain ⟨hbl, hbr, hdisj⟩ := List.nodup_append'.1 hbs
    have hlpos := hleft.syms_length_pos
    have hrpos := hright.syms_length_pos
    rw [List.length_append] at hfuel
    obtain ⟨fuel, rfl⟩ := Nat.exists_eq_succ_of_ne_zero (show fuel ≠ 0 by omega)
    rw [walk, hk]
    cases hp with
    | here => exact nomatch hk.symm.trans hleaf
    | left _ hp =>
      have hnot := hdisj (hleft.mem_syms_iff.2 ⟨_, g, hp, hleaf, rfl⟩)
      have hcode := ihl hbl (fuel := fuel) (by omega) (false :: path) ct hp
      rw [List.reverse_cons, List.append_assoc] at hcode
      exact (hright.ctAt_walk_of_not_mem hnot ..).trans hcode
    | right _ hp =>
      have hcode := ihr hbr (fuel := fuel) (by omega) (true :: path)
        (walk node fuel (nodeAt node h).left (false :: path) ct) hp
      rwa [List.reverse_cons, List.append_assoc] at hcode

theorem ctAt_generateCodes_of_not_mem (hspan : Spans node root hs bs) (hb : b ∉ bs) (ct : Mem CodeRec) :
    ctAt (generateCodes node root ct) b = ctAt ct b := by
  have hwalk := hspan.ctAt_walk_of_not_mem hb (maxLen + 1) [] ct
  unfold generateCodes
  cases hspan with
  | leaf hk => rw [hk]; exact (ctAt_putCt ..).trans (if_neg (mt List.mem_singleton.2 hb))
  | internal hk => rw [hk]; exact hwalk

/-- The table holds every symbol's code (R160 to R162). -/
theorem ctAt_generateCodes (hspan : Spans node root hs bs) (hbs : bs.Nodup) (hc : CodeOf node root b c)
    (ct : Mem CodeRec) : ctAt (generateCodes node root ct) b = codeRec c := by
  unfold generateCodes
  cases hk : (nodeAt node root).k with
  | leaf =>
    obtain ⟨rfl, rfl⟩ := (codeOf_of_leaf hk).1 hc
    exact (ctAt_putCt ..).trans (if_pos rfl)
  | internal =>
    obtain ⟨g, hp, hleaf, rfl⟩ := (codeOf_of_internal hk).1 hc
    exact hspan.ctAt_walk_leaf hbs (symbols_length_le hbs) [] ct hp hleaf

/-- Over a cleared table the entries valid are those of the leaves' symbols (R161, R163). -/
theorem ctAt_generateCodes_valid_iff (hspan : Spans node root hs bs) (hbs : bs.Nodup) (ct : Mem CodeRec) :
    (ctAt (generateCodes node root (clearCtV ct)) b).v = true ↔ b ∈ bs := by
  by_cases hb : b ∈ bs
  · obtain ⟨c, hc⟩ := hspan.mem_syms_iff_codeOf.1 hb
    rw [hspan.ctAt_generateCodes hbs hc]
    exact iff_of_true rfl hb
  · rw [hspan.ctAt_generateCodes_of_not_mem hb, ctAt_clearCtV]
    exact iff_of_false Bool.false_ne_true hb

end Spans

/-! ## CGEN -/

/-- The implicit check of a tree (R149). -/
theorem ensureTree_of_isTree {s : State} (ht : IsTree s.node s.root) : ensureTree s = .ok () (s.setTv true) := by
  cases htv : s.tv with
  | false => rw [ensureTree, if_neg (by rw [htv]; exact Bool.false_ne_true), tchk, if_pos (treeCheck_iff_isTree.2 ht)]
  | true => rw [ensureTree, if_pos htv, ← htv]; rfl

/-- The implicit check of records that are no tree (R149). -/
theorem ensureTree_of_not_isTree {s : State} (htv : s.tv = false) (ht : ¬ IsTree s.node s.root) :
    ensureTree s = .raised .malformedTree s := by
  rw [ensureTree, if_neg (by rw [htv]; exact Bool.false_ne_true), tchk, if_neg (mt treeCheck_iff_isTree.1 ht), ← htv]
  rfl

theorem exec_cgen_of_isTree {s : State} (ht : IsTree s.node s.root) :
    exec .cgen s = .next ((s.setCt (generateCodes s.node s.root (clearCtV s.ct))).setTv true) := by
  rw [exec_eq_finish, body, cgen, ensureTree_of_isTree (s := s.setCt (clearCtV s.ct)) ht]
  rfl

/-- Settles O40: the table over the cleared one, where a symbol without a leaf has kept its cleared entry. -/
theorem cgenWritesThePaths : Obligations.CgenWritesThePaths := by
  intro s ht
  obtain ⟨hs, bs, hspan, -, hbs⟩ := ht.spans_nodup
  refine ⟨_, exec_cgen_of_isTree ht, fun b => ⟨fun c hc => ?_, fun hnone => ?_⟩⟩
  · exact ⟨hspan.ctAt_generateCodes hbs hc _, hspan.codeOf_length hbs hc⟩
  · have hb : b ∉ bs := fun hmem => (hspan.mem_syms_iff_codeOf.1 hmem).elim hnone
    rw [hspan.ctAt_generateCodes_of_not_mem hb, ctAt_clearCtV]

/-- Settles O41: the table is cleared before the check raises. -/
theorem cgenRefusesMalformedTrees : Obligations.CgenRefusesMalformedTrees := by
  intro s htv ht
  refine ⟨clearCtV s.ct, ?_, ctAt_clearCtV s.ct⟩
  rw [exec_eq_finish, body, cgen, ensureTree_of_not_isTree (s := s.setCt (clearCtV s.ct)) htv ht, Run.andThen_raised,
    Run.finish_raised]

/-! ## The Kraft sum -/

/-- `len` gives each leaf's symbol the leaf's depth below `h`, and `d` more. -/
def MeasuresDepth (node : Mem NodeRec) (h : Handle) (d : Nat) (len : Byte → Nat) : Prop :=
  ∀ p g, Reaches node h p g → (nodeAt node g).k = .leaf → len (nodeAt node g).sym = d + p.length

namespace MeasuresDepth

variable {node : Mem NodeRec} {h : Handle} {d : Nat} {len : Byte → Nat}

theorem of_leaf (hlen : MeasuresDepth node h d len) (hk : (nodeAt node h).k = .leaf) : len (nodeAt node h).sym = d :=
  hlen [] h (.here h) hk

theorem left (hlen : MeasuresDepth node h d len) (hk : (nodeAt node h).k = .internal) :
    MeasuresDepth node (nodeAt node h).left (d + 1) len := fun p g hp hleaf => by
  rw [hlen _ g (.left hk hp) hleaf, List.length_cons]
  omega

theorem right (hlen : MeasuresDepth node h d len) (hk : (nodeAt node h).k = .internal) :
    MeasuresDepth node (nodeAt node h).right (d + 1) len := fun p g hp hleaf => by
  rw [hlen _ g (.right hk hp) hleaf, List.length_cons]
  omega

end MeasuresDepth

/-- The lengths in the table are the leaves' depths, and one more in the single-leaf tree (R163, G2). -/
theorem Spans.measuresDepth {node : Mem NodeRec} {root : Handle} {hs : List Handle} {bs : List Byte}
    (hspan : Spans node root hs bs) (hbs : bs.Nodup) (ct : Mem CodeRec) :
    MeasuresDepth node root (extraBit node root) fun b => (ctAt (generateCodes node root ct) b).len.toNat := by
  intro p g hp hleaf
  obtain ⟨c, hc, hlen⟩ := exists_codeOf_of_reaches hp hleaf
  simp only [hspan.ctAt_generateCodes hbs hc, len_codeRec (hspan.codeOf_length hbs hc).2, hlen]

/-- The two subtrees of an internal node halve its share, so the leaves below a node of depth `d` together have the share
of one code word of that length (R163, G4). -/
theorem Spans.kraft_sum {node : Mem NodeRec} {h : Handle} {hs : List Handle} {bs : List Byte} {d n : Nat}
    {len : Byte → Nat} (hspan : Spans node h hs bs) (hlen : MeasuresDepth node h d len)
    (hle : d + bs.length ≤ n + 1) : (bs.map fun b => 2 ^ (n - len b)).sum = 2 ^ (n - d) := by
  induction hspan generalizing d with
  | leaf hk => rw [List.map_singleton, List.sum_singleton, hlen.of_leaf hk]
  | internal hk _ hleft hright ihl ihr =>
    have hlpos := hleft.syms_length_pos
    have hrpos := hright.syms_length_pos
    rw [List.length_append] at hle
    have hsucc : n - d = n - (d + 1) + 1 := by omega
    rw [List.map_append, List.sum_append, ihl (hlen.left hk) (by omega), ihr (hlen.right hk) (by omega), hsucc,
      Nat.pow_succ, Nat.mul_two]

/-- Settles O42: the table holds the leaves' codes and no other; a path through a leaf ends there; each node's two
subtrees halve its share. -/
theorem codesArePrefixFreeAndComplete : Obligations.CodesArePrefixFreeAndComplete := by
  intro s t ht hexec
  obtain ⟨hs, bs, hspan, -, hbs⟩ := ht.spans_nodup
  obtain rfl := Host.Outcome.next.inj ((exec_cgen_of_isTree ht).symm.trans hexec)
  simp only [State.setTv_ct, State.setCt_ct]
  have hcode : ∀ {b c}, CodeOf s.node s.root b c →
      ctAt (generateCodes s.node s.root (clearCtV s.ct)) b = codeRec c := fun hc => hspan.ctAt_generateCodes hbs hc _
  have hvalid : ∀ b, (ctAt (generateCodes s.node s.root (clearCtV s.ct)) b).v = true ↔
      ∃ c, CodeOf s.node s.root b c := fun b => by
    rw [hspan.ctAt_generateCodes_valid_iff hbs, hspan.mem_syms_iff_codeOf]
  refine ⟨hvalid, fun b hb => ?lengths, fun a b hne ha hb hpre => ?prefixFree, ?kraft⟩
  case lengths =>
    obtain ⟨c, hc⟩ := (hvalid b).1 hb
    obtain ⟨hpos, hle⟩ := hspan.codeOf_length hbs hc
    rw [hcode hc, len_codeRec hle, bits_codeRec hle]
    exact ⟨hpos, hc⟩
  case prefixFree =>
    obtain ⟨c, hc⟩ := (hvalid a).1 ha
    obtain ⟨c', hc'⟩ := (hvalid b).1 hb
    rw [hcode hc, hcode hc', bits_codeRec (hspan.codeOf_length hbs hc).2,
      bits_codeRec (hspan.codeOf_length hbs hc').2] at hpre
    exact hne (hc.eq_of_prefix hc' hpre)
  case kraft =>
    have hperm : (alphabet.filter fun b => (ctAt (generateCodes s.node s.root (clearCtV s.ct)) b).v).Perm bs :=
      (List.perm_ext_iff_of_nodup (alphabet_nodup.filter _) hbs).2 fun b => by
        rw [List.mem_filter, hspan.ctAt_generateCodes_valid_iff hbs]
        exact and_iff_right (mem_alphabet b)
    have hsum := hspan.kraft_sum (n := maxLen) (hspan.measuresDepth hbs (clearCtV s.ct))
      (hspan.extraBit_add_length_le hbs)
    refine ((hperm.map _).sum_eq.trans hsum).trans ?_
    cases hk : (nodeAt s.node s.root).k with
    | leaf => rw [extraBit_of_leaf hk]; rfl
    | internal => rw [extraBit_of_internal hk]; rfl

/-! ## The weighted length -/

/-- A leaf of depth `d` lies below `d` internal nodes, each of which has the sum of the frequencies below it: so the weighted
length of the leaves below `h`, counted from a depth `d`, is `d` times their sum and the frequencies of the internal nodes
(R164). -/
theorem Spans.weighted_sum {node : Mem NodeRec} {h : Handle} {hs : List Handle} {bs : List Byte} {d : Nat}
    {len count : Byte → Nat} (hspan : Spans node h hs bs) (hlen : MeasuresDepth node h d len)
    (hleaf : ∀ g ∈ hs, (nodeAt node g).k = .leaf → freqOf node g = count (nodeAt node g).sym)
    (hinternal : ∀ g ∈ hs, (nodeAt node g).k = .internal →
      freqOf node g = freqOf node (nodeAt node g).left + freqOf node (nodeAt node g).right) :
    (bs.map fun b => count b * len b).sum =
      d * freqOf node h + ((hs.filter fun g => (nodeAt node g).k == .internal).map (freqOf node)).sum := by
  induction hspan generalizing d with
  | @leaf h hk =>
    have hfreq := hleaf h List.mem_cons_self hk
    simp [hk, hlen.of_leaf hk, hfreq, Nat.mul_comm]
  | @internal h hl hr _ _ hk _ _ _ ihl ihr =>
    have hinl : ∀ {g}, g ∈ hl → g ∈ h :: (hl ++ hr) := fun hg => List.mem_cons_of_mem h (List.mem_append_left hr hg)
    have hinr : ∀ {g}, g ∈ hr → g ∈ h :: (hl ++ hr) := fun hg => List.mem_cons_of_mem h (List.mem_append_right hl hg)
    have hfreq := hinternal h List.mem_cons_self hk
    have hsuml := ihl (hlen.left hk) (fun g hg => hleaf g (hinl hg)) (fun g hg => hinternal g (hinl hg))
    have hsumr := ihr (hlen.right hk) (fun g hg => hleaf g (hinr hg)) (fun g hg => hinternal g (hinr hg))
    rw [List.map_append, List.sum_append, hsuml, hsumr, List.filter_cons_of_pos (by rw [hk]; rfl), List.filter_append,
      List.map_cons, List.map_append, List.sum_cons, List.sum_append, hfreq]
    ring

/-- The nodes allocated are those of the tree (R150). -/
theorem Built.handles_perm {p : List Byte} {t : State} {hs : List Handle} {bs : List Byte} (hb : Built p t)
    (hspan : Spans t.node t.root hs bs) (hhs : hs.Nodup) : t.handles.Perm hs :=
  (List.perm_ext_iff_of_nodup t.handles_nodup hhs).2 fun h => by
    rw [State.mem_handles, hspan.mem_iff]
    constructor
    · exact hb.reaches
    · rintro ⟨q, hq⟩
      exact ((engineInv_iff t).1 hb.engine).1.lt_of_reaches hq hb.root_lt

/-- Settles O54: the symbols that occur are those of the leaves, the nodes allocated are those of the tree, and with two
symbols the root is an internal node, so lengths are depths. -/
theorem weightedLengthIsTheSumOfMerges : Obligations.WeightedLengthIsTheSumOfMerges := by
  intro s t u hwf hv htwo htbld hcgen
  have hne : s.present ≠ [] := List.length_pos_iff.1 (by omega)
  have hoccurs : ∃ b, ftAt s.ft b ≠ 0 := by
    obtain ⟨b, hb⟩ := List.exists_mem_of_ne_nil _ hne
    exact ⟨b, mem_present.1 hb⟩
  obtain ⟨ht, hchildren, hleaves, hcounts, -, -⟩ := tbldTreesAreWellFormed s t hwf hv hoccurs htbld
  obtain ⟨w, -, -, hrun, hb⟩ := tbld_builds hwf hne
  rw [exec_eq_finish, body, hrun, Run.finish_ok] at htbld
  obtain rfl := Host.Outcome.next.inj htbld
  obtain ⟨hs, bs, hspan, hhs, hbs⟩ := ht.spans_nodup
  obtain rfl := Host.Outcome.next.inj ((exec_cgen_of_isTree ht).symm.trans hcgen)
  have hhandles := hb.handles_perm hspan hhs
  have hsyms : s.present.Perm bs := (List.perm_ext_iff_of_nodup (present_nodup s) hbs).2 fun b => by
    rw [mem_present, hspan.mem_syms_iff, hleaves]
  have hextra : extraBit (rooted w).node (rooted w).root = 0 := by
    refine extraBit_of_internal ?_
    cases hspan with
    | leaf => exact absurd hsyms.length_eq (Nat.ne_of_gt htwo)
    | internal hk => exact hk
  have hsum := hspan.weighted_sum (count := ftAt s.ft) (hspan.measuresDepth hbs (clearCtV (rooted w).ct))
    (fun g hg hk => (hspan.mem_iff.1 hg).elim fun p hp => hcounts p g hp hk)
    (fun g hg hk => (hchildren g (hhandles.mem_iff.2 hg) hk).2.2)
  rw [hextra, Nat.zero_mul, Nat.zero_add] at hsum
  exact ((hsyms.map _).sum_eq.trans hsum).trans ((hhandles.filter _).map _).sum_eq.symm

end Sys2Proof.Machine
end

section
/-! PACK: what one stored bit makes of the BIT space, what storing the codes of the first input symbols makes of it, and
where the packing ends (spec/43_bit_packer.md R170 to R172). -/

namespace Sys2Proof.Machine

/-! ## One stored bit -/

/-- The mask that stores a bit at place `k` of a byte: the bit there and zeros elsewhere (R99). -/
theorem getMsbD_bitMask (b : Bool) {k i : Nat} (hk : k < 8) (hi : i < 8) :
    ((BitVec.ofBool b).zeroExtend 8 <<< (7 - k)).getMsbD i = (decide (i = k) && b) := by
  have hall : ∀ b : Bool, ∀ k < 8, ∀ i < 8,
      ((BitVec.ofBool b).zeroExtend 8 <<< (7 - k)).getMsbD i = (decide (i = k) && b) := by decide
  exact hall b k hk i hi

section PutStreamBit
variable {cap pos j : Nat} (m : Mem Byte) (b : Bool)

theorem byteAt_putStreamBit_other (hj : j ≠ pos / 8) : byteAt (putStreamBit cap m pos b) j = byteAt m j :=
  Mem.read_set_other _ _ _ _ _ _ hj

theorem streamBit_putStreamBit_other (hj : j / 8 ≠ pos / 8) :
    streamBit (putStreamBit cap m pos b) j = streamBit m j := by
  rw [streamBit, byteAt_putStreamBit_other m b hj, streamBit]

/-- In the byte written the bit is added to those stored before, to none in a fresh byte (R170). -/
theorem streamBit_putStreamBit_same (hpos : pos / 8 < cap) (hj : j / 8 = pos / 8) :
    streamBit (putStreamBit cap m pos b) j =
      (decide (pos % 8 ≠ 0) && streamBit m j || decide (j = pos) && b) := by
  have hplace : decide (j % 8 = pos % 8) = decide (j = pos) := decide_eq_decide.2 (by omega)
  rw [streamBit, hj, putStreamBit, byteAt_set hpos, if_pos rfl, BitVec.getMsbD_or,
    getMsbD_bitMask b (Nat.mod_lt _ (by decide)) (Nat.mod_lt _ (by decide)), hplace, streamBit, hj]
  by_cases hfresh : pos % 8 = 0 <;> simp [hfresh]

end PutStreamBit

/-! ## Stored bits and codes -/

theorem getD_append_singleton (bits : List Bool) (b : Bool) (j : Nat) :
    (bits ++ [b]).getD j false = (bits.getD j false || decide (j = bits.length) && b) := by
  obtain hj | rfl | hj := Nat.lt_trichotomy j bits.length
  · simp [hj.ne, List.getElem?_append_left hj]
  · simp
  · simp [hj.ne', hj.le, List.getElem?_eq_none (l := bits ++ [b]) (i := j) (by simpa using hj)]

/-- `HoldsStream` in one clause for the bits and the padding: the padding is what a list reads beyond its end. -/
theorem holdsStream_iff {old new : Mem Byte} {bits : List Bool} : HoldsStream old new bits ↔
    (∀ j, j < 8 * ((bits.length + 7) / 8) → streamBit new j = bits.getD j false) ∧
      ∀ i, (bits.length + 7) / 8 ≤ i → byteAt new i = byteAt old i := by
  rw [HoldsStream, ← and_assoc]
  refine and_congr_left fun _ => ⟨fun ⟨hbits, hpad⟩ j hj => ?_, fun h => ⟨fun j hj => ?_, fun j hle hj => ?_⟩⟩
  · obtain hlt | hle := Nat.lt_or_ge j bits.length
    · rw [List.getD_eq_getElem?_getD, hbits j hlt, Option.getD_some]
    · rw [hpad j hle hj, List.getD_eq_default _ _ hle]
  · rw [h j (by omega), List.getD_eq_getElem _ _ hj, List.getElem?_eq_getElem hj]
  · rw [h j hj, List.getD_eq_default _ _ hle]

theorem HoldsStream.refl (m : Mem Byte) : HoldsStream m m [] :=
  holdsStream_iff.2 ⟨fun j hj => absurd hj (Nat.not_lt_zero j), fun _ _ => rfl⟩

/-- The bit stored after a stream is its next bit, and the rest of a byte begun is zeros (R170, R171). -/
theorem HoldsStream.putStreamBit {old m : Mem Byte} {bits : List Bool} (h : HoldsStream old m bits) {cap : Nat}
    (hroom : bits.length < 8 * cap) (b : Bool) :
    HoldsStream old (Machine.putStreamBit cap m bits.length b) (bits ++ [b]) := by
  obtain ⟨hbits, hbeyond⟩ := holdsStream_iff.1 h
  rw [holdsStream_iff, List.length_append, List.length_singleton]
  refine ⟨fun j hj => ?_, fun i hi => ?_⟩
  · rw [getD_append_singleton]
    by_cases hbyte : j / 8 = bits.length / 8
    · rw [streamBit_putStreamBit_same m b (by omega) hbyte]
      by_cases hfresh : bits.length % 8 = 0
      · have hle : bits.length ≤ j := by omega
        rw [List.getD_eq_default _ _ hle, decide_eq_false (not_not.2 hfresh), Bool.false_and]
      · rw [hbits j (by omega), decide_eq_true hfresh, Bool.true_and]
    · have hne : j ≠ bits.length := fun heq => hbyte (congrArg (· / 8) heq)
      rw [streamBit_putStreamBit_other m b hbyte, hbits j (by omega), decide_eq_false hne, Bool.false_and,
        Bool.or_false]
  · rw [byteAt_putStreamBit_other m b (by omega), hbeyond i (by omega)]

/-- The inner loop of PACK stores the bits of a code from its bit `i` on (R170). -/
theorem HoldsStream.packCode {old m : Mem Byte} {bits : List Bool} (h : HoldsStream old m bits) {cap n : Nat}
    (hroom : bits.length + n ≤ 8 * cap) (e : CodeRec) (i : Nat) :
    HoldsStream old (Machine.packCode cap e n i bits.length m) (bits ++ (List.range' i n).map e.codeBit) := by
  induction n generalizing i m bits with
  | zero => rwa [List.range'_zero, List.map_nil, List.append_nil]
  | succ n ih =>
    have hlen : (bits ++ [e.codeBit i]).length = bits.length + 1 := List.length_append
    have hrest := ih (h.putStreamBit (cap := cap) (by omega) (e.codeBit i)) (by omega) (i + 1)
    rwa [hlen, List.append_assoc] at hrest

/-! ## The input's codes -/

theorem CodeRec.length_bits (r : CodeRec) : r.bits.length = r.len.toNat := by simp [CodeRec.bits]

theorem CodeRec.usable_iff (r : CodeRec) : r.usable = true ↔ ¬ (r.v = false ∨ r.len = 0#8) := by
  simp [CodeRec.usable]

@[simp] theorem State.codeStream_zero (s : State) : s.codeStream 0 = [] := rfl

theorem State.codeStream_succ (s : State) (k : Nat) :
    s.codeStream (k + 1) = s.codeStream k ++ (s.codeAt k).bits := by
  simp [State.codeStream, List.range_succ]

theorem State.length_codeStream (s : State) (n : Nat) :
    (s.codeStream n).length = ((List.range n).map fun k => (s.codeAt k).len.toNat).sum := by
  simp [State.codeStream, List.length_flatten, Function.comp_def, CodeRec.length_bits]

theorem State.length_codeStream_succ (s : State) (k : Nat) :
    (s.codeStream (k + 1)).length = (s.codeStream k).length + (s.codeAt k).len.toNat := by
  rw [State.codeStream_succ, List.length_append, CodeRec.length_bits]

/-- A usable code has 1 to 255 bits, so the stream is as long as the input at least, and 255 times as long at most
(R172). -/
theorem State.codeStream_length_bounds {s : State} {n : Nat} (huse : ∀ k, k < n → (s.codeAt k).usable = true) :
    n ≤ (s.codeStream n).length ∧ (s.codeStream n).length ≤ 255 * n := by
  induction n with
  | zero => exact ⟨Nat.zero_le _, Nat.zero_le _⟩
  | succ n ih =>
    obtain ⟨hlow, hhigh⟩ := ih fun k hk => huse k (Nat.lt_succ_of_lt hk)
    obtain ⟨-, hlen⟩ := not_or.1 ((CodeRec.usable_iff _).1 (huse n (Nat.lt_succ_self n)))
    have hpos : (s.codeAt n).len.toNat ≠ 0 := fun h0 => hlen (BitVec.eq_of_toNat_eq h0)
    have hlt := (s.codeAt n).len.isLt
    rw [State.length_codeStream_succ]
    omega

/-- The first `n` input symbols have usable codes, which the BIT space has room for. -/
structure State.Packable (s : State) (n : Nat) : Prop where
  usable : ∀ k, k < n → (s.codeAt k).usable = true
  fits : (s.codeStream n).length ≤ 8 * s.cfg.byteCap

theorem State.packable_zero (s : State) : s.Packable 0 := ⟨nofun, Nat.zero_le _⟩

theorem State.packable_succ {s : State} {n : Nat} : s.Packable (n + 1) ↔
    s.Packable n ∧ (s.codeAt n).usable = true ∧ (s.codeStream (n + 1)).length ≤ 8 * s.cfg.byteCap := by
  constructor
  · rintro ⟨huse, hfits⟩
    rw [State.length_codeStream_succ] at hfits
    exact ⟨⟨fun k hk => huse k (Nat.lt_succ_of_lt hk), Nat.le_of_add_right_le hfits⟩, huse n (Nat.lt_succ_self n),
      (s.length_codeStream_succ n).trans_le hfits⟩
  · rintro ⟨⟨huse, -⟩, hn, hfits⟩
    exact ⟨fun k hk => (Nat.lt_succ_iff_lt_or_eq.1 hk).elim (huse k) fun heq => heq ▸ hn, hfits⟩

/-! ## The outer loop -/

/-- What PACK's loop makes of the BIT space, with the end position or the error raised. -/
def State.packing (s : State) : Mem Byte × Except ErrorCode Nat := packSymbols s.cfg s.sym s.ct s.symcnt 0 0 s.bit

section Packing
variable {s : State} {m k pos : Nat} {bit : Mem Byte}

theorem packSymbols_of_not_usable (huse : (s.codeAt k).usable = false) :
    packSymbols s.cfg s.sym s.ct (m + 1) k pos bit = (bit, .error .noCode) :=
  if_pos (not_not.1 (mt (CodeRec.usable_iff _).2 (Bool.eq_false_iff.1 huse)))

theorem packSymbols_of_no_room (huse : (s.codeAt k).usable = true)
    (hroom : 8 * s.cfg.byteCap < pos + (s.codeAt k).len.toNat) :
    packSymbols s.cfg s.sym s.ct (m + 1) k pos bit = (bit, .error .capacity) :=
  (if_neg ((CodeRec.usable_iff _).1 huse)).trans (if_pos hroom)

theorem packSymbols_of_usable (huse : (s.codeAt k).usable = true)
    (hroom : pos + (s.codeAt k).len.toNat ≤ 8 * s.cfg.byteCap) :
    packSymbols s.cfg s.sym s.ct (m + 1) k pos bit =
      packSymbols s.cfg s.sym s.ct m (k + 1) (pos + (s.codeAt k).len.toNat)
        (packCode s.cfg.byteCap (s.codeAt k) (s.codeAt k).len.toNat 0 pos bit) :=
  (if_neg ((CodeRec.usable_iff _).1 huse)).trans (if_neg (Nat.not_lt.2 hroom))

/-- PACK's loop stores the codes of the symbols that can be packed, and goes on with the next (R170). -/
theorem State.Packable.packSymbols {n : Nat} (h : s.Packable n) :
    ∃ bit, HoldsStream s.bit bit (s.codeStream n) ∧
      ∀ m, Machine.packSymbols s.cfg s.sym s.ct (n + m) 0 0 s.bit =
        Machine.packSymbols s.cfg s.sym s.ct m n (s.codeStream n).length bit := by
  induction n with
  | zero => exact ⟨s.bit, .refl s.bit, fun m => by rw [Nat.zero_add]; rfl⟩
  | succ n ih =>
    obtain ⟨hn, huse, hfits⟩ := State.packable_succ.1 h
    obtain ⟨bit, hbit, hrun⟩ := ih hn
    rw [State.length_codeStream_succ] at hfits
    refine ⟨packCode s.cfg.byteCap (s.codeAt n) (s.codeAt n).len.toNat 0 (s.codeStream n).length bit, ?_, fun m => ?_⟩
    · rw [State.codeStream_succ, CodeRec.bits, List.range_eq_range']
      exact hbit.packCode hfits _ _
    · rw [Nat.succ_add_eq_add_succ, hrun, packSymbols_of_usable huse hfits, State.length_codeStream_succ]

theorem State.Packable.packing_ok (h : s.Packable s.symcnt) :
    ∃ bit, HoldsStream s.bit bit (s.codeStream s.symcnt) ∧
      s.packing = (bit, .ok (s.codeStream s.symcnt).length) := by
  obtain ⟨bit, hbit, hrun⟩ := h.packSymbols
  exact ⟨bit, hbit, hrun 0⟩

/-- PACK stops at the first symbol without a usable code, the codes of those before it stored (R217). -/
theorem State.Packable.packing_noCode (h : s.Packable k) (hk : k < s.symcnt) (huse : (s.codeAt k).usable = false) :
    ∃ bit, HoldsStream s.bit bit (s.codeStream k) ∧ s.packing = (bit, .error .noCode) := by
  obtain ⟨bit, hbit, hrun⟩ := h.packSymbols
  obtain ⟨m, hm⟩ := Nat.exists_eq_add_of_lt hk
  exact ⟨bit, hbit, by rw [State.packing, hm, Nat.add_assoc, hrun, packSymbols_of_not_usable huse]⟩

/-- PACK stops at the first symbol whose code does not fit, the codes of those before it stored (R218). -/
theorem State.Packable.packing_capacity (h : s.Packable k) (hk : k < s.symcnt) (huse : (s.codeAt k).usable = true)
    (hroom : 8 * s.cfg.byteCap < (s.codeStream (k + 1)).length) :
    ∃ bit, HoldsStream s.bit bit (s.codeStream k) ∧ s.packing = (bit, .error .capacity) := by
  obtain ⟨bit, hbit, hrun⟩ := h.packSymbols
  obtain ⟨m, hm⟩ := Nat.exists_eq_add_of_lt hk
  rw [State.length_codeStream_succ] at hroom
  exact ⟨bit, hbit, by rw [State.packing, hm, Nat.add_assoc, hrun, packSymbols_of_no_room huse hroom]⟩

/-- Where the loop does not stop, all symbols can be packed: otherwise a first one could not, and PACK stops at it. -/
theorem State.packable_of_packing_ok (h : s.packing = (bit, .ok pos)) : s.Packable s.symcnt := by
  have hall : ∀ n ≤ s.symcnt, s.Packable n := by
    intro n hn
    induction n with
    | zero => exact s.packable_zero
    | succ n ih =>
      have hpack := ih (Nat.le_of_succ_le hn)
      refine State.packable_succ.2 ⟨hpack, ?usable⟩
      by_contra hfail
      cases huse : (s.codeAt n).usable with
      | false =>
        obtain ⟨_, -, herr⟩ := hpack.packing_noCode hn huse
        exact nomatch h.symm.trans herr
      | true =>
        obtain ⟨_, -, herr⟩ := hpack.packing_capacity hn huse (Nat.lt_of_not_le fun hle => hfail ⟨huse, hle⟩)
        exact nomatch h.symm.trans herr
  exact hall s.symcnt le_rfl

end Packing

/-! ## The command -/

section Pack
variable {s : State} {pos : Nat} {bit : Mem Byte} {e : ErrorCode}

theorem exec_pack_too_many (hmany : s.cfg.symCap < s.symcnt) :
    exec .pack s = .next ((s.setBitcnt 0).raiseError .capacity) := by
  rw [exec_eq_finish, body, pack, if_pos hmany, Run.finish_raised]

theorem exec_pack_ok (hfew : s.symcnt ≤ s.cfg.symCap) (h : s.packing = (bit, .ok pos)) :
    exec .pack s = .next ((s.setBit bit).setBitcnt pos) := by
  rw [exec_eq_finish, body, pack, if_neg (Nat.not_lt.2 hfew), ← State.packing, h]
  rfl

theorem exec_pack_error (hfew : s.symcnt ≤ s.cfg.symCap) (h : s.packing = (bit, .error e)) :
    exec .pack s = .next (((s.setBitcnt 0).setBit bit).raiseError e) := by
  rw [exec_eq_finish, body, pack, if_neg (Nat.not_lt.2 hfew), ← State.packing, h]
  rfl

end Pack

/-- A PACK that ends without an error had room for the input and for all its codes (R170). -/
theorem packable_of_pack {s t : State} (h : exec .pack s = .next t) (herr : t.err = none) :
    s.symcnt ≤ s.cfg.symCap ∧ s.Packable s.symcnt := by
  have hfew : s.symcnt ≤ s.cfg.symCap := by
    by_contra hmany
    rw [exec_pack_too_many (Nat.lt_of_not_le hmany)] at h
    cases h
    exact nomatch herr
  refine ⟨hfew, ?_⟩
  cases hrun : s.packing with
  | mk bit r =>
    cases r with
    | ok pos => exact State.packable_of_packing_ok hrun
    | error e =>
      rw [exec_pack_error hfew hrun] at h
      cases h
      exact nomatch herr

/-- Settles O43: the loop stores the codes of all symbols. -/
theorem packWritesTheCodeStream : Obligations.PackWritesTheCodeStream := by
  rintro s l ⟨-, -, -, hwidth⟩ hfew huse rfl hfits
  obtain ⟨bit, ⟨hbits, hpad, hbeyond⟩, hrun⟩ := State.Packable.packing_ok ⟨huse, hfits⟩
  have hlt : (s.codeStream s.symcnt).length < 2 ^ s.cfg.nfreqBits := by
    have := Nat.two_pow_pos s.cfg.nfreqBits
    omega
  exact ⟨bit, exec_pack_ok hfew hrun, narrow_of_lt hlt, s.length_codeStream _, hbits, hpad, hbeyond,
    State.codeStream_length_bounds huse⟩

/-- Settles O44: the size test, and the loop at the first symbol that cannot be packed. -/
theorem packErrors : Obligations.PackErrors := by
  refine fun s => ⟨exec_pack_too_many, fun k hfew hk huse hfits => ⟨fun hbad => ?noCode, fun hgood hroom => ?capacity⟩⟩
  case noCode =>
    obtain ⟨bit, hbit, hrun⟩ := State.Packable.packing_noCode ⟨huse, hfits⟩ hk hbad
    exact ⟨bit, hbit, exec_pack_error hfew hrun⟩
  case capacity =>
    obtain ⟨bit, hbit, hrun⟩ := State.Packable.packing_capacity ⟨huse, hfits⟩ hk hgood hroom
    exact ⟨bit, hbit, exec_pack_error hfew hrun⟩

end Sys2Proof.Machine
end

section
/-! The walks of UNPK and DEC: each code word of the stream leads from the root to its symbol's leaf, so both loops
parse the stream into code words; every bit string has such a parse; and both commands invert PACK (spec/43_bit_packer.md R173
to R176, spec/44_facade.md R192). -/

namespace Sys2Proof.Machine

/-! ## Bits and symbols as lists -/

theorem map_range_of_getElem? {α : Type} {l : List α} {f : Nat → α} (h : ∀ j, j < l.length → l[j]? = some (f j)) :
    (List.range l.length).map f = l := by
  refine List.ext_getElem (by simp) fun j _ hj => ?_
  have hget := h j hj
  rw [List.getElem?_eq_getElem hj] at hget
  simpa using (Option.some.inj hget).symm

/-- The stream bits from position `pos` on begin with `l`. -/
def BitsAt (m : Mem Byte) (pos : Nat) (l : List Bool) : Prop := (List.range' pos l.length).map (streamBit m) = l

section BitsAt
variable {m : Mem Byte} {pos : Nat} {b : Bool} {l l' : List Bool}

theorem bitsAt_cons : BitsAt m pos (b :: l) ↔ streamBit m pos = b ∧ BitsAt m (pos + 1) l := by
  simp [BitsAt, List.range'_succ]

theorem bitsAt_append : BitsAt m pos (l ++ l') ↔ BitsAt m pos l ∧ BitsAt m (pos + l.length) l' := by
  induction l generalizing pos with
  | nil => simp [BitsAt]
  | cons b l ih =>
    rw [List.cons_append, bitsAt_cons, bitsAt_cons, ih, and_assoc, List.length_cons, Nat.succ_add_eq_add_succ]

theorem bitsAt_stream (s : State) : BitsAt s.bit 0 s.stream := by
  simp [BitsAt, State.stream, List.range_eq_range']

theorem length_stream (s : State) : s.stream.length = s.bitcnt := by simp [State.stream]

end BitsAt

theorem HoldsSymbols.refl (m : Mem Byte) : HoldsSymbols m m [] := ⟨nofun, fun _ _ => rfl⟩

/-- The symbol written after those held is the next one held. -/
theorem HoldsSymbols.set {old m : Mem Byte} {bs : List Byte} (h : HoldsSymbols old m bs) {cap : Nat}
    (hroom : bs.length < cap) (b : Byte) : HoldsSymbols old (Mem.set 0#8 cap m bs.length b) (bs ++ [b]) := by
  obtain ⟨hheld, hbeyond⟩ := h
  refine ⟨fun j hj => ?_, fun j hj => ?_⟩ <;> rw [byteAt_set hroom] <;>
    rw [List.length_append, List.length_singleton] at hj
  · obtain hlt | rfl := Nat.lt_succ_iff_lt_or_eq.1 hj
    · rw [if_neg hlt.ne, List.getElem?_append_left hlt, hheld j hlt]
    · rw [if_pos rfl, List.getElem?_concat_length]
  · rw [if_neg (Nat.ne_of_gt hj), hbeyond j (Nat.le_of_succ_le hj)]

/-! ## Single steps of the walk -/

/-- Whether `h` is a leaf: for the root `single` of R173 and R192. -/
def isLeafAt (node : Mem NodeRec) (h : Handle) : Bool := (nodeAt node h).k == .leaf

theorem isLeafAt_of_leaf {node : Mem NodeRec} {h : Handle} (hk : (nodeAt node h).k = .leaf) :
    isLeafAt node h = true := by
  rw [isLeafAt, hk]
  rfl

theorem isLeafAt_of_internal {node : Mem NodeRec} {h : Handle} (hk : (nodeAt node h).k = .internal) :
    isLeafAt node h = false := by
  rw [isLeafAt, hk]
  rfl

theorem State.singleLeaf_eq (s : State) : s.singleLeaf = isLeafAt s.node s.root := rfl

/-- The child to which bit `b` turns (R100, R173). -/
def childAt (node : Mem NodeRec) (h : Handle) (b : Bool) : Handle :=
  if b then (nodeAt node h).right else (nodeAt node h).left

theorem reaches_cons {node : Mem NodeRec} {h t : Handle} {b : Bool} {p : List Bool} :
    Reaches node h (b :: p) t ↔ (nodeAt node h).k = .internal ∧ Reaches node (childAt node h b) p t := by
  constructor
  · rintro (_ | ⟨hk, hp⟩ | ⟨hk, hp⟩)
    · exact ⟨hk, hp⟩
    · exact ⟨hk, hp⟩
  · rintro ⟨hk, hp⟩
    cases b with
    | false => exact .left hk hp
    | true => exact .right hk hp

theorem reaches_nil {node : Mem NodeRec} {h t : Handle} : Reaches node h [] t ↔ t = h := by
  constructor
  · rintro ⟨⟩
    rfl
  · rintro rfl
    exact .here t

/-- A path to an internal node starts at one. -/
theorem Reaches.internal {node : Mem NodeRec} {h t : Handle} {p : List Bool} (hp : Reaches node h p t)
    (hk : (nodeAt node t).k = .internal) : (nodeAt node h).k = .internal := by
  cases hp with
  | here => exact hk
  | left hi _ => exact hi
  | right hi _ => exact hi

/-- A path from an internal node to a leaf has a turn. -/
theorem Reaches.ne_nil {node : Mem NodeRec} {h t : Handle} {p : List Bool} (hp : Reaches node h p t)
    (hk : (nodeAt node h).k = .internal) (hleaf : (nodeAt node t).k = .leaf) : p ≠ [] := by
  rintro rfl
  obtain rfl := reaches_nil.1 hp
  exact nomatch hk.symm.trans hleaf

theorem walkBit_of_tree (node : Mem NodeRec) (cur : Handle) (b : Bool) :
    walkBit node false cur b = .ok (childAt node cur b) := rfl

section Steps
variable {c : Config} {node : Mem NodeRec} {bit out : Mem Byte} {root cur nxt : Handle} {single : Bool}
  {n pos cnt : Nat}

theorem decodeSymbol_leaf (hw : walkBit node single cur (streamBit bit pos) = .ok nxt)
    (hk : (nodeAt node nxt).k = .leaf) : decodeSymbol node bit single (n + 1) pos cur = .ok (nxt, n, pos + 1) := by
  simp only [decodeSymbol, hw, hk]

theorem decodeSymbol_internal (hw : walkBit node single cur (streamBit bit pos) = .ok nxt)
    (hk : (nodeAt node nxt).k = .internal) :
    decodeSymbol node bit single (n + 1) pos cur = decodeSymbol node bit single n (pos + 1) nxt := by
  simp only [decodeSymbol, hw, hk]

theorem unpackBits_error {e : ErrorCode} (hw : walkBit node single cur (streamBit bit pos) = .error e) :
    unpackBits c node bit root single (n + 1) pos cur cnt out = (out, .error e) := by
  simp only [unpackBits, hw]

theorem unpackBits_leaf (hw : walkBit node single cur (streamBit bit pos) = .ok nxt)
    (hk : (nodeAt node nxt).k = .leaf) :
    unpackBits c node bit root single (n + 1) pos cur cnt out =
      if cnt = c.symCap then (out, .error .capacity)
      else unpackBits c node bit root single n (pos + 1) root (cnt + 1)
        (Mem.set 0#8 c.symCap out cnt (nodeAt node nxt).sym) := by
  simp only [unpackBits, hw, hk]

theorem unpackBits_internal (hw : walkBit node single cur (streamBit bit pos) = .ok nxt)
    (hk : (nodeAt node nxt).k = .internal) :
    unpackBits c node bit root single (n + 1) pos cur cnt out =
      unpackBits c node bit root single n (pos + 1) nxt cnt out := by
  simp only [unpackBits, hw, hk]

/-! ## One symbol -/

/-- DEC's walk follows a path of at least one turn to its leaf. -/
theorem decodeSymbol_path {p : List Bool} {h : Handle} (hp : Reaches node cur p h) (hleaf : (nodeAt node h).k = .leaf)
    (hne : p ≠ []) (hbits : BitsAt bit pos p) (n : Nat) :
    decodeSymbol node bit false (p.length + n) pos cur = .ok (h, n, pos + p.length) := by
  induction p generalizing cur pos with
  | nil => exact absurd rfl hne
  | cons b p ih =>
    obtain ⟨-, hp⟩ := reaches_cons.1 hp
    obtain ⟨rfl, hrest⟩ := bitsAt_cons.1 hbits
    have hw := walkBit_of_tree node cur (streamBit bit pos)
    rw [List.length_cons, Nat.add_right_comm]
    cases hk : (nodeAt node (childAt node cur (streamBit bit pos))).k with
    | leaf =>
      obtain rfl := hp.eq_of_leaf hk
      obtain rfl := hp.path_eq_nil hk
      rw [decodeSymbol_leaf hw hk, List.length_nil, Nat.zero_add, Nat.zero_add]
    | internal =>
      rw [decodeSymbol_internal hw hk, ih hp (hp.ne_nil hk hleaf) hrest, Nat.add_assoc, Nat.add_comm 1]

/-- DEC's walk reads a code word and stands at a leaf of its symbol (R100, R192); in the single-leaf tree the one bit
`0` stays at the leaf (R174). -/
theorem decodeSymbol_code {b : Byte} {p : List Bool} (hc : CodeOf node root b p) (hbits : BitsAt bit pos p) :
    ∃ h, (nodeAt node h).sym = b ∧ ∀ n,
      decodeSymbol node bit (isLeafAt node root) (p.length + n) pos root = .ok (h, n, pos + p.length) := by
  cases hk : (nodeAt node root).k with
  | leaf =>
    obtain ⟨hsym, rfl⟩ := (codeOf_of_leaf hk).1 hc
    have hw : walkBit node true root (streamBit bit pos) = .ok root := by rw [(bitsAt_cons.1 hbits).1]; rfl
    refine ⟨root, hsym, fun n => ?_⟩
    rw [isLeafAt_of_leaf hk, List.length_singleton, Nat.add_comm]
    exact decodeSymbol_leaf hw hk
  | internal =>
    obtain ⟨h, hp, hleaf, hsym⟩ := (codeOf_of_internal hk).1 hc
    rw [isLeafAt_of_internal hk]
    exact ⟨h, hsym, decodeSymbol_path hp hleaf (hp.ne_nil hk hleaf) hbits⟩

/-- UNPK's walk is DEC's: where DEC stands at a leaf UNPK emits its symbol and starts again at the root (R173, R192). -/
theorem unpackBits_of_decodeSymbol {h : Handle} {left pos' : Nat}
    (hsymbol : decodeSymbol node bit single n pos cur = .ok (h, left, pos')) :
    unpackBits c node bit root single n pos cur cnt out =
      if cnt = c.symCap then (out, .error .capacity)
      else unpackBits c node bit root single left pos' root (cnt + 1)
        (Mem.set 0#8 c.symCap out cnt (nodeAt node h).sym) := by
  induction n generalizing pos cur with
  | zero => exact nomatch hsymbol
  | succ n ih =>
    cases hw : walkBit node single cur (streamBit bit pos) with
    | error e => rw [decodeSymbol, hw] at hsymbol; exact nomatch hsymbol
    | ok nxt =>
      cases hk : (nodeAt node nxt).k with
      | leaf =>
        obtain ⟨⟩ := (decodeSymbol_leaf hw hk).symm.trans hsymbol
        exact unpackBits_leaf hw hk
      | internal => rw [unpackBits_internal hw hk, ih ((decodeSymbol_internal hw hk).symm.trans hsymbol)]

/-- A walk that stops before a leaf stands where its path ends (R175). -/
theorem unpackBits_path {p : List Bool} {h : Handle} (hp : Reaches node cur p h) (hk : (nodeAt node h).k = .internal)
    (hbits : BitsAt bit pos p) :
    unpackBits c node bit root false p.length pos cur cnt out = (out, .ok (cnt, h)) := by
  induction p generalizing cur pos with
  | nil => rw [reaches_nil.1 hp]; rfl
  | cons b p ih =>
    obtain ⟨-, hp⟩ := reaches_cons.1 hp
    obtain ⟨rfl, hrest⟩ := bitsAt_cons.1 hbits
    exact (unpackBits_internal (walkBit_of_tree node cur _) (hp.internal hk)).trans (ih hp hrest)

/-! ## Code words one after the other -/

/-- Both loops parse code words, as many as OUT has room for, and store their symbols after those stored before. -/
theorem loops_of_codes {bs done : List Byte} {cs : List (List Bool)} {old : Mem Byte}
    (hcodes : List.Forall₂ (CodeOf node root) bs cs) (hbits : BitsAt bit pos cs.flatten)
    (hout : HoldsSymbols old out done) (hroom : done.length + bs.length ≤ c.symCap) :
    ∃ out', HoldsSymbols old out' (done ++ bs) ∧
      (∀ m n, decodeSymbols c.symCap node bit root (isLeafAt node root) (bs.length + m)
          (cs.flatten.length + n) pos done.length out =
        decodeSymbols c.symCap node bit root (isLeafAt node root) m n (pos + cs.flatten.length)
          (done ++ bs).length out') ∧
      ∀ n, unpackBits c node bit root (isLeafAt node root) (cs.flatten.length + n) pos root done.length out =
        unpackBits c node bit root (isLeafAt node root) n (pos + cs.flatten.length) root
          (done ++ bs).length out' := by
  induction hcodes generalizing pos done out with
  | nil => exact ⟨out, by rwa [List.append_nil], by simp, by simp⟩
  | @cons b p bs cs hcode _ ih =>
    rw [List.flatten_cons, bitsAt_append] at hbits
    obtain ⟨h, hsym, hsymbol⟩ := decodeSymbol_code hcode hbits.1
    rw [List.length_cons] at hroom
    have hlen : (done ++ [b]).length = done.length + 1 := List.length_append
    obtain ⟨out', hout', hdec, hunp⟩ := ih hbits.2 (hout.set (cap := c.symCap) (by omega) b) (by omega)
    rw [List.append_assoc, List.singleton_append] at hout' hdec hunp
    rw [hlen] at hdec hunp
    refine ⟨out', hout', fun m n => ?_, fun n => ?_⟩ <;>
      rw [List.flatten_cons, List.length_append (as := p), Nat.add_assoc p.length, ← Nat.add_assoc pos]
    · rw [← hdec, ← hsym, List.length_cons, Nat.add_right_comm, decodeSymbols, hsymbol]
    · rw [← hunp, ← hsym, unpackBits_of_decodeSymbol (hsymbol _), if_neg (by omega)]

end Steps

/-! ## Every bit string is parsed -/

section Parse
variable {node : Mem NodeRec} {root h : Handle}

/-- From an internal node a bit string leads to an internal node, or begins with the path to a leaf. -/
theorem exists_walk (hk : (nodeAt node h).k = .internal) (l : List Bool) :
    (∃ g, Reaches node h l g ∧ (nodeAt node g).k = .internal) ∨
      ∃ p g l', Reaches node h p g ∧ (nodeAt node g).k = .leaf ∧ p ≠ [] ∧ p ++ l' = l := by
  induction l generalizing h with
  | nil => exact .inl ⟨h, .here h, hk⟩
  | cons b l ih =>
    cases hchild : (nodeAt node (childAt node h b)).k with
    | leaf =>
      exact .inr ⟨[b], _, l, reaches_cons.2 ⟨hk, .here _⟩, hchild, List.cons_ne_nil _ _, rfl⟩
    | internal =>
      obtain ⟨g, hp, hg⟩ | ⟨p, g, l', hp, hg, -, rfl⟩ := ih hchild
      · exact .inl ⟨g, reaches_cons.2 ⟨hk, hp⟩, hg⟩
      · exact .inr ⟨b :: p, g, l', reaches_cons.2 ⟨hk, hp⟩, hg, List.cons_ne_nil _ _, rfl⟩

/-- What is left of a bit string begins with no code word: it is a walk without a leaf, or its first bit is the `1` of
the single-leaf tree (R174, R175). -/
def Unparsed (node : Mem NodeRec) (root : Handle) (r : List Bool) : Prop :=
  PartialCode node root r ∨ ((nodeAt node root).k = .leaf ∧ r.head? = some true)

theorem unparsed_or_exists_code (node : Mem NodeRec) (root : Handle) (l : List Bool) :
    Unparsed node root l ∨ ∃ b p l', CodeOf node root b p ∧ p ≠ [] ∧ p ++ l' = l := by
  cases hk : (nodeAt node root).k with
  | leaf =>
    cases l with
    | nil => exact .inl (.inl (.inl rfl))
    | cons b l =>
      cases b with
      | false => exact .inr ⟨_, _, l, (codeOf_of_leaf hk).2 ⟨rfl, rfl⟩, List.cons_ne_nil _ _, rfl⟩
      | true => exact .inl (.inr ⟨hk, rfl⟩)
  | internal =>
    obtain ⟨g, hp, hg⟩ | ⟨p, g, l', hp, hg, hne, hl⟩ := exists_walk hk l
    · exact .inl (.inl (.inr ⟨g, hp, hg⟩))
    · exact .inr ⟨_, p, l', (codeOf_of_internal hk).2 ⟨g, hp, hg, rfl⟩, hne, hl⟩

/-- Every bit string is a sequence of code words, then a rest that begins with none. -/
theorem exists_parse (node : Mem NodeRec) (root : Handle) (l : List Bool) :
    ∃ bs cs r, List.Forall₂ (CodeOf node root) bs cs ∧ cs.flatten ++ r = l ∧ Unparsed node root r := by
  induction hn : l.length using Nat.strong_induction_on generalizing l with
  | _ n ih =>
    obtain hrest | ⟨b, p, l', hcode, hne, rfl⟩ := unparsed_or_exists_code node root l
    · exact ⟨[], [], l, .nil, rfl, hrest⟩
    · have hlt : l'.length < n := by
        rw [← hn, List.length_append]
        exact Nat.lt_add_of_pos_left (List.length_pos_iff.2 hne)
      obtain ⟨bs, cs, r, hcodes, rfl, hrest⟩ := ih _ hlt l' rfl
      exact ⟨b :: bs, p :: cs, r, .cons hcode hcodes, by rw [List.flatten_cons, List.append_assoc], hrest⟩

end Parse

/-! ## The loops on a state's stream -/

/-- What UNPK's loop makes of OUT, with the count and the last node or the error raised. -/
def State.unpacking (s : State) : Mem Byte × Except ErrorCode (Nat × Handle) :=
  unpackBits s.cfg s.node s.bit s.root s.singleLeaf s.bitcnt 0 s.root 0 s.out

/-- What DEC's loop makes of OUT, with the bits left and the count or the error raised. -/
def State.decoding (s : State) : Mem Byte × Except ErrorCode (Nat × Nat) :=
  decodeSymbols s.cfg.symCap s.node s.bit s.root s.singleLeaf s.symcnt s.bitcnt 0 0 s.out

section Stream
variable {s : State} {bs : List Byte} {cs : List (List Bool)} {r : List Bool}

section Codes
variable (hcodes : List.Forall₂ (CodeOf s.node s.root) bs cs) (hstream : cs.flatten ++ r = s.stream)
include hcodes hstream

/-- After the code words that OUT has room for, UNPK's loop stands at the root before the bits left. -/
theorem unpacking_of_codes (hroom : bs.length ≤ s.cfg.symCap) :
    ∃ out, HoldsSymbols s.out out bs ∧ BitsAt s.bit cs.flatten.length r ∧
      s.unpacking =
        unpackBits s.cfg s.node s.bit s.root s.singleLeaf r.length cs.flatten.length s.root bs.length out := by
  have hbits := bitsAt_stream s
  rw [← hstream, bitsAt_append, Nat.zero_add] at hbits
  obtain ⟨out, hout, -, hunp⟩ := loops_of_codes (c := s.cfg) hcodes hbits.1 (.refl s.out) (by simpa using hroom)
  refine ⟨out, hout, hbits.2, ?_⟩
  have hrun := hunp r.length
  rw [Nat.zero_add] at hrun
  rwa [State.unpacking, ← length_stream, ← hstream, List.length_append]

/-- A 1 bit with a single-leaf tree (R174, R215). -/
theorem unpacking_invalidCode (hroom : bs.length ≤ s.cfg.symCap) (hk : (nodeAt s.node s.root).k = .leaf)
    (hone : r.head? = some true) : ∃ out, HoldsSymbols s.out out bs ∧ s.unpacking = (out, .error .invalidCode) := by
  obtain ⟨out, hout, hbits, hrun⟩ := unpacking_of_codes hcodes hstream hroom
  obtain ⟨r, rfl⟩ := List.head?_eq_some_iff.1 hone
  refine ⟨out, hout, hrun.trans (unpackBits_error ?_)⟩
  rw [s.singleLeaf_eq, isLeafAt_of_leaf hk, (bitsAt_cons.1 hbits).1]
  rfl

/-- The bits run out inside a code word: the loop ends at an internal node below the root (R175, R213). -/
theorem unpacking_partial (ht : IsTree s.node s.root) (hroom : bs.length ≤ s.cfg.symCap) (hne : r ≠ [])
    (hpart : PartialCode s.node s.root r) :
    ∃ out h, HoldsSymbols s.out out bs ∧ h ≠ s.root ∧ s.unpacking = (out, .ok (bs.length, h)) := by
  obtain ⟨out, hout, hbits, hrun⟩ := unpacking_of_codes hcodes hstream hroom
  obtain ⟨h, hp, hk⟩ := hpart.resolve_left hne
  refine ⟨out, h, hout, ?_, hrun.trans ?_⟩
  · rintro rfl
    exact hne (ht.onePath _ _ _ hp (.here _))
  · rw [s.singleLeaf_eq, isLeafAt_of_internal (hp.internal hk)]
    exact unpackBits_path hp hk hbits

/-- One code word more than OUT has room for (R173, R218). -/
theorem unpacking_capacity (hfull : bs.length = s.cfg.symCap + 1) :
    ∃ out, HoldsSymbols s.out out (bs.take s.cfg.symCap) ∧ s.unpacking = (out, .error .capacity) := by
  obtain ⟨b, hb⟩ := List.length_eq_one_iff.1 (show (bs.drop s.cfg.symCap).length = 1 by simp [hfull])
  have hlast := List.forall₂_drop s.cfg.symCap hcodes
  rw [hb, List.forall₂_cons_left_iff] at hlast
  obtain ⟨p, _, hcode, hnil, hp⟩ := hlast
  obtain rfl := List.forall₂_nil_left_iff.1 hnil
  have hsplit : (cs.take s.cfg.symCap).flatten ++ (p ++ r) = s.stream := by
    have hflat := congrArg List.flatten (List.take_append_drop s.cfg.symCap cs)
    rw [hp, List.flatten_append, List.flatten_singleton] at hflat
    rw [← List.append_assoc, hflat, hstream]
  obtain ⟨out, hout, hbits, hrun⟩ := unpacking_of_codes (List.forall₂_take s.cfg.symCap hcodes) hsplit (by simp)
  obtain ⟨h, -, hsymbol⟩ := decodeSymbol_code hcode (bitsAt_append.1 hbits).1
  refine ⟨out, hout, hrun.trans ?_⟩
  rw [List.length_append, List.length_take, hfull, Nat.min_eq_left (Nat.le_succ _)]
  exact (unpackBits_of_decodeSymbol (hsymbol r.length)).trans (if_pos rfl)

end Codes

section AllCodes
variable (hcodes : List.Forall₂ (CodeOf s.node s.root) bs cs) (hstream : cs.flatten = s.stream)
include hcodes hstream

/-- The stream is code words to its end (R173). -/
theorem unpacking_ok (hroom : bs.length ≤ s.cfg.symCap) :
    ∃ out, HoldsSymbols s.out out bs ∧ s.unpacking = (out, .ok (bs.length, s.root)) := by
  obtain ⟨out, hout, -, hrun⟩ := unpacking_of_codes hcodes ((List.append_nil _).trans hstream) hroom
  exact ⟨out, hout, hrun⟩

/-- The stream is SYMCNT code words (R192). -/
theorem decoding_ok (hcount : bs.length = s.symcnt) (hroom : bs.length ≤ s.cfg.symCap) :
    ∃ out, HoldsSymbols s.out out bs ∧ s.decoding = (out, .ok (0, bs.length)) := by
  have hbits := bitsAt_stream s
  rw [← hstream] at hbits
  obtain ⟨out, hout, hdec, -⟩ := loops_of_codes (c := s.cfg) hcodes hbits (.refl s.out) (by simpa using hroom)
  refine ⟨out, hout, ?_⟩
  rw [State.decoding, ← length_stream, ← hstream, ← hcount]
  exact hdec 0 0

end AllCodes
end Stream

/-! ## The commands -/

/-- UNPK's loop does not read OUTCNT or STATUS.TV. -/
theorem unpacking_checked (s : State) : ((s.setOutcnt 0).setTv true).unpacking = s.unpacking := rfl

/-- DEC's loop does not read OUTCNT or STATUS.TV. -/
theorem decoding_checked (s : State) : ((s.setOutcnt 0).setTv true).decoding = s.decoding := rfl

/-- How UNPK ends after its loop, in the state `t` that the check has left: the error raised, or the test for a walk
under way and OUTCNT (R173, R175). -/
def unpkEnd (t : State) : Mem Byte × Except ErrorCode (Nat × Handle) → Run Unit
  | (out, .error e) => .raised e (t.setOut out)
  | (out, .ok (cnt, cur)) =>
    if cur = t.root then .ok () ((t.setOut out).setOutcnt cnt) else .raised .truncatedStream (t.setOut out)

section Commands
variable {s : State} {out : Mem Byte}

theorem exec_unpk_malformed (htv : s.tv = false) (ht : ¬ IsTree s.node s.root) :
    exec .unpk s = .next ((s.setOutcnt 0).raiseError .malformedTree) := by
  rw [exec_eq_finish, body, unpk, ensureTree_of_not_isTree (s := s.setOutcnt 0) htv ht, Run.andThen_raised,
    Run.finish_raised]

variable (ht : IsTree s.node s.root)
include ht

theorem exec_unpk_too_many_bits (hmany : 8 * s.cfg.byteCap < s.bitcnt) :
    exec .unpk s = .next (((s.setOutcnt 0).setTv true).raiseError .capacity) := by
  rw [exec_eq_finish, body, unpk, ensureTree_of_isTree (s := s.setOutcnt 0) ht, Run.andThen_ok]
  exact congrArg Run.finish (if_pos hmany)

variable (hfit : s.bitcnt ≤ 8 * s.cfg.byteCap)
include hfit

/-- A checked UNPK with a count of bits in range is its loop and its loop's end (R173). -/
theorem unpk_of_isTree : unpk s = unpkEnd ((s.setOutcnt 0).setTv true) s.unpacking := by
  rw [unpk, ensureTree_of_isTree (s := s.setOutcnt 0) ht, Run.andThen_ok]
  refine (if_neg (Nat.not_lt.2 hfit)).trans ?_
  rw [← State.unpacking, unpacking_checked]
  rfl

theorem exec_unpk_error {e : ErrorCode} (hrun : s.unpacking = (out, .error e)) :
    exec .unpk s = .next ((((s.setOutcnt 0).setTv true).setOut out).raiseError e) := by
  rw [exec_eq_finish, body, unpk_of_isTree ht hfit, hrun, unpkEnd, Run.finish_raised]

theorem exec_unpk_ok {n : Nat} (hrun : s.unpacking = (out, .ok (n, s.root))) :
    exec .unpk s = .next (((s.setTv true).setOut out).setOutcnt n) := by
  rw [exec_eq_finish, body, unpk_of_isTree ht hfit, hrun]
  exact congrArg Run.finish (if_pos rfl)

theorem exec_unpk_truncated {n : Nat} {h : Handle} (hne : h ≠ s.root) (hrun : s.unpacking = (out, .ok (n, h))) :
    exec .unpk s = .next ((((s.setOutcnt 0).setTv true).setOut out).raiseError .truncatedStream) := by
  rw [exec_eq_finish, body, unpk_of_isTree ht hfit, hrun]
  exact congrArg Run.finish (if_neg hne)

theorem exec_dec_ok {n : Nat} (hfew : s.symcnt ≤ s.cfg.symCap) (hrun : s.decoding = (out, .ok (0, n))) :
    exec .dec s = .next (((s.setTv true).setOut out).setOutcnt n) := by
  rw [exec_eq_finish, body, dec, ensureTree_of_isTree (s := s.setOutcnt 0) ht, Run.andThen_ok]
  refine (congrArg Run.finish (if_neg (not_or.2 ⟨Nat.not_lt.2 hfew, Nat.not_lt.2 hfit⟩))).trans ?_
  rw [← State.decoding, decoding_checked, hrun]
  exact congrArg Run.finish (if_pos rfl)

end Commands

/-- The symbols held are the output that OUTCNT counts (R40). -/
theorem HoldsSymbols.output {s : State} {old out : Mem Byte} {bs : List Byte} (h : HoldsSymbols old out bs)
    (hv : s.cfg.Valid) (hroom : bs.length ≤ s.cfg.symCap) :
    (((s.setTv true).setOut out).setOutcnt bs.length).outcnt = bs.length ∧
      (((s.setTv true).setOut out).setOutcnt bs.length).output = bs := by
  obtain ⟨-, ⟨-, hwidth⟩, -⟩ := hv
  have hlt : bs.length < 2 ^ s.cfg.freqBits := by
    have := Nat.two_pow_pos s.cfg.freqBits
    omega
  have hcount : (((s.setTv true).setOut out).setOutcnt bs.length).outcnt = bs.length := narrow_of_lt hlt
  refine ⟨hcount, ?_⟩
  rw [State.output, hcount]
  exact map_range_of_getElem? h.1

/-- A stream that is at most SYM_CAP code words is unpacked to their symbols (R173). -/
theorem exec_unpk_of_codes {s : State} {bs : List Byte} {cs : List (List Bool)} (ht : IsTree s.node s.root)
    (hfit : s.bitcnt ≤ 8 * s.cfg.byteCap) (hcodes : List.Forall₂ (CodeOf s.node s.root) bs cs)
    (hstream : cs.flatten = s.stream) (hroom : bs.length ≤ s.cfg.symCap) :
    ∃ out, HoldsSymbols s.out out bs ∧ exec .unpk s = .next (((s.setTv true).setOut out).setOutcnt bs.length) := by
  obtain ⟨out, hout, hrun⟩ := unpacking_ok hcodes hstream hroom
  exact ⟨out, hout, exec_unpk_ok ht hfit hrun⟩

/-- A stream that is SYMCNT code words is decoded to their symbols (R192). -/
theorem exec_dec_of_codes {s : State} {bs : List Byte} {cs : List (List Bool)} (ht : IsTree s.node s.root)
    (hfit : s.bitcnt ≤ 8 * s.cfg.byteCap) (hcodes : List.Forall₂ (CodeOf s.node s.root) bs cs)
    (hstream : cs.flatten = s.stream) (hcount : bs.length = s.symcnt) (hroom : bs.length ≤ s.cfg.symCap) :
    ∃ out, HoldsSymbols s.out out bs ∧ exec .dec s = .next (((s.setTv true).setOut out).setOutcnt bs.length) := by
  obtain ⟨out, hout, hrun⟩ := decoding_ok hcodes hstream hcount hroom
  exact ⟨out, hout, exec_dec_ok ht hfit (hcount ▸ hroom) hrun⟩

/-- Settles O46: the check, the count of bits, and the loop behind the code words that it parses. -/
theorem unpkErrors : Obligations.UnpkErrors := by
  rintro s _ rfl
  refine ⟨exec_unpk_malformed, exec_unpk_too_many_bits, fun bs cs r ht hfit hcodes hstream =>
    ⟨fun hroom hk hone => ?invalidCode, fun hfull => ?capacity, fun hroom hne hpart => ?truncated⟩⟩
  case invalidCode =>
    obtain ⟨out, hout, hrun⟩ := unpacking_invalidCode hcodes hstream hroom hk hone
    exact ⟨out, hout, exec_unpk_error ht hfit hrun⟩
  case capacity =>
    obtain ⟨out, hout, hrun⟩ := unpacking_capacity hcodes hstream hfull
    exact ⟨out, hout, exec_unpk_error ht hfit hrun⟩
  case truncated =>
    obtain ⟨out, h, hout, hroot, hrun⟩ := unpacking_partial hcodes hstream ht hroom hne hpart
    exact ⟨out, hout, exec_unpk_truncated ht hfit hroot hrun⟩

/-- A command that ends without an error has not raised one. -/
theorem not_raised_of_err_none {i : Instr} {s t : State} (hexec : exec i s = .next t) (herr : t.err = none) :
    ¬ ∃ u e, exec i s = .next (State.raiseError u e) := by
  rintro ⟨u, e, hraised⟩
  obtain rfl := Host.Outcome.next.inj (hexec.symm.trans hraised)
  exact nomatch herr

/-- A stream that UNPK unpacks without an error is at most SYM_CAP code words: any other way to parse it ends in one of
UNPK's errors. -/
theorem codes_of_exec_unpk {s t : State} (ht : IsTree s.node s.root) (hexec : exec .unpk s = .next t)
    (herr : t.err = none) : s.bitcnt ≤ 8 * s.cfg.byteCap ∧ ∃ bs cs,
      List.Forall₂ (CodeOf s.node s.root) bs cs ∧ cs.flatten = s.stream ∧ bs.length ≤ s.cfg.symCap := by
  have hgood := not_raised_of_err_none hexec herr
  obtain ⟨-, hmany, herrors⟩ := unpkErrors s _ rfl
  have hfit : s.bitcnt ≤ 8 * s.cfg.byteCap := by
    by_contra hlt
    exact hgood ⟨_, _, hmany ht (Nat.lt_of_not_le hlt)⟩
  obtain ⟨bs, cs, r, hcodes, hstream, hrest⟩ := exists_parse s.node s.root s.stream
  have hroom : bs.length ≤ s.cfg.symCap := by
    by_contra hlong
    have hsplit : (cs.take (s.cfg.symCap + 1)).flatten ++ ((cs.drop (s.cfg.symCap + 1)).flatten ++ r) = s.stream := by
      rw [← List.append_assoc, ← List.flatten_append, List.take_append_drop, hstream]
    obtain ⟨-, hcapacity, -⟩ := herrors _ _ _ ht hfit (List.forall₂_take _ hcodes) hsplit
    obtain ⟨_, -, hraised⟩ := hcapacity (List.length_take_of_le (Nat.lt_of_not_le hlong))
    exact hgood ⟨_, _, hraised⟩
  obtain ⟨hinvalid, -, htruncated⟩ := herrors bs cs r ht hfit hcodes hstream
  have hr : r = [] := by
    by_contra hne
    obtain hpart | ⟨hk, hone⟩ := hrest
    · obtain ⟨_, -, hraised⟩ := htruncated hroom hne hpart
      exact hgood ⟨_, _, hraised⟩
    · obtain ⟨_, -, hraised⟩ := hinvalid hroom hk hone
      exact hgood ⟨_, _, hraised⟩
  rw [hr, List.append_nil] at hstream
  exact ⟨hfit, bs, cs, hcodes, hstream, hroom⟩

/-- Settles O45: the loop on a stream of code words; and every other stream ends in an error. -/
theorem unpkParsesTheStream : Obligations.UnpkParsesTheStream := by
  refine ⟨fun s bs cs ht hv hfit hcodes hstream hroom => ?parses, fun s t ht hv _ hexec herr => ?parsed⟩
  case parses =>
    obtain ⟨out, hout, hrun⟩ := exec_unpk_of_codes ht hfit hcodes hstream hroom
    exact ⟨out, _, hrun, rfl, (hout.output hv hroom).2, hout.2⟩
  case parsed =>
    obtain ⟨hfit, bs, cs, hcodes, hstream, hroom⟩ := codes_of_exec_unpk ht hexec herr
    obtain ⟨out, hout, hrun⟩ := exec_unpk_of_codes ht hfit hcodes hstream hroom
    obtain rfl := Host.Outcome.next.inj (hrun.symm.trans hexec)
    exact ⟨cs, (hout.output hv hroom).2.symm ▸ hcodes, hstream⟩

/-! ## Packing and unpacking -/

/-- What PACK leaves without an error: the concatenated codes of the input as the stream, which fits BIT (R171). -/
theorem exec_pack_stream {s t : State} (h : exec .pack s = .next t) (herr : t.err = none) (hv : s.cfg.Valid) :
    ∃ bit, t = (s.setBit bit).setBitcnt (s.codeStream s.symcnt).length ∧ t.stream = s.codeStream s.symcnt ∧
      t.bitcnt ≤ 8 * s.cfg.byteCap := by
  obtain ⟨hfew, hpack⟩ := packable_of_pack h herr
  obtain ⟨bit, hrun, hwidth, -, hbits, -⟩ := packWritesTheCodeStream s _ hv hfew hpack.usable rfl hpack.fits
  obtain rfl := Host.Outcome.next.inj (h.symm.trans hrun)
  have hcount : ((s.setBit bit).setBitcnt (s.codeStream s.symcnt).length).bitcnt = (s.codeStream s.symcnt).length :=
    hwidth
  refine ⟨bit, rfl, ?_, hcount.trans_le hpack.fits⟩
  rw [State.stream, hcount]
  exact map_range_of_getElem? hbits

/-- With the table that CGEN made of a tree, the usable codes of the input are the tree's. -/
theorem forall₂_codeOf_input {s t : State} {n : Nat} (ht : IsTree s.node s.root) (hcgen : exec .cgen s = .next t)
    (huse : ∀ k, k < n → (t.codeAt k).usable = true) :
    List.Forall₂ (CodeOf s.node s.root) (t.input n) ((List.range n).map fun k => (t.codeAt k).bits) := by
  obtain ⟨-, hcode, -⟩ := codesArePrefixFreeAndComplete s t ht hcgen
  rw [State.input, List.forall₂_map_left_iff, List.forall₂_map_right_iff, List.forall₂_same]
  intro k hk
  have hvalid : (t.codeAt k).v = true := (Bool.and_eq_true_iff.1 (huse k (List.mem_range.1 hk))).1
  exact (hcode _ hvalid).2

/-- UNPK and DEC of a stream that is SYMCNT code words give the same symbols (R173, R192). -/
theorem unpk_and_dec_of_codes {s : State} {bs : List Byte} {cs : List (List Bool)} (ht : IsTree s.node s.root)
    (hv : s.cfg.Valid) (herr : s.err = none) (hfit : s.bitcnt ≤ 8 * s.cfg.byteCap)
    (hcodes : List.Forall₂ (CodeOf s.node s.root) bs cs) (hstream : cs.flatten = s.stream)
    (hcount : bs.length = s.symcnt) (hroom : bs.length ≤ s.cfg.symCap) :
    (∃ t, exec .unpk s = .next t ∧ t.err = none ∧ t.outcnt = s.symcnt ∧ t.output = bs) ∧
      ∃ t, exec .dec s = .next t ∧ t.err = none ∧ t.outcnt = s.symcnt ∧ t.output = bs := by
  obtain ⟨out, hout, hunpk⟩ := exec_unpk_of_codes ht hfit hcodes hstream hroom
  obtain ⟨out', hout', hdec⟩ := exec_dec_of_codes ht hfit hcodes hstream hcount hroom
  exact ⟨⟨_, hunpk, herr, (hout.output hv hroom).imp_left (·.trans hcount)⟩,
    ⟨_, hdec, herr, (hout'.output hv hroom).imp_left (·.trans hcount)⟩⟩

/-- Settles O49: the stream that PACK leaves is the input's code words, which both loops parse. -/
theorem unpackingInvertsPacking : Obligations.UnpackingInvertsPacking := by
  intro s s1 s2 ht hv _ hcgen hpack hgood
  obtain ⟨hfew, hpackable⟩ := packable_of_pack hpack hgood
  have hcodes := forall₂_codeOf_input ht hcgen hpackable.usable
  obtain rfl := Host.Outcome.next.inj ((exec_cgen_of_isTree ht).symm.trans hcgen)
  obtain ⟨bit, rfl, hstream, hfit⟩ := exec_pack_stream hpack hgood hv
  have hlen : (s.input s.symcnt).length = s.symcnt := by simp [State.input]
  refine unpk_and_dec_of_codes ?_ ?_ hgood hfit ?_ hstream.symm hlen (hlen.trans_le hfew)
  exacts [ht, hv, hcodes]

end Sys2Proof.Machine
end

section
/-! DEC's results: the artifact decoded, and its errors in their order, each at the point of the walk where the bits run
out, are no code word, or are left over (spec/44_facade.md R192; spec/60_exceptions.md R213, R215, R216, R224). -/

namespace Sys2Proof.Machine

/-! ## The loop behind the code words that it parses -/

section Symbol
variable {node : Mem NodeRec} {bit out : Mem Byte} {root cur h : Handle} {single : Bool} {p r : List Bool}
  {cap m left pos cnt : Nat} {e : ErrorCode}

/-- A walk of DEC whose bits end at an internal node has met no leaf (R192, R213). -/
theorem decodeSymbol_path_truncated (hp : Reaches node cur p h) (hk : (nodeAt node h).k = .internal)
    (hbits : BitsAt bit pos p) : decodeSymbol node bit false p.length pos cur = .error .truncatedStream := by
  induction p generalizing cur pos with
  | nil => rfl
  | cons b p ih =>
    obtain ⟨-, hp⟩ := reaches_cons.1 hp
    obtain ⟨rfl, hrest⟩ := bitsAt_cons.1 hbits
    exact (decodeSymbol_internal (walkBit_of_tree node cur _) (hp.internal hk)).trans (ih hp hrest)

/-- The bits run out between code words or inside one (R192, R213). -/
theorem decodeSymbol_truncated (hpart : PartialCode node root r) (hbits : BitsAt bit pos r) :
    decodeSymbol node bit (isLeafAt node root) r.length pos root = .error .truncatedStream := by
  obtain rfl | ⟨h, hp, hk⟩ := hpart
  · rfl
  · rw [isLeafAt_of_internal (hp.internal hk)]
    exact decodeSymbol_path_truncated hp hk hbits

/-- A 1 bit with a single-leaf tree is no code word (R174, R215). -/
theorem decodeSymbol_invalidCode (hk : (nodeAt node root).k = .leaf) (hone : r.head? = some true)
    (hbits : BitsAt bit pos r) :
    decodeSymbol node bit (isLeafAt node root) r.length pos root = .error .invalidCode := by
  obtain ⟨r, rfl⟩ := List.head?_eq_some_iff.1 hone
  have hw : walkBit node true root (streamBit bit pos) = .error .invalidCode := by rw [(bitsAt_cons.1 hbits).1]; rfl
  rw [isLeafAt_of_leaf hk, List.length_cons, decodeSymbol, hw]

theorem decodeSymbols_error (hsymbol : decodeSymbol node bit single left pos root = .error e) :
    decodeSymbols cap node bit root single (m + 1) left pos cnt out = (out, .error e) := by
  rw [decodeSymbols, hsymbol]

end Symbol

section Codes
variable {s : State} {bs : List Byte} {cs : List (List Bool)} {r : List Bool}
  (hcodes : List.Forall₂ (CodeOf s.node s.root) bs cs) (hstream : cs.flatten ++ r = s.stream)
  (hroom : bs.length ≤ s.cfg.symCap)
include hcodes hstream hroom

/-- After code words that SYMCNT asks for, DEC's loop stands at the root before the bits left. -/
theorem decoding_of_codes (howed : bs.length ≤ s.symcnt) :
    ∃ out, HoldsSymbols s.out out bs ∧ BitsAt s.bit cs.flatten.length r ∧
      s.decoding = decodeSymbols s.cfg.symCap s.node s.bit s.root (isLeafAt s.node s.root) (s.symcnt - bs.length)
        r.length cs.flatten.length bs.length out := by
  have hbits := bitsAt_stream s
  rw [← hstream, bitsAt_append, Nat.zero_add] at hbits
  obtain ⟨out, hout, hdec, -⟩ := loops_of_codes (c := s.cfg) hcodes hbits.1 (.refl s.out) (by simpa using hroom)
  refine ⟨out, hout, hbits.2, ?_⟩
  have hrun := hdec (s.symcnt - bs.length) r.length
  rw [Nat.zero_add, Nat.add_sub_cancel' howed] at hrun
  rwa [State.decoding, ← length_stream, ← hstream, List.length_append]

/-- A symbol is still owed where the next one cannot be decoded. -/
theorem decoding_error {e : ErrorCode} (howed : bs.length < s.symcnt)
    (hnext : ∀ pos, BitsAt s.bit pos r →
      decodeSymbol s.node s.bit (isLeafAt s.node s.root) r.length pos s.root = .error e) :
    ∃ out, HoldsSymbols s.out out bs ∧ s.decoding = (out, .error e) := by
  obtain ⟨out, hout, hbits, hrun⟩ := decoding_of_codes hcodes hstream hroom howed.le
  obtain ⟨m, hm⟩ := Nat.exists_eq_succ_of_ne_zero (Nat.sub_ne_zero_of_lt howed)
  rw [hm, decodeSymbols_error (hnext _ hbits)] at hrun
  exact ⟨out, hout, hrun⟩

/-- No symbol is owed any more where bits are left (R216). -/
theorem decoding_left (hcount : bs.length = s.symcnt) :
    ∃ out, HoldsSymbols s.out out bs ∧ s.decoding = (out, .ok (r.length, bs.length)) := by
  obtain ⟨out, hout, -, hrun⟩ := decoding_of_codes hcodes hstream hroom hcount.le
  rw [hcount, Nat.sub_self, decodeSymbols] at hrun
  exact ⟨out, hout, hcount ▸ hrun⟩

end Codes

/-! ## The command -/

/-- How DEC ends after its loop, in the state `t` that the check has left: the error raised, or the test for bits left
over and OUTCNT (R192). -/
def decEnd (t : State) : Mem Byte × Except ErrorCode (Nat × Nat) → Run Unit
  | (out, .error e) => .raised e (t.setOut out)
  | (out, .ok (left, cnt)) =>
    if left = 0 then .ok () ((t.setOut out).setOutcnt cnt) else .raised .countMismatch (t.setOut out)

section Command
variable {s : State} {out : Mem Byte}

theorem exec_dec_malformed (htv : s.tv = false) (ht : ¬ IsTree s.node s.root) :
    exec .dec s = .next ((s.setOutcnt 0).raiseError .malformedTree) := by
  rw [exec_eq_finish, body, dec, ensureTree_of_not_isTree (s := s.setOutcnt 0) htv ht, Run.andThen_raised,
    Run.finish_raised]

variable (ht : IsTree s.node s.root)
include ht

theorem exec_dec_capacity (hbig : s.cfg.symCap < s.symcnt ∨ 8 * s.cfg.byteCap < s.bitcnt) :
    exec .dec s = .next (((s.setOutcnt 0).setTv true).raiseError .capacity) := by
  rw [exec_eq_finish, body, dec, ensureTree_of_isTree (s := s.setOutcnt 0) ht, Run.andThen_ok]
  exact congrArg Run.finish (if_pos hbig)

variable (hfew : s.symcnt ≤ s.cfg.symCap) (hfit : s.bitcnt ≤ 8 * s.cfg.byteCap)
include hfew hfit

/-- A checked DEC with both counts in range is its loop and its loop's end (R192). -/
theorem dec_of_isTree : dec s = decEnd ((s.setOutcnt 0).setTv true) s.decoding := by
  rw [dec, ensureTree_of_isTree (s := s.setOutcnt 0) ht, Run.andThen_ok]
  refine (if_neg (not_or.2 ⟨Nat.not_lt.2 hfew, Nat.not_lt.2 hfit⟩)).trans ?_
  rw [← State.decoding, decoding_checked]
  rfl

theorem exec_dec_error {e : ErrorCode} (hrun : s.decoding = (out, .error e)) :
    exec .dec s = .next ((((s.setOutcnt 0).setTv true).setOut out).raiseError e) := by
  rw [exec_eq_finish, body, dec_of_isTree ht hfew hfit, hrun, decEnd, Run.finish_raised]

theorem exec_dec_left {left n : Nat} (hleft : left ≠ 0) (hrun : s.decoding = (out, .ok (left, n))) :
    exec .dec s = .next ((((s.setOutcnt 0).setTv true).setOut out).raiseError .countMismatch) := by
  rw [exec_eq_finish, body, dec_of_isTree ht hfew hfit, hrun]
  exact congrArg Run.finish (if_neg hleft)

end Command

/-- Settles O47: the loop on a stream that is SYMCNT code words. -/
theorem decDecodesTheArtifact : Obligations.DecDecodesTheArtifact := by
  intro s bs cs ht hv hfit hfew hcodes hstream hcount
  have hroom : bs.length ≤ s.cfg.symCap := hcount.trans_le hfew
  obtain ⟨out, hout, hrun⟩ := exec_dec_of_codes ht hfit hcodes hstream hcount hroom
  obtain ⟨-, houtput⟩ := hout.output hv hroom
  rw [hcount] at hrun houtput
  exact ⟨out, _, hrun, rfl, houtput, hcount ▸ hout.2⟩

/-- Settles O48: the check, the counts, and the loop behind the code words that it parses. -/
theorem decErrors : Obligations.DecErrors := by
  rintro s _ rfl
  refine ⟨exec_dec_malformed, exec_dec_capacity, fun bs cs r ht hfew hfit hcodes hstream =>
    ⟨fun howed hpart => ?truncated, fun howed hk hone => ?invalidCode, fun hcount hne => ?left⟩⟩
  case truncated =>
    obtain ⟨out, hout, hrun⟩ := decoding_error hcodes hstream (howed.le.trans hfew) howed fun _ =>
      decodeSymbol_truncated hpart
    exact ⟨out, hout, exec_dec_error ht hfew hfit hrun⟩
  case invalidCode =>
    obtain ⟨out, hout, hrun⟩ := decoding_error hcodes hstream (howed.le.trans hfew) howed fun _ =>
      decodeSymbol_invalidCode hk hone
    exact ⟨out, hout, exec_dec_error ht hfew hfit hrun⟩
  case left =>
    obtain ⟨out, hout, hrun⟩ := decoding_left hcodes hstream (hcount.trans_le hfew) hcount
    exact ⟨out, hout, exec_dec_left ht hfew hfit (mt List.length_eq_zero_iff.1 hne) hrun⟩

end Sys2Proof.Machine
end

section
/-! The errors of ENC (spec/44_facade.md R190; spec/60_exceptions.md R210, R223). -/

namespace Sys2Proof.Machine

theorem fcnt_eq_raised {s : State} (hmany : s.cfg.symCap < s.symcnt) : fcnt s = .raised .capacity s := if_pos hmany

theorem exec_enc_emptyInput {s : State} (h0 : s.symcnt = 0) : exec .enc s = .next (s.raiseError .emptyInput) := by
  rw [exec_eq_finish, body, enc, if_pos h0, Run.finish_raised]

theorem exec_enc_capacity {s : State} (hne : s.symcnt ≠ 0) (hmany : s.cfg.symCap < s.symcnt) :
    exec .enc s = .next (s.raiseError .capacity) := by
  rw [exec_eq_finish, body, enc, if_neg hne, fcnt_eq_raised hmany, Run.andThen_raised, Run.finish_raised]

/-- Settles O15: the size test of FCNT comes before any write; an error that is new after ENC was raised by it. -/
theorem encRaisesOnlyTwoErrors : Obligations.EncRaisesOnlyTwoErrors := by
  refine ⟨fun s => exec_enc_capacity, fun s t e hv hexec herr hnew => ?_⟩
  have hframe := (body_frame .enc s).err (by decide)
  rw [exec_eq_finish] at hexec
  obtain ⟨-, rfl⟩ | ⟨e', hraised, rfl⟩ := Run.finish_next hexec
  · exact absurd (hframe.symm.trans herr) hnew
  · obtain rfl : e' = e := Option.some.inj herr
    exact enc_raises hv hraised

end Sys2Proof.Machine
end

section
/-! Commands sent one after the other: their rules in sequence, up to the first error, which makes the rest ignored
(spec/30_encoding.md R93; spec/60_exceptions.md R226). -/

namespace Sys2Proof.Machine

/-- The rules of the commands in sequence, up to the first that raises. -/
def runAll : List Instr → State → Run Unit
  | [], s => .ok () s
  | i :: is, s => (body i s).andThen fun _ t => runAll is t

theorem runAll_append (is js : List Instr) (s : State) :
    runAll (is ++ js) s = (runAll is s).andThen fun _ t => runAll js t := by
  induction is generalizing s with
  | nil => rfl
  | cons i is ih =>
    rw [List.cons_append, runAll, runAll]
    cases body i s with
    | ok _ t => exact ih t
    | raised e t => rfl

theorem Run.andThen_ok_unit (r : Run Unit) : (r.andThen fun _ t => .ok () t) = r := by
  cases r <;> rfl

theorem runAll_singleton (i : Instr) (s : State) : runAll [i] s = body i s := Run.andThen_ok_unit _

/-- The state that the host finds after a course: PH is IDLE, the error raised is pending (R93, R222). -/
def Run.settled : Run Unit → State
  | .ok _ s => s.setPh .idle
  | .raised e s => s.raiseError e

theorem runCommand_eq_settled (i : Instr) (s : State) : runCommand i s = .next (body i (s.setPh .run)).settled := by
  rw [runCommand, exec_eq_finish]
  cases body i (s.setPh .run) <;> rfl

theorem decode_encode (i : Instr) : decode (encode i) = .ok i := (decodeExactlyInvertsEncode _ i).2 rfl

theorem submit_encode {i : Instr} (hi : alwaysAccepted i = false) (s : State) :
    submit (encode i) s = if s.errorPending then .next s else runCommand i s := by
  simp only [submit, decode_encode, hi, Bool.false_eq_true, if_false]

theorem setPh_eq_self {s : State} {p : Phase} (hph : s.ph = p) : s.setPh p = s := by
  rw [← hph]
  rfl

section Sending
variable {is : List Instr} (his : ∀ i ∈ is, alwaysAccepted i = false)
include his

/-- While an error is pending all commands are ignored (R226). -/
theorem sendAll_of_pending {s : State} (herr : s.errorPending = true) : sendAll is s = .next s := by
  induction is with
  | nil => rfl
  | cons i is ih =>
    obtain ⟨hi, his⟩ := List.forall_mem_cons.1 his
    rw [sendAll, submit_encode hi, if_pos herr]
    exact ih his

/-- Sent one by one, the commands run in sequence up to the first error. -/
theorem sendAll_setPh_idle {s : State} (hph : s.ph = .run) (herr : s.err = none) :
    sendAll is (s.setPh .idle) = .next (runAll is s).settled := by
  induction is generalizing s with
  | nil => rfl
  | cons i is ih =>
    obtain ⟨hi, his⟩ := List.forall_mem_cons.1 his
    have hidle : (s.setPh .idle).errorPending = false := by rw [State.errorPending, State.setPh_err, herr]; rfl
    have hrun : (s.setPh .idle).setPh .run = s := setPh_eq_self hph
    have hframe := body_frame i s
    rw [sendAll, submit_encode hi, hidle, if_neg Bool.false_ne_true, runCommand_eq_settled, hrun, runAll]
    cases hbody : body i s with
    | ok _ t =>
      rw [hbody] at hframe
      have hkept : i ∉ [Instr.clre, Instr.rst] := by
        rintro hmem
        obtain rfl | rfl := List.mem_pair.1 hmem <;> exact nomatch hi
      exact ih his (hframe.ph.trans hph) ((hframe.err hkept).trans herr)
    | raised e t => exact sendAll_of_pending his rfl

/-- The commands sent to an idle sequencer with no error pending. -/
theorem sendAll_eq_settled {s : State} (hph : s.ph = .idle) (herr : s.err = none) :
    sendAll is s = .next (runAll is (s.setPh .run)).settled := by
  rw [← sendAll_setPh_idle his (s := s.setPh .run) rfl herr]
  exact congrArg (sendAll is) (setPh_eq_self hph).symm

end Sending

/-- ENC of an input that is not empty is the rules of its four parts in sequence (R190). -/
theorem enc_eq_runAll {s : State} (hne : s.symcnt ≠ 0) : enc s = runAll [.fcnt, .tbld, .cgen, .pack] s := by
  rw [enc, if_neg hne]
  simp only [runAll, body, Run.andThen_ok_unit]

end Sys2Proof.Machine
end

section
/-! The tree of TBLD from every state, whatever the widths of the counts and whatever overflows: each merge puts two of
the heap's trees under a new node, so one tree with every leaf is left, and its shape needs no frequency
(spec/41_tree_builder.md R141 to R147, R149). -/

namespace Sys2Proof.Machine

/-! ## Trees side by side -/

theorem Spans.mem_root {node : Mem NodeRec} {h : Handle} {hs : List Handle} {bs : List Byte}
    (hspan : Spans node h hs bs) : h ∈ hs := hspan.mem_iff.2 ⟨[], .here h⟩

/-- A tree is the same in a memory with the same records at its handles. -/
theorem Spans.congr {nd nd' : Mem NodeRec} {h : Handle} {hs : List Handle} {bs : List Byte} (hspan : Spans nd h hs bs)
    (hsame : ∀ g ∈ hs, nodeAt nd' g = nodeAt nd g) : Spans nd' h hs bs := by
  induction hspan with
  | @leaf h hk =>
    have hroot := hsame h List.mem_cons_self
    rw [← hroot] at hk ⊢
    exact .leaf hk
  | @internal h hl hr bl br hk hc hleft hright ihl ihr =>
    have hroot := hsame h List.mem_cons_self
    have hinl := fun g (hg : g ∈ hl) => hsame g (List.mem_cons_of_mem h (List.mem_append_left hr hg))
    have hinr := fun g (hg : g ∈ hr) => hsame g (List.mem_cons_of_mem h (List.mem_append_right hl hg))
    rw [ChildrenValid, ← hinl _ hleft.mem_root, ← hinr _ hright.mem_root] at hc
    rw [← hroot] at hk hc ihl ihr
    exact .internal hk hc (ihl hinl) (ihr hinr)

theorem SpansAll.congr {nd nd' : Mem NodeRec} {stack hs : List Handle} {bs : List Byte}
    (hspan : SpansAll nd stack hs bs) (hsame : ∀ g ∈ hs, nodeAt nd' g = nodeAt nd g) : SpansAll nd' stack hs bs := by
  induction hspan with
  | nil => exact .nil
  | cons hspan _ ih =>
    exact .cons (hspan.congr fun g hg => hsame g (List.mem_append_left _ hg))
      (ih fun g hg => hsame g (List.mem_append_right _ hg))

theorem SpansAll.mem_of_mem {nd : Mem NodeRec} {stack hs : List Handle} {bs : List Byte}
    (hspan : SpansAll nd stack hs bs) {h : Handle} (hh : h ∈ stack) : h ∈ hs := by
  induction hspan with
  | nil => exact nomatch hh
  | cons hspan _ ih =>
    obtain rfl | hh := List.mem_cons.1 hh
    · exact List.mem_append_left _ hspan.mem_root
    · exact List.mem_append_right _ (ih hh)

/-- Trees in another order have the same handles and symbols in another order. -/
theorem SpansAll.perm {nd : Mem NodeRec} {stack stack' hs : List Handle} {bs : List Byte}
    (hspan : SpansAll nd stack hs bs) (hperm : stack.Perm stack') :
    ∃ hs' bs', SpansAll nd stack' hs' bs' ∧ hs.Perm hs' ∧ bs.Perm bs' := by
  induction hperm generalizing hs bs with
  | nil => exact ⟨hs, bs, hspan, .refl _, .refl _⟩
  | cons h _ ih =>
    obtain _ | @⟨_, _, hs₁, _, bs₁, _, hspan, hrest⟩ := hspan
    obtain ⟨hs', bs', hrest', hhs, hbs⟩ := ih hrest
    exact ⟨_, _, .cons hspan hrest', hhs.append_left hs₁, hbs.append_left bs₁⟩
  | swap g h _ =>
    obtain _ | @⟨_, _, hs₁, _, bs₁, _, hspan₁, _ | @⟨_, _, hs₂, hs₃, bs₂, bs₃, hspan₂, hrest⟩⟩ := hspan
    refine ⟨_, _, .cons hspan₂ (.cons hspan₁ hrest), ?_, ?_⟩
    · rw [← List.append_assoc, ← List.append_assoc]
      exact List.perm_append_comm.append_right hs₃
    · rw [← List.append_assoc, ← List.append_assoc]
      exact List.perm_append_comm.append_right bs₃
  | trans _ _ ih ih' =>
    obtain ⟨_, _, hspan', hhs, hbs⟩ := ih hspan
    obtain ⟨hs', bs', hspan'', hhs', hbs'⟩ := ih' hspan'
    exact ⟨hs', bs', hspan'', hhs.trans hhs', hbs.trans hbs'⟩

/-- Leaves side by side. -/
theorem spansAll_leaves {nd : Mem NodeRec} {stack : List Handle} (hleaf : ∀ h ∈ stack, (nodeAt nd h).k = .leaf) :
    SpansAll nd stack stack (stack.map fun h => (nodeAt nd h).sym) := by
  induction stack with
  | nil => exact .nil
  | cons h stack ih =>
    obtain ⟨hk, hrest⟩ := List.forall_mem_cons.1 hleaf
    exact .cons (.leaf hk) (ih hrest)

/-! ## What the building keeps in every state -/

/-- `t` stands between LEAVES and the last ExtractMin of TBLD begun in `s`: the allocated nodes are those of the trees
below the heap's nodes, whose leaves are those of the symbols that occur; they are valid and owned, and no other node
is owned; each merge allocates one node and takes one out of the heap. -/
structure Grove (s t : State) : Prop where
  trees : ∃ hs bs, SpansAll t.node t.heapList hs bs ∧ hs.Perm t.handles ∧ bs.Perm s.present
  valid : ∀ h, h < t.ncnt → (nodeAt t.node h).v = true
  own : ∀ h, ownAt t.own h = true ↔ h < t.ncnt
  hcap : t.hcap = BitVec.ofNat 9 (heapCapacity s.present.length)
  merges : t.ncnt.toNat + t.hsize.toNat = 2 * s.present.length

/-- The symbols of the leaves that LEAVES makes are those that occur, in order (R142). -/
theorem LeavesMade.syms {s t : State} (hm : LeavesMade s t) :
    t.heapList.map (fun h => (nodeAt t.node h).sym) = s.present := by
  refine List.ext_getElem (by rw [List.length_map, State.heapList_length, hm.hsize]) fun j _ hj => ?_
  have hleaf := hm.leaf j _ (List.getElem?_eq_getElem hj)
  simp [State.heapList, hm.heap j hj, hleaf, leafRec, NodeRec.atWidth]

/-- LEAVES begins with a tree for each symbol that occurs. -/
theorem leavesDone_grove (s : State) : Grove s (leavesDone s) := by
  have hm := leavesDone_made s
  refine ⟨⟨_, _, spansAll_leaves fun h hh => ?_, ?_, ?_⟩, fun h hh => ?_, fun h => ?_, by simp [leavesDone], ?_⟩
  · rw [hm.heapList, State.mem_handles] at hh
    exact hm.kind hh
  · rw [hm.heapList]
  · rw [hm.syms]
  · obtain ⟨b, -, hrec⟩ := hm.exists_leaf hh
    rw [hrec]
    rfl
  · rw [hm.own, decide_eq_true_eq, BitVec.lt_def, hm.ncnt]
  · rw [hm.ncnt, hm.hsize, Nat.two_mul]

theorem ownAt_putOwn_null (u : State) (g : Handle) (b : Bool) : ownAt (u.putOwn g b).own null = ownAt u.own null := by
  rw [ownAt_putOwn]
  exact if_neg fun ⟨heq, hne⟩ => hne heq.symm

theorem ownAt_withoutMin_null (s : State) : ownAt (withoutMin s).own null = ownAt s.own null := by
  rw [ownAt_withoutMin, if_neg fun ⟨_, hne⟩ => hne rfl]

/-- NULL has no ownership bit, which MRG leaves so. -/
theorem ownAt_mergedTwo_null (s : State) : ownAt (mergedTwo s).own null = ownAt s.own null := by
  rw [mergedTwo_eq, ownAt_insert, if_neg fun ⟨heq, hne⟩ => hne heq.symm, allocated, ownAt_putOwn_null,
    ownAt_putOwn_null, State.setNcnt_own, State.putNode_own, withoutTwo, ownAt_withoutMin_null, ownAt_withoutMin_null]

/-- MRG leaves the allocated nodes as they are (R143). -/
theorem nodeAt_mergedTwo_of_lt {s : State} {h : Handle} (hh : h < s.ncnt) :
    nodeAt (mergedTwo s).node h = nodeAt s.node h := by
  rw [nodeAt_mergedTwo s (ne_null_of_lt hh), if_neg (BitVec.ne_of_lt hh)]

theorem mergedTwo_hcap (s : State) : (mergedTwo s).hcap = s.hcap := by
  simp [mergedTwo_eq, allocated, withoutTwo, withoutMin]

/-- The two nodes that MRG takes out of the heap, and the rest of it. -/
theorem heapList_perm_withoutTwo {s : State} (h2 : 2 ≤ s.hsize.toNat) :
    s.heapList.Perm ((withoutMin s).res :: (withoutTwo s).res :: (withoutTwo s).heapList) :=
  (heapList_perm_withoutMin (hsize_ne_zero (by omega))).trans
    ((heapList_perm_withoutMin (hsize_withoutMin_ne h2)).cons _)

namespace Grove

variable {s t : State} (hg : Grove s t)
include hg

theorem hbld : Grove s (t.setHeap (siftAll t.node t.hsize.toNat (t.hsize.toNat / 2) t.heap)) := by
  have hperm := heapList_hbld t
  rw [hbld_eq] at hperm
  obtain ⟨hs, bs, hspan, hhs, hbs⟩ := hg.trees
  obtain ⟨hs', bs', hspan', hhs', hbs'⟩ := hspan.perm hperm.symm
  exact ⟨⟨hs', bs', hspan', hhs'.symm.trans hhs, hbs'.symm.trans hbs⟩, hg.valid, hg.own, hg.hcap, hg.merges⟩

theorem lt_of_mem_heapList {h : Handle} (hh : h ∈ t.heapList) : h < t.ncnt := by
  obtain ⟨hs, bs, hspan, hhs, -⟩ := hg.trees
  exact State.mem_handles.1 (hhs.mem_iff.1 (hspan.mem_of_mem hh))

section Merge
variable (h2 : 2 ≤ t.hsize.toNat)
include h2

theorem ncnt_lt : t.ncnt.toNat < nodeCap := by
  have hmerges := hg.merges
  have hfew := present_length_le s
  simp only [nSym, nodeCap] at *
  omega

/-- The node that MRG allocates gets the first two of the heap as its children (R143). -/
theorem nodeAt_mergedTwo_new : ∃ f, nodeAt (mergedTwo t).node t.ncnt =
    internalRec (withoutMin t).res (withoutTwo t).res f := by
  have hne : t.ncnt ≠ null := fun he => absurd (hg.ncnt_lt h2) (he ▸ by decide)
  exact ⟨_, (nodeAt_mergedTwo t hne).trans (if_pos rfl)⟩

theorem ncnt_mergedTwo : (mergedTwo t).ncnt.toNat = t.ncnt.toNat + 1 := by
  rw [mergedTwo_ncnt, toNat_add_one (hg.ncnt_lt h2)]

theorem lt_mergedTwo {h : Handle} : h < (mergedTwo t).ncnt ↔ h < t.ncnt ∨ h = t.ncnt := by
  rw [BitVec.lt_def, BitVec.lt_def, hg.ncnt_mergedTwo h2, ← BitVec.toNat_inj]
  omega

/-- The two children of a merge are allocated nodes. -/
theorem children_lt : (withoutMin t).res < t.ncnt ∧ (withoutTwo t).res < t.ncnt := by
  have hperm := heapList_perm_withoutTwo h2
  exact ⟨hg.lt_of_mem_heapList (hperm.mem_iff.2 List.mem_cons_self),
    hg.lt_of_mem_heapList (hperm.mem_iff.2 (List.mem_cons_of_mem _ List.mem_cons_self))⟩

/-- A merge makes one tree of two, with one more node and the same leaves. -/
theorem trees_mergedTwo : ∃ hs bs, SpansAll (mergedTwo t).node (mergedTwo t).heapList hs bs ∧
    hs.Perm (mergedTwo t).handles ∧ bs.Perm s.present := by
  obtain ⟨hs, bs, hspan, hhs, hbs⟩ := hg.trees
  obtain ⟨hs', bs', hspan', hhs', hbs'⟩ := hspan.perm (heapList_perm_withoutTwo h2)
  obtain ⟨f, hnew⟩ := hg.nodeAt_mergedTwo_new h2
  obtain ⟨ha, hb⟩ := hg.children_lt h2
  have hin : hs'.Perm t.handles := hhs'.symm.trans hhs
  have hkept := hspan'.congr fun g hgm =>
    nodeAt_mergedTwo_of_lt (State.mem_handles.1 (hin.mem_iff.1 hgm))
  have hvalid : ChildrenValid (mergedTwo t).node t.ncnt := by
    rw [ChildrenValid, hnew, internalRec, nodeAt_mergedTwo_of_lt ha, nodeAt_mergedTwo_of_lt hb]
    exact ⟨⟨ne_null_of_lt ha, hg.valid _ ha⟩, ne_null_of_lt hb, hg.valid _ hb⟩
  have hjoined : SpansAll (mergedTwo t).node (t.ncnt :: (withoutTwo t).heapList) (t.ncnt :: hs') bs' := by
    refine (spansAll_internal (by rw [hnew]; rfl)).2 ⟨hvalid, hs', rfl, ?_⟩
    rw [hnew]
    exact hkept
  obtain ⟨hs'', bs'', hspan'', hhs'', hbs''⟩ := hjoined.perm (heapList_mergedTwo h2).symm
  refine ⟨hs'', bs'', hspan'', hhs''.symm.trans ?_, hbs''.symm.trans (hbs'.symm.trans hbs)⟩
  rw [State.handles_succ (hg.ncnt_mergedTwo h2)]
  exact (hin.cons _).trans (List.perm_append_singleton _ _).symm

theorem mergedTwo : Grove s (mergedTwo t) := by
  obtain ⟨ha, hb⟩ := hg.children_lt h2
  have hncnt := hg.ncnt_mergedTwo h2
  refine ⟨hg.trees_mergedTwo h2, fun h hh => ?valid, fun h => ?own, (mergedTwo_hcap t).trans hg.hcap, ?merges⟩
  case valid =>
    obtain hlt | rfl := (hg.lt_mergedTwo h2).1 hh
    · rw [nodeAt_mergedTwo_of_lt hlt]
      exact hg.valid h hlt
    · obtain ⟨f, hnew⟩ := hg.nodeAt_mergedTwo_new h2
      rw [hnew, internalRec]
  case own =>
    by_cases hnull : h = null
    · rw [hnull, ownAt_mergedTwo_null, hg.own]
      exact iff_of_false (fun hlt => ne_null_of_lt hlt rfl) fun hlt => ne_null_of_lt hlt rfl
    · rw [ownAt_mergedTwo t hnull, hg.lt_mergedTwo h2]
      split_ifs with hmerged
      · refine iff_of_true rfl ?_
        obtain rfl | rfl | rfl := hmerged
        exacts [.inl ha, .inl hb, .inr rfl]
      · rw [hg.own]
        exact (or_iff_left fun hnew => hmerged (.inr (.inr hnew))).symm
  case merges =>
    have hmerges := hg.merges
    have hsize : (Machine.mergedTwo t).hsize.toNat + 1 = t.hsize.toNat := by
      rw [mergedTwo_hsize]
      exact toNat_sub_one (hsize_ne_zero (by omega))
    omega

end Merge

/-- The loop of TBLD is one MRG for each node in the heap but the last (R145, R147). -/
theorem mergeAll {k fuel : Nat} (hsize : t.hsize.toNat = k + 1) (hfuel : k ≤ fuel) :
    ∃ u, Machine.mergeAll fuel t = .ok () u ∧ runAll (List.replicate k .mrg) t = .ok () u ∧ Grove s u ∧
      u.hsize.toNat = 1 := by
  induction k generalizing t fuel with
  | zero =>
    refine ⟨t, ?_, rfl, hg, hsize⟩
    cases fuel with
    | zero => rfl
    | succ fuel => rw [Machine.mergeAll, if_neg (by omega)]
  | succ k ih =>
    obtain ⟨fuel, rfl⟩ := Nat.exists_eq_succ_of_ne_zero (show fuel ≠ 0 by omega)
    have hone : (Machine.mergedTwo t).hsize.toNat + 1 = t.hsize.toNat := by
      rw [mergedTwo_hsize]
      exact toNat_sub_one (hsize_ne_zero (by omega))
    rw [Machine.mergeAll, if_pos (by omega), List.replicate_succ, runAll, body, mrg_eq_ok (by omega), Run.andThen_ok,
      Run.andThen_ok]
    exact ih (hg.mergedTwo (by omega)) (by omega) (by omega)

end Grove

/-- TBLD over an alphabet that is not empty, and its parts up to the last ExtractMin, in every state (R145, R147). -/
theorem tbld_grove {s : State} (hp : s.present ≠ []) :
    ∃ t, Grove s t ∧ t.hsize.toNat = 1 ∧ tbld s = .ok () (rooted t) ∧
      runAll ([.leaves, .hbld] ++ List.replicate (s.present.length - 1) .mrg) s = .ok () t := by
  have hpos : 1 ≤ s.present.length := List.length_pos_iff.2 hp
  have hsize := (leavesDone_made s).hsize
  obtain ⟨t, hmerge, hrun, hg, hone⟩ := (leavesDone_grove s).hbld.mergeAll (k := s.present.length - 1)
    (fuel := (leavesDone s).hsize.toNat) (by rw [State.setHeap_hsize]; omega) (by omega)
  refine ⟨t, hg, hone, ?_, ?_⟩
  · simp only [tbld, leaves_eq_done, hbld_eq, Run.andThen_ok, State.setHeap_hsize, hmerge,
      extractMin_eq_ok (hsize_ne_zero (s := t) (by omega)), rooted]
  · simp only [runAll_append, runAll, body, leaves_eq_done, hbld_eq, Run.andThen_ok, hrun]

/-! ## The tree that is left -/

theorem hsize_rooted {t : State} (hone : t.hsize.toNat = 1) : (rooted t).hsize = 0#9 := by
  rw [rooted_hsize, BitVec.eq_of_toNat_eq (y := 1#9) hone]
  rfl

namespace Grove

variable {s t : State} (hg : Grove s t) (hone : t.hsize.toNat = 1)
include hg hone

/-- One tree is left, with every allocated node and every symbol that occurs. -/
theorem spans : ∃ hs bs, Spans (rooted t).node (rooted t).root hs bs ∧ hs.Perm t.handles ∧ bs.Perm s.present := by
  have hheap : t.heapList = [heapAt t.heap 0] := by rw [State.heapList, hone]; rfl
  obtain ⟨hs, bs, hspan, hhs, hbs⟩ := hg.trees
  rw [hheap, spansAll_singleton] at hspan
  rw [rooted_node, rooted_root]
  exact ⟨hs, bs, hspan, hhs, hbs⟩

theorem root_lt : (rooted t).root < t.ncnt := by
  obtain ⟨hs, bs, hspan, hhs, -⟩ := hg.spans hone
  exact State.mem_handles.1 (hhs.mem_iff.1 hspan.mem_root)

/-- T1 to T4 (R149, R150). -/
theorem isTree : IsTree (rooted t).node (rooted t).root := by
  obtain ⟨hs, bs, hspan, hhs, hbs⟩ := hg.spans hone
  have hroot := hg.root_lt hone
  refine treeCheck_iff_isTree.1 (treeCheck_iff_spans.2 ⟨⟨ne_null_of_lt hroot, ?_⟩, hs, bs, hspan,
    hhs.nodup_iff.2 t.handles_nodup, hbs.nodup_iff.2 (present_nodup s)⟩)
  rw [rooted_node]
  exact hg.valid _ hroot

/-- The symbols with a code are those that occur (R163, G1). -/
theorem exists_codeOf_iff {b : Byte} :
    (∃ c, CodeOf (rooted t).node (rooted t).root b c) ↔ b ∈ s.present := by
  obtain ⟨hs, bs, hspan, -, hbs⟩ := hg.spans hone
  rw [← hspan.mem_syms_iff_codeOf, hbs.mem_iff]

/-- Every node but the root is owned in the end (R145). -/
theorem ownAt_rooted_iff (h : Handle) : ownAt (rooted t).own h = true ↔ h < t.ncnt ∧ h ≠ (rooted t).root := by
  rw [rooted_own, ownAt_withoutMin, withoutMin_res, rooted_root]
  by_cases hroot : h = heapAt t.heap 0
  · have hne : h ≠ null := hroot ▸ ne_null_of_lt (rooted_root t ▸ hg.root_lt hone)
    rw [if_pos ⟨hroot, hne⟩]
    exact iff_of_false Bool.false_ne_true fun hh => hh.2 hroot
  · rw [if_neg fun hh => hroot hh.1, hg.own]
    exact (and_iff_left hroot).symm

end Grove

end Sys2Proof.Machine
end

section
/-! The composite commands and their parts (spec/44_facade.md R196). -/

namespace Sys2Proof.Machine

/-- A host write to REG.ROOT (R45 b). -/
theorem hostWrite_root (s : State) (h : Handle) :
    hostWrite s .reg 5 h.toNat = .next ((s.setRoot h).setTv false) := by
  have hreg : 5 < spaceSize s.cfg .reg := (by decide : 5 < 11)
  rw [hostWrite, if_pos hreg]
  simp only [regWrite, BitVec.ofNat_toNat, BitVec.setWidth_eq]

theorem hext_eq_ok {s : State} (h0 : s.hsize ≠ 0#9) : hext s = .ok () (withoutMin s) := by
  rw [hext, extractMin_eq_ok h0, Run.andThen_ok]

/-- The parts of TBLD after which the host writes ROOT. -/
def tbldParts (n : Nat) : List Instr := [.leaves, .hbld] ++ List.replicate (n - 1) .mrg ++ [.hext]

theorem tbldParts_accepted (n : Nat) : ∀ i ∈ tbldParts n, alwaysAccepted i = false := by
  intro i hi
  simp only [tbldParts, List.mem_append, List.mem_cons, List.not_mem_nil, or_false, List.mem_replicate] at hi
  obtain ((rfl | rfl) | ⟨-, rfl⟩) | rfl := hi <;> rfl

theorem tchk_of_isTree {s : State} (ht : IsTree s.node s.root) : tchk s = .ok () (s.setTv true) :=
  if_pos (treeCheck_iff_isTree.2 ht)

/-- What the parts of TBLD leave when its loop has left `t`, ROOT written by the host. -/
def rootWritten (t : State) : State := (((withoutMin t).setPh .idle).setRoot (withoutMin t).res).setTv false

/-- TCHK of the tree that the parts of TBLD leave, ROOT written, ends as TBLD does. -/
theorem sendAll_tchk_rootWritten {t : State} (htree : IsTree (rooted t).node (rooted t).root)
    (herr : (rooted t).err = none) : sendAll [.tchk] (rootWritten t) = .next ((rooted t).setPh .idle) := by
  have hidle : (rootWritten t).ph = .idle := rfl
  have hcheck := tchk_of_isTree (s := (rootWritten t).setPh .run) htree
  rw [sendAll_eq_settled (by decide) hidle herr, runAll_singleton, body, hcheck]
  rfl

/-- Settles O53: sent one by one the parts run in sequence up to the first error, as inside the composite command; and
the tree that TBLD builds passes the check. -/
theorem compositeCommandsEqualTheirParts : Obligations.CompositeCommandsEqualTheirParts := by
  refine ⟨fun s hph herr hpos _ => ?enc, fun s n hph herr hn hpos => ?tbld⟩
  case enc =>
    have hne : (s.setPh .run).symcnt ≠ 0 := Nat.ne_of_gt hpos
    rw [sendAll_eq_settled (by decide) hph herr, sendAll_eq_settled (by decide) hph herr, runAll_singleton, body,
      enc_eq_runAll hne]
  case tbld =>
    subst hn
    obtain ⟨t, hg, hone, htbld, hparts⟩ := tbld_grove (s := s.setPh .run) (List.length_pos_iff.1 hpos)
    have hframe := (body_frame .tbld (s.setPh .run)).err (by decide)
    rw [body, htbld, Run.state_ok] at hframe
    have hrun : runAll (tbldParts s.present.length) (s.setPh .run) = .ok () (withoutMin t) := by
      rw [tbldParts, runAll_append]
      refine (congrArg (Run.andThen · _) hparts).trans ?_
      rw [Run.andThen_ok, runAll_singleton, body, hext_eq_ok (hsize_ne_zero (by omega))]
    refine ⟨(withoutMin t).setPh .idle, _, ?_, hostWrite_root _ _, ?_⟩
    · exact (sendAll_eq_settled (tbldParts_accepted _) hph herr).trans (congrArg (Host.Outcome.next ·.settled) hrun)
    · rw [sendAll_eq_settled (by decide) hph herr, runAll_singleton, body, htbld]
      exact sendAll_tchk_rootWritten (hg.isTree hone) (hframe.trans herr)

end Sys2Proof.Machine
end

section
/-! ENC of an input that is not empty and fits SYM: its counts, its tree and its table, so that the packing is all that
can fail; what it leaves; and that DEC gives the input back (spec/44_facade.md R190, R191, R193). -/

namespace Sys2Proof.Machine

/-! ## The course up to the packing -/

/-- What CGEN leaves of a tree (R161). -/
def coded (t : State) : State := (t.setCt (generateCodes t.node t.root (clearCtV t.ct))).setTv true

section coded
variable (t : State)
@[simp] theorem coded_cfg : (coded t).cfg = t.cfg := rfl
@[simp] theorem coded_port : (coded t).port = t.port := rfl
@[simp] theorem coded_ph : (coded t).ph = t.ph := rfl
@[simp] theorem coded_err : (coded t).err = t.err := rfl
@[simp] theorem coded_symcnt : (coded t).symcnt = t.symcnt := rfl
@[simp] theorem coded_outcnt : (coded t).outcnt = t.outcnt := rfl
@[simp] theorem coded_sym : (coded t).sym = t.sym := rfl
@[simp] theorem coded_ft : (coded t).ft = t.ft := rfl
@[simp] theorem coded_node : (coded t).node = t.node := rfl
@[simp] theorem coded_root : (coded t).root = t.root := rfl
@[simp] theorem coded_ncnt : (coded t).ncnt = t.ncnt := rfl
@[simp] theorem coded_ndist : (coded t).ndist = t.ndist := rfl
@[simp] theorem coded_hsize : (coded t).hsize = t.hsize := rfl
@[simp] theorem coded_hcap : (coded t).hcap = t.hcap := rfl
@[simp] theorem coded_res : (coded t).res = t.res := rfl
@[simp] theorem coded_own : (coded t).own = t.own := rfl
@[simp] theorem coded_bit : (coded t).bit = t.bit := rfl
@[simp] theorem coded_out : (coded t).out = t.out := rfl
@[simp] theorem coded_tv : (coded t).tv = true := rfl
end coded

theorem cgen_of_isTree {s : State} (ht : IsTree s.node s.root) : cgen s = .ok () (coded s) := by
  rw [cgen, ensureTree_of_isTree (s := s.setCt (clearCtV s.ct)) ht]
  rfl

theorem exec_cgen_coded {s : State} (ht : IsTree s.node s.root) : exec .cgen s = .next (coded s) :=
  exec_cgen_of_isTree ht

/-- In ENC begun in `s` FCNT makes the counts `ft`, the loop of TBLD leaves `t`, and what is left is to pack (R190). -/
structure Encoding (s : State) (ft : Mem Nat) (t : State) : Prop where
  counts : ∀ b, ftAt ft b = s.occurrences b
  grove : Grove (s.setFt ft) t
  one : t.hsize.toNat = 1
  tbld : Machine.tbld (s.setFt ft) = .ok () (rooted t)
  enc : Machine.enc s = Machine.pack (coded (rooted t))

theorem occurrences_ne_zero_iff {s : State} {b : Byte} : s.occurrences b ≠ 0 ↔ b ∈ s.input s.symcnt := by
  rw [← Nat.pos_iff_ne_zero, State.occurrences, List.count_pos_iff]

/-- Every ENC of an input that is not empty and fits SYM gets to its packing (R190, R191). -/
theorem exists_encoding {s : State} (hv : s.cfg.Valid) (hpos : 1 ≤ s.symcnt) (hfits : s.symcnt ≤ s.cfg.symCap) :
    ∃ ft t, Encoding s ft t := by
  obtain ⟨ft, hfcnt, hft⟩ := fcnt_counts hv hfits
  have hfirst : byteAt s.sym 0 ∈ (s.setFt ft).present := by
    rw [mem_present, State.setFt_ft, hft]
    exact occurrences_ne_zero s hpos
  obtain ⟨t, hg, hone, htbld, -⟩ := tbld_grove (List.ne_nil_of_mem hfirst)
  refine ⟨ft, t, hft, hg, hone, htbld, ?_⟩
  rw [Machine.enc, if_neg (Nat.ne_of_gt hpos), hfcnt, Run.andThen_ok, htbld, Run.andThen_ok,
    cgen_of_isTree (hg.isTree hone), Run.andThen_ok]

namespace Encoding

variable {s t : State} {ft : Mem Nat} (he : Encoding s ft t)
include he

theorem frame : CourseFrame .tbld (s.setFt ft) (rooted t) := by
  have hframe := body_frame .tbld (s.setFt ft)
  rwa [body, he.tbld] at hframe

theorem sym : (rooted t).sym = s.sym := he.frame.data.sym

theorem symcnt : (rooted t).symcnt = s.symcnt := he.frame.data.symcnt (by decide)

theorem cfg : (rooted t).cfg = s.cfg := he.frame.data.cfg

theorem err : (rooted t).err = s.err := he.frame.err (by decide)

theorem input (n : Nat) : (rooted t).input n = s.input n := by rw [State.input, he.sym, State.input]

theorem isTree : IsTree (rooted t).node (rooted t).root := he.grove.isTree he.one

theorem exec_enc : exec .enc s = exec .pack (coded (rooted t)) := by
  rw [exec_eq_finish, body, he.enc, exec_eq_finish, body]

/-- The symbols that occur in the counts are those of the input (R140). -/
theorem mem_present {b : Byte} : b ∈ (s.setFt ft).present ↔ b ∈ s.input s.symcnt := by
  rw [Machine.mem_present, State.setFt_ft, he.counts, occurrences_ne_zero_iff]

/-- The table has a code for the symbols of the input and for no other (R163, G1). -/
theorem valid_iff {b : Byte} : (ctAt (coded (rooted t)).ct b).v = true ↔ b ∈ s.input s.symcnt := by
  obtain ⟨hvalid, -⟩ := codesArePrefixFreeAndComplete _ _ he.isTree (exec_cgen_coded he.isTree)
  rw [hvalid, he.grove.exists_codeOf_iff he.one, he.mem_present]

/-- The codes in the table are the tree's, of one bit at least (R163, G2). -/
theorem code {b : Byte} (hb : (ctAt (coded (rooted t)).ct b).v = true) :
    1 ≤ (ctAt (coded (rooted t)).ct b).len.toNat ∧
      CodeOf (rooted t).node (rooted t).root b (ctAt (coded (rooted t)).ct b).bits := by
  obtain ⟨-, hcode, -⟩ := codesArePrefixFreeAndComplete _ _ he.isTree (exec_cgen_coded he.isTree)
  exact hcode b hb

theorem mem_input {k : Nat} (hk : k < s.symcnt) : byteAt (rooted t).sym k ∈ s.input s.symcnt := by
  rw [he.sym]
  exact List.mem_map.2 ⟨k, List.mem_range.2 hk, rfl⟩

/-- Every symbol of the input has a code that PACK can use (R191, R217). -/
theorem usable {k : Nat} (hk : k < s.symcnt) : ((coded (rooted t)).codeAt k).usable = true := by
  have hvalid := he.valid_iff.2 (he.mem_input hk)
  obtain ⟨hlen, -⟩ := he.code hvalid
  refine Bool.and_eq_true_iff.2 ⟨hvalid, decide_eq_true fun h0 => ?_⟩
  exact absurd (congrArg BitVec.toNat h0) (Nat.ne_of_gt hlen)

end Encoding

/-! ## ENC where the longest possible codes fit -/

theorem pack_eq_ok {s : State} {bit : Mem Byte} {pos : Nat} (hfew : s.symcnt ≤ s.cfg.symCap)
    (h : s.packing = (bit, .ok pos)) : pack s = .ok () ((s.setBit bit).setBitcnt pos) := by
  rw [pack, if_neg (Nat.not_lt.2 hfew), ← State.packing, h]
  rfl

/-- A sum over a list, with equal elements taken together. -/
theorem sum_map_eq_sum_count {L l : List Byte} (hL : L.Nodup) (hl : l ⊆ L) (f : Byte → Nat) :
    (l.map f).sum = (L.map fun b => l.count b * f b).sum := by
  rw [Finset.sum_list_map_count, ← List.sum_toFinset _ hL]
  simp only [smul_eq_mul]
  refine Finset.sum_subset (fun b hb => List.mem_toFinset.2 (hl (List.mem_toFinset.1 hb))) fun b _ hb => ?_
  rw [List.count_eq_zero_of_not_mem (mt List.mem_toFinset.2 hb), Nat.zero_mul]

/-- The length of the stream by symbols: each code as often as its symbol occurs (R172). -/
theorem Encoding.length_codeStream {s t : State} {ft : Mem Nat} (he : Encoding s ft t) :
    ((coded (rooted t)).codeStream s.symcnt).length =
      (alphabet.map fun b => ftAt ft b * (ctAt (coded (rooted t)).ct b).len.toNat).sum := by
  have hcodes : (List.range s.symcnt).map (fun k => ((coded (rooted t)).codeAt k).len.toNat) =
      (s.input s.symcnt).map fun b => (ctAt (coded (rooted t)).ct b).len.toNat := by
    rw [← he.input, State.input, List.map_map]
    rfl
  rw [State.length_codeStream, hcodes, sum_map_eq_sum_count alphabet_nodup fun b _ => mem_alphabet b]
  simp only [he.counts, State.occurrences]

/-- The length of a stream that BIT has room for is within BITCNT's width (R10, R26). -/
theorem narrow_of_fits {c : Config} (hv : c.Valid) {l : Nat} (hl : l ≤ 8 * c.byteCap) : narrow c.nfreqBits l = l := by
  obtain ⟨-, -, -, hbits⟩ := hv
  have hpos := Nat.two_pow_pos c.nfreqBits
  exact narrow_of_lt (by omega)

namespace Encoding

variable {s t : State} {ft : Mem Nat} (he : Encoding s ft t) (hroom : 255 * s.symcnt ≤ 8 * s.cfg.byteCap)
include he hroom

theorem length_codeStream_le : ((coded (rooted t)).codeStream s.symcnt).length ≤ 8 * s.cfg.byteCap :=
  (State.codeStream_length_bounds fun _ => he.usable).2.trans hroom

/-- Where the longest possible codes fit, the packing stores the codes of the whole input (R171, R191). -/
theorem enc_eq_ok (hfits : s.symcnt ≤ s.cfg.symCap) :
    ∃ bit, HoldsStream (rooted t).bit bit ((coded (rooted t)).codeStream s.symcnt) ∧ Machine.enc s =
      .ok () (((coded (rooted t)).setBit bit).setBitcnt ((coded (rooted t)).codeStream s.symcnt).length) := by
  have hsymcnt : (coded (rooted t)).symcnt = s.symcnt := he.symcnt
  have hcfg : (coded (rooted t)).cfg = s.cfg := he.cfg
  have hpackable : (coded (rooted t)).Packable (coded (rooted t)).symcnt := by
    rw [hsymcnt]
    exact ⟨fun _ => he.usable, hcfg ▸ he.length_codeStream_le hroom⟩
  obtain ⟨bit, hbit, hpacking⟩ := hpackable.packing_ok
  have henc := he.enc.trans (pack_eq_ok (by rwa [hsymcnt, hcfg]) hpacking)
  rw [hsymcnt] at hbit henc
  exact ⟨bit, hbit, henc⟩

end Encoding

/-- Settles O50: ENC gets to its packing, whose codes are usable and fit. -/
theorem encEncodesTheInput : Obligations.EncEncodesTheInput := by
  intro s hv hpos hfits hroom
  obtain ⟨ft, t, he⟩ := exists_encoding hv hpos hfits
  obtain ⟨bit, ⟨hbits, -⟩, henc⟩ := he.enc_eq_ok hroom hfits
  have hframe := body_frame .enc s
  rw [body, henc, Run.state_ok] at hframe
  have hwidth : narrow (coded (rooted t)).cfg.nfreqBits ((coded (rooted t)).codeStream s.symcnt).length =
      ((coded (rooted t)).codeStream s.symcnt).length := by
    rw [coded_cfg, he.cfg]
    exact narrow_of_fits hv (he.length_codeStream_le hroom)
  have hft : (rooted t).ft = ft := he.frame.data.ft (by decide)
  refine ⟨_, by rw [exec_eq_finish, body, henc, Run.finish_ok], hframe.err (by decide), ?_⟩
  simp only [State.setBitcnt_tv, State.setBit_tv, coded_tv, State.setBitcnt_node, State.setBit_node, coded_node,
    State.setBitcnt_root, State.setBit_root, coded_root, State.setBitcnt_ft, State.setBit_ft, coded_ft,
    State.setBitcnt_hsize, State.setBit_hsize, coded_hsize, State.setBitcnt_ct, State.setBit_ct, hft]
  refine ⟨trivial, he.isTree, he.counts, hsize_rooted he.one, fun b => he.valid_iff, fun b hb => (he.code hb).2,
    ?stream, hwidth, hwidth.trans he.length_codeStream, hframe.data.sym, hframe.data.symcnt (by decide),
    hframe.data.out (by decide), hframe.data.outcnt (by decide), hframe.data.port, hframe.data.cfg, hframe.ph⟩
  refine (congrArg (fun n => (List.range n).map (streamBit bit)) hwidth).trans ?_
  exact map_range_of_getElem? hbits

/-! ## The round trip -/

/-- Settles O51: ENC leaves what CGEN and PACK make of a tree, which DEC inverts. -/
theorem decodeInvertsEncode : Obligations.DecodeInvertsEncode := by
  intro s t hv herr hpos hfits hexec hgood
  obtain ⟨ft, g, he⟩ := exists_encoding hv hpos hfits
  rw [he.exec_enc] at hexec
  obtain ⟨-, hdec⟩ := unpackingInvertsPacking (rooted g) _ t he.isTree (he.cfg ▸ hv) (he.err.trans herr)
    (exec_cgen_coded he.isTree) hexec hgood
  rwa [he.symcnt, he.input] at hdec

end Sys2Proof.Machine
end

section
/-! Two successful encodings of one input under the same parameters agree, whatever else the states hold
(spec/44_facade.md R194). -/

namespace Sys2Proof.Machine

/-! ## The same tree -/

/-- A path is the same in a memory with the same records along it. -/
theorem Reaches.congr {nd nd' : Mem NodeRec} {r h : Handle} {p : List Bool} (hp : Reaches nd r p h)
    (hsame : ∀ q g, Reaches nd r q g → nodeAt nd' g = nodeAt nd g) : Reaches nd' r p h := by
  induction hp with
  | here h => exact .here h
  | @left h _ _ hk _ ih =>
    have hroot := hsame [] h (.here h)
    have ih := ih fun q g hq => hsame (false :: q) g (.left hk hq)
    rw [← hroot] at hk ih
    exact .left hk ih
  | @right h _ _ hk _ ih =>
    have hroot := hsame [] h (.here h)
    have ih := ih fun q g hq => hsame (true :: q) g (.right hk hq)
    rw [← hroot] at hk ih
    exact .right hk ih

theorem CodeOf.congr {nd nd' : Mem NodeRec} {r : Handle} {b : Byte} {c : List Bool} (hc : CodeOf nd r b c)
    (hsame : ∀ q g, Reaches nd r q g → nodeAt nd' g = nodeAt nd g) : CodeOf nd' r b c := by
  obtain ⟨p, h, hp, hk, hsym, hlen⟩ := hc
  rw [← hsame p h hp] at hk hsym
  exact ⟨p, h, hp.congr hsame, hk, hsym, hlen⟩

theorem SameBuild.nodeAt_eq {s t : State} (h : SameBuild s t) {g : Handle} (hv : (nodeAt s.node g).v = true) :
    nodeAt t.node g = nodeAt s.node g := by
  obtain ⟨-, heq⟩ | ⟨hinvalid, -⟩ := h.node g
  · exact heq
  · exact nomatch hinvalid.symm.trans hv

theorem SameBuild.valid_eq {s t : State} (h : SameBuild s t) (g : Handle) :
    (nodeAt s.node g).v = (nodeAt t.node g).v := by
  obtain ⟨-, heq⟩ | ⟨hs, ht⟩ := h.node g
  · rw [heq]
  · rw [hs, ht]

/-- The records of the tree that TBLD leaves are valid (R149, R150). -/
theorem Grove.valid_of_reaches {s t : State} (hg : Grove s t) (hone : t.hsize.toNat = 1) {p : List Bool} {h : Handle}
    (hp : Reaches (rooted t).node (rooted t).root p h) : (nodeAt (rooted t).node h).v = true := by
  obtain ⟨hs, bs, hspan, hhs, -⟩ := hg.spans hone
  have hlt := State.mem_handles.1 (hhs.mem_iff.1 (hspan.mem_iff.2 ⟨p, hp⟩))
  rw [rooted_node]
  exact hg.valid h hlt

/-- CGEN gives each symbol its code in the tree (R160, R161). -/
theorem ctAt_coded {s : State} (ht : IsTree s.node s.root) {b : Byte} {c : List Bool} (hc : CodeOf s.node s.root b c) :
    ctAt (coded s).ct b = codeRec c := by
  obtain ⟨hs, bs, hspan, -, hbs⟩ := ht.spans_nodup
  exact hspan.ctAt_generateCodes hbs hc _

/-! ## The same stream -/

/-- Two stores of one stream agree on every byte begun (R171). -/
theorem HoldsStream.byteAt_eq {old old' new new' : Mem Byte} {bits : List Bool} (h : HoldsStream old new bits)
    (h' : HoldsStream old' new' bits) {i : Nat} (hi : i < (bits.length + 7) / 8) : byteAt new i = byteAt new' i := by
  obtain ⟨hbits, -⟩ := holdsStream_iff.1 h
  obtain ⟨hbits', -⟩ := holdsStream_iff.1 h'
  refine BitVec.eq_of_getMsbD_eq fun j hj => ?_
  have hbit : ∀ m : Mem Byte, streamBit m (8 * i + j) = (byteAt m i).getMsbD j := fun m => by
    rw [streamBit, Nat.mul_add_div (by decide), Nat.div_eq_of_lt hj, Nat.add_zero, Nat.mul_add_mod,
      Nat.mod_eq_of_lt hj]
  rw [← hbit, ← hbit, hbits _ (by omega), hbits' _ (by omega)]

/-- What PACK leaves without an error: the concatenated codes of the input in BIT, and their length (R171, R172). -/
theorem exec_pack_holds {s t : State} (h : exec .pack s = .next t) (herr : t.err = none) (hv : s.cfg.Valid) :
    ∃ bit, HoldsStream s.bit bit (s.codeStream s.symcnt) ∧
      t = (s.setBit bit).setBitcnt (s.codeStream s.symcnt).length ∧ t.bitcnt = (s.codeStream s.symcnt).length := by
  obtain ⟨hfew, hpack⟩ := packable_of_pack h herr
  obtain ⟨bit, hbit, hpacking⟩ := hpack.packing_ok
  obtain rfl := Host.Outcome.next.inj (h.symm.trans (exec_pack_ok hfew hpacking))
  obtain ⟨_, -, hwidth, -⟩ := packWritesTheCodeStream s _ hv hfew hpack.usable rfl hpack.fits
  exact ⟨bit, hbit, rfl, hwidth⟩

/-! ## Two encodings -/

section Two
variable {s s' t t' : State} {ft ft' : Mem Nat} (he : Encoding s ft t) (he' : Encoding s' ft' t')
  (hcount : s.symcnt = s'.symcnt) (hinput : s.input s.symcnt = s'.input s.symcnt)
include he he' hcount hinput

theorem Encoding.ftAt_eq (b : Byte) : ftAt ft b = ftAt ft' b := by
  rw [he.counts, he'.counts, State.occurrences, State.occurrences, ← hcount, hinput]

theorem Encoding.present_eq : (s.setFt ft).present = (s'.setFt ft').present :=
  List.filter_congr fun b _ => by
    rw [State.setFt_ft, State.setFt_ft, he.ftAt_eq he' hcount hinput]

variable (hcfg : s.cfg = s'.cfg)
include hcfg

/-- The trees and their registers agree (R151). -/
theorem Encoding.sameBuild : SameBuild (rooted t) (rooted t') := by
  have hcourse := sameCourse_tbld (s := s.setFt ft) (t := s'.setFt ft') hcfg (he.ftAt_eq he' hcount hinput)
  rw [he.tbld, he'.tbld] at hcourse
  exact hcourse.finish rfl rfl

theorem Encoding.ownAt_eq (h : Handle) : ownAt (rooted t).own h = ownAt (rooted t').own h := by
  have hsame := he.sameBuild he' hcount hinput hcfg
  have hncnt := hsame.ncnt
  rw [rooted_ncnt, rooted_ncnt] at hncnt
  rw [Bool.eq_iff_iff, he.grove.ownAt_rooted_iff he.one, he'.grove.ownAt_rooted_iff he'.one, hncnt, hsame.root]

/-- The codes in the tables agree (R160, R161). -/
theorem Encoding.ctAt_eq {b : Byte} (hb : b ∈ s.input s.symcnt) :
    ctAt (coded (rooted t)).ct b = ctAt (coded (rooted t')).ct b := by
  have hsame := he.sameBuild he' hcount hinput hcfg
  obtain ⟨-, hcode⟩ := he.code (he.valid_iff.2 hb)
  have hcode' := hcode.congr fun q g hq => hsame.nodeAt_eq (he.grove.valid_of_reaches he.one hq)
  rw [← hsame.root] at hcode'
  rw [ctAt_coded he.isTree hcode, ctAt_coded he'.isTree hcode']

theorem Encoding.codeStream_eq :
    (coded (rooted t)).codeStream s.symcnt = (coded (rooted t')).codeStream s'.symcnt := by
  rw [← hcount]
  refine congrArg List.flatten (List.map_congr_left fun k hk => congrArg CodeRec.bits ?_)
  have hsym : byteAt (rooted t).sym k = byteAt (rooted t').sym k := by
    rw [he.sym, he'.sym]
    exact List.map_inj_left.1 hinput k hk
  have hct := he.ctAt_eq he' hcount hinput hcfg (he.mem_input (List.mem_range.1 hk))
  exact hct.trans (congrArg (ctAt (coded (rooted t')).ct) hsym)

end Two

/-- An ENC that ends without an error had an input, which fits SYM (R190). -/
theorem input_bounds_of_enc {s t : State} (hexec : exec .enc s = .next t) (hgood : t.err = none) :
    1 ≤ s.symcnt ∧ s.symcnt ≤ s.cfg.symCap := by
  have hnot := not_raised_of_err_none hexec hgood
  obtain h0 | hne := Nat.eq_zero_or_pos s.symcnt
  · exact absurd ⟨s, _, exec_enc_emptyInput h0⟩ hnot
  · refine ⟨hne, Nat.le_of_not_lt fun hmany => hnot ⟨s, _, exec_enc_capacity (Nat.ne_of_gt hne) hmany⟩⟩

/-- What a successful ENC leaves: the stream of the input's codes over what it had before its packing (R190, R191). -/
theorem exists_encoding_of_enc {s t : State} (hv : s.cfg.Valid) (hexec : exec .enc s = .next t)
    (hgood : t.err = none) : ∃ ft g bit, Encoding s ft g ∧
      HoldsStream (rooted g).bit bit ((coded (rooted g)).codeStream s.symcnt) ∧
      t = ((coded (rooted g)).setBit bit).setBitcnt ((coded (rooted g)).codeStream s.symcnt).length ∧
      t.bitcnt = ((coded (rooted g)).codeStream s.symcnt).length := by
  obtain ⟨hpos, hfits⟩ := input_bounds_of_enc hexec hgood
  obtain ⟨ft, g, he⟩ := exists_encoding hv hpos hfits
  rw [he.exec_enc] at hexec
  have hcfg : (coded (rooted g)).cfg = s.cfg := he.cfg
  have hsymcnt : (coded (rooted g)).symcnt = s.symcnt := he.symcnt
  obtain ⟨bit, hpacked⟩ := exec_pack_holds hexec hgood (hcfg ▸ hv)
  rw [hsymcnt] at hpacked
  exact ⟨ft, g, bit, he, hpacked⟩

/-- Settles O52: equal counts give the same tree, hence the same codes and the same stream. -/
theorem encDependsOnTheInputAlone : Obligations.EncDependsOnTheInputAlone := by
  intro s s' u u' hcfg hv hcount hinput _ _ hexec hexec' hgood hgood'
  obtain ⟨ft, t, bit, he, hbit, rfl, hlen⟩ := exists_encoding_of_enc hv hexec hgood
  obtain ⟨ft', t', bit', he', hbit', rfl, hlen'⟩ := exists_encoding_of_enc (hcfg ▸ hv) hexec' hgood'
  have hinput' : s.input s.symcnt = s'.input s'.symcnt := hinput.trans (congrArg s'.input hcount)
  have hsame := he.sameBuild he' hcount hinput hcfg
  have hstream := he.codeStream_eq he' hcount hinput hcfg
  rw [← hstream] at hbit'
  have hvalid : ∀ b, (ctAt (coded (rooted t)).ct b).v = (ctAt (coded (rooted t')).ct b).v := fun b => by
    rw [Bool.eq_iff_iff, he.valid_iff, he'.valid_iff, hinput']
  simp only [State.setBitcnt_ft, State.setBit_ft, coded_ft, State.setBitcnt_node, State.setBit_node, coded_node,
    State.setBitcnt_root, State.setBit_root, coded_root, State.setBitcnt_ncnt, State.setBit_ncnt, coded_ncnt,
    State.setBitcnt_ndist, State.setBit_ndist, coded_ndist, State.setBitcnt_hsize, State.setBit_hsize, coded_hsize,
    State.setBitcnt_hcap, State.setBit_hcap, coded_hcap, State.setBitcnt_res, State.setBit_res, coded_res,
    State.setBitcnt_own, State.setBit_own, coded_own, State.setBitcnt_tv, State.setBit_tv, coded_tv,
    State.setBitcnt_ct, State.setBit_ct, State.setBitcnt_bit, State.setBit_bit]
  refine ⟨fun b => ?ft, fun h _ => ⟨hsame.valid_eq h, fun hh => (hsame.nodeAt_eq hh).symm⟩, hsame.root.symm,
    hsame.ncnt.symm, hsame.ndist.symm, hsize_rooted he.one, hsize_rooted he'.one, ?hcap, ?res,
    he.ownAt_eq he' hcount hinput hcfg, trivial,
    fun b => ⟨hvalid b, fun hb => he.ctAt_eq he' hcount hinput hcfg (he.valid_iff.1 hb)⟩, ?bitcnt, fun i hi => ?bytes⟩
  case ft =>
    have hft : (rooted t).ft = ft := he.frame.data.ft (by decide)
    have hft' : (rooted t').ft = ft' := he'.frame.data.ft (by decide)
    have heq := he.ftAt_eq he' hcount hinput b
    rwa [← hft, ← hft'] at heq
  case hcap =>
    have heq := he.grove.hcap.trans (he.present_eq he' hcount hinput ▸ he'.grove.hcap.symm)
    rwa [← rooted_hcap t, ← rooted_hcap t'] at heq
  case res =>
    have heq := hsame.root.symm
    rwa [rooted_root, rooted_root, ← rooted_res t, ← rooted_res t'] at heq
  case bitcnt => exact hlen.trans ((congrArg List.length hstream).trans hlen'.symm)
  case bytes =>
    rw [hlen] at hi
    exact hbit.byteAt_eq hbit' hi

end Sys2Proof.Machine
end

section
/-! The system commands NOP, CLRE and RST, as rules and as command words at the host port (spec/45_system.md). -/

namespace Sys2Proof.Machine

/-! ## The words at the host port -/

/-- Below OP, a well-formed word other than that of HINS is 0 (R94). -/
theorem decode_ne_ok_of_stray_bits {w : CmdWord} (hop : w.toNat / 2 ^ 24 ≠ 0x04) (hlow : w.toNat % 2 ^ 24 ≠ 0)
    (i : Instr) : decode w ≠ .ok i := fun hi => by
  obtain ⟨-, hzero, harg⟩ := (wellFormed_iff w).1 ((exists_decode_iff_wellFormed w).1 ⟨i, hi⟩)
  omega

theorem State.raiseError_of_idle {s : State} (h : s.ph = .idle) (e : ErrorCode) : s.raiseError e = s.setErr (some e) :=
  State.setPh_eq_self (s := s.setErr (some e)) h

/-- NOP in acceptance: no change, whether it is run or ignored (R93, R200). -/
theorem submit_nop {w : CmdWord} (hw : decode w = .ok .nop) {s : State} (h : s.ph = .idle) : submit w s = .next s := by
  by_cases herr : s.err = none
  · calc submit w s = runCommand .nop s := submit_of_decode hw (.inr herr)
      _ = .next (s.setPh .idle) := rfl
      _ = .next s := by rw [State.setPh_eq_self h]
  · exact submit_of_ignored (fun i hi => by cases hw.symm.trans hi; rfl) herr

section Offered
variable {s : State} {w : CmdWord} {rest : List Input} (h : s.Offers (.write .reg 1 w.toNat) rest)
include h

theorem step_of_offers_clre (hw : decode w = .ok .clre) : step s = exec .clre (s.setInputs rest) :=
  (step_of_offers_command h).trans ((submit_of_decode hw (.inl rfl)).trans (runCommand_clre h.1))

theorem step_of_offers_rst (hw : decode w = .ok .rst) : step s = exec .rst (s.setInputs rest) :=
  (step_of_offers_command h).trans ((submit_of_decode hw (.inl rfl)).trans (runCommand_rst h.1))

/-- An ill-formed word is ignored while an error is pending and raises IllegalCommandError otherwise (R93, R219). -/
theorem step_of_offers_illFormed (hno : ∀ i, decode w ≠ .ok i) :
    step s = .next (if s.err = none then (s.setInputs rest).setErr (some .illegalCommand) else s.setInputs rest) := by
  rw [step_of_offers_command h]
  split_ifs with herr
  · have hidle : (s.setInputs rest).ph = .idle := h.1
    rw [← State.raiseError_of_idle hidle]
    exact submit_of_illFormed hno herr
  · exact submit_of_ignored (fun i hi => absurd hi (hno i)) herr

end Offered

/-! ## NOP -/

/-- Settles O21: the rule of NOP is the identity, and so is its acceptance in an idle sequencer. -/
theorem nopChangesNothing : Obligations.NopChangesNothing :=
  ⟨by decide, fun _ => rfl, fun _ _ h =>
    (step_of_offers_command (w := 0#32) h).trans (submit_nop (by decide) h.1)⟩

/-! ## CLRE -/

/-- STATUS once CLRE has cleared the error: TV alone. -/
theorem status_setErr_none_toNat (s : State) : (s.setErr none).status.toNat = 2 ^ 4 * s.tv.toNat :=
  status_toNat (s.setErr none)

/-- R201's example: TruncatedStreamError with a valid tree. -/
theorem status_clearError {s : State} (hs : s.status = 0x13#32) : s.clearError.status = 0x10#32 := by
  have hfields : 2 ^ 4 * s.tv.toNat + s.errField.toNat = 0x13 := by rw [← status_toNat, hs]; rfl
  have htv : s.tv.toNat ≤ 1 := s.tv.toNat_le
  have hfield : s.errField.toNat < 2 ^ 4 := s.errField.isLt
  obtain ⟨herr, -⟩ | ⟨-, hclear⟩ := s.clearError_cases
  · have htwo : s.errField.toNat = 2 := by rw [State.errField, herr]; rfl
    omega
  · have htree : 2 ^ 4 * s.tv.toNat = 0x10 := by omega
    rw [hclear]
    exact BitVec.eq_of_toNat_eq ((status_setErr_none_toNat s).trans htree)

/-- Settles O22: the rule of CLRE by definition, its words by command acceptance. -/
theorem clreClearsAllButEmptyHeapError : Obligations.ClreClearsAllButEmptyHeapError := by
  refine ⟨by decide, fun _ => rfl, fun s w rest h => ⟨?word, fun hop hlow => ?illFormed⟩,
    fun s hs => ⟨s.clearError, rfl, status_clearError hs⟩⟩
  case word =>
    rintro rfl
    exact step_of_offers_clre h (by decide)
  case illFormed =>
    exact step_of_offers_illFormed h (decode_ne_ok_of_stray_bits (by omega) hlow)

/-! ## RST -/

/-- No word but that of RST leaves EmptyHeapError: CLRE keeps it, and every other word is ignored (R202, R226). -/
theorem submit_keeps_emptyHeap {w : CmdWord} {s : State} (hw : decode w ≠ .ok .rst) (herr : s.err = some .emptyHeap)
    (hidle : s.ph = .idle) : submit w s = .next s := by
  by_cases hclre : decode w = .ok .clre
  · calc submit w s = exec .clre s := (submit_of_decode hclre (.inl rfl)).trans (runCommand_clre hidle)
      _ = .next s := congrArg Host.Outcome.next (if_pos herr)
  · refine submit_of_ignored (fun i hi => Bool.eq_false_iff.2 fun hacc => ?_) (by simp [herr])
    obtain hop | hop := (alwaysAccepted_iff i).1 hacc
    · exact hw (eq_rst_of_opcode hop ▸ hi)
    · exact hclre (eq_clre_of_opcode hop ▸ hi)

/-- Settles O23: registers and untouched memories by the definition, valid bits by what a cleared memory reads, the
words by command acceptance. -/
theorem rstResetsRegistersAndValidBits : Obligations.RstResetsRegistersAndValidBits := by
  refine ⟨by decide, fun s => ⟨rst s, rfl, ?state⟩,
    fun s w rest h => ⟨?word, fun hop hlow => ?illFormed, fun hw herr => ⟨s.setInputs rest, ?other, herr⟩⟩⟩
  case state =>
    exact ⟨rfl, rfl, rfl, rfl, rfl, rfl, rfl, rfl, rfl, rfl, rfl, nodeAt_clearNodeV s.node, fun _ => rfl,
      ctAt_clearCtV s.ct, rfl, rfl, rfl, rfl, rfl, rfl, rfl, rfl⟩
  case word =>
    rintro rfl
    exact step_of_offers_rst h (by decide)
  case illFormed =>
    exact step_of_offers_illFormed h (decode_ne_ok_of_stray_bits (by omega) hlow)
  case other =>
    have hrst : decode w ≠ .ok .rst := fun hd => hw ((decodeExactlyInvertsEncode w .rst).1 hd)
    exact (step_of_offers_command h).trans (submit_keeps_emptyHeap hrst herr h.1)

end Sys2Proof.Machine
end

section
/-! STATUS.ERR: which command raises which error, and what a step can make of a pending one
(spec/60_exceptions.md R210 to R226). -/

namespace Sys2Proof.Machine

/-! ## Raising -/

/-- A command's course, up to where it raises, keeps the pending error or clears it (R201, R202, R222). -/
theorem body_err (i : Instr) (s : State) : (body i s).state.err = s.err ∨ (body i s).state.err = none := by
  by_cases hi : i ∈ [.clre, .rst]
  · exact body_err_of_clearing hi s
  · exact .inl ((body_frame i s).err hi)

/-- An error that is new after a command is one that its course raised. -/
theorem raised_of_new_err {i : Instr} {s t : State} {e : ErrorCode} (h : exec i s = .next t) (herr : t.err = some e)
    (hnew : s.err ≠ some e) : ∃ u, body i s = .raised e u := by
  obtain ⟨-, ⟨hkept, -⟩ | ⟨e', u, hraised, hentered, -⟩⟩ := exec_frame h
  · obtain hsame | hnone := body_err i s
    · exact absurd (hsame.symm.trans (hkept.symm.trans herr)) hnew
    · exact nomatch hnone.symm.trans (hkept.symm.trans herr)
  · obtain rfl : e' = e := Option.some.inj (hentered.symm.trans herr)
    exact ⟨u, hraised⟩

/-- None of ENC's parts raises EmptyInputError: it comes from ENC's own test, whatever the parameters (R190, R211). -/
theorem symcnt_of_enc_emptyInput {s t : State} (h : enc s = .raised .emptyInput t) : s.symcnt = 0 := by
  unfold enc at h
  split_ifs at h with hempty
  · exact hempty
  obtain hfcnt | ⟨_, s₁, -, h⟩ := Run.andThen_eq_raised.1 h
  · exact nomatch fcnt_raises hfcnt
  obtain htbld | ⟨_, s₂, -, h⟩ := Run.andThen_eq_raised.1 h
  · exact nomatch tbld_raises htbld
  obtain hcgen | ⟨_, s₃, -, hpack⟩ := Run.andThen_eq_raised.1 h
  · exact nomatch cgen_raises hcgen
  · obtain he | he := pack_raises hpack <;> cases he

theorem eq_enc_of_raisedBy_emptyInput {i : Instr} (h : raisedBy .emptyInput i = true) : i = .enc := by
  cases i with
  | enc => rfl
  | _ => cases h

/-- Settles O17: ENC's test comes before any write, and R210 gives the error to no other command. -/
theorem emptyInputErrorIsEncsAlone : Obligations.EmptyInputErrorIsEncsAlone := by
  refine ⟨fun s => exec_enc_emptyInput, fun i s t hexec herr hnew => ?_⟩
  obtain ⟨u, hraised⟩ := raised_of_new_err hexec herr hnew
  have hi : i = .enc := by
    by_contra hne
    exact hne (eq_enc_of_raisedBy_emptyInput (body_raises hne hraised))
  subst hi
  exact ⟨rfl, symcnt_of_enc_emptyInput hraised⟩

/-! ## Clearing -/

/-- CLRE leaves no error but EmptyHeapError (R201). -/
theorem clearError_err {s : State} {e : ErrorCode} (herr : s.err = some e) :
    s.clearError.err = if e = .emptyHeap then some .emptyHeap else none := by
  obtain ⟨hheap, hkept⟩ | ⟨hother, hcleared⟩ := s.clearError_cases
  · obtain rfl : e = .emptyHeap := Option.some.inj (herr.symm.trans hheap)
    rw [hkept, hheap, if_pos rfl]
  · have hne : e ≠ .emptyHeap := fun he => hother (he ▸ herr)
    rw [hcleared, if_neg hne, State.setErr_err]

/-- Settles O14: the codes by definition, the raisers by the course that raised, the clearers by the rules of CLRE and
RST. -/
theorem errorCodesRaisersAndClearers : Obligations.ErrorCodesRaisersAndClearers := by
  refine ⟨by decide, fun i s t e hi hexec herr hnew => ?raisers, fun s e herr => ⟨?clre, ?rst⟩⟩
  case raisers =>
    obtain ⟨u, hraised⟩ := raised_of_new_err hexec herr hnew
    exact body_raises hi hraised
  case clre => exact ⟨s.clearError, rfl, clearError_err herr⟩
  case rst => exact ⟨rst s, rfl, State.rst_err s⟩

/-! ## A pending error and a step -/

theorem eq_rst_or_clre_of_alwaysAccepted {i : Instr} (h : alwaysAccepted i = true) : i = .rst ∨ i = .clre :=
  ((alwaysAccepted_iff i).1 h).imp eq_rst_of_opcode eq_clre_of_opcode

/-- A word taken while an error is pending keeps it or clears it: only CLRE and RST are run then (R93, R226). -/
theorem submit_err_of_pending {w : CmdWord} {s t : State} (herr : s.err ≠ none) (h : submit w s = .next t) :
    t.err = s.err ∨ t.err = none := by
  obtain ⟨i, -, hok, hrun⟩ | ⟨-, -, hrun⟩ | ⟨-, hnone, -⟩ := submit_cases w s
  · have hi : i ∈ [.nop, .leaves, .hbld, .clre, .rst] := by
      obtain rfl | rfl := eq_rst_or_clre_of_alwaysAccepted (hok.resolve_right herr) <;> simp
    obtain ⟨u, hu⟩ := exec_next i (s.setPh .run)
    obtain rfl : u.setPh .idle = t := Host.Outcome.next.inj ((runCommand_eq hu).symm.trans (hrun.symm.trans h))
    obtain ⟨-, ⟨hend, -⟩ | ⟨e, v, hraised, -⟩⟩ := exec_frame hu
    · rw [State.setPh_err, hend]
      exact body_err i (s.setPh .run)
    · exact absurd hraised (body_ne_raised hi)
  · obtain rfl := Host.Outcome.next.inj (hrun.symm.trans h)
    exact .inl rfl
  · exact absurd hnone herr

/-- What a step makes of the pending error: it stays, a power-on reset clears it, or a command word is taken. -/
theorem step_err_cases {s t : State} (h : step s = .next t) :
    t.err = s.err ∨
    (∃ d rest, s.port.inputs = .powerOn d :: rest ∧ t.err = none) ∨
    (∃ v rest, s.Offers (.write .reg 1 v) rest ∧ submit (BitVec.ofNat 32 v) (s.setInputs rest) = .next t) := by
  obtain ⟨-, hstep⟩ | ⟨_, _, -, -, hstep⟩ | ⟨inp, rest, hin, hacc, hstep⟩ := step_cases s
  · obtain rfl := Host.Outcome.next.inj (hstep.symm.trans h)
    exact .inl rfl
  · obtain rfl := Host.Outcome.next.inj (hstep.symm.trans h)
    exact .inl rfl
  have hperform : perform inp (s.setInputs rest) = .next t := hstep.symm.trans h
  cases inp with
  | read sp i =>
    cases hperform
    exact .inl rfl
  | powerOn d =>
    cases hperform
    exact .inr (.inl ⟨d, rest, hin, rfl⟩)
  | write sp i v =>
    obtain ⟨rfl, rfl, hcmd⟩ | ⟨u, hu, -, -, -, herr⟩ := hostWrite_cases (s.setInputs rest) sp i v
    · exact .inr (.inr ⟨v, rest, ⟨eq_of_beq hacc, hin⟩, hcmd.symm.trans hperform⟩)
    · obtain rfl := Host.Outcome.next.inj (hu.symm.trans hperform)
      exact .inl herr

/-- Settles O18: a word is the one input that can raise, and while an error is pending none does. -/
theorem noErrorReplacesAnother : Obligations.NoErrorReplacesAnother := by
  intro s t e herr hstep
  rw [← herr]
  obtain hsame | ⟨_, _, -, hnone⟩ | ⟨v, rest, -, hsubmit⟩ := step_err_cases hstep
  · exact .inl hsame
  · exact .inr hnone
  · have hpending : (s.setInputs rest).err ≠ none := by simp [herr]
    exact submit_err_of_pending (s := s.setInputs rest) hpending hsubmit

/-! ## The words that a pending error lets through -/

/-- The number written to REG.CMD is, in its low 32 bits, the word of the command that it starts (R90). -/
theorem mod_of_decode {v : Nat} {i : Instr} (h : decode (BitVec.ofNat 32 v) = .ok i) :
    v % 2 ^ 32 = (encode i).toNat := by
  rw [← (decodeExactlyInvertsEncode _ i).1 h, BitVec.toNat_ofNat]

/-- Settles O19: a word that is accepted whatever STATUS.ERR is has one of the two excluded values. -/
theorem pendingErrorRefusesCommands : Obligations.PendingErrorRefusesCommands := by
  intro s v rest hoff herr hclre hrst
  have hword : ∀ i, decode (BitVec.ofNat 32 v) = .ok i → alwaysAccepted i = false := fun i hi => by
    refine Bool.eq_false_iff.2 fun hacc => ?_
    obtain rfl | rfl := eq_rst_or_clre_of_alwaysAccepted hacc
    · exact hrst (mod_of_decode hi)
    · exact hclre (mod_of_decode hi)
  calc step s = hostWrite (s.setInputs rest) .reg 1 v := step_of_offers_write hoff
    _ = submit (BitVec.ofNat 32 v) (s.setInputs rest) := hostWrite_reg _ (by decide) v
    _ = .next (s.setInputs rest) := submit_of_ignored hword herr

/-- Settles O20: of the inputs that can change STATUS.ERR, no word but that of RST leaves EmptyHeapError. -/
theorem onlyResetLeavesEmptyHeapError : Obligations.OnlyResetLeavesEmptyHeapError := by
  intro s t herr hstep hleft
  obtain hsame | ⟨d, rest, hin, -⟩ | ⟨v, rest, hoff, hsubmit⟩ := step_err_cases hstep
  · exact absurd (hsame.trans herr) hleft
  · exact .inl ⟨d, rest, hin⟩
  · refine .inr ⟨v, rest, hoff, mod_of_decode (i := .rst) ?_⟩
    by_contra hrst
    have hkept : submit (BitVec.ofNat 32 v) (s.setInputs rest) = .next (s.setInputs rest) :=
      submit_keeps_emptyHeap hrst herr hoff.1
    obtain rfl := Host.Outcome.next.inj (hkept.symm.trans hsubmit)
    exact hleft herr

/-! ## A word that is no command -/

/-- Settles O8: each of the three forms fails the test of R93. -/
theorem illegalCommandErrorChangesErrAlone : Obligations.IllegalCommandErrorChangesErrAlone := by
  intro s w rest hoff herr hform
  have hno : ∀ i, decode w ≠ .ok i := fun i hi => by
    obtain ⟨hop, hzero, harg⟩ := (wellFormed_iff w).1 ((exists_decode_iff_wellFormed w).1 ⟨i, hi⟩)
    omega
  refine ⟨?_, rfl⟩
  rw [step_of_offers_illFormed hoff hno, if_pos herr]

end Sys2Proof.Machine
end

section
/-! What the commands do right after a reset (spec/70_reset_and_hazards.md R242). A state stands right after a reset
when RST changes nothing in it; a power-on reset leads to such a state whatever it draws, and so does RST itself. -/

namespace Sys2Proof.Machine

/-! ## Cleared valid bits -/

/-- Replacing every element by itself gives a canonical memory back. -/
theorem Mem.mapVals_eq_self {α : Type} [DecidableEq α] {d : α} {n : Nat} {ok : α → Bool} {f : α → α} {m : Mem α}
    (hm : Mem.wf d n ok m = true) (hok : ∀ v, ok v = true → ok (f v) = true) (hd : f d = d)
    (hf : ∀ i, i < n → f (Mem.read d m i) = Mem.read d m i) : Mem.mapVals d f m = m := by
  refine Mem.ext d n ok _ _ (Mem.wf_mapVals d n ok f m hm hok) hm fun i => ?_
  rw [Mem.read_mapVals d f hd]
  obtain hi | hi := Nat.lt_or_ge i n
  · exact hf i hi
  · rw [Mem.read_out_of_range d n ok m hm i hi, hd]

theorem clearNodeV_eq_self {s : State} (hs : s.wf = true) (hv : ∀ h, (nodeAt s.node h).v = false) :
    clearNodeV s.node = s.node := by
  refine Mem.mapVals_eq_self (s.wf_iff.1 hs).node (fun _ h => h) rfl fun i hi => ?_
  have hvi := hv (BitVec.ofNat 9 i)
  rw [nodeAt, ofNat_toNat_of_lt hi] at hvi
  rw [← hvi]

theorem clearCtV_eq_self {s : State} (hs : s.wf = true) (hv : ∀ b, (ctAt s.ct b).v = false) : clearCtV s.ct = s.ct := by
  refine Mem.mapVals_eq_self (s.wf_iff.1 hs).ct (fun _ h => h) rfl fun i hi => ?_
  have hvi := hv (BitVec.ofNat 8 i)
  rw [ctAt, toNat_ofNat_of_lt (w := 8) hi] at hvi
  rw [← hvi]

/-! ## Right after a reset -/

/-- RST changes nothing: every register, OWN bit and valid bit has its reset value (R47, R202). -/
def State.IsReset (s : State) : Prop := rst s = s

theorem isReset_of_invalid {s : State} (hs : s.wf = true) (hregs : s.resetRegs = s)
    (hnode : ∀ h, (nodeAt s.node h).v = false) (hct : ∀ b, (ctAt s.ct b).v = false) : s.IsReset := by
  rw [State.IsReset, rst, hregs, clearNodeV_eq_self hs hnode, clearCtV_eq_self hs hct]
  rfl

theorem isReset_rst {s : State} (hs : s.wf = true) : (rst s).IsReset :=
  isReset_of_invalid (wf_rst hs) rfl (fun h => congrArg NodeRec.v (nodeAt_clearNodeV s.node h))
    fun b => congrArg CodeRec.v (ctAt_clearCtV s.ct b)

theorem isReset_powerOn (d : Draw) (s : State) : (powerOn d s).IsReset :=
  isReset_of_invalid (wf_powerOn d s) rfl (nodeAt_powerOn_v d s) fun b => congrArg CodeRec.v (ctAt_powerOn d s b)

/-! ## The commands on a heap or an input that is empty, and on no tree -/

/-- HBLD of an empty heap changes nothing (R125). -/
theorem exec_hbld_of_empty {s : State} (h0 : s.hsize = 0#9) : exec .hbld s = .next s := by
  rw [exec_hbld, h0]
  rfl

/-- FCNT of an empty input makes every entry 0, whatever FT held (R140). -/
theorem exec_fcnt_of_no_symbol {s : State} (h0 : s.symcnt = 0) : exec .fcnt s = .next (s.setFt []) := by
  rw [exec_eq_finish, body, fcnt, h0, if_neg (Nat.not_lt_zero _), countSymbols, Run.finish_ok]

/-- PACK of an empty input leaves the empty stream and writes nothing to BIT (R170). -/
theorem exec_pack_of_no_symbol {s : State} (h0 : s.symcnt = 0) : exec .pack s = .next (s.setBitcnt 0) := by
  have hrun : s.packing = (s.bit, .ok 0) := by rw [State.packing, h0, packSymbols]
  exact exec_pack_ok (h0 ▸ Nat.zero_le _) hrun

@[simp] theorem leavesEnd_err (n : Nat) (u : State) : (leavesEnd n u).err = u.err := by simp [leavesEnd]

/-- LEAVES of an all-zero table ends with no node and an empty heap, and raises nothing (R141). -/
theorem exec_leaves_of_zero {s : State} (h0 : ∀ b, ftAt s.ft b = 0) :
    exec .leaves s = .next (leavesEnd 0 (leavesStart s)) := by
  rw [exec_eq_finish, body, leaves_eq_done, leavesDone_of_zero h0, Run.finish_ok]

theorem exec_cgen_malformed {s : State} (htv : s.tv = false) (ht : ¬ IsTree s.node s.root) :
    exec .cgen s = .next ((s.setCt (clearCtV s.ct)).raiseError .malformedTree) := by
  rw [exec_eq_finish, body, cgen, ensureTree_of_not_isTree (s := s.setCt (clearCtV s.ct)) htv ht, Run.andThen_raised,
    Run.finish_raised]

/-! ## The registers, and the writes that change nothing -/

namespace State.IsReset
variable {s : State} (hr : s.IsReset)
include hr

/-- What holds of the state that RST makes holds of one right after a reset. -/
theorem of_rst {P : State → Prop} (h : P (rst s)) : P s := Eq.subst hr h

theorem err : s.err = none := hr.of_rst (P := fun s => s.err = none) rfl
theorem tv : s.tv = false := hr.of_rst (P := fun s => s.tv = false) rfl
theorem symcnt : s.symcnt = 0 := hr.of_rst (P := fun s => s.symcnt = 0) rfl
theorem root : s.root = null := hr.of_rst (P := fun s => s.root = null) rfl
theorem ncnt : s.ncnt = 0#9 := hr.of_rst (P := fun s => s.ncnt = 0#9) rfl
theorem hsize : s.hsize = 0#9 := hr.of_rst (P := fun s => s.hsize = 0#9) rfl

theorem setTv_false : s.setTv false = s := hr.of_rst (P := fun s => s.setTv false = s) rfl
theorem setRes_null : s.setRes null = s := hr.of_rst (P := fun s => s.setRes null = s) rfl

theorem setErr_none : s.setErr none = s := hr.of_rst (P := fun s => s.setErr none = s) rfl
theorem setBitcnt_zero : s.setBitcnt 0 = s :=
  hr.of_rst (P := fun s => s.setBitcnt 0 = s) (congrArg (fun n => { rst s with bitcnt := n }) (Nat.zero_mod _))
theorem setOutcnt_zero : s.setOutcnt 0 = s :=
  hr.of_rst (P := fun s => s.setOutcnt 0 = s) (congrArg (fun n => { rst s with outcnt := n }) (Nat.zero_mod _))

/-- RST has already cleared the code table (R202). -/
theorem setCt_clear : s.setCt (clearCtV s.ct) = s := congrArg s.setCt (congrArg State.ct hr)

/-- NULL is the root of no tree (R149). -/
theorem not_isTree : ¬ IsTree s.node s.root := fun ht => ht.rootValid.1 hr.root

/-! ## The commands right after a reset -/

theorem exec_clre : exec .clre s = .next s := by
  obtain ⟨-, hkept⟩ | ⟨-, hcleared⟩ := s.clearError_cases
  · exact congrArg Host.Outcome.next hkept
  · exact congrArg Host.Outcome.next (hcleared.trans hr.setErr_none)

theorem exec_rst : exec .rst s = .next s := congrArg Host.Outcome.next hr

theorem exec_hbld : exec .hbld s = .next s := exec_hbld_of_empty hr.hsize

theorem exec_hext : exec .hext s = .next (s.raiseError .emptyHeap) := by
  rw [exec_hext_of_empty hr.hsize, hr.setRes_null]

theorem exec_mrg : exec .mrg s = .next (s.raiseError .emptyHeap) := by
  rw [(mrgOnTooSmallAHeap s).1 hr.hsize, hr.setRes_null]

/-- No handle is below NCNT = 0 (R126). -/
theorem exec_hins (h : Handle) : exec (.hins h) s = .next (s.raiseError .operand) :=
  exec_hins_of_operand (.inl (by rw [hr.ncnt]; exact Nat.zero_le _))

theorem exec_tchk : exec .tchk s = .next (s.raiseError .malformedTree) := by
  rw [(tchkDecidesTheInvariants s).2 hr.not_isTree, hr.setTv_false]

theorem exec_cgen : exec .cgen s = .next (s.raiseError .malformedTree) := by
  rw [exec_cgen_malformed hr.tv hr.not_isTree, hr.setCt_clear]

theorem exec_unpk : exec .unpk s = .next (s.raiseError .malformedTree) := by
  rw [exec_unpk_malformed hr.tv hr.not_isTree, hr.setOutcnt_zero]

theorem exec_dec : exec .dec s = .next (s.raiseError .malformedTree) := by
  rw [exec_dec_malformed hr.tv hr.not_isTree, hr.setOutcnt_zero]

theorem exec_pack : exec .pack s = .next s := by
  rw [exec_pack_of_no_symbol hr.symcnt, hr.setBitcnt_zero]

theorem exec_enc : exec .enc s = .next (s.raiseError .emptyInput) := exec_enc_emptyInput hr.symcnt

end State.IsReset

/-- FCNT, which determines what LEAVES and TBLD do after it: FT is all zero, so LEAVES places nothing and TBLD raises
(R148, R242). -/
theorem State.IsReset.exec_fcnt {s : State} (hr : s.IsReset) :
    ∃ t, exec .fcnt s = .next t ∧ (∀ b, ftAt t.ft b = 0) ∧ t = s.setFt t.ft ∧
      (∃ u, exec .leaves t = .next u ∧ u.hsize = 0#9 ∧ u.ncnt = 0#9 ∧ u.err = none) ∧
      (∃ u, exec .tbld t = .next u ∧ u.err = some .emptyHeap) := by
  have hzero : ∀ b, ftAt (s.setFt []).ft b = 0 := fun _ => rfl
  obtain ⟨_, htbld, -⟩ := tbldOnAnEmptyAlphabet (s.setFt []) hzero
  exact ⟨s.setFt [], exec_fcnt_of_no_symbol hr.symcnt, hzero, rfl,
    ⟨_, exec_leaves_of_zero hzero, leavesEnd_hsize 0 _, leavesEnd_ncnt 0 _, (leavesEnd_err 0 _).trans hr.err⟩,
    _, htbld, rfl⟩

/-- Settles O25: both resets lead to a state in which RST changes nothing, and there every command is known. -/
theorem commandsRightAfterReset : Obligations.CommandsRightAfterReset := by
  intro s0 s hreset
  have hr : s.IsReset := by
    obtain ⟨d, rfl⟩ | ⟨hs, hrst⟩ := hreset
    · exact isReset_powerOn d s0
    · obtain rfl : rst s0 = s := Host.Outcome.next.inj hrst
      exact isReset_rst hs
  exact ⟨rfl, hr.exec_clre, hr.exec_rst, hr.exec_hbld, hr.exec_hext, hr.exec_mrg, hr.exec_hins, hr.exec_tchk,
    hr.exec_cgen, hr.exec_unpk, hr.exec_dec, hr.exec_pack, hr.exec_enc, hr.exec_fcnt⟩

end Sys2Proof.Machine
end
